-- ==== Sys2Proof/Word.lean ====
section
/-! DEFINITION. The byte and the sixteen-bit word of the part's serial links (spec/10, R186). Everything the manual counts (positions, volumes, prices, times) is a `Nat`, and colour values are `Int`. -/

namespace Sys2Proof

/-- One byte on a serial link (R186). -/
abbrev Byte := BitVec 8

/-- A CRC-16 value (R186). -/
abbrev Half := BitVec 16

end Sys2Proof
end

