-- ==== Sys2Proof/Config.lean ====
section
/-! DEFINITION. What the manual fixes for the whole part (capacities, times, ranges) and the one value it leaves open. -/

namespace Sys2Proof.Config

/-- R192: HELLO carries "the revision letter as one ASCII character"; the manual does not say which. A free value (log 9). -/
opaque revision : Byte

/-- R192: the part name of HELLO. -/
def partName : String := "HESTIG GS44"

/-- R1: slots of the job table. -/
def jobSlots : Nat := 8
/-- R3: entries of the swath queue. -/
def queueSize : Nat := 64
/-- R43: ink channels. -/
def channels : Nat := 10
/-- R53: cartridge bays. -/
def bays : Nat := 16
/-- R123, R126: patch sets and check records. -/
def checks : Nat := 4
/-- R149: quote account slots. -/
def quoteSlots : Nat := 4
/-- R101: entries of the cut list. -/
def cutSize : Nat := 32
/-- R140: readings of the measurement ring. -/
def ringSize : Nat := 64
/-- R162: records of the closed-record queue. -/
def recordSize : Nat := 16
/-- R188: frames of the request buffer. -/
def bufferSize : Nat := 4
/-- R188: replies of the busy-reply list. -/
def busySize : Nat := 8
/-- R186: payload bytes of a frame at most. -/
def payloadMax : Nat := 1020
/-- R175: entries one class read carries at most. -/
def readMax : Nat := 200
/-- R177: subjects one notice carries at most. -/
def noticeMax : Nat := 32

/-- R31: 4096 (the gain scale) times 16,000 (sixteenths of a picolitre in a nanolitre). -/
def chargeDivisor : Nat := 65536000
/-- R60: the gain range, in 1/4096. -/
def gainMin : Nat := 3072
def gainMax : Nat := 5120
/-- R2, R5: drops of one entry at most. -/
def countMax : Nat := 268435455
/-- R1, R150: saturation of ink totals, lengths and counts. -/
def count32Max : Nat := 4294967295
/-- R151: saturation of an area. -/
def areaMax : Nat := 999999999999999
/-- R161: clamp of a cost line and of the total. -/
def costMax : Nat := 999999999999
/-- R156: largest price or charge. -/
def priceMax : Nat := 9999999
/-- R101, R102: largest position of a cut. -/
def positionMax : Nat := 2000000
/-- R59: largest spent mark. -/
def spentMax : Nat := 5000000

/-- R12: the fire timer, ms. -/
def fireTime : Nat := 30000
/-- R87: the settle time of the feed, ms. -/
def settleTime : Nat := 100
/-- R114: the stroke timer, ms. -/
def strokeTime : Nat := 1500
/-- R184: the settle timer of the cover, ms. -/
def coverTime : Nat := 2000
/-- R56: the timeout of a tag operation, ms. -/
def tagTime : Nat := 250
/-- R187: the longest gap inside a frame, ms. -/
def gapTime : Nat := 10
/-- R197: the longest store write, ms. -/
def saveTime : Nat := 400
/-- R196: the longest store load, ms. -/
def loadTime : Nat := 50

end Sys2Proof.Config
end

