-- ==== Sys2Proof/Syntax.lean ====
section
/-! DEFINITION. The commands of the block: one constructor of `Instr` for each of the 92 rows of spec/opcode_table.json, in the table's order, with the fields the row's rule gives it.
A request row carries the frame tag `ft` (R186) and the fields of its payload as R198 lays them out, unjudged: the meaning judges their ranges. -/

namespace Sys2Proof

/-- One entry of a drop list (R2, spec/10 section 10.4): channel, size class (0 SMALL, 1 MEDIUM, 2 LARGE), count. -/
structure DropEntry where
  channel : Nat
  size : Nat
  count : Nat
deriving DecidableEq, Repr

/-- A swath descriptor in the layout of SWATH_PUT (spec/10 section 10.4). `kind` is the raw byte: 0 IMAGE, 1 STRIP, 2 BLANK. -/
structure Descriptor where
  jobTag : Nat
  number : Nat
  kind : Nat
  advance : Nat
  drops : List DropEntry
deriving DecidableEq, Repr

/-- The settings of a channel (R43), as CHAN_SET carries them (R198). Bit b of `bayMap` names bay b. -/
structure ChanCfg where
  inkId : Nat
  bayMap : BitVec 32
  volS : Nat
  volM : Nat
  volL : Nat
  full : Nat
  floor : Nat
  refillMark : Nat
  lowVol : Nat
  flow : Nat
  duty : Nat
deriving DecidableEq, Repr

/-- The check parameters (R125): ten sensitivities, the maximum gain step, the maximum invalid readings, the dry time and the check limit in s. -/
structure CheckParams where
  sens : List Nat
  maxStep : Nat
  maxInvalid : Nat
  dryTime : Nat
  limit : Nat
deriving DecidableEq, Repr

/-- A complete request frame with a good CRC (R186, R188). -/
structure Frame where
  kind : Byte
  tag : Byte
  payload : List Byte
deriving DecidableEq, Repr

/-- The input levels that POWER_ON_RESET finds (R186, R183, R185, R121, R52, R63): rate straps, SUPPLY_OK, COVER open, HOME, LOW and FULL floats, bay presence. -/
structure Pins where
  rate : Fin 4
  supplyOk : Bool
  coverOpen : Bool
  home : Bool
  low : BitVec 10
  full : BitVec 10
  present : BitVec 16
deriving DecidableEq, Repr

/-- Drop counts of one channel in a CLEANED record (R41): SMALL, MEDIUM, LARGE. -/
structure Counts where
  small : Nat
  medium : Nat
  large : Nat
deriving DecidableEq, Repr

/-- The commands of the block: the rows of spec/opcode_table.json. -/
inductive Instr where
  | powerOnReset (pins : Pins)
  | storeLoadEnd
  | hostFrameReceived (f : Frame)
  | rxGapTimeout
  | frameDispatch
  | transmitFrameStart
  | frameSendEnd
  | softResetAct
  | hello (ft : Byte)
  | status (ft : Byte)
  | resetSoft (ft : Byte)
  | readFaults (ft : Byte)
  | readHolds (ft : Byte)
  | readProgress (ft : Byte)
  | readChanges (ft : Byte)
  | resume (ft : Byte)
  | jobOpen (ft : Byte) (tag media policy setId flags : Nat)
  | swathPut (ft : Byte) (d : Descriptor)
  | jobEnd (ft : Byte) (tag : Nat)
  | jobAbort (ft : Byte) (tag : Nat)
  | queueMark (ft : Byte) (value : Nat)
  | chanSet (ft : Byte) (channel : Nat) (cfg : ChanCfg)
  | chanOn (ft : Byte) (channel : Nat)
  | chanOff (ft : Byte) (channel : Nat)
  | chanGet (ft : Byte) (channel : Nat)
  | refillAsk (ft : Byte) (channel : Nat)
  | pumpSet (ft : Byte) (period spent : Nat)
  | bayClear (ft : Byte) (bay : Nat)
  | rollLoad (ft : Byte) (media width length : Nat)
  | rollUnload (ft : Byte)
  | feed (ft : Byte) (distance : Nat)
  | feedRetry (ft : Byte)
  | sheetFrom (ft : Byte) (position : Nat)
  | sheetTo (ft : Byte) (position : Nat)
  | sheetCommit (ft : Byte) (selector tag lead trail guard : Nat)
  | cutCancel (ft : Byte) (position : Nat)
  | cutterClear (ft : Byte)
  | geometrySet (ft : Byte) (sensor cutter : Nat)
  | patchsetLoad (ft : Byte) (setId count : Nat) (body : List Byte)
  | gainSet (ft : Byte) (channel value : Nat)
  | ringRetain (ft : Byte) (setting : Nat)
  | ringRead (ft : Byte) (offset count : Nat)
  | ringRelease (ft : Byte) (n : Nat)
  | checkSet (ft : Byte) (params : CheckParams)
  | checkGet (ft : Byte) (check : Nat)
  | quoteOpen (ft : Byte) (tag media width cuts : Nat)
  | quoteSwath (ft : Byte) (tag : Nat) (d : Descriptor)
  | quoteClose (ft : Byte) (tag : Nat)
  | houseClose (ft : Byte)
  | priceStage (ft : Byte) (selector index value : Nat)
  | priceCommit (ft : Byte)
  | priceGet (ft : Byte) (selector : Nat)
  | accountGet (ft : Byte) (selector tag : Nat)
  | recordTake (ft : Byte)
  | storeSave (ft : Byte)
  | storeSaveEnd
  | fired (crcOk : Bool) (tag : Nat)
  | broken (crcOk : Bool) (tag : Nat)
  | notFired (crcOk : Bool) (tag : Nat)
  | headReady (crcOk : Bool)
  | headFault (crcOk : Bool)
  | cleaned (crcOk : Bool) (counts : List Counts)
  | fireTimeout
  | encoderStep (forward : Bool)
  | settleWindowEnd
  | feedLimitExpiry
  | homeChange (asserted : Bool)
  | strokeTimeout
  | coverOpen
  | coverClose
  | coverSettleExpiry
  | supplyOkDeassert
  | supplyOkAssert
  | lowFloatAssert (ch : Fin 10)
  | lowFloatDeassert (ch : Fin 10)
  | fullFloatAssert (ch : Fin 10)
  | fullFloatDeassert (ch : Fin 10)
  | drawLimitExpiry
  | bayPresenceAssert (bay : Fin 16)
  | bayPresenceDeassert (bay : Fin 16)
  | tagOpStart
  | tagReadComplete (inkId capacity remaining : Nat) (check : Half)
  | tagWriteComplete
  | tagOpTimeout
  | reading (crcOk : Bool) (index : Nat) (l a b : Int) (good : Bool)
  | scanEnd (crcOk : Bool)
  | sensorReady (crcOk : Bool)
  | sensorFault (crcOk : Bool)
  | scanTimeout
  | dryTimerExpiry (check : Fin 4)
  | limitTimerExpiry (check : Fin 4)
  | hostByteReceived (byte : Byte) (stopOk : Bool)
deriving DecidableEq, Repr

end Sys2Proof
end

