-- ==== Sys2Proof/Machine/Records.lean ====
section
/-! DEFINITION. The records the seven blocks hold, as plain data: jobs and swaths (spec/01), channels and bays (spec/03), the pump (spec/04), the roll and the executor (spec/05), the cut list (spec/06), patch sets and checks (spec/07), accounts, prices and closed records (spec/08), conditions (spec/09), frames and replies (spec/10). -/

namespace Sys2Proof.Machine

/-! ### Conditions (R172, R173) -/

/-- The 25 conditions of R172's class table. -/
inductive Cond where
  | cutterJam | feedStall | headFault | mapConflict | refillTimeout | tagFault | sensorFault | supplyHold | storeDefaulted
  | jobHeld | swathBroken | checkFailed | rollEnd | inkOut | wrongInk | ringFull | queueFull
  | recordReady | checkClosed | swathRoom | cutSkipped
  | coverChanged | bayChanged | tagStale | drawCut
deriving DecidableEq, Repr

/-- An entry of the condition table (R172): the class is fixed by the condition. -/
structure CondEntry where
  cond : Cond
  subject : Option Nat
  cause : Bool
  occurrences : Nat
deriving DecidableEq, Repr

/-! ### Jobs and swaths (spec/01) -/

inductive JobState where
  | opened | ending | feeding | waiting | closing | aborting
deriving DecidableEq, Repr

inductive Policy where
  | none | verify | adjust
deriving DecidableEq, Repr

inductive StripPhase where
  | none | inStrip | done
deriving DecidableEq, Repr

inductive PutPhase where
  | none | strip | after
deriving DecidableEq, Repr

inductive Verdict where
  | pass | fail | failLimit | sensorError | unchecked
deriving DecidableEq, Repr

inductive JobOutcome where
  | completed | rejected | aborted
deriving DecidableEq, Repr

/-- The twelve hold reasons of R10; the channel reasons carry their channel. -/
inductive HoldReason where
  | supplyHold | coverOpen | headNotReady | cutterJammed | feedStalled | noRoll | wrongMedia | rollEnd
  | channelOff (ch : Nat) | inkUnknown (ch : Nat) | inkNever (ch : Nat) | inkWait (ch : Nat)
deriving DecidableEq, Repr

/-- A slot of the job table (spec/01 section 1.1). -/
structure Job where
  tag : Nat
  state : JobState
  media : Nat
  policy : Policy
  rejectOnFail : Bool
  tailFeed : Bool
  setId : Option Nat
  checkId : Option Nat
  strip : StripPhase
  put : PutPhase
  accepted : Nat
  fired : Nat
  broken : Nat
  withdrawn : Nat
  hold : Option HoldReason
  verdict : Option Verdict
  outcome : Option JobOutcome
deriving DecidableEq, Repr

inductive SwathKind where
  | image | strip | blank
deriving DecidableEq, Repr

inductive EntryState where
  | queued | granted | fired | advancing
deriving DecidableEq, Repr

/-- A channel's charge fixed at a grant, with the residue saved for a restore (R12). -/
structure ChargeRec where
  channel : Nat
  charge : Nat
  saved : Nat
deriving DecidableEq, Repr

/-- An entry of the swath queue (spec/01 section 1.2). `charges` and `revoked` are present from grant. -/
structure QEntry where
  job : Nat
  number : Nat
  kind : SwathKind
  advance : Nat
  drops : List DropEntry
  queueTag : Nat
  state : EntryState
  charges : Option (List ChargeRec)
  revoked : Option Bool
deriving DecidableEq, Repr

inductive HeadState where
  | ready | notReady | fault
deriving DecidableEq, Repr

/-! ### Ink (spec/03, spec/04) -/

inductive FaultKind where
  | mapConflict | refillTimeout
deriving DecidableEq, Repr

/-- The refill state (spec/03 section 3.1), with the source bay while DRAWING and the fault kind while in FAULT. -/
inductive Refill where
  | idle | queued | drawing (bay : Nat) | dry | fault (kind : FaultKind)
deriving DecidableEq, Repr

/-- A channel record (spec/03 section 3.1) with its float inputs (R51, R52). `level` is absent while the known flag is clear (R50). -/
structure Channel where
  cfg : ChanCfg
  enabled : Bool
  level : Option Nat
  reserved : Nat
  residue : Nat
  drift : Bool
  refill : Refill
  lowFloat : Bool
  fullFloat : Bool
deriving DecidableEq, Repr

inductive BayState where
  | empty | reading | ready | drawing | writing | spent | suspect | tagFault
deriving DecidableEq, Repr

/-- What a tag holds (R54), less its check value. -/
structure TagData where
  inkId : Nat
  capacity : Nat
  remaining : Nat
deriving DecidableEq, Repr

/-- A bay record (spec/03 section 3.5) with its presence input (R53). -/
structure Bay where
  state : BayState
  tag : Option TagData
  drift : Bool
  present : Bool
deriving DecidableEq, Repr

/-- A tag operation (R56): a read, or a write of the tag's new contents. -/
inductive TagOp where
  | read (bay : Nat)
  | write (bay : Nat) (data : TagData)
deriving DecidableEq, Repr

/-- The tag operation under way, with the ms since its start on the bus (R56). -/
structure TagRun where
  op : TagOp
  elapsed : Nat
deriving DecidableEq, Repr

/-- The draw in flight (R74). -/
structure Draw where
  channel : Nat
  bay : Nat
  levelAtStart : Nat
  prime : Bool
  elapsed : Nat
  limit : Nat
deriving DecidableEq, Repr

inductive Pump where
  | free | running (d : Draw) | suspended (d : Draw)
deriving DecidableEq, Repr

/-- An entry of the pump queue (R69). -/
structure PumpEntry where
  channel : Nat
  marked : Bool
deriving DecidableEq, Repr

/-! ### Media path (spec/05, spec/06) -/

/-- The roll while LOADED (spec/05 section 5.1). -/
structure Roll where
  media : Nat
  width : Nat
  length : Nat
  pos : Nat
deriving DecidableEq, Repr

/-- The account that owns an advance (R89): the print account of a job slot, or the house account. -/
inductive Owner where
  | print (slot : Nat) | house
deriving DecidableEq, Repr

/-- Who asked for the advance (R91): RC for a swath, RC for a tail feed, or FEED. -/
inductive Requester where
  | swath | tailFeed | feed
deriving DecidableEq, Repr

/-- The advance in hand (spec/05 section 5.3). -/
structure Advance where
  owner : Owner
  requester : Requester
  target : Nat
  clamped : Bool
deriving DecidableEq, Repr

/-- What a running segment of a MOVING executor does: the feed is driven; it settles at its segment end (R91) or at a stall (R94); it is paused by the cover (R96); or a supply hold dropped it while its settle window runs (R97). -/
inductive SegPhase where
  | driving | settling | stalling | paused | holding
deriving DecidableEq, Repr

structure Segment where
  segEnd : Nat
  limit : Nat
  run : Nat
  phase : SegPhase
deriving DecidableEq, Repr

/-- A stop of the stop list (R90): a check's measurement stop, or the cut stop of the entry at a position. -/
inductive StopRef where
  | meas (check : Nat) | cut (position : Nat)
deriving DecidableEq, Repr

structure Stop where
  pos : Nat
  ref : StopRef
deriving DecidableEq, Repr

/-- The advance executor (spec/05 section 5.3). -/
inductive Exec where
  | idle
  | moving (a : Advance) (g : Segment)
  | atStop (a : Advance) (r : StopRef)
  | stalled (a : Advance)
  | off (a : Advance) (kept : Option StopRef)
deriving DecidableEq, Repr

/-- An owner of a cut entry (spec/06 section 6.1). -/
inductive CutOwner where
  | job (tag : Nat) | house
deriving DecidableEq, Repr

inductive CutKind where
  | sheet | trim
deriving DecidableEq, Repr

inductive CutState where
  | planned | due | cutting
deriving DecidableEq, Repr

structure CutEntry where
  position : Nat
  owners : List CutOwner
  kind : CutKind
  guard : Option Nat
  state : CutState
deriving DecidableEq, Repr

/-- The sheet plan (spec/06 section 6.2). -/
inductive Plan where
  | empty | from (p : Nat) | to (p q : Nat)
deriving DecidableEq, Repr

/-- The cutter (spec/06 section 6.5). In STROKE, `left` says the blade has left home (R114, R115). In OFF, `midStroke` is the mid-stroke mark (R119). -/
inductive Cutter where
  | ready | stroke (left : Bool) | jammed | off (midStroke : Bool)
deriving DecidableEq, Repr

/-! ### Colour checks (spec/07) -/

structure Patch where
  l : Int
  a : Int
  b : Int
  channel : Option Nat
deriving DecidableEq, Repr

structure PatchSet where
  rowOffset : Nat
  patchTol : Nat
  meanTol : Nat
  patches : List Patch
deriving DecidableEq, Repr

inductive CheckState where
  | free | waitingStrip | drying | armed | measuring | closed
deriving DecidableEq, Repr

/-- One entry of the corrections list (R145). -/
structure Correction where
  channel : Nat
  applied : Int
  limited : Bool
deriving DecidableEq, Repr

/-- A check record (spec/07 section 7.3); `reached` is the mark of R87 on its measurement stop. -/
structure Check where
  state : CheckState
  job : Option Nat
  policy : Option Policy
  setId : Option Nat
  stripStart : Option Nat
  stripEnd : Option Nat
  stop : Option Nat
  reached : Bool
  dry : Option Nat
  limit : Option Nat
  verdict : Option Verdict
  worst : Option Nat
  mean : Option Nat
  valid : Option Nat
  corrections : Option (List Correction)
deriving DecidableEq, Repr

inductive Sensor where
  | notReady | ready | fault
deriving DecidableEq, Repr

/-- The sensor link state (R135). -/
inductive Link where
  | idle
  | scanning (check written count timer : Nat)
  | draining (timer : Nat)
deriving DecidableEq, Repr

/-- A reading in the measurement ring (R137). -/
structure RingEntry where
  check : Nat
  index : Nat
  l : Int
  a : Int
  b : Int
  valid : Bool
deriving DecidableEq, Repr

/-! ### Costing (spec/08) -/

inductive AccountKind where
  | print | quote | house
deriving DecidableEq, Repr

structure MediaEntry where
  media : Nat
  length : Nat
  area : Nat
deriving DecidableEq, Repr

/-- The account flags (R152). -/
structure AcctFlags where
  saturated : Bool
  gainChanged : Bool
  guardLost : Bool
  cutLost : Bool
  unchecked : Bool
  missed : Bool
deriving DecidableEq, Repr

/-- An open account (spec/08 section 8.1). -/
structure Account where
  kind : AccountKind
  tag : Option Nat
  ink : List Nat
  media : List MediaEntry
  cuts : Nat
  strips : Nat
  fired : Nat
  broken : Nat
  genAtOpen : Nat
  flags : AcctFlags
  verdict : Option Verdict
  quoteMedia : Option Nat
  quoteWidth : Option Nat
  quoteResidue : Option (List Nat)
deriving DecidableEq, Repr

/-- A price table (spec/08 section 8.2). -/
structure PriceTable where
  ink : List Nat
  media : List Nat
  cut : Nat
  strip : Nat
  handling : Nat
  gen : Nat
deriving DecidableEq, Repr

/-- The six costs of a pricing (R158 to R161). -/
structure Costs where
  ink : Nat
  media : Nat
  cut : Nat
  strip : Nat
  handling : Nat
  total : Nat
deriving DecidableEq, Repr

/-- The outcome of a closed record (spec/08 section 8.4). -/
inductive RecOutcome where
  | job (o : JobOutcome) | quoted | house
deriving DecidableEq, Repr

/-- A closed record (spec/08 section 8.4). -/
structure ClosedRecord where
  kind : AccountKind
  tag : Option Nat
  outcome : RecOutcome
  ink : List (Nat × Nat)
  media : List MediaEntry
  cuts : Nat
  strips : Nat
  fired : Nat
  broken : Nat
  flags : AcctFlags
  verdict : Option Verdict
  genAtOpen : Nat
  priceGen : Nat
  costs : Costs
deriving DecidableEq, Repr

/-! ### Stored settings (R195) -/

/-- The working settings that the store image holds (R195). -/
structure Settings where
  chans : List (ChanCfg × Bool)
  gains : List Nat
  gainGen : Nat
  pumpPeriod : Nat
  spentMark : Nat
  sOff : Nat
  cOff : Nat
  sets : List (Option PatchSet)
  params : CheckParams
  prices : PriceTable
  queueMark : Nat
deriving DecidableEq, Repr

/-- The store image (R195, R196): an image with a good checksum, or one whose checksum fails (never written, or partly old and partly new). -/
inductive Image where
  | good (s : Settings) | bad
deriving DecidableEq, Repr

/-- The store state (R195); SAVING holds the snapshot being written and the elapsed save time. -/
inductive StoreState where
  | valid | defaulted | saving (snapshot : Settings) (elapsed : Nat)
deriving DecidableEq, Repr

/-! ### The host link (spec/09, spec/10) -/

inductive HoldState where
  | none | down | up
deriving DecidableEq, Repr

/-- The cover state (R184); SETTLING holds the remaining ms of the settle timer. -/
inductive Cover where
  | opened | settling (left : Nat) | settled
deriving DecidableEq, Repr

/-- How far a soft reset has come (R194): none, its reply formed or on the line, or its reply sent and the reset due. -/
inductive SoftReset where
  | none | replying | due
deriving DecidableEq, Repr

/-- The reply codes (R191). -/
inductive Code where
  | ok | busy | full | range | sequence | noJob | notNow | held | late | malformed | unknown | linkBusy
deriving DecidableEq, Repr

/-- One cut position in the reply to SHEET_COMMIT (R105): cut stop, owners, kind, and whether the entry was merged. -/
structure CutReply where
  cutStop : Nat
  owners : List CutOwner
  kind : CutKind
  merged : Bool
deriving DecidableEq, Repr

/-- R127: what CHECK_GET carries of a check record: every field of the table of spec/07 section 7.3. -/
structure CheckReport where
  id : Nat
  job : Option Nat
  policy : Option Policy
  setId : Option Nat
  state : CheckState
  stripStart : Option Nat
  stripEnd : Option Nat
  stop : Option Nat
  dry : Option Nat
  limit : Option Nat
  verdict : Option Verdict
  worst : Option Nat
  mean : Option Nat
  valid : Option Nat
  corrections : Option (List Correction)
deriving DecidableEq, Repr

/-- The LC line of STATUS (R193). -/
structure LcLine where
  pending : List Nat
  noticeSeq : Nat
  hold : HoldState
  cover : Cover
  frames : Nat
deriving DecidableEq, Repr

/-- One live job in the RC line of STATUS (R193). -/
structure JobLine where
  slot : Nat
  tag : Nat
  state : JobState
  hold : Option HoldReason
  strip : StripPhase
  accepted : Nat
  fired : Nat
  broken : Nat
  withdrawn : Nat
deriving DecidableEq, Repr

structure RcLine where
  jobs : List JobLine
  queue : List (Nat × EntryState)
  head : HeadState
  stale : Option Nat
  free : Nat
deriving DecidableEq, Repr

structure IscLine where
  refills : List Refill
  bays : List BayState
  pump : Pump
  queue : List PumpEntry
  gains : List Nat
  gainGen : Nat
deriving DecidableEq, Repr

structure MpcLine where
  roll : Option Roll
  sOff : Nat
  cOff : Nat
  exec : Exec
  stray : Nat
  cuts : List (CutEntry × Nat)
  cutsFree : Nat
  cutter : Cutter
  home : Bool
  strokeElapsed : Nat
deriving DecidableEq, Repr

/-- The CCU line of STATUS (R193): each patch set's loaded flag, count and row offset; each check's state, job tag and running timers. -/
structure CcuLine where
  sets : List (Option (Nat × Nat))
  params : CheckParams
  checks : List (CheckState × Option Nat × Option Nat × Option Nat)
  heldStop : Option Nat
  sensor : Sensor
  link : Link
  retain : Bool
  held : Nat
deriving DecidableEq, Repr

/-- One open account slot in the CU line of STATUS (R149, R193): its kind, its slot number (none for HOUSE, of which there is one), and its tag. -/
structure AcctLine where
  kind : AccountKind
  slot : Option Nat
  tag : Option Nat
deriving DecidableEq, Repr

/-- The CU line of STATUS (R193): the open ones of the thirteen account slots (R149), the house account among them always. -/
structure CuLine where
  accts : List AcctLine
  records : Nat
  activeGen : Nat
  staged : Bool
deriving DecidableEq, Repr

/-- The store state as HELLO carries it (R192). -/
inductive StoreMark where
  | valid | defaulted | saving
deriving DecidableEq, Repr

/-- The SS line of STATUS (R193): the store state, with the elapsed save time while SAVING, and the changed mark. -/
inductive StoreReport where
  | valid | defaulted | saving (elapsed : Nat)
deriving DecidableEq, Repr

/-- What an OK reply carries after its code and mark (each request's own rule). -/
inductive Body where
  | none
  | hello (name : String) (revision : Byte) (rate : Nat) (store : StoreMark) (changed : Bool)
  | status (lc : LcLine) (rc : RcLine) (isc : IscLine) (mpc : MpcLine) (ccu : CcuLine) (cu : CuLine) (ss : StoreReport) (changed : Bool)
  | entries (l : List CondEntry) (unreported : Nat)
  | resumed (before : HoldState)
  | jobOpened (slot : Nat) (check : Option Nat)
  | swathPut (queueTag free : Nat)
  | withdrawn (n : Nat)
  | free (n : Nat)
  | refill (r : Refill)
  | refillPlace (r : Refill) (place : Option Nat)
  | channel (c : Channel) (gain gen : Nat) (bays : List (Nat × BayState × Option Nat × Bool))
  | pumpStored (period spent : Nat)
  | removed (n : Nat)
  | fed (target : Nat) (clamped : Bool)
  | retried (pos target : Nat)
  | cutStop (p : Nat)
  | committed (lead trail : CutReply) (free : Nat)
  | cancelled (e : CutEntry)
  | setLoaded (setId : Nat) (loaded : Bool)
  | gainStored (gain gen : Nat)
  | ringHeld (n : Nat)
  | ringEntries (l : List RingEntry) (held : Nat)
  | ringReleased (released held : Nat)
  | params (p : CheckParams)
  | check (c : CheckReport)
  | quoteSlot (slot : Nat)
  | quoteSwath (ink : List (Nat × Nat)) (length area fired gen genAtOpen : Nat)
  | total (t : Nat)
  | staged (staged active : Nat)
  | generation (g : Nat)
  | prices (t : PriceTable) (mark : Bool)
  | account (a : Account) (slot : Option Nat) (job : Option (JobState × Option JobOutcome)) (costs : Costs) (priceGen : Nat) (saturated : Bool)
  | record (held : Nat) (r : ClosedRecord)
deriving DecidableEq, Repr

/-- A reply frame (R186, R191): kind, echoed tag, code, PLAN_RESET mark, and what an OK reply carries. -/
structure Reply where
  kind : Byte
  tag : Byte
  code : Code
  planReset : Bool
  body : Body
deriving DecidableEq, Repr

/-- A notice frame (R177): its kind byte (R186), the sequence number that stands as its frame tag, and what its payload tells. -/
structure Notice where
  kind : Byte
  seq : Nat
  cls : Nat
  counts : List Nat
  subjects : List (Cond × Option Nat)
  more : Bool
deriving DecidableEq, Repr

/-- A frame the part sends on the host link (R190). -/
inductive TxFrame where
  | reply (r : Reply) | notice (n : Notice)
deriving DecidableEq, Repr

/-- R186: the kind byte of a frame that the part sends. -/
def TxFrame.kind : TxFrame → Byte
  | .reply r => r.kind
  | .notice n => n.kind

/-- R186: the tag byte of a frame that the part sends: the request's tag, or the notice sequence number. -/
def TxFrame.tag : TxFrame → Byte
  | .reply r => r.tag
  | .notice n => BitVec.ofNat 8 n.seq

/-- A record the part sends: on the head link (spec/01 section 1.4), the sensor link (spec/07 section 7.6), the tag bus (R56) or the host line (R190). A tag write carries the new contents and the check value (R54, R57). -/
inductive Sent where
  | grant (queueTag number : Nat) (kind : SwathKind)
  | revoke (queueTag : Nat)
  | askState
  | scan (setId count width : Nat)
  | tagRead (bay : Nat)
  | tagWrite (bay : Nat) (data : TagData) (check : Half)
  | frame (f : TxFrame)
deriving DecidableEq, Repr

end Sys2Proof.Machine
end

