-- ==== Sys2Proof/Machine/State.lean ====
section
/-! DEFINITION. The state of the part: one structure for each of the seven blocks (spec/00_scope.md, Functional Overview), the queue of waiting commands and the records the last command sent; the state after reset; and the reasons a step can stop. -/

namespace Sys2Proof.Machine

/-- LC: the host link (spec/10), the condition table, the supply hold and the cover (spec/09). -/
structure Lc where
  /-- R186: the latched rate code 0..3. -/
  rate : Nat
  /-- R186, R196: the receiver has started. -/
  started : Bool
  /-- R187: the partial frame; empty while HUNTING. -/
  rx : List Byte
  /-- R187: ms since the last byte of the partial frame. -/
  rxGap : Nat
  /-- R188: the request buffer, oldest first. -/
  buffer : List Frame
  /-- R189: the formed reply (log 2 says why it is a list). -/
  formed : List Reply
  /-- R188: the busy-reply list, oldest first. -/
  busy : List Reply
  /-- R190: the frame on the line; none while the transmitter is free. -/
  line : Option TxFrame
  /-- R194: a RESET_SOFT reply formed or being sent, or the reset due. -/
  softReset : SoftReset
  /-- R172: the condition table, class 1 first, oldest first within a class. -/
  conds : List CondEntry
  /-- R176: the notice-due mark. -/
  noticeDue : Bool
  /-- R177: the notice sequence number. -/
  noticeSeq : Nat
  /-- R180: the supply hold state. -/
  hold : HoldState
  /-- R184: the cover state with its settle timer. -/
  cover : Cover
deriving DecidableEq, Repr

/-- RC: jobs and the swath queue (spec/01). -/
structure Rc where
  /-- R1: the job table, slots 0..7. -/
  jobs : List (Option Job)
  /-- R3: the swath queue, head first. -/
  queue : List QEntry
  /-- R4: the queue tag counter. -/
  tagCounter : Nat
  /-- R7: the below-mark flag. -/
  belowMark : Bool
  /-- R8: QUEUE_MARK. -/
  queueMark : Nat
  /-- R14: the head state. -/
  head : HeadState
  /-- R12: the fire timer, remaining ms. -/
  fireTimer : Option Nat
  /-- R29: the stale tag. -/
  stale : Option Nat
deriving DecidableEq, Repr

/-- ISC: channels, bays, gains, the pump and the tag bus (spec/02 to spec/04). -/
structure Isc where
  /-- R43: the ten channel records. -/
  chans : List Channel
  /-- R53: the sixteen bay records. -/
  bays : List Bay
  /-- R60: the gain table. -/
  gains : List Nat
  /-- R60: the gain table's generation. -/
  gainGen : Nat
  /-- R71: the pump period. -/
  pumpPeriod : Nat
  /-- R59: the spent mark. -/
  spentMark : Nat
  /-- R70: the pump with the draw in flight. -/
  pump : Pump
  /-- R69: the pump queue in the order of placing; `pumpView` is its serving order. -/
  pumpQueue : List PumpEntry
  /-- R56: the waiting tag operations, oldest first. -/
  tagQueue : List TagOp
  /-- R56: the tag operation on the bus. -/
  tagBus : Option TagRun
deriving DecidableEq, Repr

/-- MPC: the roll, the executor, the cut list and the cutter (spec/05, spec/06). -/
structure Mpc where
  /-- R84: the roll record; none in NO_ROLL. -/
  roll : Option Roll
  /-- R86: the sensor offset S. -/
  sOff : Nat
  /-- R86: the cutter offset C. -/
  cOff : Nat
  /-- R89: the advance executor with its advance in hand. -/
  exec : Exec
  /-- R87: the settle window, remaining ms. -/
  settle : Option Nat
  /-- R88: the P increases since the last hand-over. -/
  moved : Nat
  /-- The model's own (log 25): the settle window running is one that a soft reset left open, whose charge is not handed (R88, R100). -/
  resetWindow : Bool
  /-- R87: the stray count tally. -/
  stray : Nat
  /-- R101: the cut list, ascending by position. -/
  cuts : List CutEntry
  /-- R102: the sheet plan. -/
  plan : Plan
  /-- R113: the cutter. -/
  cutter : Cutter
  /-- R113: the last state read on HOME. -/
  home : Bool
  /-- R114: the stroke timer, remaining ms. -/
  strokeTimer : Option Nat
deriving DecidableEq, Repr

/-- CCU: patch sets, checks, the sensor and the ring (spec/07). -/
structure Ccu where
  /-- R123: the four patch sets; none where not loaded. -/
  sets : List (Option PatchSet)
  /-- R125: the check parameters. -/
  params : CheckParams
  /-- R126: the four check records. -/
  checks : List Check
  /-- R134: the sensor state. -/
  sensor : Sensor
  /-- R135: the sensor link state with the scan timer. -/
  link : Link
  /-- R140: the measurement ring, oldest first. -/
  ring : List RingEntry
  /-- R140: the retain setting. -/
  retain : Bool
deriving DecidableEq, Repr

/-- CU: accounts, prices and closed records (spec/08). -/
structure Cu where
  /-- R149: print account slots 0..7. -/
  printAccts : List (Option Account)
  /-- R149: quote account slots 0..3. -/
  quotes : List (Option Account)
  /-- R149: the house account. -/
  house : Account
  /-- R154: the ACTIVE price table. -/
  active : PriceTable
  /-- R154: the STAGED price table. -/
  staged : PriceTable
  /-- R154: the staged mark. -/
  stagedMark : Bool
  /-- R162: the closed-record queue, oldest first. -/
  records : List ClosedRecord
deriving DecidableEq, Repr

/-- SS: the Settings Store (spec/10). -/
structure Ss where
  /-- R195: the nonvolatile store image. -/
  image : Image
  /-- R195: the store state. -/
  store : StoreState
  /-- R195: the changed mark. -/
  changed : Bool
  /-- R196: the elapsed ms of a running store load. -/
  loading : Option Nat
deriving DecidableEq, Repr

/-- The state of the part. `out` (what the last command sent) and `pending` (the commands that wait) are the model's own. -/
structure State where
  lc : Lc
  rc : Rc
  isc : Isc
  mpc : Mpc
  ccu : Ccu
  cu : Cu
  ss : Ss
  out : List Sent
  pending : List Instr
deriving DecidableEq, Repr

/-- Why a step can stop with a fault: never. The manual gives every command an effect, so the type has no constructor, and no meaning raises a fault (safe). -/
inductive Fault where
deriving DecidableEq, Repr

/-- Why a step can be refused. -/
inductive Refusal where
  /-- Raised by `exec` alone, for a command without a meaning; every command has one, so none is raised (safe). -/
  | notModelled (mnemonic : String)
deriving DecidableEq, Repr

/-! ### Factory defaults (R196) and the blocks after reset -/

/-- R63, R196: the factory settings of channel `c`. -/
def factoryChan (c : Nat) : ChanCfg :=
  { inkId := c, bayMap := 0, volS := 24, volM := 56, volL := 112, full := 15000000, floor := 2000000,
    refillMark := 6000000, lowVol := 3000000, flow := 400, duty := 128 }

/-- R171: every price and charge 0, generation 0. -/
def factoryPrices : PriceTable :=
  { ink := List.replicate 10 0, media := List.replicate 16 0, cut := 0, strip := 0, handling := 0, gen := 0 }

/-- R125: the default check parameters. -/
def factoryParams : CheckParams :=
  { sens := List.replicate 10 40, maxStep := 64, maxInvalid := 2, dryTime := 120, limit := 900 }

/-- R196: the factory defaults of every working setting. -/
def factory : Settings :=
  { chans := (List.range 10).map (fun c => (factoryChan c, false))
    gains := List.replicate 10 4096
    gainGen := 0
    pumpPeriod := 200
    spentMark := 1000000
    sOff := 1800
    cOff := 3200
    sets := List.replicate 4 none
    params := factoryParams
    prices := factoryPrices
    queueMark := 16 }

/-- R63: a channel record after the reset, before its floats are read. -/
def Channel.afterReset (p : ChanCfg × Bool) : Channel :=
  { cfg := p.1, enabled := p.2, level := none, reserved := 0, residue := 0, drift := false, refill := .idle,
    lowFloat := false, fullFloat := false }

/-- R63: a bay after the reset, before its presence is read. -/
def Bay.afterReset : Bay := { state := .empty, tag := none, drift := false, present := false }

/-- R148: a free check record with nothing kept. -/
def Check.blank : Check :=
  { state := .free, job := none, policy := none, setId := none, stripStart := none, stripEnd := none, stop := none,
    reached := false, dry := none, limit := none, verdict := none, worst := none, mean := none, valid := none,
    corrections := none }

/-- R149: every flag clear. -/
def AcctFlags.clear : AcctFlags :=
  { saturated := false, gainChanged := false, guardLost := false, cutLost := false, unchecked := false, missed := false }

/-- R149: an account as it opens: zeroed, with one media entry of length 0 and area 0. -/
def Account.opened (kind : AccountKind) (tag : Option Nat) (media gen : Nat) : Account :=
  { kind := kind, tag := tag, ink := List.replicate 10 0, media := [⟨media, 0, 0⟩], cuts := 0, strips := 0, fired := 0,
    broken := 0, genAtOpen := gen, flags := AcctFlags.clear, verdict := none, quoteMedia := none, quoteWidth := none,
    quoteResidue := none }

/-- R179, R188, R190: LC after the reset, with SUPPLY_OK asserted and the cover closed, before the store load ends. -/
def Lc.afterReset (rate : Nat) : Lc :=
  { rate := rate, started := false, rx := [], rxGap := 0, buffer := [], formed := [], busy := [], line := none,
    softReset := .none, conds := [], noticeDue := false, noticeSeq := 0, hold := .none, cover := .settled }

/-- R29: RC after the reset. -/
def Rc.afterReset (p : Settings) : Rc :=
  { jobs := List.replicate 8 none, queue := [], tagCounter := 0, belowMark := false, queueMark := p.queueMark,
    head := .notReady, fireTimer := none, stale := none }

/-- R63, R82: ISC after the reset, before the floats and the presence inputs are read. -/
def Isc.afterReset (p : Settings) : Isc :=
  { chans := p.chans.map Channel.afterReset, bays := List.replicate 16 Bay.afterReset, gains := p.gains,
    gainGen := p.gainGen, pumpPeriod := p.pumpPeriod, spentMark := p.spentMark, pump := .free, pumpQueue := [],
    tagQueue := [], tagBus := none }

/-- R100, R121: MPC after the reset, with HOME asserted. -/
def Mpc.afterReset (p : Settings) : Mpc :=
  { roll := none, sOff := p.sOff, cOff := p.cOff, exec := .idle, settle := none, moved := 0,
    resetWindow := false, stray := 0, cuts := [], plan := .empty, cutter := .ready, home := true, strokeTimer := none }

/-- R148: CCU after the reset. -/
def Ccu.afterReset (p : Settings) : Ccu :=
  { sets := p.sets, params := p.params, checks := List.replicate 4 Check.blank, sensor := .notReady, link := .idle,
    ring := [], retain := false }

/-- R171: CU after the reset. -/
def Cu.afterReset (p : Settings) : Cu :=
  { printAccts := List.replicate 8 none, quotes := List.replicate 4 none,
    house := Account.opened .house none 0 p.gainGen, active := p.prices, staged := p.prices, stagedMark := false,
    records := [] }

/-- The machine right after reset: the store load has ended on a store never written, so the factory defaults stand and STORE_DEFAULTED is pending (R196), and the inputs were found at rest (log 5). -/
def State.reset : State :=
  { lc := { Lc.afterReset 0 with
            started := true, conds := [⟨.storeDefaulted, none, false, 1⟩], noticeDue := true }
    rc := Rc.afterReset factory
    isc := Isc.afterReset factory
    mpc := Mpc.afterReset factory
    ccu := Ccu.afterReset factory
    cu := Cu.afterReset factory
    ss := { image := .bad, store := .defaulted, changed := false, loading := none }
    out := []
    pending := [] }

end Sys2Proof.Machine
end

