-- ==== Sys2Proof/Machine/Operands.lean ====
section
/-! DEFINITION. The arithmetic of the manual on exact integers: byte order and CRC-16 (R186), ink charges (R31, R40), saturation (R150), pricing (R158 to R161), the integer square root (R143) and the layout of a closed record (spec/10 section 10.5). -/

namespace Sys2Proof.Machine

/-! ### Bytes (R186) -/

/-- The number that bytes spell, low byte first (R186, R198). -/
def leNat : List Byte → Nat
  | [] => 0
  | b :: t => b.toNat + 256 * leNat t

/-- The `k` low bytes of a number, low byte first. -/
def leBytes : Nat → Nat → List Byte
  | 0, _ => []
  | k + 1, n => BitVec.ofNat 8 n :: leBytes k (n / 256)

/-- The number in `k` bytes of a payload at an offset, low byte first (R198). -/
def fieldAt (off k : Nat) (l : List Byte) : Nat := leNat ((l.drop off).take k)

/-- A two's complement field of two bytes (R198). -/
def signed16 (n : Nat) : Int := if n < 32768 then (n : Int) else (n : Int) - 65536

/-- One bit of the CRC-16 of R186, polynomial x^16+x^12+x^5+1, most significant bit first. -/
def crcShift (c : Half) : Half := if c.msb then (c <<< 1) ^^^ 0x1021#16 else c <<< 1

/-- One byte of the CRC-16 of R186. -/
def crcByte (c : Half) (b : Byte) : Half :=
  crcShift (crcShift (crcShift (crcShift (crcShift (crcShift (crcShift (crcShift (c ^^^ (b.setWidth 16 <<< 8)))))))))

/-- R186: CRC-16, initial value 0xFFFF, not reflected, final XOR 0. -/
def crc16 (l : List Byte) : Half := l.foldl crcByte 0xFFFF#16

/-- R54: the check value of a tag over ink id (1 byte), capacity and remaining (4 bytes each, low byte first). -/
def tagCheck (t : TagData) : Half := crc16 (leBytes 1 t.inkId ++ leBytes 4 t.capacity ++ leBytes 4 t.remaining)

/-! ### Ink charges (spec/02) -/

/-- R31: the drop count of one channel and size class in a drop list; 0 where it has no entry. -/
def dropCount (drops : List DropEntry) (ch size : Nat) : Nat :=
  ((drops.filter (fun d => d.channel == ch && d.size == size)).map (fun d => d.count)).sum

/-- R31: the counts of one channel in a drop list. -/
def dropCounts (drops : List DropEntry) (ch : Nat) : Counts :=
  { small := dropCount drops ch 0, medium := dropCount drops ch 1, large := dropCount drops ch 2 }

/-- The channels a drop list names, in ascending order (R10, R31). -/
def dropChannels (drops : List DropEntry) : List Nat :=
  (List.range Config.channels).filter (fun c => drops.any (fun d => d.channel == c))

/-- R31 step 1: the raw volume in 1/16 pl. -/
def rawVolume (n : Counts) (cfg : ChanCfg) : Nat := n.small * cfg.volS + n.medium * cfg.volM + n.large * cfg.volL

/-- R31 step 2: the scaled sum. -/
def scaledSum (raw gain residue : Nat) : Nat := raw * gain + residue

/-- R31 step 3: the charge in nl. -/
def chargeNl (raw gain residue : Nat) : Nat := scaledSum raw gain residue / Config.chargeDivisor

/-- R31 step 3: the new residue. -/
def chargeResidue (raw gain residue : Nat) : Nat := scaledSum raw gain residue % Config.chargeDivisor

/-- R40: the oversize bound. -/
def oversizeBound (raw : Nat) : Nat := raw * Config.gainMax / Config.chargeDivisor + 1

/-! ### Saturation and pricing (spec/08) -/

/-- An addition that saturates (R150, R151). -/
def satAdd (cap a b : Nat) : Nat := min cap (a + b)

/-- Whether the addition saturates. -/
def satHit (cap a b : Nat) : Bool := decide (cap < a + b)

/-- Division rounded half up (R158, R159). -/
def divHalfUp (a d : Nat) : Nat := if d ≤ 2 * (a % d) then a / d + 1 else a / d

/-- R158: the ink cost before the clamp. -/
def inkCost (ink prices : List Nat) : Nat := divHalfUp (List.zipWith (· * ·) ink prices).sum 1000000

/-- R159: the media cost before the clamp. -/
def mediaCost (media : List MediaEntry) (prices : List Nat) : Nat :=
  divHalfUp (media.map (fun m => m.area * prices.getD m.media 0)).sum 100000000

/-- R161: the clamp of a line. -/
def clampCost (n : Nat) : Nat := min Config.costMax n

/-- A pricing (R158 to R161): the six costs, and whether a clamp changed a line or the total. -/
structure Priced where
  costs : Costs
  saturated : Bool
deriving DecidableEq, Repr

/-- R158 to R161: an account priced against a table. -/
def priceAccount (a : Account) (t : PriceTable) : Priced :=
  let ink := inkCost a.ink t.ink
  let media := mediaCost a.media t.media
  let cut := a.cuts * t.cut
  let strip := a.strips * t.strip
  let handling := if a.kind = .house then 0 else t.handling
  let sum := clampCost ink + clampCost media + clampCost cut + clampCost strip + clampCost handling
  { costs := { ink := clampCost ink, media := clampCost media, cut := clampCost cut, strip := clampCost strip,
               handling := clampCost handling, total := clampCost sum }
    saturated := decide (Config.costMax < ink ∨ Config.costMax < media ∨ Config.costMax < cut ∨
      Config.costMax < strip ∨ Config.costMax < handling ∨ Config.costMax < sum) }

/-! ### Colour arithmetic (R143, R145) -/

/-- One bit of the integer square root, from bit `k` down. -/
def isqrtFrom (n : Nat) : Nat → Nat → Nat
  | 0, r => r
  | k + 1, r => if (r + 2 ^ k) * (r + 2 ^ k) ≤ n then isqrtFrom n k (r + 2 ^ k) else isqrtFrom n k r

/-- R143: the integer square root, rounded down, of a number below 2^32. -/
def isqrt (n : Nat) : Nat := isqrtFrom n 16 0

/-- A clamp to a range (R145, R146). -/
def clampInt (lo hi x : Int) : Int := max lo (min hi x)

/-! ### The closed record's bytes (spec/10 section 10.5) -/

def AccountKind.code : AccountKind → Nat
  | .print => 0 | .quote => 1 | .house => 2

def RecOutcome.code : RecOutcome → Nat
  | .job .completed => 0 | .job .rejected => 1 | .job .aborted => 2 | .quoted => 3 | .house => 4

def verdictCode : Option Verdict → Nat
  | none => 0 | some .pass => 1 | some .fail => 2 | some .failLimit => 3 | some .sensorError => 4 | some .unchecked => 5

def AcctFlags.code (f : AcctFlags) : Nat :=
  f.saturated.toNat + 2 * f.gainChanged.toNat + 4 * f.guardLost.toNat + 8 * f.cutLost.toNat + 16 * f.unchecked.toNat
    + 32 * f.missed.toNat

/-- Spec/10 section 10.5: the closed record as RECORD_TAKE's reply lays it out. -/
def ClosedRecord.bytes (r : ClosedRecord) : List Byte :=
  leBytes 1 r.kind.code ++ leBytes 1 (r.tag.getD 0) ++ leBytes 1 r.outcome.code ++ leBytes 1 (verdictCode r.verdict)
    ++ leBytes 1 r.flags.code ++ leBytes 2 r.genAtOpen ++ leBytes 2 r.priceGen ++ leBytes 4 r.cuts ++ leBytes 1 r.strips
    ++ leBytes 4 r.fired ++ leBytes 4 r.broken ++ leBytes 1 r.ink.length ++ leBytes 1 r.media.length
    ++ leBytes 6 r.costs.ink ++ leBytes 6 r.costs.media ++ leBytes 6 r.costs.cut ++ leBytes 6 r.costs.strip
    ++ leBytes 6 r.costs.handling ++ leBytes 6 r.costs.total
    ++ (r.ink.map (fun p => leBytes 1 p.1 ++ leBytes 4 p.2)).flatten
    ++ (r.media.map (fun m => leBytes 1 m.media ++ leBytes 4 m.length ++ leBytes 8 m.area)).flatten

/-- R191: the value of a reply code. -/
def Code.value : Code → Nat
  | .ok => 0 | .busy => 1 | .full => 2 | .range => 3 | .sequence => 4 | .noJob => 5 | .notNow => 6 | .held => 7
  | .late => 8 | .malformed => 9 | .unknown => 10 | .linkBusy => 11

/-- R186: the bytes of a frame with the given kind, tag and payload. -/
def frameBytes (kind tag : Byte) (payload : List Byte) : List Byte :=
  let inner := leBytes 2 payload.length ++ [kind, tag] ++ payload
  0x7E#8 :: (inner ++ leBytes 2 (crc16 inner).toNat)

/-- R186: the kind byte of every notice. -/
def noticeKind : Byte := 0xFF#8

/-- R186: the bytes on the line of a frame that the part sends, reply or notice, with its payload. -/
def TxFrame.bytes (f : TxFrame) (payload : List Byte) : List Byte := frameBytes f.kind f.tag payload

/-- R186: the payload of a reply where the manual lays it out: every refusal, an OK without fields, and RECORD_TAKE's (section 10.5). -/
def Reply.payload (r : Reply) : Option (List Byte) :=
  let head := leBytes 1 r.code.value ++ leBytes 1 r.planReset.toNat
  if r.code ≠ .ok then some head else
    match r.body with
    | .none => some head
    | .record held rec => some (head ++ leBytes 1 held ++ rec.bytes)
    | _ => none

/-- R186: the frame of a reply as bytes, where the manual lays its payload out. -/
def Reply.bytes (r : Reply) : Option (List Byte) := r.payload.map (TxFrame.reply r).bytes

end Sys2Proof.Machine
end

