-- ==== Sys2Proof/Machine/Ops.lean ====
section
/-! DEFINITION. The named reads and updates of State that every family uses: each record has one accessor and one update here. -/

namespace Sys2Proof.Machine

/-! ### Sending and the start of a command -/

/-- A command starts with nothing sent (log 20). -/
def begin (s : State) : State := { s with out := [] }

/-- A record sent on one of the part's links. -/
def send (x : Sent) (s : State) : State := { s with out := s.out ++ [x] }

/-! ### RC -/

def jobAt (s : State) (slot : Nat) : Option Job := s.rc.jobs.getD slot none

def setJob (slot : Nat) (j : Option Job) (s : State) : State := { s with rc.jobs := s.rc.jobs.set slot j }

/-- An update of the live job in a slot. -/
def updJob (slot : Nat) (f : Job → Job) (s : State) : State :=
  { s with rc.jobs := s.rc.jobs.modify slot (fun o => o.map f) }

/-- Whether a slot holds the live job of a tag. -/
def hasTag (tag : Nat) (o : Option Job) : Bool :=
  match o with
  | some j => j.tag == tag
  | none => false

/-- The slot of a live job's tag (R1). -/
def slotOf (s : State) (tag : Nat) : Option Nat := s.rc.jobs.findIdx? (hasTag tag)

/-- The live job of a tag (R1). -/
def jobOf (s : State) (tag : Nat) : Option Job := (slotOf s tag).bind (jobAt s)

/-- R3: the free entries of the swath queue. -/
def queueFree (s : State) : Nat := Config.queueSize - s.rc.queue.length

/-- The GRANTED entry (R12: at most one, and at the head). -/
def grantedEntry (s : State) : Option QEntry := s.rc.queue.find? (fun e => e.state == .granted)

/-- Whether the job of a tag has an entry in the queue. -/
def hasEntry (s : State) (tag : Nat) : Bool := s.rc.queue.any (fun e => e.job == tag)

def updEntry (queueTag : Nat) (f : QEntry → QEntry) (s : State) : State :=
  { s with rc.queue := s.rc.queue.map (fun e => if e.queueTag = queueTag then f e else e) }

/-- A count that saturates at 4,294,967,295 (R1, R150). -/
def bump (n : Nat) : Nat := satAdd Config.count32Max n 1

/-! ### ISC -/

def chanAt (s : State) (c : Nat) : Channel := s.isc.chans.getD c (Channel.afterReset (factoryChan c, false))

def updChan (c : Nat) (f : Channel → Channel) (s : State) : State :=
  { s with isc.chans := s.isc.chans.modify c f }

def bayAt (s : State) (b : Nat) : Bay := s.isc.bays.getD b Bay.afterReset

def updBay (b : Nat) (f : Bay → Bay) (s : State) : State := { s with isc.bays := s.isc.bays.modify b f }

def gainAt (s : State) (c : Nat) : Nat := s.isc.gains.getD c 4096

/-- R43: whether a channel's map names a bay. -/
def mapsBay (cfg : ChanCfg) (b : Nat) : Bool := cfg.bayMap.getLsbD b

/-- R48: the bays of a map in ascending order. -/
def mapBays (cfg : ChanCfg) : List Nat := (List.range Config.bays).filter (mapsBay cfg)

/-- R69: the pump queue in serving order: marked entries first, each group in the order of placing. -/
def pumpView (s : State) : List PumpEntry :=
  s.isc.pumpQueue.filter (fun e => e.marked) ++ s.isc.pumpQueue.filter (fun e => !e.marked)

/-- The draw in flight, RUNNING or SUSPENDED (R70). -/
def Pump.draw : Pump → Option Draw
  | .free => none
  | .running d => some d
  | .suspended d => some d

/-- The bay of a tag operation. -/
def TagOp.bay : TagOp → Nat
  | .read b => b
  | .write b _ => b

/-- R56: an operation placed on the tag queue. -/
def placeTagOp (op : TagOp) (s : State) : State := { s with isc.tagQueue := s.isc.tagQueue ++ [op] }

/-- R55: a bay's tag operation is abandoned, waiting or under way. -/
def abandonTagOp (b : Nat) (s : State) : State :=
  { s with
    isc.tagQueue := s.isc.tagQueue.filter (fun op => op.bay != b)
    isc.tagBus := match s.isc.tagBus with
      | some r => if r.op.bay = b then none else some r
      | none => none }

/-! ### Outputs on the mechanics rail, computed (R71, R74, R87, R113) -/

/-- VALVE outputs: open for the serving channel while the pump is RUNNING. -/
def valveOpen (s : State) (c : Nat) : Bool :=
  match s.isc.pump with
  | .running d => d.channel == c
  | _ => false

/-- R71: the PUMP output as (effective duty steps, steps of a cycle). -/
def pumpDrive (s : State) : Nat × Nat :=
  match s.isc.pump with
  | .running d => (min (chanAt s d.channel).cfg.duty s.isc.pumpPeriod, s.isc.pumpPeriod)
  | _ => (0, s.isc.pumpPeriod)

/-- FEED output: driven while a segment runs (R91). -/
def feedDriven (s : State) : Bool :=
  match s.mpc.exec with
  | .moving _ g => g.phase == .driving
  | _ => false

/-- GO output: asserted in STROKE (spec/06 section 6.5). -/
def goAsserted (s : State) : Bool :=
  match s.mpc.cutter with
  | .stroke _ => true
  | _ => false

/-! ### MPC -/

/-- The roll position P; 0 in NO_ROLL, where no rule reads it. -/
def pos (s : State) : Nat :=
  match s.mpc.roll with
  | some r => r.pos
  | none => 0

/-- The loaded length; 0 in NO_ROLL. -/
def loadedLength (s : State) : Nat :=
  match s.mpc.roll with
  | some r => r.length
  | none => 0

def setExec (e : Exec) (s : State) : State := { s with mpc.exec := e }

/-- The advance in hand (R89). -/
def Exec.advance : Exec → Option Advance
  | .idle => none
  | .moving a _ => some a
  | .atStop a _ => some a
  | .stalled a => some a
  | .off a _ => some a

/-- R101: the cut stop of an entry. -/
def cutStop (s : State) (e : CutEntry) : Nat := e.position + s.mpc.cOff

def cutAt (s : State) (position : Nat) : Option CutEntry := s.mpc.cuts.find? (fun e => e.position == position)

def updCut (position : Nat) (f : CutEntry → CutEntry) (s : State) : State :=
  { s with mpc.cuts := s.mpc.cuts.map (fun e => if e.position = position then f e else e) }

/-- R101: an entry enters the cut list at its place in ascending order. -/
def insertCut (e : CutEntry) : List CutEntry → List CutEntry
  | [] => [e]
  | x :: t => if e.position < x.position then e :: x :: t else x :: insertCut e t

def cutsFree (s : State) : Nat := Config.cutSize - s.mpc.cuts.length

/-- R184: the cover is unsettled while OPEN or SETTLING. -/
def unsettled (s : State) : Bool := s.lc.cover != .settled

/-- R180: a supply hold is in effect. -/
def held (s : State) : Bool := s.lc.hold != .none

/-! ### CCU -/

def checkAt (s : State) (id : Nat) : Check := s.ccu.checks.getD id Check.blank

def updCheck (id : Nat) (f : Check → Check) (s : State) : State := { s with ccu.checks := s.ccu.checks.modify id f }

/-- A check allocated to a job and not CLOSED. -/
def Check.live (c : Check) : Bool := c.state != .free && c.state != .closed

def ringFree (s : State) : Nat := Config.ringSize - s.ccu.ring.length

/-- The patch set of an id, where loaded (R123). -/
def setAt (s : State) (id : Nat) : Option PatchSet := s.ccu.sets.getD id none

/-- The patch set a check uses. -/
def checkSetOf (s : State) (c : Check) : Option PatchSet := c.setId.bind (setAt s)

/-- The patch count of a check's set. -/
def checkCount (s : State) (c : Check) : Nat :=
  match checkSetOf s c with
  | some p => p.patches.length
  | none => 0

/-- R136: the executor stands at a check's measurement stop, AT_STOP or OFF with it kept. -/
def standsAt (s : State) (id : Nat) : Bool :=
  match s.mpc.exec with
  | .atStop _ (.meas c) => c == id
  | .off _ (some (.meas c)) => c == id
  | _ => false

/-- A stop enters the stop list before the first stop at its position or beyond (R90). -/
def insertStop (x : Stop) : List Stop → List Stop
  | [] => [x]
  | y :: t => if x.pos ≤ y.pos then x :: y :: t else y :: insertStop x t

/-- The measurement stops of R90, by ascending check id. -/
def measStops (s : State) : List Stop :=
  (List.range Config.checks).filterMap (fun id =>
    let c := checkAt s id
    if c.live then c.stop.map (fun p => { pos := p, ref := .meas id }) else none)

/-- R90: the stop list: ascending, measurement stops before a cut stop at equal positions, and by ascending check id. -/
def stopList (s : State) : List Stop :=
  (measStops s).foldr insertStop (s.mpc.cuts.map (fun e => { pos := cutStop s e, ref := .cut e.position }))

/-- Whether P has reached a stop: the cut entry is no longer PLANNED, or the measurement stop is marked (R87). -/
def isReached (s : State) (r : StopRef) : Bool :=
  match r with
  | .meas id => (checkAt s id).reached
  | .cut p => match cutAt s p with
    | some e => e.state != .planned
    | none => false

/-- R91, R92: the first reached stop in list order. -/
def firstReached (s : State) : Option StopRef :=
  ((stopList s).find? (fun x => isReached s x.ref)).map (fun x => x.ref)

/-- Whether a stop stands in the list. -/
def inStopList (s : State) (r : StopRef) : Bool := (stopList s).any (fun x => x.ref == r)

/-! ### CU -/

def printAt (s : State) (slot : Nat) : Option Account := s.cu.printAccts.getD slot none

def quoteAt (s : State) (slot : Nat) : Option Account := s.cu.quotes.getD slot none

def updPrint (slot : Nat) (f : Account → Account) (s : State) : State :=
  { s with cu.printAccts := s.cu.printAccts.modify slot (fun o => o.map f) }

def updHouse (f : Account → Account) (s : State) : State := { s with cu.house := f s.cu.house }

def updOwner (o : Owner) (f : Account → Account) (s : State) : State :=
  match o with
  | .print slot => updPrint slot f s
  | .house => updHouse f s

/-- Whether a quote slot is open for a tag. -/
def quoteHasTag (tag : Nat) (o : Option Account) : Bool :=
  match o with
  | some a => a.tag == some tag
  | none => false

/-- The slot of an open quote's tag (R166). -/
def quoteSlotOf (s : State) (tag : Nat) : Option Nat := s.cu.quotes.findIdx? (quoteHasTag tag)

/-- The roll's media type for the house account: 0 in NO_ROLL (R149). -/
def houseMedia (s : State) : Nat :=
  match s.mpc.roll with
  | some r => r.media
  | none => 0

/-! ### SS -/

/-- R197: a STORE_SAVE is running. -/
def saving (s : State) : Bool :=
  match s.ss.store with
  | .saving _ _ => true
  | _ => false

/-- R195: a working setting changed. -/
def markChanged (s : State) : State := { s with ss.changed := true }

/-- R195: the working settings as they stand. -/
def workingSettings (s : State) : Settings :=
  { chans := s.isc.chans.map (fun c => (c.cfg, c.enabled)), gains := s.isc.gains, gainGen := s.isc.gainGen,
    pumpPeriod := s.isc.pumpPeriod, spentMark := s.isc.spentMark, sOff := s.mpc.sOff, cOff := s.mpc.cOff,
    sets := s.ccu.sets, params := s.ccu.params, prices := s.cu.active, queueMark := s.rc.queueMark }

end Sys2Proof.Machine
end

