-- ==== Sys2Proof/Machine/Flags.lean ====
section
/-! DEFINITION. The condition table: raising, ending of causes and class reads (R172 to R179), and the below-mark flag (R7). -/

namespace Sys2Proof.Machine

/-- R172: the class of a condition. -/
def Cond.cls : Cond → Nat
  | .cutterJam | .feedStall | .headFault | .mapConflict | .refillTimeout | .tagFault | .sensorFault | .supplyHold
  | .storeDefaulted => 1
  | .jobHeld | .swathBroken | .checkFailed | .rollEnd | .inkOut | .wrongInk | .ringFull | .queueFull => 2
  | .recordReady | .checkClosed | .swathRoom | .cutSkipped => 3
  | .coverChanged | .bayChanged | .tagStale | .drawCut => 4

/-- R173: the standing conditions; the others are latched. -/
def Cond.standing : Cond → Bool
  | .cutterJam | .feedStall | .headFault | .mapConflict | .refillTimeout | .tagFault | .sensorFault | .supplyHold
  | .jobHeld | .inkOut | .ringFull | .queueFull | .recordReady => true
  | _ => false

/-- Whether an entry is the entry of a pair of condition and subject (R172). -/
def CondEntry.isFor (e : CondEntry) (c : Cond) (sub : Option Nat) : Bool := e.cond == c && e.subject == sub

/-- R172: a new entry stands at the end of its class. -/
def insertCond (e : CondEntry) (l : List CondEntry) : List CondEntry :=
  l.filter (fun x => x.cond.cls ≤ e.cond.cls) ++ e :: l.filter (fun x => e.cond.cls < x.cond.cls)

/-- R174: an occurrence added to a standing entry of the table. -/
def CondEntry.again (e : CondEntry) : CondEntry :=
  { e with occurrences := min 255 (e.occurrences + 1), cause := e.cause || e.cond.standing }

/-- R174: raising a condition for a subject. -/
def raise (c : Cond) (sub : Option Nat) (s : State) : State :=
  if s.lc.conds.any (fun e => e.isFor c sub) then
    { s with lc.conds := s.lc.conds.map (fun e => if e.isFor c sub then e.again else e) }
  else
    { s with lc.conds := insertCond ⟨c, sub, c.standing, 1⟩ s.lc.conds, lc.noticeDue := true }

/-- R174: the cause of a standing condition ends. -/
def endCause (c : Cond) (sub : Option Nat) (s : State) : State :=
  { s with lc.conds := s.lc.conds.map (fun e => if e.isFor c sub then { e with cause := false } else e) }

/-- The entries of a class, in table order. -/
def classEntries (k : Nat) (s : State) : List CondEntry := s.lc.conds.filter (fun e => e.cond.cls == k)

/-- R173: whether the cause of a standing condition lasts. -/
def causeHolds (s : State) (c : Cond) (sub : Option Nat) : Bool :=
  match c, sub with
  | .cutterJam, _ => s.mpc.cutter == .jammed
  | .feedStall, _ => match s.mpc.exec with
    | .stalled _ => true
    | _ => false
  | .headFault, _ => s.rc.head == .fault
  | .mapConflict, some ch => (chanAt s ch).refill == .fault .mapConflict
  | .refillTimeout, some ch => (chanAt s ch).refill == .fault .refillTimeout
  | .tagFault, some b => (bayAt s b).state == .tagFault
  | .sensorFault, _ => s.ccu.sensor == .fault
  | .supplyHold, _ => held s
  | .jobHeld, some tag => match jobOf s tag with
    | some j => j.hold.isSome
    | none => false
  | .inkOut, some ch => (chanAt s ch).refill == .dry
  | .ringFull, some tag => (List.range Config.checks).any (fun id =>
      (checkAt s id).job == some tag && (checkAt s id).state == .armed && standsAt s id
        && decide (ringFree s < checkCount s (checkAt s id)))
  | .queueFull, _ => decide (Config.recordSize ≤ s.cu.records.length)
  | .recordReady, _ => !s.cu.records.isEmpty
  | _, _ => false

/-- R173, R174: every cause that no longer lasts ends. -/
def syncCauses (s : State) : State :=
  { s with lc.conds := s.lc.conds.map (fun e => { e with cause := e.cause && causeHolds s e.cond e.subject }) }

/-- R7: the free entries rose. -/
def roomRose (s : State) : State :=
  if s.rc.belowMark && decide (s.rc.queueMark ≤ queueFree s) then
    raise .swathRoom none { s with rc.belowMark := false }
  else s

/-! ### The class reads (R175, R176) -/

/-- R175: a reported entry that a read keeps has its occurrences set to 0. -/
def CondEntry.afterRead (e : CondEntry) : Option CondEntry :=
  if e.cause then some { e with occurrences := 0 } else none

/-- R175: the table's entries after a read reported its first `n` entries of class `k`. -/
def readTable (k : Nat) : Nat → List CondEntry → List CondEntry
  | _, [] => []
  | 0, l => l
  | n + 1, e :: t =>
    if e.cond.cls = k then
      match e.afterRead with
      | some e' => e' :: readTable k n t
      | none => readTable k n t
    else e :: readTable k (n + 1) t

/-- R175, R176: the state after a read of class `k`. -/
def readClass (k : Nat) (s : State) : State :=
  let conds := readTable k Config.readMax s.lc.conds
  let emptied := !conds.any (fun e => e.cond.cls == k)
  let lower := conds.any (fun e => decide (k < e.cond.cls))
  { s with lc.conds := conds, lc.noticeDue := s.lc.noticeDue || (emptied && lower) }

end Sys2Proof.Machine
end

