-- ==== Sys2Proof/Machine/Cost.lean ====
section
/-! DEFINITION. The Cost Unit's shared operations: booking to accounts (R150, R151), flags (R152, R153) and closing (R162, R163). -/

namespace Sys2Proof.Machine

/-! ### Booking -/

/-- R150: ink added to a channel's total with saturation. -/
def addInk (ch n : Nat) (a : Account) : Account :=
  { a with
    ink := a.ink.modify ch (fun t => satAdd Config.count32Max t n)
    flags.saturated := a.flags.saturated || satHit Config.count32Max (a.ink.getD ch 0) n }

/-- R150: the charges of a swath added, channel by channel. -/
def addInks (l : List (Nat × Nat)) (a : Account) : Account := l.foldl (fun a p => addInk p.1 p.2 a) a

/-- R150: one swath counted fired, and strips set for kind STRIP. -/
def countFired (strip : Bool) (a : Account) : Account :=
  { a with
    fired := bump a.fired
    strips := if strip then 1 else a.strips
    flags.saturated := a.flags.saturated || satHit Config.count32Max a.fired 1 }

/-- R150: one swath counted broken, and strips set for kind STRIP. -/
def countBroken (strip : Bool) (a : Account) : Account :=
  { a with
    broken := bump a.broken
    strips := if strip then 1 else a.strips
    flags.saturated := a.flags.saturated || satHit Config.count32Max a.broken 1 }

/-- R151: the entry of a media type, appended first where there is none. -/
def withMedia (m : Nat) (l : List MediaEntry) : List MediaEntry :=
  if l.any (fun e => e.media == m) then l else l ++ [⟨m, 0, 0⟩]

/-- R151: a distance and an area added to a media entry with saturation. -/
def MediaEntry.add (d area : Nat) (e : MediaEntry) : MediaEntry :=
  { e with length := satAdd Config.count32Max e.length d, area := satAdd Config.areaMax e.area area }

/-- R151: whether the addition saturates a length or an area. -/
def MediaEntry.addHit (d area : Nat) (e : MediaEntry) : Bool :=
  satHit Config.count32Max e.length d || satHit Config.areaMax e.area area

/-- R151: a media charge booked to an account. -/
def addMedia (m d area : Nat) (a : Account) : Account :=
  { a with
    media := (withMedia m a.media).map (fun e => if e.media = m then e.add d area else e)
    flags.saturated := a.flags.saturated || (withMedia m a.media).any (fun e => e.media == m && e.addHit d area) }

/-- R115, R151: one cut charged. -/
def addCut (a : Account) : Account :=
  { a with cuts := bump a.cuts, flags.saturated := a.flags.saturated || satHit Config.count32Max a.cuts 1 }

/-! ### Flags -/

/-- R153: GAIN_CHANGED where the new generation differs from the one at open. -/
def markGain (gen : Nat) (a : Account) : Account :=
  if a.genAtOpen = gen then a else { a with flags.gainChanged := true }

/-- R153: the open PRINT and QUOTE accounts compared with the new generation. -/
def markGains (s : State) : State :=
  { s with
    cu.printAccts := s.cu.printAccts.map (fun o => o.map (markGain s.isc.gainGen))
    cu.quotes := s.cu.quotes.map (fun o => o.map (markGain s.isc.gainGen)) }

/-- R99, R152: CUT_LOST on the account of an owner of a cut entry. -/
def setCutLost (o : CutOwner) (s : State) : State :=
  match o with
  | .house => updHouse (fun a => { a with flags.cutLost := true }) s
  | .job tag => match slotOf s tag with
    | some slot => updPrint slot (fun a => { a with flags.cutLost := true }) s
    | none => s

/-! ### Closing (R162, R163) -/

/-- R162: the queue holds 16 records. -/
def recordsFull (s : State) : Bool := decide (Config.recordSize ≤ s.cu.records.length)

/-- Spec/08 section 8.4: the ink list of a record: each channel whose total is not 0, ascending. -/
def inkList (ink : List Nat) : List (Nat × Nat) :=
  ((List.range ink.length).map (fun c => (c, ink.getD c 0))).filter (fun p => p.2 != 0)

/-- R163: the record an account closes into. -/
def makeRecord (a : Account) (o : RecOutcome) (t : PriceTable) : ClosedRecord :=
  let p := priceAccount a t
  { kind := a.kind, tag := a.tag, outcome := o, ink := inkList a.ink, media := a.media, cuts := a.cuts,
    strips := a.strips, fired := a.fired, broken := a.broken,
    flags := { a.flags with saturated := a.flags.saturated || p.saturated }, verdict := a.verdict,
    genAtOpen := a.genAtOpen, priceGen := t.gen, costs := p.costs }

/-- R162, R163: a record enters at the tail; RECORD_READY, and QUEUE_FULL where the queue now holds 16. -/
def pushRecord (r : ClosedRecord) (s : State) : State :=
  let s1 := raise .recordReady none { s with cu.records := s.cu.records ++ [r] }
  if s1.cu.records.length = Config.recordSize then raise .queueFull none s1 else s1

/-- R163: an account is priced against ACTIVE and its record placed. -/
def closeAccount (a : Account) (o : RecOutcome) (s : State) : State := pushRecord (makeRecord a o s.cu.active) s

/-- R149, R170: the house account opens zeroed. -/
def openHouse (s : State) : State :=
  { s with cu.house := Account.opened .house none (houseMedia s) s.isc.gainGen }

end Sys2Proof.Machine
end

