-- ==== Sys2Proof/Machine/Ink.lean ====
section
/-! DEFINITION. The Ink Supply Controller's shared operations: refill requests and the pump queue (R65 to R70), bay selection (R72, R49), the draw and its endings (R74 to R79, R83), commits and releases (R36 to R42), and gain writes (R61). -/

namespace Sys2Proof.Machine

/-! ### The draw (R74 to R77) -/

/-- R75: a division rounded up. -/
def ceilDiv (a b : Nat) : Nat := (a + b - 1) / b

/-- R75: the draw limit in ms. -/
def drawLimit (cfg : ChanCfg) (levelAtStart : Nat) : Nat :=
  min 60000 (2000 + 4 * ceilDiv (cfg.full - levelAtStart) cfg.flow)

/-- R57: a tag with its remaining debited, clamped at 0. -/
def TagData.debit (moved : Nat) (t : TagData) : TagData := { t with remaining := t.remaining - moved }

/-- R57: the bay's remaining is debited, DRIFT is set where the debit exceeds it, and the bay goes WRITING with its tag write placed. -/
def debitAndWrite (b moved : Nat) (s : State) : State :=
  match (bayAt s b).tag with
  | some t => placeTagOp (.write b (t.debit moved))
      (updBay b (fun y => { y with state := .writing, tag := some (t.debit moved),
                                   drift := y.drift || decide (t.remaining < moved) }) s)
  | none => updBay b (fun y => { y with state := .writing }) s

/-- R77: the moved volume at the FULL float. -/
def movedAtFull (s : State) (d : Draw) : Nat :=
  let c := chanAt s d.channel
  if d.prime then min (c.cfg.flow * d.elapsed) c.cfg.full else c.cfg.full - c.level.getD 0

/-- R77: the draw ends on the FULL float. -/
def endDrawFull (d : Draw) (s : State) : State :=
  let moved := movedAtFull s d
  let s1 := updChan d.channel (fun c => { c with level := some c.cfg.full, refill := .idle }) s
  debitAndWrite d.bay moved { s1 with isc.pump := .free }

/-- The draw that starts on a channel from a bay (R74). -/
def newDraw (s : State) (ch b : Nat) : Draw :=
  let c := chanAt s ch
  { channel := ch, bay := b, levelAtStart := c.level.getD 0, prime := c.level.isNone, elapsed := 0,
    limit := drawLimit c.cfg (c.level.getD 0) }

/-- R74: the draw starts; a FULL float that stands asserted ends it at once (R52). -/
def startDraw (ch b : Nat) (s : State) : State :=
  let d := newDraw s ch b
  let s1 := updBay b (fun y => { y with state := .drawing }) (updChan ch (fun c => { c with refill := .drawing b }) s)
  let s2 := { s1 with isc.pump := .running d }
  if (chanAt s ch).fullFloat then endDrawFull d s2 else s2

/-! ### Bay selection (R72, R73, R49) -/

/-- R72: a bay qualifies for a channel. -/
def qualifies (s : State) (ch b : Nat) : Bool :=
  match (bayAt s b).tag with
  | some t => (bayAt s b).state == .ready && t.inkId == (chanAt s ch).cfg.inkId && decide (s.isc.spentMark < t.remaining)
  | none => false

/-- R72: a bay of the map that is READY with another ink. -/
def wrongInk (s : State) (ch b : Nat) : Bool :=
  match (bayAt s b).tag with
  | some t => (bayAt s b).state == .ready && t.inkId != (chanAt s ch).cfg.inkId
  | none => false

/-- R72: WRONG_INK for every such bay of the map. -/
def raiseWrongInk (ch : Nat) (s : State) : State :=
  ((mapBays (chanAt s ch).cfg).filter (wrongInk s ch)).foldl (fun s b => raise .wrongInk (some b) s) s

/-- R49: the bay stands in the map of another enabled channel. -/
def mapConflict (s : State) (ch b : Nat) : Bool :=
  (List.range Config.channels).any (fun c => c != ch && (chanAt s c).enabled && mapsBay (chanAt s c).cfg b)

/-- R70, R72: the serve of a channel taken from the queue. -/
def serveChannel (ch : Nat) (s : State) : State :=
  let s1 := raiseWrongInk ch s
  match (mapBays (chanAt s ch).cfg).find? (qualifies s ch) with
  | none => raise .inkOut (some ch) (updChan ch (fun c => { c with refill := .dry }) s1)
  | some b =>
    if mapConflict s ch b then
      raise .mapConflict (some ch) (updChan ch (fun c => { c with refill := .fault .mapConflict }) s1)
    else startDraw ch b s1

/-- R69: a channel's entry leaves the pump queue. -/
def unqueue (ch : Nat) (s : State) : State :=
  { s with isc.pumpQueue := s.isc.pumpQueue.filter (fun e => e.channel != ch) }

/-- R70: the pump serves while it is FREE, the queue is not empty and no hold is in effect. -/
def serveLoop : Nat → State → State
  | 0, s => s
  | n + 1, s =>
    if s.isc.pump = .free ∧ held s = false then
      match pumpView s with
      | [] => s
      | e :: _ => serveLoop n (serveChannel e.channel (unqueue e.channel s))
    else s

/-- R70: the pump serves the queue; each serve takes one of at most ten entries. -/
def pumpServe (s : State) : State := serveLoop s.isc.pumpQueue.length s

/-! ### Refill requests (R65, R66, R68) -/

/-- R65: a request for a channel, with the mark of a LOW-float request. -/
def placeRequest (ch : Nat) (low : Bool) (s : State) : State :=
  let c := chanAt s ch
  match c.refill with
  | .idle =>
    if c.enabled then
      let s1 := updChan ch (fun c => { c with refill := .queued }) s
      pumpServe { s1 with isc.pumpQueue := s1.isc.pumpQueue ++ [⟨ch, low || c.lowFloat⟩] }
    else s
  | .queued =>
    if low then
      { s with isc.pumpQueue := s.isc.pumpQueue.map (fun e => if e.channel = ch then { e with marked := true } else e) }
    else s
  | _ => s

/-- R66: the commit trigger of a channel. -/
def commitTrigger (s : State) (ch : Nat) : State :=
  let c := chanAt s ch
  let short := match c.level with
    | none => true
    | some l => decide (l < c.cfg.refillMark + c.reserved)
  if c.enabled && short then placeRequest ch false s else s

/-- R68: a DRY channel leaves DRY and is requested. -/
def leaveDry (ch : Nat) (s : State) : State :=
  placeRequest ch false (updChan ch (fun c => { c with refill := .idle }) s)

/-- R68: a bay that went READY requests each DRY channel whose map holds it. -/
def bayReady (b : Nat) (s : State) : State :=
  ((List.range Config.channels).filter (fun c => (chanAt s c).refill == .dry && mapsBay (chanAt s c).cfg b)).foldl
    (fun s c => leaveDry c s) s

/-! ### The other endings of a draw (R78, R79, R83) -/

/-- R78: the moved volume capped by the flow, the bay and the room left. -/
def movedCapped (s : State) (d : Draw) : Nat :=
  let c := chanAt s d.channel
  let remaining := match (bayAt s d.bay).tag with
    | some t => t.remaining
    | none => 0
  min (c.cfg.flow * d.elapsed) (min remaining (c.cfg.full - c.level.getD 0))

/-- R79: the moved volume capped by the flow and the room left. -/
def movedRemoved (s : State) (d : Draw) : Nat :=
  let c := chanAt s d.channel
  min (c.cfg.flow * d.elapsed) (c.cfg.full - c.level.getD 0)

/-- A moved volume added to a known level; an unknown level stays unknown. -/
def raiseLevel (moved : Nat) (c : Channel) : Channel := { c with level := c.level.map (· + moved) }

/-- R78: the draw ends by expiry of its limit; the elapsed time is then the limit (log 23). -/
def endDrawExpiry (d0 : Draw) (s : State) : State :=
  let d := { d0 with elapsed := d0.limit }
  let moved := movedCapped s d
  let s1 := updChan d.channel (fun c => { raiseLevel moved c with refill := .fault .refillTimeout }) s
  let s2 := updBay d.bay (fun y => { y with state := .suspect, tag := y.tag.map (TagData.debit moved) }) s1
  pumpServe (raise .refillTimeout (some d.channel) { s2 with isc.pump := .free })

/-- R55: a bay goes EMPTY with its fields absent, and BAY_CHANGED is raised. -/
def emptyBay (b : Nat) (s : State) : State :=
  raise .bayChanged (some b)
    (updBay b (fun y => { y with state := .empty, tag := none, drift := false, present := false }) s)

/-- R79: the draw ends by removal of its source bay, and the channel is requested again. Where the pump serves that request at once from another bay, a FULL float taken next ends the new draw by R77, though R80 has it assert outside a draw (DESIGN CHOICE, log 38). -/
def endDrawRemoval (d : Draw) (s : State) : State :=
  let moved := movedRemoved s d
  let s1 := updChan d.channel (fun c => { raiseLevel moved c with refill := .idle }) s
  let s2 := raise .drawCut (some d.bay) (emptyBay d.bay { s1 with isc.pump := .free })
  pumpServe (placeRequest d.channel false s2)

/-- R83: the draw ends by a soft reset, without a fault. -/
def endDrawSoft (d : Draw) (s : State) : State :=
  let moved := movedCapped s d
  let s1 := updChan d.channel (fun c => { raiseLevel moved c with refill := .idle }) s
  debitAndWrite d.bay moved { s1 with isc.pump := .free }

/-! ### Grants, commits and releases (R36 to R42) -/

/-- R31: the charge and the new residue of one channel for drop counts, at this moment. -/
def chargeNow (s : State) (ch : Nat) (n : Counts) : Nat :=
  chargeNl (rawVolume n (chanAt s ch).cfg) (gainAt s ch) (chanAt s ch).residue

def residueNow (s : State) (ch : Nat) (n : Counts) : Nat :=
  chargeResidue (rawVolume n (chanAt s ch).cfg) (gainAt s ch) (chanAt s ch).residue

/-- R10, R12: the charges of a drop list at this moment, each with the residue to save. -/
def chargesNow (s : State) (drops : List DropEntry) : List ChargeRec :=
  (dropChannels drops).map (fun c =>
    { channel := c, charge := chargeNow s c (dropCounts drops c), saved := (chanAt s c).residue })

/-- R36: the reservations and new residues of a grant. -/
def reserve (drops : List DropEntry) (s : State) : State :=
  (dropChannels drops).foldl (fun t c =>
    updChan c (fun x => { x with reserved := chargeNow s c (dropCounts drops c),
                                 residue := residueNow s c (dropCounts drops c) }) t) s

/-- R38: a level less a charge, clamped at 0 with DRIFT; an unknown level is not changed. -/
def spend (charge : Nat) (c : Channel) : Channel :=
  match c.level with
  | none => c
  | some l => { c with level := some (l - charge), drift := c.drift || decide (l < charge) }

/-- R38: the commit of a swath's charges, then the commit trigger of each channel (R66). -/
def commit (charges : List ChargeRec) (s : State) : State :=
  let s1 := charges.foldl (fun t r => updChan r.channel (fun c => { spend r.charge c with reserved := 0 }) t) s
  charges.foldl (fun t r => commitTrigger t r.channel) s1

/-- R37: the release of a swath's reservations, with the saved residues written back. -/
def release (charges : List ChargeRec) (s : State) : State :=
  charges.foldl (fun t r => updChan r.channel (fun c => { c with reserved := 0, residue := r.saved }) t) s

/-- R41: whether a channel has a nonzero count. -/
def anyCount (n : Counts) : Bool := n.small != 0 || n.medium != 0 || n.large != 0

/-- R41: the forced commit of one channel, charged to the house account. -/
def forceCommit (ch : Nat) (n : Counts) (s : State) : State :=
  let charge := chargeNow s ch n
  let residue := residueNow s ch n
  updHouse (addInk ch charge) (updChan ch (fun c => { spend charge c with residue := residue }) s)

/-- R41: a CLEANED record: every channel with a nonzero count is committed, then triggered in ascending order. -/
def cleanAll (counts : List Counts) (s : State) : State :=
  let hit := (List.range Config.channels).filter (fun c => anyCount (counts.getD c ⟨0, 0, 0⟩))
  let s1 := hit.foldl (fun t c => forceCommit c (counts.getD c ⟨0, 0, 0⟩) t) s
  hit.foldl commitTrigger s1

/-! ### The gain table (R60, R61) -/

/-- R61: a gain write: every pair stored, the generation raised once, GAIN_CHANGED marked (R153). -/
def gainWrite (pairs : List (Nat × Nat)) (s : State) : State :=
  let s1 := { s with isc.gains := pairs.foldl (fun g p => g.set p.1 p.2) s.isc.gains
                     isc.gainGen := (s.isc.gainGen + 1) % 65536 }
  markChanged (markGains s1)

end Sys2Proof.Machine
end

