-- ==== Sys2Proof/Machine/Path.lean ====
section
/-! DEFINITION. The media path's own operations: segments (R91, R93), media charges (R88), encoder steps (R87) and the measurement stop (R98). -/

namespace Sys2Proof.Machine

/-- R91: the segment end: the nearer of the target and the first stop whose position exceeds P. -/
def segmentEnd (s : State) (target : Nat) : Nat :=
  match (stopList s).find? (fun x => decide (pos s < x.pos)) with
  | some x => min target x.pos
  | none => target

/-- R91, R93: the feed limit of a segment. -/
def feedLimit (from_ to_ : Nat) : Nat := 1000 + 2 * (to_ - from_)

/-- R87, R91, R96: the FEED output is driven while a settle window runs: the window closes, and the driven feed keeps counting. The steps of a window that a soft reset left open are charged to no one (R100, log 25). -/
def closeWindow (s : State) : State :=
  if s.mpc.settle.isSome then
    { s with mpc.settle := none, mpc.moved := if s.mpc.resetWindow then 0 else s.mpc.moved, mpc.resetWindow := false }
  else s

/-- R91, R96: a segment starts, paused while the cover is unsettled. A settle window left open by a soft reset closes where the feed is driven, and runs on where the segment starts paused (log 25). -/
def startSegment (a : Advance) (s : State) : State :=
  let e := segmentEnd s a.target
  let g : Segment := { segEnd := e, limit := feedLimit (pos s) e, run := 0,
                       phase := if unsettled s then .paused else .driving }
  let s1 := setExec (.moving a g) s
  if unsettled s then s1 else closeWindow s1

/-- R93: whether a change of the stop list is seen at once: the feed is driven, or paused short of its end (log 15). -/
def revisable (s : State) (g : Segment) : Bool :=
  match g.phase with
  | .driving => true
  | .paused => decide (pos s < g.segEnd)
  | _ => false

/-- R93: a change of the stop list that moves the segment end gives a new one, with a new feed limit. -/
def reviseSegment (s : State) : State :=
  match s.mpc.exec with
  | .moving a g =>
    let e := segmentEnd s a.target
    if revisable s g && e != g.segEnd then
      setExec (.moving a { g with segEnd := e, limit := feedLimit (pos s) e, run := 0 }) s
    else s
  | _ => s

/-- R107: the entry at a position leaves the cut list, and its cut stop the stop list. -/
def removeCut (p : Nat) (s : State) : State :=
  reviseSegment { s with mpc.cuts := s.mpc.cuts.filter (fun e => e.position != p) }

/-- R88: the moved count is handed to CU as one charge to the owner of the advance in hand. The charge of a window that a soft reset left open is not handed (R100). -/
def handCharge (s : State) : State :=
  let s1 := { s with mpc.moved := 0, mpc.resetWindow := false }
  match s.mpc.exec, s.mpc.roll with
  | .moving a _, some r =>
    if s.mpc.moved = 0 ∨ s.mpc.resetWindow = true then s1 else updOwner a.owner (addMedia r.media s.mpc.moved (s.mpc.moved * r.width)) s1
  | _, _ => s1

/-- R87: every stop that P has reached is marked: cut entries go DUE, measurement stops are marked reached. -/
def markReached (s : State) : State :=
  let p := pos s
  { s with
    mpc.cuts := s.mpc.cuts.map (fun e =>
      if e.state = .planned ∧ cutStop s e ≤ p then { e with state := .due } else e)
    ccu.checks := s.ccu.checks.map (fun c =>
      if c.live && (match c.stop with
        | some q => decide (q ≤ p)
        | none => false) then { c with reached := true } else c) }

/-- R87: the counting window is open. -/
def windowOpen (s : State) : Bool := feedDriven s || s.mpc.settle.isSome

/-- R87: a stray step. -/
def strayStep (s : State) : State := { s with mpc.stray := satAdd 65535 s.mpc.stray 1 }

/-- R87, R91: the FEED output stops at a segment end, and the settle window begins. -/
def stopFeed (phase : SegPhase) (s : State) : State :=
  match s.mpc.exec with
  | .moving a g => { s with mpc.exec := .moving a { g with phase := phase }, mpc.settle := some Config.settleTime }
  | _ => s

/-- R91: the step that brings P to or beyond the segment end stops the feed. -/
def stopAtSegmentEnd (s : State) : State :=
  match s.mpc.exec with
  | .moving _ g => if g.phase = .driving ∧ g.segEnd ≤ pos s then stopFeed .settling s else s
  | _ => s

/-- R87: a forward step inside the window with the roll LOADED. -/
def forwardStep (r : Roll) (s : State) : State :=
  if r.pos < r.length then
    stopAtSegmentEnd (markReached
      { s with mpc.roll := some { r with pos := r.pos + 1 }, mpc.moved := s.mpc.moved + 1 })
  else s

/-- R98: whether a measurement stop at a position is placed; it is missed where P has reached it. -/
def stopPlaced (s : State) (p : Nat) : Bool := decide (pos s < p)

end Sys2Proof.Machine
end

