-- ==== Sys2Proof/Machine/Checks.lean ====
section
/-! DEFINITION. The Colour Check Unit's shared operations: evaluation (R143 to R145), closing a check (R133), strip events (R128 to R130) and the scan start test (R136). -/

namespace Sys2Proof.Machine

/-! ### Evaluation (R143 to R145) -/

/-- R143: the differences of one patch with a valid reading. -/
structure Diff where
  channel : Option Nat
  dl : Int
  da : Int
  db : Int
deriving DecidableEq, Repr

/-- R143: the squared difference. -/
def Diff.sq (d : Diff) : Nat := (d.dl * d.dl + d.da * d.da + d.db * d.db).toNat

/-- R143: the patch's difference. -/
def Diff.size (d : Diff) : Nat := isqrt d.sq

/-- R143: the difference of patch `i`, where the scan wrote a valid entry for it. -/
def patchDiff (readings : List RingEntry) (i : Nat) (p : Patch) : Option Diff :=
  (readings.find? (fun e => e.index == i && e.valid)).map (fun e =>
    { channel := p.channel, dl := e.l - p.l, da := e.a - p.a, db := e.b - p.b })

/-- R143: the differences of a row from patch `i` on. -/
def diffsFrom (readings : List RingEntry) : Nat → List Patch → List Diff
  | _, [] => []
  | i, p :: t => (patchDiff readings i p).toList ++ diffsFrom readings (i + 1) t

/-- What a closing check carries (R133). -/
structure Result where
  verdict : Verdict
  worst : Option Nat
  mean : Option Nat
  valid : Option Nat
  corrections : Option (List Correction)
deriving DecidableEq, Repr

/-- R133: an UNCHECKED closing carries nothing else. -/
def Result.unchecked : Result := { verdict := .unchecked, worst := none, mean := none, valid := none, corrections := none }

/-- R144: SENSOR_ERROR records the valid count alone. -/
def Result.sensorError (valid : Nat) : Result :=
  { verdict := .sensorError, worst := none, mean := none, valid := some valid, corrections := none }

/-- R144: the mean difference, rounded down. -/
def meanDiff (ds : List Diff) : Nat := (ds.map Diff.size).sum / ds.length

/-- R144 step 4. -/
def passes (p : PatchSet) (ds : List Diff) : Bool :=
  ds.all (fun d => decide (d.sq ≤ p.patchTol * p.patchTol)) && decide (meanDiff ds ≤ p.meanTol)

/-- R145: the lightness errors of a channel's valid density patches. -/
def channelErrors (ds : List Diff) (ch : Nat) : List Int :=
  (ds.filter (fun d => d.channel == some ch)).map (fun d => d.dl)

/-- R145 steps 1 to 5: the correction of one channel with a present gain. -/
def correction (params : CheckParams) (gain : Nat) (ch : Nat) (errors : List Int) : Correction :=
  let error := errors.sum.tdiv errors.length
  let step := clampInt (-(params.maxStep : Int)) params.maxStep ((error * (params.sens.getD ch 0 : Nat)).tdiv 100)
  let gain' := clampInt Config.gainMin Config.gainMax (gain + step)
  { channel := ch, applied := gain' - gain, limited := gain' != gain + step }

/-- R145: the corrections list, in ascending channel order. -/
def corrections (s : State) (ds : List Diff) : List Correction :=
  ((List.range Config.channels).filter (fun c => !(channelErrors ds c).isEmpty)).map (fun c =>
    correction s.ccu.params (gainAt s c) c (channelErrors ds c))

/-- R144, R145: the result of a scan that SCAN_END ended. -/
def evaluate (s : State) (p : PatchSet) (policy : Option Policy) (readings : List RingEntry) : Result :=
  let ds := diffsFrom readings 0 p.patches
  if ds.length = 0 ∨ s.ccu.params.maxInvalid < p.patches.length - ds.length then Result.sensorError ds.length
  else
    let base : Verdict := if passes p ds then .pass else .fail
    let corr := corrections s ds
    { verdict := if policy = some .adjust ∧ corr.any (fun c => c.limited) then .failLimit else base
      worst := some ((ds.map Diff.size).foldl max 0)
      mean := some (meanDiff ds)
      valid := some ds.length
      corrections := if policy = some .adjust then some corr else none }

/-- R145: the gain pairs a result hands to ISC: the channels with a nonzero applied step. -/
def gainPairs (s : State) (r : Result) : List (Nat × Nat) :=
  ((r.corrections.getD []).filter (fun c => c.applied != 0)).map (fun c =>
    (c.channel, ((gainAt s c.channel : Int) + c.applied).toNat))

/-- R145: the gain write of a correction; none is made without a nonzero step. -/
def applyCorrections (r : Result) (s : State) : State :=
  match gainPairs s r with
  | [] => s
  | p :: t => gainWrite (p :: t) s

/-! ### Closing a check (R133) -/

/-- R133 steps 1 to 3: the record of a closing check. -/
def Check.close (r : Result) (c : Check) : Check :=
  { c with state := .closed, dry := none, limit := none, verdict := some r.verdict, worst := r.worst, mean := r.mean,
           valid := r.valid, corrections := r.corrections }

/-- R133 step 1, R139: a scan of this check that has not ended is abandoned, with its timer running on. -/
def abandonScan (id : Nat) (s : State) : State :=
  match s.ccu.link with
  | .scanning c _ _ t => if c = id then { s with ccu.link := .draining t } else s
  | _ => s

/-- R133 step 4: the verdict in the job record and in the account, with UNCHECKED and MISSED. -/
def writeVerdict (tag : Nat) (v : Verdict) (missed : Bool) (s : State) : State :=
  match slotOf s tag with
  | some slot =>
    updPrint slot (fun a => { a with verdict := some v,
                                     flags.unchecked := a.flags.unchecked || v == .unchecked,
                                     flags.missed := a.flags.missed || missed })
      (updJob slot (fun j => { j with verdict := some v }) s)
  | none => s

/-- R133 step 5: CHECK_CLOSED, and CHECK_FAILED for FAIL and FAIL_LIMIT. -/
def raiseClosed (tag : Nat) (v : Verdict) (s : State) : State :=
  let s1 := raise .checkClosed (some tag) s
  if v = .fail ∨ v = .failLimit then raise .checkFailed (some tag) s1 else s1

/-- R133 steps 1 to 5: the records of a closing check. -/
def closeRecords (id : Nat) (r : Result) (missed : Bool) (s : State) : State :=
  let s1 := updCheck id (Check.close r) (abandonScan id s)
  match (checkAt s id).job with
  | some tag => raiseClosed tag r.verdict (writeVerdict tag r.verdict missed s1)
  | none => s1

/-- R133 step 7: with retain off, the scan's entries at the tail of the ring are released. -/
def releaseScan (n : Nat) (s : State) : State :=
  if s.ccu.retain then s else { s with ccu.ring := s.ccu.ring.take (s.ccu.ring.length - n) }

/-- The readings a running scan of a check has written. -/
def scanWritten (s : State) (id : Nat) : Nat :=
  match s.ccu.link with
  | .scanning c w _ _ => if c = id then w else 0
  | _ => 0

/-! ### Strip events (R128 to R130) -/

/-- R128: the strip start of a check in WAITING_STRIP. -/
def stripStart (id : Nat) (s : State) : State :=
  let p := pos s
  let ms := s.ccu.params.limit * 1000
  updCheck id (fun c =>
    if c.state = .waitingStrip ∧ c.stripStart = none then { c with stripStart := some p, limit := some ms } else c) s

/-- R98: the position of a check's measurement stop. -/
def stopPosition (s : State) (c : Check) (start : Nat) : Nat :=
  start + (match checkSetOf s c with
    | some p => p.rowOffset
    | none => 0) + s.mpc.sOff

/-- R129: a placed stop: the dry timer starts, or the check is ARMED at once with a dry time of 0 (R131). -/
def Check.placed (end_ stop dryMs : Nat) (c : Check) : Check :=
  { c with stripEnd := some end_, stop := some stop, reached := false,
           state := if dryMs = 0 then .armed else .drying, dry := if dryMs = 0 then none else some dryMs }

/-- R129: the strip completion of a check in WAITING_STRIP with a recorded strip start; placed, or missed and closed. A missed check has no stop and no scan, and its job is not WAITING, so that steps 6 to 8 of R133 do nothing here. -/
def stripComplete (id : Nat) (s : State) : State :=
  let c := checkAt s id
  match c.state, c.stripStart with
  | .waitingStrip, some start =>
    let stop := stopPosition s c start
    if stopPlaced s stop then
      reviseSegment (updCheck id (Check.placed (pos s) stop (s.ccu.params.dryTime * 1000)) s)
    else
      closeRecords id Result.unchecked true (updCheck id (fun c => { c with stripEnd := some (pos s) }) s)
  | _, _ => s

/-- R130: the no-strip event. It has no stop and no scan, and its job is ENDING, so that steps 6 to 8 of R133 do nothing here. -/
def noStrip (id : Nat) (s : State) : State :=
  let c := checkAt s id
  if c.state = .waitingStrip ∧ c.stripStart = none then closeRecords id Result.unchecked false s else s

/-! ### The scan start test (R136) -/

/-- R136: whether an ARMED check is short of ring room. -/
def shortOfRing (s : State) (id : Nat) : Bool := decide (ringFree s < checkCount s (checkAt s id))

/-- R136, R174: RING_FULL, not raised again while its cause lasts. -/
def raiseRingFull (id : Nat) (s : State) : State :=
  match (checkAt s id).job with
  | some tag =>
    if s.lc.conds.any (fun e => e.isFor .ringFull (some tag) && e.cause) then s else raise .ringFull (some tag) s
  | none => s

/-- R136: the scan starts in one step. -/
def startScan (id : Nat) (s : State) : State :=
  let n := checkCount s (checkAt s id)
  let width := match s.mpc.roll with
    | some r => r.width
    | none => 0
  send (.scan ((checkAt s id).setId.getD 0) n width)
    { updCheck id (fun c => { c with state := .measuring }) s with
      ccu.link := .scanning id 0 n (2000 + 400 * n) }

/-- R136: the scan start test for a check at whose stop the executor stands. -/
def scanTest (id : Nat) (s : State) : State :=
  if (checkAt s id).state = .armed ∧ standsAt s id = true then
    if shortOfRing s id then raiseRingFull id s
    else if s.ccu.sensor = .ready ∧ s.ccu.link = .idle then startScan id s
    else s
  else s

/-- R136: the measurement stop that MPC has handed to its check: the executor stands at it, its scan begun or not. -/
def heldStop (s : State) : Option Nat :=
  match s.mpc.exec with
  | .atStop _ (.meas c) => some c
  | .off _ (some (.meas c)) => some c
  | _ => none

/-- R136: the scan start test is taken again for the held stop. -/
def retestScan (s : State) : State :=
  match heldStop s with
  | some id => scanTest id s
  | none => s

end Sys2Proof.Machine
end

