-- ==== Sys2Proof/Machine/Jobs.lean ====
section
/-! DEFINITION. The Run Controller's shared operations: strip events (R21), retirement (R20), the end of a job (R23), reports of ended advances (R91), job closing (R26) and the done test (R25). -/

namespace Sys2Proof.Machine

/-- R26: the check record of a closed job is freed, keeping its last results (R126). -/
def Check.release (c : Check) : Check :=
  { Check.blank with job := c.job, verdict := c.verdict, worst := c.worst, mean := c.mean, valid := c.valid,
                     corrections := c.corrections }

def freeCheck (o : Option Nat) (s : State) : State :=
  match o with
  | some id => updCheck id Check.release s
  | none => s

/-- R26: a job with a fixed outcome closes, or waits in CLOSING while the closed-record queue is full. -/
def closeJob (slot : Nat) (o : JobOutcome) (s : State) : State :=
  match jobAt s slot, printAt s slot with
  | some j, some a =>
    if recordsFull s then updJob slot (fun j => { j with state := .closing, outcome := some o }) s
    else
      let s1 := closeAccount a (.job o) s
      setJob slot none (freeCheck j.checkId { s1 with cu.printAccts := s1.cu.printAccts.set slot none })
  | _, _ => s

/-! ### The done test (R25) -/

/-- Whether an entry names the job of a tag among its owners. -/
def CutEntry.names (tag : Nat) (e : CutEntry) : Bool := e.owners.any (fun o => o == .job tag)

/-- R25: whether a job's check lets it be done. -/
def checkDone (s : State) (o : Option Nat) : Bool :=
  match o with
  | some id => (checkAt s id).state == .closed
  | none => true

/-- R25: a WAITING job is done. -/
def isDone (s : State) (slot : Nat) : Bool :=
  match jobAt s slot with
  | some j => j.state == .waiting && checkDone s j.checkId && !s.mpc.cuts.any (CutEntry.names j.tag)
  | none => false

/-- R25: the outcome of a done job. -/
def doneOutcome (j : Job) : JobOutcome :=
  if j.rejectOnFail && (j.verdict == some .fail || j.verdict == some .failLimit) then .rejected else .completed

/-- R25: the done test of a slot. -/
def doneTest (slot : Nat) (s : State) : State :=
  if isDone s slot then
    match jobAt s slot with
    | some j => closeJob slot (doneOutcome j) s
    | none => s
  else s

/-- R133 step 8: the done test of the job that owns a check, by its tag. -/
def doneTestOf (o : Option Nat) (s : State) : State :=
  match o.bind (slotOf s) with
  | some slot => doneTest slot s
  | none => s

/-! ### Strip events, retirement and the end of an advance -/

/-- R21: the strip completes. -/
def completeStrip (slot : Nat) (event : Bool) (j : Job) (s : State) : State :=
  let s1 := updJob slot (fun j => { j with strip := .done }) s
  match j.checkId with
  | some id => if event then stripComplete id s1 else s1
  | none => s1

/-- R21: the strip starts. -/
def beginStrip (slot : Nat) (event : Bool) (j : Job) (s : State) : State :=
  let s1 := updJob slot (fun j => { j with strip := .inStrip }) s
  match j.checkId with
  | some id => if event then stripStart id s1 else s1
  | none => s1

/-- R21: the strip events of a firing swath; no event goes to CCU for a job in ABORTING. -/
def stripEvents (slot : Nat) (kind : SwathKind) (s : State) : State :=
  match jobAt s slot with
  | some j =>
    let event := j.state != .aborting
    if kind = .strip then
      if j.strip = .none then beginStrip slot event j s else s
    else
      if j.strip = .inStrip then completeStrip slot event j s else s
  | none => s

/-- R23: an ENDING job that has no entry in the queue. -/
def readyToEnd (slot : Nat) (s : State) : State :=
  match jobAt s slot with
  | some j =>
    let s1 := match j.strip, j.checkId with
      | .inStrip, _ => completeStrip slot true j s
      | .none, some id => noStrip id s
      | _, _ => s
    if j.tailFeed then s1 else updJob slot (fun j => { j with state := .waiting }) s1
  | none => s

/-- R23: the ready-to-end step of a job whose last entry left the queue. -/
def endIfEmpty (tag : Nat) (s : State) : State :=
  match slotOf s tag with
  | some slot => match jobAt s slot with
    | some j => if j.state = .ending ∧ hasEntry s tag = false then readyToEnd slot s else s
    | none => s
  | none => s

/-- R20: a swath whose advance ended is removed from the queue, and its job's end is continued. -/
def retire (e : QEntry) (s : State) : State :=
  endIfEmpty e.job (roomRose { s with rc.queue := s.rc.queue.filter (fun x => x.queueTag != e.queueTag) })

/-- The entry in ADVANCING. -/
def advancingEntry (s : State) : Option QEntry := s.rc.queue.find? (fun e => e.state == .advancing)

/-- R20, R24, R91: the end of an advance is reported to its requester. -/
def advanceEnded (a : Advance) (s : State) : State :=
  match a.requester, a.owner with
  | .swath, _ => match advancingEntry s with
    | some e => retire e s
    | none => s
  | .tailFeed, .print slot => match jobAt s slot with
    | some j => if j.state = .feeding then updJob slot (fun j => { j with state := .waiting }) s else s
    | none => s
  | _, _ => s

end Sys2Proof.Machine
end

