-- ==== Sys2Proof/Machine/Executor.lean ====
section
/-! DEFINITION. The advance executor and the cutter sequencer: what happens at a stop and after it (R89 to R92, R110 to R116), and the ending of a grant (R15 to R19). -/

namespace Sys2Proof.Machine

/-! ### At a cut stop (R110 to R114) -/

/-- R111: whether a position lies in the open strip span of a check. -/
def Check.spans (p : Nat) (c : Check) : Bool :=
  c.live && (match c.stripStart with
    | some a => decide (a ≤ p) && (match c.stripEnd with
      | some b => decide (p < b)
      | none => true)
    | none => false)

/-- R111: the skip test looks at every check. -/
def skipTest (s : State) (p : Nat) : Bool := s.ccu.checks.any (Check.spans p)

/-- The tags of the print jobs among an entry's owners. -/
def ownerTags (l : List CutOwner) : List Nat :=
  l.filterMap (fun o => match o with
    | .job t => some t
    | .house => none)

/-- R111: CUT_SKIPPED for each print job among the owners, or once without subject for HOUSE alone. -/
def raiseSkipped (owners : List CutOwner) (s : State) : State :=
  match ownerTags owners with
  | [] => raise .cutSkipped none s
  | t :: l => (t :: l).foldl (fun s t => raise .cutSkipped (some t) s) s

/-- R111: the cut at a position is skipped. -/
def skipCut (p : Nat) (s : State) : State :=
  match cutAt s p with
  | some e => raiseSkipped e.owners (removeCut p s)
  | none => s

/-- R112: the check that guards an entry and is not CLOSED. -/
def guardCheck (s : State) (e : CutEntry) : Option Nat :=
  match e.guard with
  | some id => if (checkAt s id).live then some id else none
  | none => none

/-- R112: the measurement stop lies beyond a cut stop, or is not yet created. -/
def stopBeyond (c : Check) (cutStop : Nat) : Bool :=
  match c.stop with
  | some q => decide (cutStop < q)
  | none => true

/-- R112: GUARD_LOST on the account of the job that holds a check. -/
def guardLost (id : Nat) (s : State) : State :=
  match (checkAt s id).job.bind (slotOf s) with
  | some slot => updPrint slot (fun a => { a with flags.guardLost := true }) s
  | none => s

/-- R112: the guard test of the entry at a position. -/
def guardTest (p : Nat) (s : State) : State :=
  match cutAt s p with
  | some e => match guardCheck s e with
    | some id =>
      if stopBeyond (checkAt s id) (cutStop s e) then guardLost id (updCut p (fun e => { e with guard := none }) s) else s
    | none => s
  | none => s

/-- R114: the stroke condition for the entry at a position. -/
def strokeCondition (s : State) (p : Nat) : Bool :=
  (match s.mpc.exec with
    | .atStop _ (.cut q) => q == p
    | _ => false)
  && (match cutAt s p with
    | some e => e.state == .due && (guardCheck s e).isNone
    | none => false)
  && s.mpc.cutter == .ready && !unsettled s && !held s

/-- R114: the stroke starts. -/
def startStroke (p : Nat) (s : State) : State :=
  { updCut p (fun e => { e with state := .cutting }) s with
    mpc.cutter := .stroke false, mpc.strokeTimer := some Config.strokeTime }

/-- R114: the stroke starts where its condition holds. -/
def strokeTry (p : Nat) (s : State) : State := if strokeCondition s p then startStroke p s else s

/-- R114, R118: the stroke condition is taken again for the entry at the executor's stop. -/
def retestStroke (s : State) : State :=
  match s.mpc.exec with
  | .atStop _ (.cut p) => strokeTry p s
  | _ => s

/-! ### The executor (R91, R92) -/

/-- R91, R92, R110: from the P of the moment: the first reached stop, or a new segment, or the end of the advance. The number bounds the cuts that may be skipped on the way. -/
def proceed : Nat → Advance → State → State
  | 0, _, s => s
  | n + 1, a, s =>
    match firstReached s with
    | some (.meas id) => scanTest id (setExec (.atStop a (.meas id)) s)
    | some (.cut p) =>
      if skipTest s p then proceed n a (skipCut p (setExec (.atStop a (.cut p)) s))
      else strokeTry p (guardTest p (setExec (.atStop a (.cut p)) s))
    | none => if pos s < a.target then startSegment a s else advanceEnded a (setExec .idle s)

/-- R91: each cut is skipped at most once. -/
def runOn (a : Advance) (s : State) : State := proceed (s.mpc.cuts.length + 1) a s

/-- R92: a stop that left the list is released. -/
def resolveStop (s : State) : State :=
  match s.mpc.exec with
  | .atStop a r => if inStopList s r then s else runOn a s
  | .off a (some r) => if inStopList s r then s else setExec (.off a none) s
  | _ => s

/-- R117: the sequencer makes its tests again for the stop at which the executor stands. -/
def retestCut (s : State) : State :=
  match s.mpc.exec with
  | .atStop a (.cut p) => match cutAt s p with
    | some e =>
      if e.state = .due then
        if skipTest s p then resolveStop (skipCut p s) else strokeTry p (guardTest p (setExec (.atStop a (.cut p)) s))
      else s
    | none => s
  | _ => s

/-- R89: the subject of ROLL_END: the job tag of a print account, none for the house. -/
def ownerTag (s : State) (o : Owner) : Option Nat :=
  match o with
  | .print slot => (jobAt s slot).map (fun j => j.tag)
  | .house => none

/-- R89: the advance for a distance, its target clamped at the loaded length. -/
def newAdvance (s : State) (o : Owner) (r : Requester) (d : Nat) : Advance :=
  { owner := o, requester := r, target := min (loadedLength s) (pos s + d),
    clamped := decide (loadedLength s < pos s + d) }

/-- R89, R97: the executor takes an advance: ROLL_END where clamped; OFF during a supply hold. Where a reached stop already stands in the list, which R107 says does not arise and a cut gone DUE in a soft reset's settle window brings about, R89's first segment is not begun: the executor goes AT_STOP at that stop at once (DESIGN CHOICE, log 35). -/
def takeAdvance (o : Owner) (r : Requester) (d : Nat) (s : State) : State :=
  let a := newAdvance s o r d
  let s1 := if a.clamped then raise .rollEnd (ownerTag s o) s else s
  if held s then setExec (.off a none) s1 else runOn a s1

/-! ### Closing a check in full (R133) -/

/-- R133: the records (steps 1 to 5), the release of the stop, the ring, and the done test of the check's job; then the scan start test of a stop held for ring room. -/
def closeCheck (id : Nat) (r : Result) (n : Nat) (s : State) : State :=
  retestScan (doneTestOf (checkAt s id).job
    (releaseScan n (resolveStop (reviseSegment (closeRecords id r false s)))))

/-- R132, R28, R99: a check that is not CLOSED closes UNCHECKED, abandoning its scan. -/
def closeUnchecked (id : Nat) (s : State) : State :=
  if (checkAt s id).live then closeCheck id Result.unchecked (scanWritten s id) s else s

/-! ### The ending of a grant (R15, R16) -/

/-- R15 step 2, R16: the charges and the swath booked to the job's account. -/
def bookSwath (broken : Bool) (e : QEntry) (a : Account) : Account :=
  let a1 := addInks ((e.charges.getD []).map (fun r => (r.channel, r.charge))) a
  if broken then countBroken (e.kind == .strip) a1 else countFired (e.kind == .strip) a1

/-- R15, R16: the job's count. -/
def countSwath (broken : Bool) (j : Job) : Job :=
  if broken then { j with broken := bump j.broken } else { j with fired := bump j.fired }

/-- R15 step 4: the swath advances, or is retired at once. -/
def advanceSwath (slot : Nat) (e : QEntry) (s : State) : State :=
  let s1 := updEntry e.queueTag (fun e => { e with state := .advancing }) s
  if e.advance = 0 then retire e s1 else takeAdvance (.print slot) .swath e.advance s1

/-- R15, R16: the grant of an entry ends as FIRED or BROKEN. -/
def endGrant (broken : Bool) (e : QEntry) (s : State) : State :=
  let s1 := updEntry e.queueTag (fun e => { e with state := .fired }) { s with rc.fireTimer := none }
  let s2 := commit (e.charges.getD []) s1
  match slotOf s2 e.job with
  | some slot =>
    let s3 := updJob slot (countSwath broken) (updPrint slot (bookSwath broken e) s2)
    let s4 := if broken then raise .swathBroken (some e.job) s3 else s3
    advanceSwath slot e (stripEvents slot e.kind s4)
  | none => s2

/-- R16, R18, R19: a grant in flight ends as BROKEN. -/
def breakGrant (s : State) : State :=
  match grantedEntry s with
  | some e => endGrant true e s
  | none => s

end Sys2Proof.Machine
end

