-- ==== Sys2Proof/Machine/Settle.lean ====
section
/-! DEFINITION. What the part does of its own accord at the end of a command (log 18): released stops (R92), aborted jobs finished (R27, R28), done tests (R25) that are still due, the tail feed decision (R24), and then admission (R9 to R12). -/

namespace Sys2Proof.Machine

/-! ### Finishing an aborted job (R28, R109) -/

/-- R109: what the finish of an aborted job leaves of a cut entry. -/
def CutEntry.strike (tag : Nat) (checkId : Option Nat) (e : CutEntry) : Option CutEntry :=
  if e.names tag then
    if e.owners.length = 1 then
      if e.state = .cutting then some { e with owners := [.house], guard := none } else none
    else
      some { e with owners := e.owners.filter (fun o => o != .job tag)
                    guard := if e.guard = checkId then none else e.guard }
  else some e

/-- R28 step 1, R109: the cut list without the aborted job. Every entry is dealt with before the stop at which the executor stands is released (DESIGN CHOICE, log 39). -/
def strikeCuts (tag : Nat) (checkId : Option Nat) (s : State) : State :=
  resolveStop (reviseSegment { s with mpc.cuts := s.mpc.cuts.filterMap (CutEntry.strike tag checkId) })

/-- R28 step 2: the job's check closes UNCHECKED where it is not CLOSED. -/
def closeOwnCheck (o : Option Nat) (s : State) : State :=
  match o with
  | some id => closeUnchecked id s
  | none => s

/-- Whether the advance in hand is the tail feed of a slot's job. -/
def feedsSlot (s : State) (slot : Nat) : Bool :=
  match s.mpc.exec.advance with
  | some a => a.requester == .tailFeed && a.owner == .print slot
  | none => false

/-- R27: an ABORTING job with no entry in the queue and no feed advance running. -/
def abortReady (s : State) (slot : Nat) : Bool :=
  match jobAt s slot with
  | some j => j.state == .aborting && !hasEntry s j.tag && !feedsSlot s slot
  | none => false

/-- R28: an aborted job is finished. -/
def finishAborted (slot : Nat) (s : State) : State :=
  if abortReady s slot then
    match jobAt s slot with
    | some j => closeJob slot .aborted (closeOwnCheck j.checkId (strikeCuts j.tag j.checkId s))
    | none => s
  else s

/-! ### The tail feed decision (R24) -/

/-- R23: an ENDING job that waits for its tail feed decision. -/
def awaitsFeed (s : State) (o : Option Job) : Bool :=
  match o with
  | some j => j.state == .ending && j.tailFeed && !hasEntry s j.tag
  | none => false

/-- R24: the stops that a tail feed reaches for: the cut stops of the job's entries, and its measurement stop beyond P. -/
def feedStops (s : State) (j : Job) : List Nat :=
  (s.mpc.cuts.filter (CutEntry.names j.tag)).map (cutStop s) ++
    (match j.checkId with
      | some id => if (checkAt s id).live then ((checkAt s id).stop.toList).filter (fun p => decide (pos s < p)) else []
      | none => [])

/-- R24: the slot whose tail feed decision is taken. -/
def feedSlot (s : State) : Option Nat :=
  if s.mpc.exec = .idle ∧ (grantedEntry s).isNone then s.rc.jobs.findIdx? (awaitsFeed s) else none

/-- R24: the tail feed decision of one waiting job. -/
def decideFeed (slot : Nat) (s : State) : State :=
  match jobAt s slot with
  | some j =>
    let target := (feedStops s j).foldl max 0
    if pos s < target then
      takeAdvance (.print slot) .tailFeed (target - pos s) (updJob slot (fun j => { j with state := .feeding }) s)
    else updJob slot (fun j => { j with state := .waiting }) s
  | none => s

/-- R24: the tail feed decision, where one is due. -/
def tailFeed (s : State) : State :=
  match feedSlot s with
  | some slot => decideFeed slot s
  | none => s

/-! ### The reactions -/

/-- R92: the executor stands at a stop that has left the list. -/
def stopFree (s : State) : Bool :=
  match s.mpc.exec with
  | .atStop _ r => !inStopList s r
  | .off _ (some r) => !inStopList s r
  | _ => false

/-- Nothing is left to react to. -/
def quiet (s : State) : Bool :=
  !stopFree s && (List.range Config.jobSlots).all (fun i => !abortReady s i && !isDone s i) && (feedSlot s).isNone

/-- One round of reactions. -/
def pass (s : State) : State :=
  let s1 := (List.range Config.jobSlots).foldl (fun s i => finishAborted i s) (resolveStop s)
  tailFeed ((List.range Config.jobSlots).foldl (fun s i => doneTest i s) s1)

/-- The reactions, round by round until nothing is left. -/
def react : Nat → State → State
  | 0, s => s
  | n + 1, s => if quiet s then s else react n (pass s)

/-! ### Admission (R9 to R12) -/

/-- R9: the media path is idle. -/
def pathIdle (s : State) : Bool :=
  (match s.mpc.exec with
    | .moving _ _ => false
    | .atStop _ _ => false
    | _ => true)
  && !goAsserted s && s.ccu.checks.all (fun c => c.state != .measuring)

/-- Whether a slot holds a FEEDING job. -/
def isFeeding (o : Option Job) : Bool :=
  match o with
  | some j => j.state == .feeding
  | none => false

/-- R9: the head swath that is considered for a grant. -/
def considered (s : State) : Option QEntry :=
  match s.rc.queue with
  | [] => none
  | e :: _ =>
    if e.state = .queued ∧ (grantedEntry s).isNone ∧ pathIdle s = true ∧ s.rc.jobs.any isFeeding = false
        ∧ s.rc.jobs.any (awaitsFeed s) = false then some e
    else none

/-- R10 tests 1 to 8. -/
def pathHold (s : State) (j : Job) (e : QEntry) : Option HoldReason :=
  if held s then some .supplyHold
  else if unsettled s then some .coverOpen
  else if s.rc.head ≠ .ready then some .headNotReady
  else if s.mpc.cutter = .jammed then some .cutterJammed
  else match s.mpc.exec with
    | .stalled _ => some .feedStalled
    | _ => match s.mpc.roll with
      | none => some .noRoll
      | some r =>
        if r.media ≠ j.media then some .wrongMedia
        else if r.length - r.pos < e.advance then some .rollEnd
        else none

/-- R10, R39: a channel's charge for the head swath. -/
def testCharge (s : State) (e : QEntry) (c : Nat) : Nat := chargeNow s c (dropCounts e.drops c)

/-- R10 test 12: the level less the charge is below the floor. -/
def shortOfInk (s : State) (e : QEntry) (c : Nat) : Bool :=
  match (chanAt s c).level with
  | some l => decide (l < (chanAt s c).cfg.floor + testCharge s e c)
  | none => false

/-- R10 tests 9 to 12, each over all channels of the drop list before the next. -/
def inkHold (s : State) (e : QEntry) : Option HoldReason :=
  let chans := dropChannels e.drops
  match chans.find? (fun c => !(chanAt s c).enabled) with
  | some c => some (.channelOff c)
  | none => match chans.find? (fun c => (chanAt s c).level.isNone) with
    | some c => some (.inkUnknown c)
    | none => match chans.find? (fun c => decide ((chanAt s c).cfg.full - (chanAt s c).cfg.floor < testCharge s e c)) with
      | some c => some (.inkNever c)
      | none => match chans.find? (shortOfInk s e) with
        | some c => some (.inkWait c)
        | none => none

/-- R10: the first hold reason that applies. -/
def holdReason (s : State) (j : Job) (e : QEntry) : Option HoldReason :=
  match pathHold s j e with
  | some r => some r
  | none => inkHold s e

/-- R11: the reasons that place refill requests. -/
def HoldReason.asksInk : HoldReason → Bool
  | .inkUnknown _ => true
  | .inkWait _ => true
  | _ => false

/-- R11: the channels that are requested. -/
def wantsInk (s : State) (e : QEntry) (c : Nat) : Bool :=
  (chanAt s c).enabled && ((chanAt s c).level.isNone || shortOfInk s e c)

/-- R11: the refill requests of a hold. -/
def askInk (r : HoldReason) (e : QEntry) (s : State) : State :=
  if r.asksInk then
    ((dropChannels e.drops).filter (wantsInk s e)).foldl (fun t c => placeRequest c false t) s
  else s

/-- R11: a hold reason is recorded, with JOB_HELD where it is new. -/
def recordHold (slot : Nat) (j : Job) (e : QEntry) (r : HoldReason) (s : State) : State :=
  let s1 := updJob slot (fun j => { j with hold := some r }) s
  askInk r e (if j.hold = some r then s1 else raise .jobHeld (some j.tag) s1)

/-- R12: the grant of the head swath. -/
def grant (slot : Nat) (e : QEntry) (s : State) : State :=
  let s1 := updEntry e.queueTag
    (fun x => { x with state := .granted, charges := some (chargesNow s e.drops), revoked := some false }) s
  let s2 := updJob slot (fun j => { j with hold := none }) (reserve e.drops s1)
  send (.grant e.queueTag e.number e.kind) { s2 with rc.fireTimer := some Config.fireTime }

/-- The levels that admission reads. -/
def levels (s : State) : List (Option Nat) := s.isc.chans.map (fun c => c.level)

/-- R9 to R12: admission of the head swath; taken again where a refill that ended at once changed a level. -/
def admission : Nat → State → State
  | 0, s => s
  | n + 1, s =>
    match considered s with
    | none => s
    | some e => match slotOf s e.job with
      | none => s
      | some slot => match jobAt s slot with
        | none => s
        | some j => match holdReason s j e with
          | none => grant slot e s
          | some r =>
            let t := recordHold slot j e r s
            if levels t = levels s then t else admission n t

/-- The end of a command that may move the part: the reactions, admission, and the causes that ended. -/
def settle (s : State) : State := syncCauses (admission 11 (react 64 s))

end Sys2Proof.Machine
end

