-- ==== Sys2Proof/Machine/Request.lean ====
section
/-! DEFINITION. How every request is carried out and answered (R106, R189 step 3, R191): what the request does, the code it is answered with, and the plan interruption. -/

namespace Sys2Proof.Machine

/-- What a request's rule gives: the state it leaves, the reply code, what an OK reply carries, and whether the rule itself sets the PLAN_RESET mark. -/
structure Taken where
  state : State
  code : Code
  body : Body
  mark : Bool
deriving DecidableEq, Repr

/-- A request that is taken, with the fields of its OK reply. -/
def accept (b : Body) (s : State) : Taken := { state := s, code := .ok, body := b, mark := false }

/-- A request that is refused changes nothing (R191). -/
def refuse (c : Code) (s : State) : Taken := { state := s, code := c, body := .none, mark := false }

/-- R186: the kind byte of a reply. A frame whose kind is 0x80 or above leaves no room for kind plus 0x80 in a byte, and the manual does not say what its UNKNOWN or LINK_BUSY reply carries: the sum wraps modulo 256 (DESIGN CHOICE, log 37). -/
def replyKind (kind : Nat) : Byte := BitVec.ofNat 8 (kind + 128)

/-- R189 step 3: the reply becomes the formed reply (log 1, log 2). -/
def form (kind : Nat) (ft : Byte) (mark : Bool) (t : Taken) : State :=
  { t.state with lc.formed := t.state.lc.formed ++ [⟨replyKind kind, ft, t.code, mark || t.mark, t.body⟩] }

/-- R106: whether a sheet plan is held. -/
def planHeld (s : State) : Bool := s.mpc.plan != .empty

/-- R106: the plan goes EMPTY. -/
def dropPlan (s : State) : State := { s with mpc.plan := .empty }

/-- A request that interrupts a sheet plan (R106): the plan is emptied first, and the reply carries the mark. -/
def carryOut (kind : Nat) (ft : Byte) (f : State → Taken) (s : State) : State :=
  form kind ft (planHeld s) (f (dropPlan (begin s)))

/-- A request that leaves the plan to its own rule: the reads, STATUS and the sheet plan requests (R106). -/
def carryKeep (kind : Nat) (ft : Byte) (f : State → Taken) (s : State) : State := form kind ft false (f (begin s))

/-- The end of a request that may move the part: its reactions and admission. -/
def Taken.settled (t : Taken) : Taken := { t with state := settle t.state }

end Sys2Proof.Machine
end

