-- ==== Sys2Proof/Machine/CheckRequests.lean ====
section
/-! DEFINITION. The requests of the Colour Check Unit: PATCHSET_LOAD, RING_RETAIN, RING_READ, RING_RELEASE, CHECK_SET and CHECK_GET (R124, R125, R127, R140 to R142). -/

namespace Sys2Proof.Machine

/-! ### PATCHSET_LOAD (R124) -/

/-- R198: a density patch names its channel; 255 stands for a colour patch. -/
def patchChannel (n : Nat) : Option Nat := if n = 255 then none else some n

/-- R198: the patch entry in seven bytes. -/
def readPatch (l : List Byte) : Patch :=
  { l := fieldAt 0 2 l, a := signed16 (fieldAt 2 2 l), b := signed16 (fieldAt 4 2 l), channel := patchChannel (fieldAt 6 1 l) }

/-- R198: `k` patch entries in index order. -/
def readPatches : Nat → List Byte → List Patch
  | 0, _ => []
  | k + 1, l => readPatch l :: readPatches k (l.drop 7)

/-- R198: the patch set after the id and count bytes. -/
def readSet (k : Nat) (body : List Byte) : PatchSet :=
  { rowOffset := fieldAt 0 2 body, patchTol := fieldAt 2 2 body, meanTol := fieldAt 4 2 body,
    patches := readPatches k (body.drop 6) }

/-- A signed value inside an inclusive range. -/
def inRangeInt (lo hi n : Int) : Bool := decide (lo ≤ n) && decide (n ≤ hi)

/-- R124 test 5: one patch inside its ranges. -/
def patchOk (p : Patch) : Bool :=
  inRangeInt 0 10000 p.l && inRangeInt (-12800) 12799 p.a && inRangeInt (-12800) 12799 p.b
    && (match p.channel with
      | some c => decide (c < Config.channels)
      | none => true)

/-- R124 test 5: every field of the set inside its range. -/
def setOk (p : PatchSet) : Bool :=
  decide (p.rowOffset ≤ 600) && decide (1 ≤ p.patchTol) && decide (p.patchTol ≤ 2000) && decide (1 ≤ p.meanTol)
    && decide (p.meanTol ≤ 2000) && p.patches.all patchOk

/-- R124 test 2: the length of the payload after the id and count bytes. -/
def setBodyLength (count : Nat) : Nat := if count = 0 then 0 else 6 + 7 * count

/-- R124 test 4: the set is named by a live print job. -/
def setNamed (s : State) (setId : Nat) : Bool :=
  s.rc.jobs.any (fun o => match o with
    | some j => j.setId == some setId
    | none => false)

/-- R124: a set is replaced whole, or made not loaded. -/
def storeSet (setId : Nat) (o : Option PatchSet) (s : State) : State :=
  markChanged { s with ccu.sets := s.ccu.sets.set setId o }

/-- R124: the tests of PATCHSET_LOAD in order. -/
def takePatchsetLoad (setId count : Nat) (body : List Byte) (s : State) : Taken :=
  if 3 < setId ∨ 24 < count then refuse .range s
  else if body.length ≠ setBodyLength count then refuse .malformed s
  else if saving s then refuse .busy s
  else if setNamed s setId then refuse .busy s
  else if count = 0 then accept (.setLoaded setId false) (storeSet setId none s)
  else if !setOk (readSet count body) then refuse .range s
  else accept (.setLoaded setId true) (storeSet setId (some (readSet count body)) s)

/-- PATCHSET_LOAD (R124). -/
def doPatchsetLoad (ft : Byte) (setId count : Nat) (body : List Byte) (s : State) : State :=
  carryOut 0x1F ft (takePatchsetLoad setId count body) s

/-! ### The ring (R140 to R142) -/

/-- R140: RING_RETAIN sets the setting; another encoding is MALFORMED (R198). -/
def takeRingRetain (setting : Nat) (s : State) : Taken :=
  if setting = 0 then accept (.ringHeld s.ccu.ring.length) { s with ccu.retain := false }
  else if setting = 1 then accept (.ringHeld s.ccu.ring.length) { s with ccu.retain := true }
  else refuse .malformed s

/-- RING_RETAIN (R140). -/
def doRingRetain (ft : Byte) (setting : Nat) (s : State) : State := carryOut 0x21 ft (takeRingRetain setting) s

/-- R141: the entries at places `offset` up to `offset + count - 1` that are held. -/
def takeRingRead (offset count : Nat) (s : State) : Taken :=
  accept (.ringEntries ((s.ccu.ring.drop offset).take count) s.ccu.ring.length) s

/-- RING_READ (R141). -/
def doRingRead (ft : Byte) (offset count : Nat) (s : State) : State := carryOut 0x22 ft (takeRingRead offset count) s

/-- R142: the entries held by a scan in progress. -/
def scanHeld (s : State) : Nat :=
  match s.ccu.link with
  | .scanning _ w _ _ => w
  | _ => 0

/-- R142: the number released: the number asked, clamped to the entries held outside a scan in progress. -/
def releasable (n : Nat) (s : State) : Nat := min n (s.ccu.ring.length - scanHeld s)

/-- R142: the oldest entries leave the ring, and the scan start test is taken again. -/
def takeRingRelease (n : Nat) (s : State) : Taken :=
  let k := releasable n s
  (accept (.ringReleased k (s.ccu.ring.length - k)) (retestScan { s with ccu.ring := s.ccu.ring.drop k })).settled

/-- RING_RELEASE (R142). -/
def doRingRelease (ft : Byte) (n : Nat) (s : State) : State := carryOut 0x23 ft (takeRingRelease n) s

/-! ### CHECK_SET and CHECK_GET (R125, R127) -/

/-- R125: every parameter inside its range. -/
def paramsOk (p : CheckParams) : Bool :=
  p.sens.all (fun n => decide (n ≤ 255)) && decide (p.maxStep ≤ 256) && decide (p.maxInvalid ≤ 24)
    && decide (p.dryTime ≤ 600) && decide (60 ≤ p.limit) && decide (p.limit ≤ 3600)

/-- R125: the tests of CHECK_SET; ten sensitivities make up the payload (R198). -/
def takeCheckSet (p : CheckParams) (s : State) : Taken :=
  if p.sens.length ≠ 10 then refuse .malformed s
  else if !paramsOk p then refuse .range s
  else if saving s then refuse .busy s
  else accept (.params p) (markChanged { s with ccu.params := p })

/-- CHECK_SET (R125). -/
def doCheckSet (ft : Byte) (p : CheckParams) (s : State) : State := carryOut 0x24 ft (takeCheckSet p) s

/-- R127: every field of a check record's table with its id; a free record shows the fields kept from its last check. -/
def checkReport (s : State) (id : Nat) : CheckReport :=
  let c := checkAt s id
  { id := id, job := c.job, policy := c.policy, setId := c.setId, state := c.state, stripStart := c.stripStart,
    stripEnd := c.stripEnd, stop := c.stop, dry := c.dry, limit := c.limit, verdict := c.verdict, worst := c.worst,
    mean := c.mean, valid := c.valid, corrections := c.corrections }

/-- R127: the reply of CHECK_GET. -/
def takeCheckGet (id : Nat) (s : State) : Taken :=
  if 3 < id then refuse .range s else accept (.check (checkReport s id)) s

/-- CHECK_GET (R127). -/
def doCheckGet (ft : Byte) (id : Nat) (s : State) : State := carryOut 0x25 ft (takeCheckGet id) s

/-! ### The meanings -/

/-- PATCHSET_LOAD (R124). -/
def execPatchsetLoad (ft : Byte) (setId : Nat) (count : Nat) (body : List Byte) (s : State) : Host.Outcome State Fault Refusal :=
  .next (doPatchsetLoad ft setId count body s)

/-- RING_RETAIN (R140). -/
def execRingRetain (ft : Byte) (setting : Nat) (s : State) : Host.Outcome State Fault Refusal :=
  .next (doRingRetain ft setting s)

/-- RING_READ (R141). -/
def execRingRead (ft : Byte) (offset : Nat) (count : Nat) (s : State) : Host.Outcome State Fault Refusal :=
  .next (doRingRead ft offset count s)

/-- RING_RELEASE (R142). -/
def execRingRelease (ft : Byte) (n : Nat) (s : State) : Host.Outcome State Fault Refusal :=
  .next (doRingRelease ft n s)

/-- CHECK_SET (R125). -/
def execCheckSet (ft : Byte) (params : CheckParams) (s : State) : Host.Outcome State Fault Refusal :=
  .next (doCheckSet ft params s)

/-- CHECK_GET (R127). -/
def execCheckGet (ft : Byte) (check : Nat) (s : State) : Host.Outcome State Fault Refusal :=
  .next (doCheckGet ft check s)

end Sys2Proof.Machine
end

