-- ==== Sys2Proof/Machine/JobRequests.lean ====
section
/-! DEFINITION. The requests of the Run Controller: JOB_OPEN, SWATH_PUT, JOB_END, JOB_ABORT and QUEUE_MARK (R2, R4 to R8, R22, R27). -/

namespace Sys2Proof.Machine

/-! ### JOB_OPEN (R2) -/

/-- R2: the check policy a byte names. -/
def policyOf : Nat → Option Policy
  | 0 => some .none
  | 1 => some .verify
  | 2 => some .adjust
  | _ => none

/-- R2, R166: a tag that is live as a print job or open as a quote. -/
def tagInUse (s : State) (tag : Nat) : Bool := (slotOf s tag).isSome || (quoteSlotOf s tag).isSome

/-- R126: the lowest-numbered free check record. -/
def freeCheckId (s : State) : Option Nat := s.ccu.checks.findIdx? (fun c => c.state == .free)

/-- R1: the lowest-numbered free job slot. -/
def freeSlot (s : State) : Option Nat := s.rc.jobs.findIdx? (fun o => o.isNone)

/-- R2: the job record of an accepted JOB_OPEN. -/
def newJob (tag media : Nat) (policy : Policy) (setId : Nat) (check : Option Nat) (flags : Nat) : Job :=
  { tag := tag, state := .opened, media := media, policy := policy, rejectOnFail := flags.testBit 0,
    tailFeed := flags.testBit 1, setId := if policy = .none then none else some setId, checkId := check,
    strip := .none, put := .none, accepted := 0, fired := 0, broken := 0, withdrawn := 0, hold := none,
    verdict := none, outcome := none }

/-- R126: the record of a check allocated to a job. -/
def Check.allocated (tag : Nat) (policy : Policy) (setId : Nat) : Check :=
  { Check.blank with state := .waitingStrip, job := some tag, policy := some policy, setId := some setId }

/-- R2: the acceptance of JOB_OPEN into a slot, with its check where the policy asks for one. -/
def openJob (slot : Nat) (check : Option Nat) (tag media : Nat) (policy : Policy) (setId flags : Nat) (s : State) : State :=
  let s1 := setJob slot (some (newJob tag media policy setId check flags)) s
  let s2 := match check with
    | some id => updCheck id (fun _ => Check.allocated tag policy setId) s1
    | none => s1
  { s2 with cu.printAccts := s2.cu.printAccts.set slot (some (Account.opened .print (some tag) media s.isc.gainGen)) }

/-- R2: the tests of JOB_OPEN in order. -/
def takeJobOpen (tag media policy setId flags : Nat) (s : State) : Taken :=
  match policyOf policy with
  | none => refuse .range s
  | some p =>
    if tag = 0 ∨ 255 < tag ∨ 15 < media ∨ (p ≠ .none ∧ 3 < setId) then refuse .range s
    else if tagInUse s tag then refuse .range s
    else if p ≠ .none ∧ (setAt s setId).isNone then refuse .range s
    else match freeSlot s with
      | none => refuse .full s
      | some slot =>
        if p = .none then accept (.jobOpened slot none) (openJob slot none tag media p setId flags s)
        else match freeCheckId s with
          | none => refuse .full s
          | some id => accept (.jobOpened slot (some id)) (openJob slot (some id) tag media p setId flags s)

/-- JOB_OPEN (R2). -/
def doJobOpen (ft : Byte) (tag media policy setId flags : Nat) (s : State) : State :=
  carryOut 0x09 ft (takeJobOpen tag media policy setId flags) s

/-! ### SWATH_PUT (R4 to R7) -/

/-- R5: the swath kind a byte names. -/
def kindOf : Nat → Option SwathKind
  | 0 => some .image
  | 1 => some .strip
  | 2 => some .blank
  | _ => none

/-- R5 test 4: a drop entry inside its ranges. -/
def dropOk (d : DropEntry) : Bool :=
  decide (d.channel < Config.channels) && decide (d.size < 3) && d.count != 0 && decide (d.count ≤ Config.countMax)

/-- R5 test 4: no (channel, size class) pair repeats. -/
def noRepeat : List DropEntry → Bool
  | [] => true
  | d :: t => !t.any (fun x => x.channel == d.channel && x.size == d.size) && noRepeat t

/-- R5 test 4: the kind of a well-formed descriptor. -/
def swathKind (d : Descriptor) : Option SwathKind :=
  match kindOf d.kind with
  | some k => if d.drops.all dropOk && noRepeat d.drops && !(k == .blank && !d.drops.isEmpty) then some k else none
  | none => none

/-- R40: a channel of the drop list fails the oversize bound. -/
def oversize (s : State) (drops : List DropEntry) : Bool :=
  (dropChannels drops).any (fun c =>
    decide ((chanAt s c).cfg.full - (chanAt s c).cfg.floor < oversizeBound (rawVolume (dropCounts drops c) (chanAt s c).cfg)))

/-- R4: a queue tag that an entry or the stale tag uses. -/
def tagTaken (s : State) (t : Nat) : Bool := s.rc.queue.any (fun e => e.queueTag == t) || s.rc.stale == some t

/-- R4: the queue tag assigned: the first value from the counter on that is not used. -/
def nextTag (s : State) : Nat :=
  (((List.range 256).map (fun i => (s.rc.tagCounter + i) % 256)).find? (fun t => !tagTaken s t)).getD s.rc.tagCounter

/-- R6: the put phase after an accepted swath. -/
def PutPhase.next (k : SwathKind) : PutPhase → PutPhase
  | .none => if k = .strip then .strip else .none
  | .strip => if k = .strip then .strip else .after
  | .after => .after

/-- R5: the queue entry of an accepted descriptor. -/
def newEntry (d : Descriptor) (k : SwathKind) (queueTag : Nat) : QEntry :=
  { job := d.jobTag, number := d.number, kind := k, advance := d.advance, drops := d.drops, queueTag := queueTag,
    state := .queued, charges := none, revoked := none }

/-- R7: the below-mark flag after the free entries fell. -/
def markBelow (s : State) : State :=
  if queueFree s < s.rc.queueMark then { s with rc.belowMark := true } else s

/-- R5: the acceptance of a swath. -/
def putSwath (slot : Nat) (d : Descriptor) (k : SwathKind) (s : State) : State :=
  let t := nextTag s
  let s1 := { s with rc.queue := s.rc.queue ++ [newEntry d k t], rc.tagCounter := (t + 1) % 256 }
  markBelow (updJob slot (fun j => { j with accepted := bump j.accepted, put := j.put.next k }) s1)

/-- R5: the tests of SWATH_PUT in order. -/
def takeSwathPut (d : Descriptor) (s : State) : Taken :=
  match slotOf s d.jobTag with
  | none => refuse .noJob s
  | some slot => match jobAt s slot with
    | none => refuse .noJob s
    | some j =>
      if j.state ≠ .opened then refuse .notNow s
      else if Config.queueSize ≤ s.rc.queue.length then refuse .full s
      else match swathKind d with
        | none => refuse .malformed s
        | some k =>
          if 3000 < d.advance ∨ oversize s d.drops = true then refuse .range s
          else if k = .strip ∧ j.put = .after then refuse .notNow s
          else
            let s1 := putSwath slot d k s
            (accept (.swathPut (nextTag s) (queueFree s1)) s1).settled

/-- SWATH_PUT (R5). -/
def doSwathPut (ft : Byte) (d : Descriptor) (s : State) : State := carryOut 0x0A ft (takeSwathPut d) s

/-! ### JOB_END (R22) -/

/-- R22: the tests of JOB_END, and an OPEN job going ENDING. -/
def takeJobEnd (tag : Nat) (s : State) : Taken :=
  match slotOf s tag with
  | none => refuse .noJob s
  | some slot => match jobAt s slot with
    | none => refuse .noJob s
    | some j =>
      if j.state ≠ .opened then refuse .notNow s
      else (accept .none (endIfEmpty tag (updJob slot (fun j => { j with state := .ending }) s))).settled

/-- JOB_END (R22). -/
def doJobEnd (ft : Byte) (tag : Nat) (s : State) : State := carryOut 0x0B ft (takeJobEnd tag) s

/-! ### JOB_ABORT (R27) -/

/-- R27: the QUEUED entries of a job. -/
def queuedOf (tag : Nat) (s : State) : List QEntry := s.rc.queue.filter (fun e => e.job == tag && e.state == .queued)

/-- R27 step 1: the QUEUED entries leave the queue, and the free entries rise where there were any. -/
def withdraw (slot tag : Nat) (s : State) : State :=
  let n := (queuedOf tag s).length
  let s1 := updJob slot (fun j => { j with withdrawn := satAdd Config.count32Max j.withdrawn n, hold := none })
    { s with rc.queue := s.rc.queue.filter (fun e => !(e.job == tag && e.state == .queued)) }
  if n = 0 then s1 else roomRose s1

/-- R27 step 3: REVOKE for the job's GRANTED entry. -/
def revokeGrant (tag : Nat) (s : State) : State :=
  match grantedEntry s with
  | some e =>
    if e.job = tag then send (.revoke e.queueTag) (updEntry e.queueTag (fun e => { e with revoked := some true }) s) else s
  | none => s

/-- R27: a job is aborted; the reactions finish it where nothing of it is in flight. -/
def abortJob (slot tag : Nat) (s : State) : State :=
  updJob slot (fun j => { j with state := .aborting }) (revokeGrant tag (withdraw slot tag s))

/-- R27: the tests of JOB_ABORT. -/
def takeJobAbort (tag : Nat) (s : State) : Taken :=
  match slotOf s tag with
  | none => refuse .noJob s
  | some slot => match jobAt s slot with
    | none => refuse .noJob s
    | some j =>
      match j.state with
      | .aborting => refuse .notNow s
      | .closing => accept (.withdrawn 0) (updJob slot (fun j => { j with outcome := some .aborted }) s)
      | _ => (accept (.withdrawn (queuedOf tag s).length) (abortJob slot tag s)).settled

/-- JOB_ABORT (R27). -/
def doJobAbort (ft : Byte) (tag : Nat) (s : State) : State := carryOut 0x0C ft (takeJobAbort tag) s

/-! ### QUEUE_MARK (R8) -/

/-- R8: the low-water mark is set and the below-mark flag recomputed. -/
def setMark (value : Nat) (s : State) : State :=
  markChanged { s with rc.queueMark := value, rc.belowMark := decide (queueFree s < value) }

/-- R8: the tests of QUEUE_MARK. -/
def takeQueueMark (value : Nat) (s : State) : Taken :=
  if value = 0 ∨ 64 < value then refuse .range s
  else if saving s then refuse .busy s
  else accept (.free (queueFree s)) (setMark value s)

/-- QUEUE_MARK (R8). -/
def doQueueMark (ft : Byte) (value : Nat) (s : State) : State := carryOut 0x0D ft (takeQueueMark value) s

/-! ### The meanings -/

/-- JOB_OPEN (R2). -/
def execJobOpen (ft : Byte) (tag : Nat) (media : Nat) (policy : Nat) (setId : Nat) (flags : Nat) (s : State) : Host.Outcome State Fault Refusal :=
  .next (doJobOpen ft tag media policy setId flags s)

/-- SWATH_PUT (R5). -/
def execSwathPut (ft : Byte) (d : Descriptor) (s : State) : Host.Outcome State Fault Refusal :=
  .next (doSwathPut ft d s)

/-- JOB_END (R22). -/
def execJobEnd (ft : Byte) (tag : Nat) (s : State) : Host.Outcome State Fault Refusal :=
  .next (doJobEnd ft tag s)

/-- JOB_ABORT (R27). -/
def execJobAbort (ft : Byte) (tag : Nat) (s : State) : Host.Outcome State Fault Refusal :=
  .next (doJobAbort ft tag s)

/-- QUEUE_MARK (R8). -/
def execQueueMark (ft : Byte) (value : Nat) (s : State) : Host.Outcome State Fault Refusal :=
  .next (doQueueMark ft value s)

end Sys2Proof.Machine
end

