-- ==== Sys2Proof/Machine/CostRequests.lean ====
section
/-! DEFINITION. The requests of the Cost Unit and of the Settings Store: quotes, the house account, prices, accounts, records, STORE_SAVE and the end of a save (R155 to R157, R164 to R168, R170, R197). -/

namespace Sys2Proof.Machine

/-! ### Quotes (R166 to R168) -/

/-- R166: the account of an opened quote. -/
def newQuote (tag media width cuts gen : Nat) : Account :=
  { Account.opened .quote (some tag) media gen with
    cuts := cuts, quoteMedia := some media, quoteWidth := some width, quoteResidue := some (List.replicate 10 0) }

/-- R166: the tests of QUOTE_OPEN. -/
def takeQuoteOpen (tag media width cuts : Nat) (s : State) : Taken :=
  if tag = 0 ∨ 255 < tag ∨ 15 < media ∨ width < 1000 ∨ 20000 < width ∨ 65535 < cuts then refuse .range s
  else if tagInUse s tag then refuse .range s
  else match s.cu.quotes.findIdx? (fun o => o.isNone) with
    | none => refuse .full s
    | some i => accept (.quoteSlot i)
        { s with cu.quotes := s.cu.quotes.set i (some (newQuote tag media width cuts s.isc.gainGen)) }

/-- QUOTE_OPEN (R166). -/
def doQuoteOpen (ft : Byte) (tag media width cuts : Nat) (s : State) : State :=
  carryOut 0x26 ft (takeQuoteOpen tag media width cuts) s

/-- R34: the quote residue of a channel. -/
def quoteResidueAt (a : Account) (ch : Nat) : Nat := (a.quoteResidue.getD []).getD ch 0

/-- R34: the scaled computation of one channel of a quote swath: its raw volume. -/
def quoteRaw (s : State) (drops : List DropEntry) (ch : Nat) : Nat := rawVolume (dropCounts drops ch) (chanAt s ch).cfg

/-- R167 step 1: one channel's charge is added and its new residue written. -/
def chargeQuote (s : State) (drops : List DropEntry) (a : Account) (ch : Nat) : Account :=
  let raw := quoteRaw s drops ch
  let r := quoteResidueAt a ch
  { addInk ch (chargeNl raw (gainAt s ch) r) a with
    quoteResidue := a.quoteResidue.map (fun l => l.set ch (chargeResidue raw (gainAt s ch) r)) }

/-- R167 step 3: the advance under the quote's media type and width. -/
def quoteAdvance (advance : Nat) (a : Account) : Account :=
  if advance = 0 then a else addMedia (a.quoteMedia.getD 0) advance (advance * a.quoteWidth.getD 0) a

/-- R167: a quote swath on its account. -/
def quoteAccount (s : State) (d : Descriptor) (k : SwathKind) (a : Account) : Account :=
  quoteAdvance d.advance (countFired (k == .strip) ((dropChannels d.drops).foldl (chargeQuote s d.drops) a))

/-- R167: the media entry of the quote media type. -/
def quoteEntry (a : Account) : MediaEntry := (a.media.find? (fun m => some m.media == a.quoteMedia)).getD ⟨0, 0, 0⟩

/-- R167: what the reply of QUOTE_SWATH carries. -/
def quoteBody (s : State) (d : Descriptor) (a : Account) : Body :=
  .quoteSwath ((dropChannels d.drops).map (fun c => (c, a.ink.getD c 0))) (quoteEntry a).length (quoteEntry a).area a.fired
    s.isc.gainGen a.genAtOpen

/-- R167: the tests of QUOTE_SWATH; the descriptor's job tag is not read. -/
def takeQuoteSwath (tag : Nat) (d : Descriptor) (s : State) : Taken :=
  match quoteSlotOf s tag with
  | none => refuse .noJob s
  | some i => match quoteAt s i with
    | none => refuse .noJob s
    | some a => match swathKind d with
      | none => refuse .malformed s
      | some k =>
        if 3000 < d.advance then refuse .range s
        else accept (quoteBody s d (quoteAccount s d k a))
          { s with cu.quotes := s.cu.quotes.set i (some (quoteAccount s d k a)) }

/-- QUOTE_SWATH (R167). -/
def doQuoteSwath (ft : Byte) (tag : Nat) (d : Descriptor) (s : State) : State := carryOut 0x27 ft (takeQuoteSwath tag d) s

/-- R168: the tests of QUOTE_CLOSE, and the close with outcome QUOTED. -/
def takeQuoteClose (tag : Nat) (s : State) : Taken :=
  match quoteSlotOf s tag with
  | none => refuse .noJob s
  | some i => match quoteAt s i with
    | none => refuse .noJob s
    | some a =>
      if recordsFull s then refuse .full s
      else
        let s1 := closeAccount a .quoted s
        accept (.total (priceAccount a s.cu.active).costs.total) { s1 with cu.quotes := s1.cu.quotes.set i none }

/-- QUOTE_CLOSE (R168). -/
def doQuoteClose (ft : Byte) (tag : Nat) (s : State) : State := carryOut 0x28 ft (takeQuoteClose tag) s

/-- R170: HOUSE_CLOSE closes and reopens the house account. -/
def takeHouseClose (s : State) : Taken :=
  if recordsFull s then refuse .full s
  else accept (.total (priceAccount s.cu.house s.cu.active).costs.total) (openHouse (closeAccount s.cu.house .house s))

/-- HOUSE_CLOSE (R170). -/
def doHouseClose (ft : Byte) (s : State) : State := carryOut 0x29 ft takeHouseClose s

/-! ### Prices (R155 to R157) -/

/-- R156: a field of a price table that a selector and an index name. -/
inductive PriceField where
  | ink (ch : Nat) | media (m : Nat) | cut | strip | handling
deriving DecidableEq, Repr

/-- R156: the field, where the selector names one. -/
def priceField : Nat → Nat → Option PriceField
  | 0, i => if 9 < i then none else some (.ink i)
  | 1, i => if 15 < i then none else some (.media i)
  | 2, _ => some .cut
  | 3, _ => some .strip
  | 4, _ => some .handling
  | _, _ => none

/-- The value of a field in a table. -/
def PriceTable.read (t : PriceTable) : PriceField → Nat
  | .ink c => t.ink.getD c 0
  | .media m => t.media.getD m 0
  | .cut => t.cut
  | .strip => t.strip
  | .handling => t.handling

/-- R156: a field of a table takes a value. -/
def PriceTable.write (t : PriceTable) (f : PriceField) (v : Nat) : PriceTable :=
  match f with
  | .ink c => { t with ink := t.ink.set c v }
  | .media m => { t with media := t.media.set m v }
  | .cut => { t with cut := v }
  | .strip => { t with strip := v }
  | .handling => { t with handling := v }

/-- R156: the tests of PRICE_STAGE. -/
def takePriceStage (selector index value : Nat) (s : State) : Taken :=
  match priceField selector index with
  | none => refuse .range s
  | some f =>
    if Config.priceMax < value then refuse .range s
    else accept (.staged value (s.cu.active.read f)) { s with cu.staged := s.cu.staged.write f value, cu.stagedMark := true }

/-- PRICE_STAGE (R156). -/
def doPriceStage (ft : Byte) (selector index value : Nat) (s : State) : State :=
  carryOut 0x2A ft (takePriceStage selector index value) s

/-- R157: the table that a commit makes ACTIVE. -/
def committedTable (s : State) : PriceTable := { s.cu.staged with gen := (s.cu.active.gen + 1) % 65536 }

/-- R157: PRICE_COMMIT in one step. -/
def takePriceCommit (s : State) : Taken :=
  if saving s then refuse .busy s
  else accept (.generation (committedTable s).gen)
    (markChanged { s with cu.active := committedTable s, cu.staged := committedTable s, cu.stagedMark := false })

/-- PRICE_COMMIT (R157). -/
def doPriceCommit (ft : Byte) (s : State) : State := carryOut 0x2B ft takePriceCommit s

/-- R155: the tests of PRICE_GET. -/
def takePriceGet (selector : Nat) (s : State) : Taken :=
  if selector = 0 then accept (.prices s.cu.active s.cu.stagedMark) s
  else if selector = 1 then accept (.prices s.cu.staged s.cu.stagedMark) s
  else refuse .range s

/-- PRICE_GET (R155). -/
def doPriceGet (ft : Byte) (selector : Nat) (s : State) : State := carryOut 0x2C ft (takePriceGet selector) s

/-! ### ACCOUNT_GET and RECORD_TAKE (R165, R164) -/

/-- R165: the reply for one account, with its provisional pricing. -/
def accountBody (s : State) (a : Account) (slot : Option Nat) (job : Option (JobState × Option JobOutcome)) : Body :=
  let p := priceAccount a s.cu.active
  .account a slot job p.costs s.cu.active.gen p.saturated

/-- R165: the account of a tag. -/
def takeTagAccount (tag : Nat) (s : State) : Taken :=
  match slotOf s tag with
  | some slot => match jobAt s slot, printAt s slot with
    | some j, some a => accept (accountBody s a (some slot) (some (j.state, j.outcome))) s
    | _, _ => refuse .noJob s
  | none => match quoteSlotOf s tag with
    | some i => match quoteAt s i with
      | some a => accept (accountBody s a (some i) none) s
      | none => refuse .noJob s
    | none => refuse .noJob s

/-- R165: the tests of ACCOUNT_GET; a selector that is none of its encodings is MALFORMED (R198). The manual numbers print and quote slots alone, so the reply for the house account carries no slot (DESIGN CHOICE, log 36). -/
def takeAccountGet (selector tag : Nat) (s : State) : Taken :=
  if selector = 1 then accept (accountBody s s.cu.house none none) s
  else if selector = 0 then (if tag = 0 then refuse .range s else takeTagAccount tag s)
  else refuse .malformed s

/-- ACCOUNT_GET (R165). -/
def doAccountGet (ft : Byte) (selector tag : Nat) (s : State) : State := carryOut 0x2D ft (takeAccountGet selector tag) s

/-- R26, R164: a CLOSING job closes while the queue has room. -/
def closeClosing (slot : Nat) (s : State) : State :=
  match jobAt s slot with
  | some j =>
    if j.state = .closing ∧ recordsFull s = false then closeJob slot (j.outcome.getD .completed) s else s
  | none => s

/-- R164: RECORD_TAKE removes the oldest record; CLOSING jobs close in ascending slot order. -/
def takeRecordTake (s : State) : Taken :=
  match s.cu.records with
  | [] => refuse .notNow s
  | r :: t => (accept (.record t.length r)
      ((List.range Config.jobSlots).foldl (fun x i => closeClosing i x) { s with cu.records := t })).settled

/-- RECORD_TAKE (R164). -/
def doRecordTake (ft : Byte) (s : State) : State := carryOut 0x2E ft takeRecordTake s

/-! ### STORE_SAVE (R197) -/

/-- R197: a save begins: the snapshot is taken, the changed mark cleared, and the image is partly old and partly new until it ends (log 7). -/
def beginSave (s : State) : State :=
  { s with ss.store := .saving (workingSettings s) 0, ss.changed := false, ss.image := .bad }

/-- R197: the tests of STORE_SAVE. -/
def takeStoreSave (s : State) : Taken := if saving s then refuse .busy s else accept .none (beginSave s)

/-- STORE_SAVE (R197). -/
def doStoreSave (ft : Byte) (s : State) : State := carryOut 0x2F ft takeStoreSave s

/-- STORE_SAVE_END (R197): the image holds the snapshot, and the store is VALID. -/
def doStoreSaveEnd (s : State) : State :=
  match s.ss.store with
  | .saving p _ => { begin s with ss.image := .good p, ss.store := .valid }
  | _ => begin s

/-! ### The meanings -/

/-- QUOTE_OPEN (R166). -/
def execQuoteOpen (ft : Byte) (tag : Nat) (media : Nat) (width : Nat) (cuts : Nat) (s : State) : Host.Outcome State Fault Refusal :=
  .next (doQuoteOpen ft tag media width cuts s)

/-- QUOTE_SWATH (R167). -/
def execQuoteSwath (ft : Byte) (tag : Nat) (d : Descriptor) (s : State) : Host.Outcome State Fault Refusal :=
  .next (doQuoteSwath ft tag d s)

/-- QUOTE_CLOSE (R168). -/
def execQuoteClose (ft : Byte) (tag : Nat) (s : State) : Host.Outcome State Fault Refusal :=
  .next (doQuoteClose ft tag s)

/-- HOUSE_CLOSE (R170). -/
def execHouseClose (ft : Byte) (s : State) : Host.Outcome State Fault Refusal :=
  .next (doHouseClose ft s)

/-- PRICE_STAGE (R156). -/
def execPriceStage (ft : Byte) (selector : Nat) (index : Nat) (value : Nat) (s : State) : Host.Outcome State Fault Refusal :=
  .next (doPriceStage ft selector index value s)

/-- PRICE_COMMIT (R157). -/
def execPriceCommit (ft : Byte) (s : State) : Host.Outcome State Fault Refusal :=
  .next (doPriceCommit ft s)

/-- PRICE_GET (R155). -/
def execPriceGet (ft : Byte) (selector : Nat) (s : State) : Host.Outcome State Fault Refusal :=
  .next (doPriceGet ft selector s)

/-- ACCOUNT_GET (R165). -/
def execAccountGet (ft : Byte) (selector : Nat) (tag : Nat) (s : State) : Host.Outcome State Fault Refusal :=
  .next (doAccountGet ft selector tag s)

/-- RECORD_TAKE (R164). -/
def execRecordTake (ft : Byte) (s : State) : Host.Outcome State Fault Refusal :=
  .next (doRecordTake ft s)

/-- STORE_SAVE (R197). -/
def execStoreSave (ft : Byte) (s : State) : Host.Outcome State Fault Refusal :=
  .next (doStoreSave ft s)

/-- STORE_SAVE_END (R197). -/
def execStoreSaveEnd (s : State) : Host.Outcome State Fault Refusal :=
  .next (doStoreSaveEnd s)

end Sys2Proof.Machine
end

