-- ==== Sys2Proof/Machine/HeadEvents.lean ====
section
/-! DEFINITION. What the head drive board reports, and the fire timer (R13 to R19, R29, R41). -/

namespace Sys2Proof.Machine

/-- R29: a report carrying the stale tag clears it. -/
def clearStale (tag : Nat) (s : State) : State := if s.rc.stale = some tag then { s with rc.stale := none } else s

/-- R13: the GRANTED entry that a report's tag names. -/
def reported (s : State) (tag : Nat) : Option QEntry :=
  match grantedEntry s with
  | some e => if e.queueTag = tag then some e else none
  | none => none

/-- R13: a report for a grant: discarded on a bad check or a tag that is not the GRANTED entry's. -/
def onReport (crcOk : Bool) (tag : Nat) (f : QEntry → State → State) (s : State) : State :=
  if crcOk then
    match reported s tag with
    | some e => settle (f e (begin s))
    | none => clearStale tag (begin s)
  else begin s

/-- FIRED (R15). -/
def doFired (crcOk : Bool) (tag : Nat) (s : State) : State := onReport crcOk tag (endGrant false) s

/-- BROKEN (R16). -/
def doBroken (crcOk : Bool) (tag : Nat) (s : State) : State := onReport crcOk tag (endGrant true) s

/-- R17: the entry returns to QUEUED with its charges dropped. -/
def requeue (e : QEntry) (s : State) : State :=
  updEntry e.queueTag (fun e => { e with state := .queued, charges := none, revoked := none }) s

/-- R17: the head state goes NOT_READY, and ASK_STATE is sent (R14). -/
def headNotReady (s : State) : State := send .askState { s with rc.head := .notReady }

/-- R17: a revoked entry is withdrawn. -/
def withdrawEntry (e : QEntry) (s : State) : State :=
  let s1 := { s with rc.queue := s.rc.queue.filter (fun x => x.queueTag != e.queueTag) }
  match slotOf s e.job with
  | some slot => roomRose (updJob slot (fun j => { j with withdrawn := bump j.withdrawn }) s1)
  | none => roomRose s1

/-- R17: the end of a grant by NOT_FIRED. -/
def unfired (e : QEntry) (s : State) : State :=
  let s1 := release (e.charges.getD []) { s with rc.fireTimer := none }
  if e.revoked = some true then withdrawEntry e s1 else headNotReady (requeue e s1)

/-- NOT_FIRED (R17). -/
def doNotFired (crcOk : Bool) (tag : Nat) (s : State) : State := onReport crcOk tag unfired s

/-- HEAD_READY (R14). -/
def doHeadReady (crcOk : Bool) (s : State) : State :=
  if crcOk then settle { begin s with rc.head := .ready } else begin s

/-- R19: HEAD_FAULT is raised, the head goes FAULT, the stale tag is cleared (R29), and a grant in flight ends as BROKEN. -/
def faultHead (s : State) : State := breakGrant (raise .headFault none { s with rc.head := .fault, rc.stale := none })

/-- HEAD_FAULT (R19). -/
def doHeadFault (crcOk : Bool) (s : State) : State := if crcOk then settle (faultHead (begin s)) else begin s

/-- CLEANED (R41): taken whatever the grant and the head state (R13). -/
def doCleaned (crcOk : Bool) (counts : List Counts) (s : State) : State :=
  if crcOk then settle (cleanAll counts (begin s)) else begin s

/-- R18: the grant ends as BROKEN, the head goes FAULT, and ASK_STATE is sent (R14). -/
def expireGrant (s : State) : State :=
  send .askState (raise .headFault none { breakGrant s with rc.head := .fault })

/-- FIRE_TIMEOUT (R18): nothing where no grant is in flight (log 11). -/
def doFireTimeout (s : State) : State :=
  if (grantedEntry s).isSome then settle (expireGrant (begin s)) else begin s

/-! ### The meanings -/

/-- FIRED (R15). -/
def execFired (crcOk : Bool) (tag : Nat) (s : State) : Host.Outcome State Fault Refusal :=
  .next (doFired crcOk tag s)

/-- BROKEN (R16). -/
def execBroken (crcOk : Bool) (tag : Nat) (s : State) : Host.Outcome State Fault Refusal :=
  .next (doBroken crcOk tag s)

/-- NOT_FIRED (R17). -/
def execNotFired (crcOk : Bool) (tag : Nat) (s : State) : Host.Outcome State Fault Refusal :=
  .next (doNotFired crcOk tag s)

/-- HEAD_READY (R14). -/
def execHeadReady (crcOk : Bool) (s : State) : Host.Outcome State Fault Refusal :=
  .next (doHeadReady crcOk s)

/-- HEAD_FAULT (R19). -/
def execHeadFault (crcOk : Bool) (s : State) : Host.Outcome State Fault Refusal :=
  .next (doHeadFault crcOk s)

/-- CLEANED (R41). -/
def execCleaned (crcOk : Bool) (counts : List Counts) (s : State) : Host.Outcome State Fault Refusal :=
  .next (doCleaned crcOk counts s)

/-- FIRE_TIMEOUT (R18). -/
def execFireTimeout (s : State) : Host.Outcome State Fault Refusal :=
  .next (doFireTimeout s)

end Sys2Proof.Machine
end

