-- ==== Sys2Proof/Decode.lean ====
section
/-! DEFINITION. The opcode table's words (it gives none, log 27), and the request frames of R198: which request a frame's kind and payload spell (R189 steps 1 to 3), and the frame that spells a request. -/

namespace Sys2Proof

open Sys2Proof.Machine

/-- The command that a word of the opcode table spells: the table gives no row any bits, so none (log 27). -/
def decodeTableWord (_nbits _w : Nat) : Option Instr := none

/-- What LC makes of a frame (R189): an unassigned kind, a wrong payload length, or a request. -/
inductive Decoded where
  | unknown | malformed | request (i : Instr)
deriving DecidableEq, Repr

/-- R189 step 2: a kind with one fixed payload length. -/
def fixedLength (n : Nat) (p : List Byte) (i : Instr) : Decoded := if p.length = n then .request i else .malformed

/-- R198, section 10.4: `n` drop entries of six bytes. -/
def readDrops : Nat → List Byte → List DropEntry
  | 0, _ => []
  | n + 1, l => ⟨fieldAt 0 1 l, fieldAt 1 1 l, fieldAt 2 4 l⟩ :: readDrops n (l.drop 6)

/-- R198, section 10.4: the descriptor in a payload. -/
def readDescriptor (p : List Byte) : Descriptor :=
  { jobTag := fieldAt 0 1 p, number := fieldAt 1 2 p, kind := fieldAt 3 1 p, advance := fieldAt 4 2 p,
    drops := readDrops (fieldAt 6 1 p) (p.drop 7) }

/-- R189: the length rule of a descriptor: 7 + 6n bytes with n at most 30. -/
def descriptorFits (p : List Byte) : Bool :=
  decide (7 ≤ p.length) && decide (fieldAt 6 1 p ≤ 30) && p.length == 7 + 6 * fieldAt 6 1 p

/-- R198: the channel settings after the channel number of CHAN_SET. -/
def readChanCfg (p : List Byte) : ChanCfg :=
  { inkId := fieldAt 1 1 p, bayMap := BitVec.ofNat 32 (fieldAt 2 4 p), volS := fieldAt 6 2 p, volM := fieldAt 8 2 p,
    volL := fieldAt 10 2 p, full := fieldAt 12 4 p, floor := fieldAt 16 4 p, refillMark := fieldAt 20 4 p,
    lowVol := fieldAt 24 4 p, flow := fieldAt 28 2 p, duty := fieldAt 30 1 p }

/-- R198: the check parameters of CHECK_SET. -/
def readParams (p : List Byte) : CheckParams :=
  { sens := (p.take 10).map (fun b => b.toNat), maxStep := fieldAt 10 2 p, maxInvalid := fieldAt 12 1 p,
    dryTime := fieldAt 13 2 p, limit := fieldAt 15 2 p }

/-- R189 steps 1 and 2, R198: the request that a frame spells. -/
def decodeRequest (f : Frame) : Decoded :=
  let t := f.tag
  let p := f.payload
  match f.kind.toNat with
  | 0x01 => fixedLength 0 p (.hello t)
  | 0x02 => fixedLength 0 p (.status t)
  | 0x03 => fixedLength 0 p (.resetSoft t)
  | 0x04 => fixedLength 0 p (.readFaults t)
  | 0x05 => fixedLength 0 p (.readHolds t)
  | 0x06 => fixedLength 0 p (.readProgress t)
  | 0x07 => fixedLength 0 p (.readChanges t)
  | 0x08 => fixedLength 0 p (.resume t)
  | 0x09 => fixedLength 5 p (.jobOpen t (fieldAt 0 1 p) (fieldAt 1 1 p) (fieldAt 2 1 p) (fieldAt 3 1 p) (fieldAt 4 1 p))
  | 0x0A => if descriptorFits p then .request (.swathPut t (readDescriptor p)) else .malformed
  | 0x0B => fixedLength 1 p (.jobEnd t (fieldAt 0 1 p))
  | 0x0C => fixedLength 1 p (.jobAbort t (fieldAt 0 1 p))
  | 0x0D => fixedLength 1 p (.queueMark t (fieldAt 0 1 p))
  | 0x0E => fixedLength 31 p (.chanSet t (fieldAt 0 1 p) (readChanCfg p))
  | 0x0F => fixedLength 1 p (.chanOn t (fieldAt 0 1 p))
  | 0x10 => fixedLength 1 p (.chanOff t (fieldAt 0 1 p))
  | 0x11 => fixedLength 1 p (.chanGet t (fieldAt 0 1 p))
  | 0x12 => fixedLength 1 p (.refillAsk t (fieldAt 0 1 p))
  | 0x13 => fixedLength 5 p (.pumpSet t (fieldAt 0 1 p) (fieldAt 1 4 p))
  | 0x14 => fixedLength 1 p (.bayClear t (fieldAt 0 1 p))
  | 0x15 => fixedLength 7 p (.rollLoad t (fieldAt 0 1 p) (fieldAt 1 2 p) (fieldAt 3 4 p))
  | 0x16 => fixedLength 0 p (.rollUnload t)
  | 0x17 => fixedLength 4 p (.feed t (fieldAt 0 4 p))
  | 0x18 => fixedLength 0 p (.feedRetry t)
  | 0x19 => fixedLength 4 p (.sheetFrom t (fieldAt 0 4 p))
  | 0x1A => fixedLength 4 p (.sheetTo t (fieldAt 0 4 p))
  | 0x1B => fixedLength 5 p
      (.sheetCommit t (fieldAt 0 1 p) (fieldAt 1 1 p) (fieldAt 2 1 p) (fieldAt 3 1 p) (fieldAt 4 1 p))
  | 0x1C => fixedLength 4 p (.cutCancel t (fieldAt 0 4 p))
  | 0x1D => fixedLength 0 p (.cutterClear t)
  | 0x1E => fixedLength 4 p (.geometrySet t (fieldAt 0 2 p) (fieldAt 2 2 p))
  | 0x1F => if 2 ≤ p.length then .request (.patchsetLoad t (fieldAt 0 1 p) (fieldAt 1 1 p) (p.drop 2)) else .malformed
  | 0x20 => fixedLength 3 p (.gainSet t (fieldAt 0 1 p) (fieldAt 1 2 p))
  | 0x21 => fixedLength 1 p (.ringRetain t (fieldAt 0 1 p))
  | 0x22 => fixedLength 2 p (.ringRead t (fieldAt 0 1 p) (fieldAt 1 1 p))
  | 0x23 => fixedLength 1 p (.ringRelease t (fieldAt 0 1 p))
  | 0x24 => fixedLength 17 p (.checkSet t (readParams p))
  | 0x25 => fixedLength 1 p (.checkGet t (fieldAt 0 1 p))
  | 0x26 => fixedLength 6 p (.quoteOpen t (fieldAt 0 1 p) (fieldAt 1 1 p) (fieldAt 2 2 p) (fieldAt 4 2 p))
  | 0x27 => if descriptorFits (p.drop 1) then .request (.quoteSwath t (fieldAt 0 1 p) (readDescriptor (p.drop 1)))
            else .malformed
  | 0x28 => fixedLength 1 p (.quoteClose t (fieldAt 0 1 p))
  | 0x29 => fixedLength 0 p (.houseClose t)
  | 0x2A => fixedLength 6 p (.priceStage t (fieldAt 0 1 p) (fieldAt 1 1 p) (fieldAt 2 4 p))
  | 0x2B => fixedLength 0 p (.priceCommit t)
  | 0x2C => fixedLength 1 p (.priceGet t (fieldAt 0 1 p))
  | 0x2D => fixedLength 2 p (.accountGet t (fieldAt 0 1 p) (fieldAt 1 1 p))
  | 0x2E => fixedLength 0 p (.recordTake t)
  | 0x2F => fixedLength 0 p (.storeSave t)
  | _ => .unknown

/-! ### The frame that spells a request -/

/-- Section 10.4: the bytes of the drop entries. -/
def writeDrops (l : List DropEntry) : List Byte :=
  (l.map (fun d => leBytes 1 d.channel ++ leBytes 1 d.size ++ leBytes 4 d.count)).flatten

/-- Section 10.4: the bytes of a descriptor. -/
def writeDescriptor (d : Descriptor) : List Byte :=
  leBytes 1 d.jobTag ++ leBytes 2 d.number ++ leBytes 1 d.kind ++ leBytes 2 d.advance ++ leBytes 1 d.drops.length
    ++ writeDrops d.drops

/-- R198: the bytes of the channel settings. -/
def writeChanCfg (c : ChanCfg) : List Byte :=
  leBytes 1 c.inkId ++ leBytes 4 c.bayMap.toNat ++ leBytes 2 c.volS ++ leBytes 2 c.volM ++ leBytes 2 c.volL
    ++ leBytes 4 c.full ++ leBytes 4 c.floor ++ leBytes 4 c.refillMark ++ leBytes 4 c.lowVol ++ leBytes 2 c.flow
    ++ leBytes 1 c.duty

/-- R198: the bytes of the check parameters. -/
def writeParams (p : CheckParams) : List Byte :=
  p.sens.map (BitVec.ofNat 8) ++ leBytes 2 p.maxStep ++ leBytes 1 p.maxInvalid ++ leBytes 2 p.dryTime
    ++ leBytes 2 p.limit

/-- R198: the frame of a request; none for a command that is no request. -/
def encodeRequest : Instr → Option Frame
  | .hello t => some ⟨0x01, t, []⟩
  | .status t => some ⟨0x02, t, []⟩
  | .resetSoft t => some ⟨0x03, t, []⟩
  | .readFaults t => some ⟨0x04, t, []⟩
  | .readHolds t => some ⟨0x05, t, []⟩
  | .readProgress t => some ⟨0x06, t, []⟩
  | .readChanges t => some ⟨0x07, t, []⟩
  | .resume t => some ⟨0x08, t, []⟩
  | .jobOpen t tag media policy setId flags =>
    some ⟨0x09, t, leBytes 1 tag ++ leBytes 1 media ++ leBytes 1 policy ++ leBytes 1 setId ++ leBytes 1 flags⟩
  | .swathPut t d => some ⟨0x0A, t, writeDescriptor d⟩
  | .jobEnd t tag => some ⟨0x0B, t, leBytes 1 tag⟩
  | .jobAbort t tag => some ⟨0x0C, t, leBytes 1 tag⟩
  | .queueMark t value => some ⟨0x0D, t, leBytes 1 value⟩
  | .chanSet t ch cfg => some ⟨0x0E, t, leBytes 1 ch ++ writeChanCfg cfg⟩
  | .chanOn t ch => some ⟨0x0F, t, leBytes 1 ch⟩
  | .chanOff t ch => some ⟨0x10, t, leBytes 1 ch⟩
  | .chanGet t ch => some ⟨0x11, t, leBytes 1 ch⟩
  | .refillAsk t ch => some ⟨0x12, t, leBytes 1 ch⟩
  | .pumpSet t period spent => some ⟨0x13, t, leBytes 1 period ++ leBytes 4 spent⟩
  | .bayClear t bay => some ⟨0x14, t, leBytes 1 bay⟩
  | .rollLoad t media width length => some ⟨0x15, t, leBytes 1 media ++ leBytes 2 width ++ leBytes 4 length⟩
  | .rollUnload t => some ⟨0x16, t, []⟩
  | .feed t distance => some ⟨0x17, t, leBytes 4 distance⟩
  | .feedRetry t => some ⟨0x18, t, []⟩
  | .sheetFrom t position => some ⟨0x19, t, leBytes 4 position⟩
  | .sheetTo t position => some ⟨0x1A, t, leBytes 4 position⟩
  | .sheetCommit t selector tag lead trail guard =>
    some ⟨0x1B, t, leBytes 1 selector ++ leBytes 1 tag ++ leBytes 1 lead ++ leBytes 1 trail ++ leBytes 1 guard⟩
  | .cutCancel t position => some ⟨0x1C, t, leBytes 4 position⟩
  | .cutterClear t => some ⟨0x1D, t, []⟩
  | .geometrySet t sensor cutter => some ⟨0x1E, t, leBytes 2 sensor ++ leBytes 2 cutter⟩
  | .patchsetLoad t setId count body => some ⟨0x1F, t, leBytes 1 setId ++ leBytes 1 count ++ body⟩
  | .gainSet t ch value => some ⟨0x20, t, leBytes 1 ch ++ leBytes 2 value⟩
  | .ringRetain t setting => some ⟨0x21, t, leBytes 1 setting⟩
  | .ringRead t offset count => some ⟨0x22, t, leBytes 1 offset ++ leBytes 1 count⟩
  | .ringRelease t n => some ⟨0x23, t, leBytes 1 n⟩
  | .checkSet t params => some ⟨0x24, t, writeParams params⟩
  | .checkGet t check => some ⟨0x25, t, leBytes 1 check⟩
  | .quoteOpen t tag media width cuts =>
    some ⟨0x26, t, leBytes 1 tag ++ leBytes 1 media ++ leBytes 2 width ++ leBytes 2 cuts⟩
  | .quoteSwath t tag d => some ⟨0x27, t, leBytes 1 tag ++ writeDescriptor d⟩
  | .quoteClose t tag => some ⟨0x28, t, leBytes 1 tag⟩
  | .houseClose t => some ⟨0x29, t, []⟩
  | .priceStage t selector index value => some ⟨0x2A, t, leBytes 1 selector ++ leBytes 1 index ++ leBytes 4 value⟩
  | .priceCommit t => some ⟨0x2B, t, []⟩
  | .priceGet t selector => some ⟨0x2C, t, leBytes 1 selector⟩
  | .accountGet t selector tag => some ⟨0x2D, t, leBytes 1 selector ++ leBytes 1 tag⟩
  | .recordTake t => some ⟨0x2E, t, []⟩
  | .storeSave t => some ⟨0x2F, t, []⟩
  | .powerOnReset _ | .storeLoadEnd | .hostFrameReceived _ | .rxGapTimeout | .frameDispatch | .transmitFrameStart
  | .frameSendEnd | .softResetAct | .storeSaveEnd | .fired _ _ | .broken _ _ | .notFired _ _ | .headReady _ | .headFault _
  | .cleaned _ _ | .fireTimeout | .encoderStep _ | .settleWindowEnd | .feedLimitExpiry | .homeChange _ | .strokeTimeout
  | .coverOpen | .coverClose | .coverSettleExpiry | .supplyOkDeassert | .supplyOkAssert | .lowFloatAssert _
  | .lowFloatDeassert _ | .fullFloatAssert _ | .fullFloatDeassert _ | .drawLimitExpiry | .bayPresenceAssert _
  | .bayPresenceDeassert _ | .tagOpStart | .tagReadComplete _ _ _ _ | .tagWriteComplete | .tagOpTimeout
  | .reading _ _ _ _ _ _ | .scanEnd _ | .sensorReady _ | .sensorFault _ | .scanTimeout | .dryTimerExpiry _
  | .limitTimerExpiry _ | .hostByteReceived _ _ => none

end Sys2Proof
end

