-- ==== Sys2Proof/Machine/InkRequests.lean ====
section
/-! DEFINITION. The requests of the Ink Supply Controller: CHAN_SET, CHAN_ON, CHAN_OFF, CHAN_GET, REFILL_ASK, PUMP_SET, BAY_CLEAR and GAIN_SET (R44 to R47, R58, R67, R71, R146). -/

namespace Sys2Proof.Machine

/-! ### CHAN_SET (R44) -/

/-- A value inside an inclusive range. -/
def inRange (lo hi n : Nat) : Bool := decide (lo ≤ n) && decide (n ≤ hi)

/-- R44 test 4: every field inside its range of the channel record. -/
def cfgOk (c : ChanCfg) : Bool :=
  decide (c.inkId ≤ 255) && decide (c.bayMap.toNat < 65536) && inRange 1 4095 c.volS && inRange 1 4095 c.volM
    && inRange 1 4095 c.volL && inRange 5000000 30000000 c.full && inRange 500000 (c.full / 2) c.floor
    && inRange c.floor c.full c.refillMark && inRange c.floor c.full c.lowVol && inRange 1 2000 c.flow
    && decide (c.duty ≤ 255)

/-- R44: the settings replaced together, and a known level above the new full volume clamped with DRIFT. -/
def Channel.configure (cfg : ChanCfg) (c : Channel) : Channel :=
  match c.level with
  | some l => { c with cfg := cfg, level := some (min l cfg.full), drift := c.drift || decide (cfg.full < l) }
  | none => { c with cfg := cfg }

/-- R44: the tests of CHAN_SET in order. -/
def takeChanSet (ch : Nat) (cfg : ChanCfg) (s : State) : Taken :=
  if 9 < ch then refuse .range s
  else if saving s then refuse .busy s
  else if (chanAt s ch).enabled then refuse .busy s
  else if !cfgOk cfg then refuse .range s
  else (accept .none (markChanged (updChan ch (Channel.configure cfg) s))).settled

/-- CHAN_SET (R44). -/
def doChanSet (ft : Byte) (ch : Nat) (cfg : ChanCfg) (s : State) : State := carryOut 0x0E ft (takeChanSet ch cfg) s

/-! ### CHAN_ON and CHAN_OFF (R45, R46) -/

/-- R45: CHAN_ON on an enabled channel changes nothing. -/
def enable (ch : Nat) (s : State) : State :=
  if (chanAt s ch).enabled then s else markChanged (updChan ch (fun c => { c with enabled := true }) s)

/-- R45: the tests of CHAN_ON. -/
def takeChanOn (ch : Nat) (s : State) : Taken :=
  if 9 < ch then refuse .range s
  else if saving s then refuse .busy s
  else (accept .none (enable ch s)).settled

/-- CHAN_ON (R45). -/
def doChanOn (ft : Byte) (ch : Nat) (s : State) : State := carryOut 0x0F ft (takeChanOn ch) s

/-- R46: the GRANTED swath's drop list names the channel. -/
def grantNames (s : State) (ch : Nat) : Bool :=
  match grantedEntry s with
  | some e => e.drops.any (fun d => d.channel == ch)
  | none => false

/-- R46: the channel is DRAWING. -/
def isDrawing (s : State) (ch : Nat) : Bool :=
  match (chanAt s ch).refill with
  | .drawing _ => true
  | _ => false

/-- R46: a channel leaves service; CHAN_OFF on a disabled channel changes nothing. -/
def disable (ch : Nat) (s : State) : State :=
  if (chanAt s ch).enabled then
    markChanged (unqueue ch (updChan ch (fun c => { c with enabled := false, refill := .idle }) s))
  else s

/-- R46: the tests of CHAN_OFF. -/
def takeChanOff (ch : Nat) (s : State) : Taken :=
  if 9 < ch then refuse .range s
  else if saving s then refuse .busy s
  else if grantNames s ch then refuse .busy s
  else if isDrawing s ch then refuse .busy s
  else (accept (.refill (chanAt s ch).refill) (disable ch s)).settled

/-- CHAN_OFF (R46). -/
def doChanOff (ft : Byte) (ch : Nat) (s : State) : State := carryOut 0x10 ft (takeChanOff ch) s

/-! ### CHAN_GET (R47) -/

/-- R47: each bay of the map with its state, remaining volume and DRIFT mark. -/
def bayViews (s : State) (ch : Nat) : List (Nat × BayState × Option Nat × Bool) :=
  (mapBays (chanAt s ch).cfg).map (fun b =>
    (b, (bayAt s b).state, (bayAt s b).tag.map (fun t => t.remaining), (bayAt s b).drift))

/-- R47: the reply of CHAN_GET, after which the channel's DRIFT mark is cleared. -/
def takeChanGet (ch : Nat) (s : State) : Taken :=
  if 9 < ch then refuse .range s
  else accept (.channel (chanAt s ch) (gainAt s ch) s.isc.gainGen (bayViews s ch))
    (updChan ch (fun c => { c with drift := false }) s)

/-- CHAN_GET (R47). -/
def doChanGet (ft : Byte) (ch : Nat) (s : State) : State := carryOut 0x11 ft (takeChanGet ch) s

/-! ### REFILL_ASK (R67) -/

/-- R67: what an accepted REFILL_ASK does by the refill state. -/
def askRefill (ch : Nat) (s : State) : State :=
  match (chanAt s ch).refill with
  | .idle => placeRequest ch false s
  | .dry => leaveDry ch s
  | _ => s

/-- R67: a QUEUED channel's place in the pump queue, from 0 at the head. -/
def pumpPlace (s : State) (ch : Nat) : Option Nat := (pumpView s).findIdx? (fun e => e.channel == ch)

/-- R67: the channel is in FAULT. -/
def inFault (s : State) (ch : Nat) : Bool :=
  match (chanAt s ch).refill with
  | .fault _ => true
  | _ => false

/-- R67: the tests of REFILL_ASK; the reply shows the state after the serve (log 29). -/
def takeRefillAsk (ch : Nat) (s : State) : Taken :=
  if 9 < ch then refuse .range s
  else if held s then refuse .held s
  else if !(chanAt s ch).enabled then refuse .notNow s
  else if inFault s ch then refuse .notNow s
  else
    let s1 := askRefill ch s
    (accept (.refillPlace (chanAt s1 ch).refill (pumpPlace s1 ch)) s1).settled

/-- REFILL_ASK (R67). -/
def doRefillAsk (ft : Byte) (ch : Nat) (s : State) : State := carryOut 0x12 ft (takeRefillAsk ch) s

/-! ### PUMP_SET, BAY_CLEAR and GAIN_SET (R71, R58, R146) -/

/-- R71: the tests of PUMP_SET. -/
def takePumpSet (period spent : Nat) (s : State) : Taken :=
  if period = 0 ∨ 255 < period then refuse .range s
  else if Config.spentMax < spent then refuse .range s
  else if saving s then refuse .busy s
  else accept (.pumpStored period spent) (markChanged { s with isc.pumpPeriod := period, isc.spentMark := spent })

/-- PUMP_SET (R71). -/
def doPumpSet (ft : Byte) (period spent : Nat) (s : State) : State := carryOut 0x13 ft (takePumpSet period spent) s

/-- R58: the bay goes READING afresh, its tag read placed, and the cause of its TAG_FAULT ends. -/
def clearBay (b : Nat) (s : State) : State :=
  endCause .tagFault (some b)
    (placeTagOp (.read b) (updBay b (fun y => { y with state := .reading, tag := none, drift := false }) s))

/-- R58: the tests of BAY_CLEAR. -/
def takeBayClear (b : Nat) (s : State) : Taken :=
  if 15 < b then refuse .range s
  else if ((bayAt s b).state = .suspect ∨ (bayAt s b).state = .tagFault) ∧ (bayAt s b).present = true then
    accept .none (clearBay b s)
  else refuse .notNow s

/-- BAY_CLEAR (R58). -/
def doBayClear (ft : Byte) (b : Nat) (s : State) : State := carryOut 0x14 ft (takeBayClear b) s

/-- R146: the value clamped to the gain range. -/
def clampGain (v : Nat) : Nat := max Config.gainMin (min Config.gainMax v)

/-- R146: the tests of GAIN_SET. -/
def takeGainSet (ch value : Nat) (s : State) : Taken :=
  if 9 < ch then refuse .range s
  else if saving s then refuse .busy s
  else
    let s1 := gainWrite [(ch, clampGain value)] s
    (accept (.gainStored (clampGain value) s1.isc.gainGen) s1).settled

/-- GAIN_SET (R146). -/
def doGainSet (ft : Byte) (ch value : Nat) (s : State) : State := carryOut 0x20 ft (takeGainSet ch value) s

/-! ### The meanings -/

/-- CHAN_SET (R44). -/
def execChanSet (ft : Byte) (channel : Nat) (cfg : ChanCfg) (s : State) : Host.Outcome State Fault Refusal :=
  .next (doChanSet ft channel cfg s)

/-- CHAN_ON (R45). -/
def execChanOn (ft : Byte) (channel : Nat) (s : State) : Host.Outcome State Fault Refusal :=
  .next (doChanOn ft channel s)

/-- CHAN_OFF (R46). -/
def execChanOff (ft : Byte) (channel : Nat) (s : State) : Host.Outcome State Fault Refusal :=
  .next (doChanOff ft channel s)

/-- CHAN_GET (R47). -/
def execChanGet (ft : Byte) (channel : Nat) (s : State) : Host.Outcome State Fault Refusal :=
  .next (doChanGet ft channel s)

/-- REFILL_ASK (R67). -/
def execRefillAsk (ft : Byte) (channel : Nat) (s : State) : Host.Outcome State Fault Refusal :=
  .next (doRefillAsk ft channel s)

/-- PUMP_SET (R71). -/
def execPumpSet (ft : Byte) (period : Nat) (spent : Nat) (s : State) : Host.Outcome State Fault Refusal :=
  .next (doPumpSet ft period spent s)

/-- BAY_CLEAR (R58). -/
def execBayClear (ft : Byte) (bay : Nat) (s : State) : Host.Outcome State Fault Refusal :=
  .next (doBayClear ft bay s)

/-- GAIN_SET (R146). -/
def execGainSet (ft : Byte) (channel : Nat) (value : Nat) (s : State) : Host.Outcome State Fault Refusal :=
  .next (doGainSet ft channel value s)

end Sys2Proof.Machine
end

