-- ==== Sys2Proof/Machine/LinkRequests.lean ====
section
/-! DEFINITION. The requests of the Link Controller: HELLO, STATUS, RESET_SOFT, the four class reads and RESUME (R175, R181, R192 to R194). -/

namespace Sys2Proof.Machine

/-! ### HELLO and STATUS (R192, R193) -/

/-- R192: the store state as HELLO shows it. -/
def storeMark (s : State) : StoreMark :=
  match s.ss.store with
  | .valid => .valid
  | .defaulted => .defaulted
  | .saving _ _ => .saving

/-- R193: the store state as STATUS shows it, with the elapsed save time while SAVING. -/
def storeReport (s : State) : StoreReport :=
  match s.ss.store with
  | .valid => .valid
  | .defaulted => .defaulted
  | .saving _ elapsed => .saving elapsed

/-- R193: the LC line. -/
def lcLine (s : State) : LcLine :=
  { pending := [(classEntries 1 s).length, (classEntries 2 s).length, (classEntries 3 s).length, (classEntries 4 s).length]
    noticeSeq := s.lc.noticeSeq, hold := s.lc.hold, cover := s.lc.cover, frames := s.lc.buffer.length }

/-- R193: one live job of the RC line. -/
def jobLine (s : State) (slot : Nat) : Option JobLine :=
  (jobAt s slot).map (fun j =>
    { slot := slot, tag := j.tag, state := j.state, hold := j.hold, strip := j.strip, accepted := j.accepted,
      fired := j.fired, broken := j.broken, withdrawn := j.withdrawn })

/-- R193: the RC line. -/
def rcLine (s : State) : RcLine :=
  { jobs := (List.range Config.jobSlots).filterMap (jobLine s)
    queue := s.rc.queue.map (fun e => (e.queueTag, e.state))
    head := s.rc.head, stale := s.rc.stale, free := queueFree s }

/-- R193: the ISC line. -/
def iscLine (s : State) : IscLine :=
  { refills := s.isc.chans.map (fun c => c.refill), bays := s.isc.bays.map (fun b => b.state), pump := s.isc.pump,
    queue := pumpView s, gains := s.isc.gains, gainGen := s.isc.gainGen }

/-- R113, R193: the elapsed stroke time. While no stroke runs, also in OFF with the mid-stroke mark, the manual gives none, and it is 0 (DESIGN CHOICE, log 40). -/
def strokeElapsed (s : State) : Nat :=
  match s.mpc.strokeTimer with
  | some left => Config.strokeTime - left
  | none => 0

/-- R193: the MPC line. -/
def mpcLine (s : State) : MpcLine :=
  { roll := s.mpc.roll, sOff := s.mpc.sOff, cOff := s.mpc.cOff, exec := s.mpc.exec, stray := s.mpc.stray
    cuts := s.mpc.cuts.map (fun e => (e, cutStop s e)), cutsFree := cutsFree s, cutter := s.mpc.cutter
    home := s.mpc.home, strokeElapsed := strokeElapsed s }

/-- R136, R193: the measurement stop that STATUS shows as held: the one at which the executor stands, while its scan has not started. -/
def shownStop (s : State) : Option Nat := (heldStop s).filter (fun id => (checkAt s id).state != .measuring)

/-- R193: the CCU line. -/
def ccuLine (s : State) : CcuLine :=
  { sets := s.ccu.sets.map (fun o => o.map (fun p => (p.patches.length, p.rowOffset))), params := s.ccu.params
    checks := s.ccu.checks.map (fun c => (c.state, c.job, c.dry, c.limit)), heldStop := shownStop s
    sensor := s.ccu.sensor, link := s.ccu.link, retain := s.ccu.retain, held := s.ccu.ring.length }

/-- R149: the open ones of some account slots, with their kinds and tags. -/
def openSlots (l : List (Option Account)) : List AcctLine :=
  (List.range l.length).filterMap (fun i => (l.getD i none).map (fun a => ⟨a.kind, some i, a.tag⟩))

/-- R149, R193: the open ones of the thirteen account slots: print, quote, and the house account, which is always open. -/
def openAccounts (s : State) : List AcctLine :=
  openSlots s.cu.printAccts ++ openSlots s.cu.quotes ++ [⟨s.cu.house.kind, none, s.cu.house.tag⟩]

/-- R193: the CU line. -/
def cuLine (s : State) : CuLine :=
  { accts := openAccounts s, records := s.cu.records.length
    activeGen := s.cu.active.gen, staged := s.cu.stagedMark }

/-- R192. -/
def helloBody (s : State) : Body :=
  .hello Config.partName Config.revision s.lc.rate (storeMark s) s.ss.changed

/-- R193: all seven lines are formed in one step. -/
def statusBody (s : State) : Body :=
  .status (lcLine s) (rcLine s) (iscLine s) (mpcLine s) (ccuLine s) (cuLine s) (storeReport s) s.ss.changed

/-- HELLO (R192). -/
def doHello (ft : Byte) (s : State) : State := carryOut 0x01 ft (fun s => accept (helloBody s) s) s

/-- STATUS (R193): changes nothing and does not interrupt a plan. -/
def doStatus (ft : Byte) (s : State) : State := carryKeep 0x02 ft (fun s => accept (statusBody s) s) s

/-- RESET_SOFT (R194): the reset acts once the reply has left the line. -/
def doResetSoft (ft : Byte) (s : State) : State :=
  carryOut 0x03 ft (fun s => accept .none { s with lc.softReset := .replying }) s

/-! ### The class reads (R175) -/

/-- R175: a read of class `k`: the first 200 entries, and the number not reported. -/
def readBody (k : Nat) (s : State) : Body :=
  .entries ((classEntries k s).take Config.readMax) ((classEntries k s).length - Config.readMax)

/-- R175: one class read. -/
def takeRead (k : Nat) (s : State) : Taken := accept (readBody k s) (readClass k s)

/-- READ_FAULTS (R175): class 1. -/
def doReadFaults (ft : Byte) (s : State) : State := carryKeep 0x04 ft (takeRead 1) s
/-- READ_HOLDS (R175): class 2. -/
def doReadHolds (ft : Byte) (s : State) : State := carryKeep 0x05 ft (takeRead 2) s
/-- READ_PROGRESS (R175): class 3. -/
def doReadProgress (ft : Byte) (s : State) : State := carryKeep 0x06 ft (takeRead 3) s
/-- READ_CHANGES (R175): class 4. -/
def doReadChanges (ft : Byte) (s : State) : State := carryKeep 0x07 ft (takeRead 4) s

/-! ### RESUME (R181) -/

/-- R81: a suspended draw resumes, and ends at once where its FULL float stands asserted; a free pump serves its queue. -/
def resumePump (s : State) : State :=
  match s.isc.pump with
  | .suspended d =>
    let s1 := { s with isc.pump := .running d }
    if (chanAt s d.channel).fullFloat then pumpServe (endDrawFull d s1) else s1
  | _ => pumpServe s

/-- R116, R120: an entry in CUTTING returns to DUE. -/
def uncut (s : State) : State :=
  { s with mpc.cuts := s.mpc.cuts.map (fun e => if e.state = .cutting then { e with state := .due } else e) }

/-- R120: the cutter at RESUME. -/
def resumeCutter (s : State) : State :=
  match s.mpc.cutter with
  | .off mid =>
    let s1 := if mid then uncut s else s
    if s.mpc.home then { s1 with mpc.cutter := .ready } else raise .cutterJam none { s1 with mpc.cutter := .jammed }
  | _ => s

/-- R97: an OFF executor proceeds from the P of the moment. -/
def resumeExec (s : State) : State :=
  match s.mpc.exec with
  | .off a _ => runOn a s
  | _ => s

/-- R181: the end of the hold, block by block. -/
def endHold (s : State) : State :=
  send .askState (resumeExec (resumeCutter (resumePump { s with lc.hold := .none })))

/-- R181: the tests of RESUME, and RESUME taken in UP. -/
def takeResume (s : State) : Taken :=
  if s.lc.hold = .up then (accept (.resumed s.lc.hold) (endHold s)).settled else refuse .notNow s

/-- RESUME (R181). -/
def doResume (ft : Byte) (s : State) : State := carryOut 0x08 ft takeResume s

/-! ### The meanings -/

/-- HELLO (R192). -/
def execHello (ft : Byte) (s : State) : Host.Outcome State Fault Refusal :=
  .next (doHello ft s)

/-- STATUS (R193). -/
def execStatus (ft : Byte) (s : State) : Host.Outcome State Fault Refusal :=
  .next (doStatus ft s)

/-- RESET_SOFT (R194). -/
def execResetSoft (ft : Byte) (s : State) : Host.Outcome State Fault Refusal :=
  .next (doResetSoft ft s)

/-- READ_FAULTS (R175). -/
def execReadFaults (ft : Byte) (s : State) : Host.Outcome State Fault Refusal :=
  .next (doReadFaults ft s)

/-- READ_HOLDS (R175). -/
def execReadHolds (ft : Byte) (s : State) : Host.Outcome State Fault Refusal :=
  .next (doReadHolds ft s)

/-- READ_PROGRESS (R175). -/
def execReadProgress (ft : Byte) (s : State) : Host.Outcome State Fault Refusal :=
  .next (doReadProgress ft s)

/-- READ_CHANGES (R175). -/
def execReadChanges (ft : Byte) (s : State) : Host.Outcome State Fault Refusal :=
  .next (doReadChanges ft s)

/-- RESUME (R181). -/
def execResume (ft : Byte) (s : State) : Host.Outcome State Fault Refusal :=
  .next (doResume ft s)

end Sys2Proof.Machine
end

