-- ==== Sys2Proof/Machine/PathRequests.lean ====
section
/-! DEFINITION. The requests of the Media Path Controller: the roll, the feed, the sheet plan, the cutter and the geometry (R85, R86, R95, R99, R102 to R105, R108, R117). -/

namespace Sys2Proof.Machine

/-! ### The roll (R85, R99) -/

/-- R85: the roll goes LOADED with P = 0, and the stray tally goes to 0 (R87). -/
def loadRoll (media width length : Nat) (s : State) : State :=
  { s with mpc.roll := some ⟨media, width, length, 0⟩, mpc.stray := 0 }

/-- R85: the tests of ROLL_LOAD. -/
def takeRollLoad (media width length : Nat) (s : State) : Taken :=
  if 15 < media ∨ width < 1000 ∨ 20000 < width ∨ length = 0 ∨ Config.positionMax < length then refuse .range s
  else if s.mpc.roll.isSome then refuse .notNow s
  else (accept .none (loadRoll media width length s)).settled

/-- ROLL_LOAD (R85). -/
def doRollLoad (ft : Byte) (media width length : Nat) (s : State) : State :=
  carryOut 0x15 ft (takeRollLoad media width length) s

/-- R99 step 1: every cut entry is removed, with CUT_LOST on each owner's account, and the owners' done tests (R107), which the model makes once the list is empty, by ascending slot (DESIGN CHOICE, log 41). -/
def loseCuts (s : State) : State :=
  let owners := (s.mpc.cuts.map (fun e => e.owners)).flatten
  let s1 := owners.foldl (fun t o => setCutLost o t) { s with mpc.cuts := [] }
  (List.range Config.jobSlots).foldl (fun t i => doneTest i t) s1

/-- R99 step 2: a check whose strip leaves with the roll. -/
def leavesWithRoll (c : Check) : Bool :=
  c.state == .drying || c.state == .armed || (c.state == .waitingStrip && c.stripStart.isSome)

/-- R99: the roll is unloaded. The manual gives the checks of step 2 no order, and the model closes them by ascending id (DESIGN CHOICE, log 41). -/
def unloadRoll (s : State) : State :=
  let s1 := (List.range Config.checks).foldl
    (fun t id => if leavesWithRoll (checkAt t id) then closeUnchecked id t else t) (loseCuts s)
  { s1 with mpc.roll := none }

/-- R99: the tests of ROLL_UNLOAD. -/
def takeRollUnload (s : State) : Taken :=
  if s.mpc.roll.isNone then refuse .notNow s
  else if s.mpc.exec ≠ .idle ∨ (grantedEntry s).isSome = true then refuse .busy s
  else (accept (.removed s.mpc.cuts.length) (unloadRoll s)).settled

/-- ROLL_UNLOAD (R99). -/
def doRollUnload (ft : Byte) (s : State) : State := carryOut 0x16 ft takeRollUnload s

/-! ### FEED and FEED_RETRY (R95) -/

/-- R95: the tests of FEED. -/
def takeFeed (distance : Nat) (s : State) : Taken :=
  if distance = 0 ∨ Config.positionMax < distance then refuse .range s
  else if held s then refuse .held s
  else if s.mpc.roll.isNone then refuse .notNow s
  else if s.mpc.exec ≠ .idle ∨ (grantedEntry s).isSome = true then refuse .busy s
  else
    let a := newAdvance s .house .feed distance
    (accept (.fed a.target a.clamped) (takeAdvance .house .feed distance s)).settled

/-- FEED (R95). -/
def doFeed (ft : Byte) (distance : Nat) (s : State) : State := carryOut 0x17 ft (takeFeed distance) s

/-- R95: the tests of FEED_RETRY. -/
def takeFeedRetry (s : State) : Taken :=
  if held s then refuse .held s
  else match s.mpc.exec with
    | .stalled a => (accept (.retried (pos s) a.target) (runOn a s)).settled
    | _ => refuse .notNow s

/-- FEED_RETRY (R95). -/
def doFeedRetry (ft : Byte) (s : State) : State := carryOut 0x18 ft takeFeedRetry s

/-! ### The sheet plan (R102 to R105) -/

/-- A refusal of a plan request, which leaves the plan EMPTY (R102, R103). -/
def refusePlan (c : Code) (mark : Bool) (s : State) : Taken :=
  { state := dropPlan s, code := c, body := .none, mark := mark }

/-- SHEET_FROM's rule (R102): a plan held is discarded, with the mark. -/
def takeSheetFrom (position : Nat) (s : State) : Taken :=
  if Config.positionMax < position then refusePlan .range (planHeld s) s
  else { state := { s with mpc.plan := .from position }, code := .ok, body := .cutStop (position + s.mpc.cOff),
         mark := planHeld s }

/-- SHEET_FROM (R102). -/
def doSheetFrom (ft : Byte) (position : Nat) (s : State) : State := carryKeep 0x19 ft (takeSheetFrom position) s

/-- SHEET_TO's rule (R103). -/
def takeSheetTo (position : Nat) (s : State) : Taken :=
  match s.mpc.plan with
  | .from p =>
    if Config.positionMax < position then refusePlan .range true s
    else accept (.cutStop (position + s.mpc.cOff)) { s with mpc.plan := .to p position }
  | _ => refusePlan .sequence false s

/-- SHEET_TO (R103). -/
def doSheetTo (ft : Byte) (position : Nat) (s : State) : State := carryKeep 0x1A ft (takeSheetTo position) s

/-- R104: the kind a byte names. -/
def cutKindOf : Nat → Option CutKind
  | 0 => some .sheet
  | 1 => some .trim
  | _ => none

/-- R104: the account that the selector and tag name. -/
def cutOwnerOf : Nat → Nat → Option CutOwner
  | 0, tag => if tag = 0 ∨ 255 < tag then none else some (.job tag)
  | 1, _ => some .house
  | _, _ => none

/-- R104 test 9: an entry already at the position carries a guard naming another check. -/
def guardClash (s : State) (position : Nat) (checkId : Option Nat) : Bool :=
  match cutAt s position with
  | some e => e.guard.isSome && e.guard != checkId
  | none => false

/-- R104 test 10: an entry at the position has two owners, neither of which is the account. -/
def ownersFull (s : State) (position : Nat) (o : CutOwner) : Bool :=
  match cutAt s position with
  | some e => decide (2 ≤ e.owners.length) && !e.owners.any (fun x => x == o)
  | none => false

/-- R104 test 10: how many of the two positions hold no entry. -/
def newCuts (s : State) (p q : Nat) : Nat := (cutAt s p).isNone.toNat + (cutAt s q).isNone.toNat

/-- R105: the merge of an account into an entry. -/
def CutEntry.merge (o : CutOwner) (kind : CutKind) (guard : Option Nat) (e : CutEntry) : CutEntry :=
  { e with owners := if e.owners.any (fun x => x == o) then e.owners else e.owners ++ [o]
           kind := if e.kind = .sheet ∨ kind = .sheet then .sheet else .trim
           guard := match e.guard with
             | some g => some g
             | none => guard }

/-- R105: one cut is placed at a position, made or merged. -/
def placeCut (position : Nat) (o : CutOwner) (kind : CutKind) (guard : Option Nat) (s : State) : State :=
  match cutAt s position with
  | some _ => updCut position (CutEntry.merge o kind guard) s
  | none => { s with mpc.cuts := insertCut ⟨position, [o], kind, guard, .planned⟩ s.mpc.cuts }

/-- R105: what the reply shows of one of the two positions. -/
def cutReply (before after : State) (position : Nat) : CutReply :=
  match cutAt after position with
  | some e => { cutStop := cutStop after e, owners := e.owners, kind := e.kind, merged := (cutAt before position).isSome }
  | none => { cutStop := position + after.mpc.cOff, owners := [], kind := .trim, merged := false }

/-- R105: both cuts are placed, and the segment end is revised (R93). -/
def commitPlan (p q : Nat) (o : CutOwner) (lead trail : CutKind) (guard : Option Nat) (s : State) : State :=
  reviseSegment (placeCut q o trail guard (placeCut p o lead none s))

/-- R104: the job that an account names; none for HOUSE. -/
def ownerJob (s : State) : CutOwner → Option Job
  | .job tag => jobOf s tag
  | .house => none

/-- R104 test 4: the job is ABORTING or CLOSING. -/
def jobLeaving (o : Option Job) : Bool :=
  match o with
  | some j => j.state == .aborting || j.state == .closing
  | none => false

/-- R104: the check id that a guard would name. -/
def jobCheck (o : Option Job) : Option Nat := o.bind (fun j => j.checkId)

/-- R104: the tests from 3 on, for a plan in TO and an account and kinds that are in range. -/
def commitSheet (p q : Nat) (o : CutOwner) (lead trail : CutKind) (guard : Bool) (s : State) : Taken :=
  let j := ownerJob s o
  if o ≠ .house ∧ j.isNone = true then refuse .noJob s
  else if jobLeaving j then refuse .notNow s
  else if s.mpc.roll.isNone then refuse .notNow s
  else if q < p + 500 then refuse .range s
  else if guard = true ∧ (jobCheck j).isNone = true then refuse .range s
  else if p + s.mpc.cOff ≤ pos s then refuse .late s
  else if guard = true ∧ guardClash s q (jobCheck j) = true then refuse .range s
  else if ownersFull s p o = true ∨ ownersFull s q o = true ∨ cutsFree s < newCuts s p q then refuse .full s
  else
    let t := commitPlan p q o lead trail (if guard then jobCheck j else none) s
    accept (.committed (cutReply s t p) (cutReply s t q) (cutsFree t)) t

/-- R104: the tests of SHEET_COMMIT in order; whatever the reply, the plan goes EMPTY. -/
def takeSheetCommit (selector tag lead trail guard : Nat) (s : State) : Taken :=
  match s.mpc.plan with
  | .to p q =>
    match cutOwnerOf selector tag, cutKindOf lead, cutKindOf trail with
    | some o, some k, some l => commitSheet p q o k l (guard != 0) (dropPlan s)
    | _, _, _ => refuse .range (dropPlan s)
  | _ => refuse .sequence (dropPlan s)

/-- SHEET_COMMIT (R104). -/
def doSheetCommit (ft : Byte) (selector tag lead trail guard : Nat) (s : State) : State :=
  carryKeep 0x1B ft (takeSheetCommit selector tag lead trail guard) s

/-! ### CUT_CANCEL, CUTTER_CLEAR and GEOMETRY_SET (R108, R117, R86) -/

/-- R108: the tests of CUT_CANCEL. -/
def takeCutCancel (position : Nat) (s : State) : Taken :=
  if Config.positionMax < position then refuse .range s
  else match cutAt s position with
    | none => refuse .range s
    | some e =>
      if e.state = .cutting then refuse .notNow s
      else if e.state = .due ∧ s.mpc.cutter ≠ .jammed then refuse .notNow s
      else (accept (.cancelled e) (resolveStop (removeCut position s))).settled

/-- CUT_CANCEL (R108). -/
def doCutCancel (ft : Byte) (position : Nat) (s : State) : State := carryOut 0x1C ft (takeCutCancel position) s

/-- R117: the tests of CUTTER_CLEAR; the sequencer then tests again the stop at which the executor stands. -/
def takeCutterClear (s : State) : Taken :=
  if held s then refuse .held s
  else if s.mpc.cutter ≠ .jammed then refuse .notNow s
  else if !s.mpc.home then refuse .notNow s
  else (accept .none (retestCut { s with mpc.cutter := .ready })).settled

/-- CUTTER_CLEAR (R117). -/
def doCutterClear (ft : Byte) (s : State) : State := carryOut 0x1D ft takeCutterClear s

/-- R86: the tests of GEOMETRY_SET. -/
def takeGeometrySet (sensor cutter : Nat) (s : State) : Taken :=
  if sensor < 500 ∨ 6000 < sensor ∨ cutter < 500 ∨ 6000 < cutter ∨ cutter ≤ sensor then refuse .range s
  else if saving s then refuse .busy s
  else if s.mpc.roll.isSome then refuse .notNow s
  else accept .none (markChanged { s with mpc.sOff := sensor, mpc.cOff := cutter })

/-- GEOMETRY_SET (R86). -/
def doGeometrySet (ft : Byte) (sensor cutter : Nat) (s : State) : State :=
  carryOut 0x1E ft (takeGeometrySet sensor cutter) s

/-! ### The meanings -/

/-- ROLL_LOAD (R85). -/
def execRollLoad (ft : Byte) (media : Nat) (width : Nat) (length : Nat) (s : State) : Host.Outcome State Fault Refusal :=
  .next (doRollLoad ft media width length s)

/-- ROLL_UNLOAD (R99). -/
def execRollUnload (ft : Byte) (s : State) : Host.Outcome State Fault Refusal :=
  .next (doRollUnload ft s)

/-- FEED (R95). -/
def execFeed (ft : Byte) (distance : Nat) (s : State) : Host.Outcome State Fault Refusal :=
  .next (doFeed ft distance s)

/-- FEED_RETRY (R95). -/
def execFeedRetry (ft : Byte) (s : State) : Host.Outcome State Fault Refusal :=
  .next (doFeedRetry ft s)

/-- SHEET_FROM (R102). -/
def execSheetFrom (ft : Byte) (position : Nat) (s : State) : Host.Outcome State Fault Refusal :=
  .next (doSheetFrom ft position s)

/-- SHEET_TO (R103). -/
def execSheetTo (ft : Byte) (position : Nat) (s : State) : Host.Outcome State Fault Refusal :=
  .next (doSheetTo ft position s)

/-- SHEET_COMMIT (R104). -/
def execSheetCommit (ft : Byte) (selector : Nat) (tag : Nat) (lead : Nat) (trail : Nat) (guard : Nat) (s : State) : Host.Outcome State Fault Refusal :=
  .next (doSheetCommit ft selector tag lead trail guard s)

/-- CUT_CANCEL (R108). -/
def execCutCancel (ft : Byte) (position : Nat) (s : State) : Host.Outcome State Fault Refusal :=
  .next (doCutCancel ft position s)

/-- CUTTER_CLEAR (R117). -/
def execCutterClear (ft : Byte) (s : State) : Host.Outcome State Fault Refusal :=
  .next (doCutterClear ft s)

/-- GEOMETRY_SET (R86). -/
def execGeometrySet (ft : Byte) (sensor : Nat) (cutter : Nat) (s : State) : Host.Outcome State Fault Refusal :=
  .next (doGeometrySet ft sensor cutter s)

end Sys2Proof.Machine
end

