-- ==== Sys2Proof/Machine/HostLink.lean ====
section
/-! DEFINITION. The host link: the receiver (R187), the request buffer (R188), dispatch (R189), and the transmitter with its notices (R177, R190). -/

namespace Sys2Proof.Machine

/-! ### The receiver (R186, R187) -/

/-- What the receiver finds at a start byte: a bad length or a bad CRC, too few bytes yet, or a frame with the bytes after its start byte. -/
inductive Found where
  | bad | short | frame (f : Frame) (size : Nat)
deriving DecidableEq, Repr

/-- R186, R187: the frame that the bytes after a start byte begin with. -/
def examine (l : List Byte) : Found :=
  if l.length < 2 then .short
  else
    let len := fieldAt 0 2 l
    if Config.payloadMax < len then .bad
    else if l.length < len + 6 then .short
    else if crc16 (l.take (len + 4)) = BitVec.ofNat 16 (fieldAt (len + 4) 2 l) then
      .frame ⟨l.getD 2 0, l.getD 3 0, (l.drop 4).take len⟩ (len + 6)
    else .bad

/-- R187: the search through received bytes, from HUNTING: the complete frames, and the partial frame that is left. With `ends`, a partial frame is dropped too, and the search goes on from the byte after its start byte (log 10). `room` counts the frames that the request buffer and the busy-reply list can still take: a complete frame without room is dropped as one whose CRC had failed (R188), so the search goes on inside it (log 33). The second number counts bytes of a complete frame still to be passed over. -/
def search (ends : Bool) : Nat → Nat → List Byte → List Frame × List Byte
  | _, _, [] => ([], [])
  | room, skip + 1, _ :: t => search ends room skip t
  | room, 0, b :: t =>
    if b = 0x7E then
      match examine t with
      | .bad => search ends room 0 t
      | .short => if ends then search ends room 0 t else ([], b :: t)
      | .frame f size => match room with
        | 0 => search ends 0 0 t
        | n + 1 => let r := search ends n size t; (f :: r.1, r.2)
    else search ends room 0 t

/-- R188: the frames that the request buffer and the busy-reply list can still take. -/
def linkRoom (s : State) : Nat := (Config.bufferSize - s.lc.buffer.length) + (Config.busySize - s.lc.busy.length)

/-- R188: LINK_BUSY for a frame. -/
def busyReply (f : Frame) : Reply :=
  { kind := replyKind f.kind.toNat, tag := f.tag, code := .linkBusy, planReset := false, body := .none }

/-- R188: a complete frame enters the buffer, or is answered LINK_BUSY, or is dropped. -/
def bufferFrame (f : Frame) (s : State) : State :=
  if s.lc.buffer.length < Config.bufferSize then { s with lc.buffer := s.lc.buffer ++ [f] }
  else if s.lc.busy.length < Config.busySize then { s with lc.busy := s.lc.busy ++ [busyReply f] }
  else s

/-- HOST_FRAME_RECEIVED (R188); bytes received before the receiver started are not taken (R186). -/
def doHostFrameReceived (f : Frame) (s : State) : State :=
  if s.lc.started then bufferFrame f (begin s) else begin s

/-- R187: the frames found are buffered in order of arrival, and the partial frame is kept. -/
def receive (r : List Frame × List Byte) (s : State) : State :=
  r.1.foldl (fun t f => bufferFrame f t) { s with lc.rx := r.2, lc.rxGap := 0 }

/-- HOST_BYTE_RECEIVED (R187): a byte without a valid stop bit drops the partial frame. -/
def doHostByteReceived (byte : Byte) (stopOk : Bool) (s : State) : State :=
  if s.lc.started then
    if stopOk then receive (search false (linkRoom s) 0 (s.lc.rx ++ [byte])) (begin s)
    else receive (search true (linkRoom s) 0 s.lc.rx) (begin s)
  else begin s

/-- RX_GAP_TIMEOUT (R187): a gap of more than 10 ms drops the partial frame. -/
def doRxGapTimeout (s : State) : State := receive (search true (linkRoom s) 0 s.lc.rx) (begin s)

/-! ### Dispatch (R189) -/

/-- R189 step 3: the request is carried out by its own rule. -/
def runRequest (i : Instr) (s : State) : State :=
  match i with
  | .hello ft => doHello ft s
  | .status ft => doStatus ft s
  | .resetSoft ft => doResetSoft ft s
  | .readFaults ft => doReadFaults ft s
  | .readHolds ft => doReadHolds ft s
  | .readProgress ft => doReadProgress ft s
  | .readChanges ft => doReadChanges ft s
  | .resume ft => doResume ft s
  | .jobOpen ft tag media policy setId flags => doJobOpen ft tag media policy setId flags s
  | .swathPut ft d => doSwathPut ft d s
  | .jobEnd ft tag => doJobEnd ft tag s
  | .jobAbort ft tag => doJobAbort ft tag s
  | .queueMark ft value => doQueueMark ft value s
  | .chanSet ft ch cfg => doChanSet ft ch cfg s
  | .chanOn ft ch => doChanOn ft ch s
  | .chanOff ft ch => doChanOff ft ch s
  | .chanGet ft ch => doChanGet ft ch s
  | .refillAsk ft ch => doRefillAsk ft ch s
  | .pumpSet ft period spent => doPumpSet ft period spent s
  | .bayClear ft bay => doBayClear ft bay s
  | .rollLoad ft media width length => doRollLoad ft media width length s
  | .rollUnload ft => doRollUnload ft s
  | .feed ft distance => doFeed ft distance s
  | .feedRetry ft => doFeedRetry ft s
  | .sheetFrom ft position => doSheetFrom ft position s
  | .sheetTo ft position => doSheetTo ft position s
  | .sheetCommit ft selector tag lead trail guard => doSheetCommit ft selector tag lead trail guard s
  | .cutCancel ft position => doCutCancel ft position s
  | .cutterClear ft => doCutterClear ft s
  | .geometrySet ft sensor cutter => doGeometrySet ft sensor cutter s
  | .patchsetLoad ft setId count body => doPatchsetLoad ft setId count body s
  | .gainSet ft ch value => doGainSet ft ch value s
  | .ringRetain ft setting => doRingRetain ft setting s
  | .ringRead ft offset count => doRingRead ft offset count s
  | .ringRelease ft n => doRingRelease ft n s
  | .checkSet ft params => doCheckSet ft params s
  | .checkGet ft check => doCheckGet ft check s
  | .quoteOpen ft tag media width cuts => doQuoteOpen ft tag media width cuts s
  | .quoteSwath ft tag d => doQuoteSwath ft tag d s
  | .quoteClose ft tag => doQuoteClose ft tag s
  | .houseClose ft => doHouseClose ft s
  | .priceStage ft selector index value => doPriceStage ft selector index value s
  | .priceCommit ft => doPriceCommit ft s
  | .priceGet ft selector => doPriceGet ft selector s
  | .accountGet ft selector tag => doAccountGet ft selector tag s
  | .recordTake ft => doRecordTake ft s
  | .storeSave ft => doStoreSave ft s
  | _ => begin s

/-- R189: a frame taken from the buffer: UNKNOWN and MALFORMED are answered without dispatch. -/
def handleFrame (f : Frame) (s : State) : State :=
  match decodeRequest f with
  | .unknown => form f.kind.toNat f.tag false (refuse .unknown s)
  | .malformed => form f.kind.toNat f.tag false (refuse .malformed s)
  | .request i => runRequest i s

/-- R189: LC may take a frame: no formed reply waits, and no RESET_SOFT reply is still being sent. -/
def mayDispatch (s : State) : Bool := s.lc.formed.isEmpty && s.lc.softReset == .none

/-- FRAME_DISPATCH (R189): nothing where no frame may be taken (log 17). -/
def doFrameDispatch (s : State) : State :=
  match s.lc.buffer with
  | f :: t => if mayDispatch s then handleFrame f { begin s with lc.buffer := t } else begin s
  | [] => begin s

/-! ### The transmitter (R177, R190) -/

/-- R178: the highest-priority class that holds entries. -/
def reportedClass (s : State) : Nat :=
  match s.lc.conds with
  | e :: _ => e.cond.cls
  | [] => 0

/-- R177, R186: the notice formed from the table as it stands, with the notice kind and its sequence number. -/
def formNotice (s : State) : Notice :=
  let k := reportedClass s
  { kind := noticeKind, seq := (s.lc.noticeSeq + 1) % 256, cls := k
    counts := [(classEntries 1 s).length, (classEntries 2 s).length, (classEntries 3 s).length, (classEntries 4 s).length]
    subjects := ((classEntries k s).take Config.noticeMax).map (fun e => (e.cond, e.subject))
    more := decide (Config.noticeMax < (classEntries k s).length) }

/-- R190: a frame starts on the line. -/
def startFrame (f : TxFrame) (s : State) : State := send (.frame f) { s with lc.line := some f }

/-- R177: the notice goes out, and the mark is cleared. -/
def sendNotice (s : State) : State :=
  let n := formNotice s
  startFrame (.notice n) { s with lc.noticeDue := false, lc.noticeSeq := n.seq }

/-- R190: the oldest busy reply, else the formed reply. -/
def sendReply (s : State) : State :=
  match s.lc.busy with
  | r :: t => startFrame (.reply r) { s with lc.busy := t }
  | [] => match s.lc.formed with
    | r :: t => startFrame (.reply r) { s with lc.formed := t }
    | [] => s

/-- R177, R190: the choice of the next frame; a notice due on an empty table only clears the mark. -/
def nextFrame (s : State) : State :=
  if s.lc.noticeDue then
    if s.lc.conds.isEmpty then sendReply { s with lc.noticeDue := false } else sendNotice s
  else sendReply s

/-- TRANSMIT_FRAME_START (R190): nothing while a frame is under way (log 17). -/
def doTransmitFrameStart (s : State) : State := if s.lc.line.isNone then nextFrame (begin s) else begin s

/-- R194: the frame on the line is the OK reply of RESET_SOFT. -/
def isResetReply (f : TxFrame) : Bool :=
  match f with
  | .reply r => r.kind == 0x83 && r.code == .ok
  | .notice _ => false

/-- FRAME_SEND_END (R190): the transmitter is free; the last byte of a RESET_SOFT reply makes the reset due (R194). -/
def doFrameSendEnd (s : State) : State :=
  match s.lc.line with
  | some f =>
    { begin s with lc.line := none, lc.softReset := if isResetReply f then .due else s.lc.softReset }
  | none => begin s

/-! ### The meanings -/

/-- HOST_FRAME_RECEIVED (R188). -/
def execHostFrameReceived (f : Frame) (s : State) : Host.Outcome State Fault Refusal :=
  .next (doHostFrameReceived f s)

/-- RX_GAP_TIMEOUT (R187). -/
def execRxGapTimeout (s : State) : Host.Outcome State Fault Refusal :=
  .next (doRxGapTimeout s)

/-- FRAME_DISPATCH (R189). -/
def execFrameDispatch (s : State) : Host.Outcome State Fault Refusal :=
  .next (doFrameDispatch s)

/-- TRANSMIT_FRAME_START (R190). -/
def execTransmitFrameStart (s : State) : Host.Outcome State Fault Refusal :=
  .next (doTransmitFrameStart s)

/-- FRAME_SEND_END (R190). -/
def execFrameSendEnd (s : State) : Host.Outcome State Fault Refusal :=
  .next (doFrameSendEnd s)

/-- HOST_BYTE_RECEIVED (R187). -/
def execHostByteReceived (byte : Byte) (stopOk : Bool) (s : State) : Host.Outcome State Fault Refusal :=
  .next (doHostByteReceived byte stopOk s)

end Sys2Proof.Machine
end

