-- ==== Sys2Proof/Machine/InkEvents.lean ====
section
/-! DEFINITION. The events of the floats, the draw, the cartridge bays and the tag bus (R51 to R57, R77 to R79). -/

namespace Sys2Proof.Machine

/-! ### The floats (R51, R52) -/

/-- R51 step 1: the level corrected by the LOW float. -/
def Channel.lowCorrect (c : Channel) : Channel :=
  match c.level with
  | some l => if c.cfg.lowVol < l then { c with level := some c.cfg.lowVol, drift := true } else c
  | none => c

/-- R51: the LOW float asserts. -/
def lowAsserts (ch : Nat) (s : State) : State :=
  placeRequest ch true (updChan ch (fun c => { c.lowCorrect with lowFloat := true }) s)

/-- LOW_FLOAT_ASSERT (R51): nothing where the float stands asserted (log 11). -/
def doLowFloatAssert (ch : Fin 10) (s : State) : State :=
  if (chanAt s ch).lowFloat then begin s else settle (lowAsserts ch (begin s))

/-- LOW_FLOAT_DEASSERT (R51). -/
def doLowFloatDeassert (ch : Fin 10) (s : State) : State := updChan ch (fun c => { c with lowFloat := false }) (begin s)

/-- R52: the FULL float asserts outside a draw. -/
def Channel.fullCorrect (c : Channel) : Channel :=
  match c.level with
  | some l => { c with level := some c.cfg.full, drift := c.drift || decide (l < c.cfg.full) }
  | none => { c with level := some c.cfg.full }

/-- R52: the draw of a channel, where one is in flight. -/
def drawOf (s : State) (ch : Nat) : Option Draw :=
  match s.isc.pump.draw with
  | some d => if d.channel = ch then some d else none
  | none => none

/-- R52, R77: the FULL float asserts. -/
def fullAsserts (ch : Nat) (s : State) : State :=
  let s1 := updChan ch (fun c => { c with fullFloat := true }) s
  match drawOf s ch with
  | some d => pumpServe (endDrawFull d s1)
  | none => updChan ch Channel.fullCorrect s1

/-- FULL_FLOAT_ASSERT (R52): nothing where the float stands asserted (log 11). -/
def doFullFloatAssert (ch : Fin 10) (s : State) : State :=
  if (chanAt s ch).fullFloat then begin s else settle (fullAsserts ch (begin s))

/-- FULL_FLOAT_DEASSERT (R52). -/
def doFullFloatDeassert (ch : Fin 10) (s : State) : State := updChan ch (fun c => { c with fullFloat := false }) (begin s)

/-- DRAW_LIMIT_EXPIRY (R78): nothing where no draw is running (R81, log 11). -/
def doDrawLimitExpiry (s : State) : State :=
  match s.isc.pump with
  | .running d => settle (endDrawExpiry d (begin s))
  | _ => begin s

/-! ### Presence (R53, R55) -/

/-- R53: presence asserts on an EMPTY bay: READING, with a tag read placed. -/
def bayInserted (b : Nat) (s : State) : State :=
  raise .bayChanged (some b)
    (placeTagOp (.read b) (updBay b (fun y => { y with present := true, state := .reading, tag := none, drift := false }) s))

/-- BAY_PRESENCE_ASSERT (R53): nothing where presence stands asserted (log 11). -/
def doBayPresenceAssert (b : Fin 16) (s : State) : State :=
  if (bayAt s b).present then begin s else bayInserted b (begin s)

/-- R79: the draw whose source is the bay. -/
def drawFrom (s : State) (b : Nat) : Option Draw :=
  match s.isc.pump.draw with
  | some d => if d.bay = b then some d else none
  | none => none

/-- R55: presence deasserts, by the state the bay leaves. -/
def bayRemoved (b : Nat) (s : State) : State :=
  match (bayAt s b).state with
  | .reading => emptyBay b (abandonTagOp b s)
  | .writing => raise .tagStale (some b) (emptyBay b (abandonTagOp b s))
  | .drawing => match drawFrom s b with
    | some d => endDrawRemoval d s
    | none => emptyBay b s
  | _ => emptyBay b s

/-- BAY_PRESENCE_DEASSERT (R55): nothing where presence stands deasserted (log 11). -/
def doBayPresenceDeassert (b : Fin 16) (s : State) : State :=
  if (bayAt s b).present then settle (bayRemoved b (begin s)) else begin s

/-! ### The tag bus (R54, R56, R57) -/

/-- R56: the record that an operation puts on the bus; a write carries its check value (R57). -/
def TagOp.sent : TagOp → Sent
  | .read b => .tagRead b
  | .write b data => .tagWrite b data (tagCheck data)

/-- TAG_OP_START (R56): the oldest waiting operation starts on the free bus. -/
def doTagOpStart (s : State) : State :=
  match s.isc.tagBus, s.isc.tagQueue with
  | none, op :: t => send op.sent { begin s with isc.tagQueue := t, isc.tagBus := some ⟨op, 0⟩ }
  | _, _ => begin s

/-- R54: the tag's contents pass their tests. -/
def TagData.ok (t : TagData) (check : Half) : Bool :=
  check == tagCheck t && decide (1 ≤ t.capacity) && decide (t.remaining ≤ t.capacity)

/-- R54, R57: the bay goes READY above the spent mark, handing the event to the refill side (R68), else SPENT. -/
def bayResult (b remaining : Nat) (s : State) : State :=
  if s.isc.spentMark < remaining then bayReady b (updBay b (fun y => { y with state := .ready }) s)
  else updBay b (fun y => { y with state := .spent }) s

/-- R54, R57: the bay goes TAG_FAULT. -/
def bayFaults (b : Nat) (keep : Bool) (s : State) : State :=
  raise .tagFault (some b)
    (updBay b (fun y => { y with state := .tagFault, tag := if keep then y.tag else none }) s)

/-- R54: the result of a tag read. -/
def readResult (b : Nat) (t : TagData) (check : Half) (s : State) : State :=
  if t.ok check then bayResult b t.remaining (updBay b (fun y => { y with tag := some t }) s) else bayFaults b false s

/-- R56: the operation on the bus ended. -/
def freeBus (s : State) : State := { s with isc.tagBus := none }

/-- TAG_READ_COMPLETE (R54): nothing where no read is on the bus (log 11). -/
def doTagReadComplete (inkId capacity remaining : Nat) (check : Half) (s : State) : State :=
  match s.isc.tagBus with
  | some ⟨.read b, _⟩ => settle (readResult b ⟨inkId, capacity, remaining⟩ check (freeBus (begin s)))
  | _ => begin s

/-- R57: the remaining volume in the bay's record. -/
def bayRemaining (s : State) (b : Nat) : Nat :=
  match (bayAt s b).tag with
  | some t => t.remaining
  | none => 0

/-- TAG_WRITE_COMPLETE (R57): nothing where no write is on the bus (log 11). -/
def doTagWriteComplete (s : State) : State :=
  match s.isc.tagBus with
  | some ⟨.write b _, _⟩ => settle (bayResult b (bayRemaining s b) (freeBus (begin s)))
  | _ => begin s

/-- TAG_OP_TIMEOUT (R54, R57): a failed write keeps the record's fields; nothing where the bus is free (log 11). -/
def doTagOpTimeout (s : State) : State :=
  match s.isc.tagBus with
  | some ⟨.read b, _⟩ => settle (bayFaults b false (freeBus (begin s)))
  | some ⟨.write b _, _⟩ => settle (bayFaults b true (freeBus (begin s)))
  | none => begin s

/-! ### The meanings -/

/-- LOW_FLOAT_ASSERT (R51). -/
def execLowFloatAssert (ch : Fin 10) (s : State) : Host.Outcome State Fault Refusal :=
  .next (doLowFloatAssert ch s)

/-- LOW_FLOAT_DEASSERT (R51). -/
def execLowFloatDeassert (ch : Fin 10) (s : State) : Host.Outcome State Fault Refusal :=
  .next (doLowFloatDeassert ch s)

/-- FULL_FLOAT_ASSERT (R52). -/
def execFullFloatAssert (ch : Fin 10) (s : State) : Host.Outcome State Fault Refusal :=
  .next (doFullFloatAssert ch s)

/-- FULL_FLOAT_DEASSERT (R52). -/
def execFullFloatDeassert (ch : Fin 10) (s : State) : Host.Outcome State Fault Refusal :=
  .next (doFullFloatDeassert ch s)

/-- DRAW_LIMIT_EXPIRY (R78). -/
def execDrawLimitExpiry (s : State) : Host.Outcome State Fault Refusal :=
  .next (doDrawLimitExpiry s)

/-- BAY_PRESENCE_ASSERT (R53). -/
def execBayPresenceAssert (bay : Fin 16) (s : State) : Host.Outcome State Fault Refusal :=
  .next (doBayPresenceAssert bay s)

/-- BAY_PRESENCE_DEASSERT (R55). -/
def execBayPresenceDeassert (bay : Fin 16) (s : State) : Host.Outcome State Fault Refusal :=
  .next (doBayPresenceDeassert bay s)

/-- TAG_OP_START (R56). -/
def execTagOpStart (s : State) : Host.Outcome State Fault Refusal :=
  .next (doTagOpStart s)

/-- TAG_READ_COMPLETE (R54). -/
def execTagReadComplete (inkId : Nat) (capacity : Nat) (remaining : Nat) (check : Half) (s : State) : Host.Outcome State Fault Refusal :=
  .next (doTagReadComplete inkId capacity remaining check s)

/-- TAG_WRITE_COMPLETE (R57). -/
def execTagWriteComplete (s : State) : Host.Outcome State Fault Refusal :=
  .next (doTagWriteComplete s)

/-- TAG_OP_TIMEOUT (R54). -/
def execTagOpTimeout (s : State) : Host.Outcome State Fault Refusal :=
  .next (doTagOpTimeout s)

end Sys2Proof.Machine
end

