-- ==== Sys2Proof/Machine/PathEvents.lean ====
section
/-! DEFINITION. The events of the media path, the cutter, the cover and the supply monitor (R87, R91, R94, R96, R97, R113 to R116, R119, R180, R184). -/

namespace Sys2Proof.Machine

/-! ### The encoder and the feed (R87, R91, R94, R97) -/

/-- R87: one encoder step. -/
def encode (forward : Bool) (s : State) : State :=
  match s.mpc.roll with
  | some r => if forward && windowOpen s then forwardStep r s else strayStep s
  | none => strayStep s

/-- ENCODER_STEP (R87). -/
def doEncoderStep (forward : Bool) (s : State) : State := encode forward (begin s)

/-- R91, R94, R96, R97: the executor at the end of the settle window. -/
def afterWindow (s : State) : State :=
  match s.mpc.exec with
  | .moving a g => match g.phase with
    | .settling => runOn a s
    | .stalling => raise .feedStall none (setExec (.stalled a) s)
    | .holding => if held s then setExec (.off a none) s else runOn a s
    | _ => s
  | _ => s

/-- SETTLE_WINDOW_END (R88, R91): nothing where no window is open (log 11). -/
def doSettleWindowEnd (s : State) : State :=
  match s.mpc.settle with
  | some _ => settle (afterWindow (handCharge { begin s with mpc.settle := none }))
  | none => begin s

/-- R94: a driven segment whose run time reached its feed limit. -/
def stall (s : State) : State :=
  match s.mpc.exec with
  | .moving a g =>
    if g.phase = .driving then stopFeed .stalling (setExec (.moving a { g with run := g.limit }) s) else s
  | _ => s

/-- FEED_LIMIT_EXPIRY (R94). -/
def doFeedLimitExpiry (s : State) : State := settle (stall (begin s))

/-! ### The cutter (R113, R115, R116) -/

/-- The entry in CUTTING. -/
def cuttingEntry (s : State) : Option CutEntry := s.mpc.cuts.find? (fun e => e.state == .cutting)

/-- R115: one cut is charged to the owner of the advance in hand. -/
def chargeCut (s : State) : State :=
  match s.mpc.exec.advance with
  | some a => updOwner a.owner addCut s
  | none => s

/-- R115: the stroke succeeds. The cut is charged to the advance in hand before the released executor goes on (log 18). -/
def strokeDone (s : State) : State :=
  let s1 := { s with mpc.cutter := .ready, mpc.strokeTimer := none }
  match cuttingEntry s with
  | some e => resolveStop (chargeCut (removeCut e.position s1))
  | none => s1

/-- R113, R115: a change of HOME, by the cutter's state. -/
def homeChanged (asserted : Bool) (s : State) : State :=
  let s1 := { s with mpc.home := asserted }
  match s.mpc.cutter with
  | .ready => if asserted then s1 else raise .cutterJam none { s1 with mpc.cutter := .jammed }
  | .stroke left =>
    if asserted then (if left then strokeDone s1 else s1) else { s1 with mpc.cutter := .stroke true }
  | _ => s1

/-- HOME_CHANGE (R113): nothing where HOME stands as reported (log 11). -/
def doHomeChange (asserted : Bool) (s : State) : State :=
  if s.mpc.home = asserted then begin s else settle (homeChanged asserted (begin s))

/-- R116: the stroke fails. -/
def strokeFails (s : State) : State :=
  raise .cutterJam none { uncut s with mpc.cutter := .jammed, mpc.strokeTimer := none }

/-- STROKE_TIMEOUT (R116): nothing where no stroke runs (log 11). -/
def doStrokeTimeout (s : State) : State := if goAsserted s then settle (strokeFails (begin s)) else begin s

/-! ### The cover (R184, R96) -/

/-- R96: a driven segment pauses. -/
def pauseFeed (s : State) : State := if feedDriven s then stopFeed .paused s else s

/-- COVER_OPEN (R184). -/
def doCoverOpen (s : State) : State :=
  if s.lc.cover = .opened then begin s
  else settle (pauseFeed (raise .coverChanged none { begin s with lc.cover := .opened }))

/-- COVER_CLOSE (R184). -/
def doCoverClose (s : State) : State :=
  if s.lc.cover = .opened then
    raise .coverChanged none { begin s with lc.cover := .settling Config.coverTime }
  else begin s

/-- R96: the pause ends: the feed is driven again, or the segment ends where P reached its end (log 15). -/
def endPause (s : State) : State :=
  match s.mpc.exec with
  | .moving a g =>
    if g.phase = .paused then
      if pos s < g.segEnd then closeWindow (setExec (.moving a { g with phase := .driving }) s)
      else if s.mpc.settle.isSome then setExec (.moving a { g with phase := .settling }) s
      else runOn a s
    else s
  | _ => s

/-- R184: the settle timer runs. -/
def coverSettling (s : State) : Bool :=
  match s.lc.cover with
  | .settling _ => true
  | _ => false

/-- COVER_SETTLE_EXPIRY (R184): the pause ends (R96) and the stroke condition is taken again (R118). -/
def doCoverSettleExpiry (s : State) : State :=
  if coverSettling s then settle (retestStroke (endPause { begin s with lc.cover := .settled })) else begin s

/-! ### The supply hold (R180) -/

/-- R81: a running draw is suspended. -/
def suspendPump (s : State) : State :=
  match s.isc.pump with
  | .running d => { s with isc.pump := .suspended d }
  | _ => s

/-- R97: a MOVING executor at the start of a hold, by what its segment does. -/
def holdMoving (a : Advance) (g : Segment) (s : State) : State :=
  match g.phase with
  | .driving => stopFeed .holding s
  | .settling => setExec (.moving a { g with phase := .holding }) s
  | .stalling => s
  | .paused => if s.mpc.settle.isSome then setExec (.moving a { g with phase := .holding }) s else setExec (.off a none) s
  | .holding => s

/-- R97: the executor at the start of a hold. -/
def holdExec (s : State) : State :=
  match s.mpc.exec with
  | .moving a g => holdMoving a g s
  | .atStop a r => setExec (.off a (some r)) s
  | _ => s

/-- R119: the cutter at the start of a hold. -/
def holdCutter (s : State) : State :=
  match s.mpc.cutter with
  | .ready => { s with mpc.cutter := .off false }
  | .stroke _ => { s with mpc.cutter := .off true, mpc.strokeTimer := none }
  | _ => s

/-- R180: a hold begins, block by block; a GRANTED swath ends BROKEN (R19). -/
def beginHold (s : State) : State :=
  breakGrant (holdCutter (holdExec (suspendPump
    (raise .supplyHold none { s with lc.hold := .down, rc.head := .notReady }))))

/-- SUPPLY_OK_DEASSERT (R180). -/
def doSupplyOkDeassert (s : State) : State :=
  match s.lc.hold with
  | .none => settle (beginHold (begin s))
  | .up => { begin s with lc.hold := .down }
  | .down => begin s

/-- SUPPLY_OK_ASSERT (R180). -/
def doSupplyOkAssert (s : State) : State :=
  match s.lc.hold with
  | .down => { begin s with lc.hold := .up }
  | _ => begin s

/-! ### The meanings -/

/-- ENCODER_STEP (R87). -/
def execEncoderStep (forward : Bool) (s : State) : Host.Outcome State Fault Refusal :=
  .next (doEncoderStep forward s)

/-- SETTLE_WINDOW_END (R91). -/
def execSettleWindowEnd (s : State) : Host.Outcome State Fault Refusal :=
  .next (doSettleWindowEnd s)

/-- FEED_LIMIT_EXPIRY (R94). -/
def execFeedLimitExpiry (s : State) : Host.Outcome State Fault Refusal :=
  .next (doFeedLimitExpiry s)

/-- HOME_CHANGE (R113). -/
def execHomeChange (asserted : Bool) (s : State) : Host.Outcome State Fault Refusal :=
  .next (doHomeChange asserted s)

/-- STROKE_TIMEOUT (R116). -/
def execStrokeTimeout (s : State) : Host.Outcome State Fault Refusal :=
  .next (doStrokeTimeout s)

/-- COVER_OPEN (R184). -/
def execCoverOpen (s : State) : Host.Outcome State Fault Refusal :=
  .next (doCoverOpen s)

/-- COVER_CLOSE (R184). -/
def execCoverClose (s : State) : Host.Outcome State Fault Refusal :=
  .next (doCoverClose s)

/-- COVER_SETTLE_EXPIRY (R184). -/
def execCoverSettleExpiry (s : State) : Host.Outcome State Fault Refusal :=
  .next (doCoverSettleExpiry s)

/-- SUPPLY_OK_DEASSERT (R180). -/
def execSupplyOkDeassert (s : State) : Host.Outcome State Fault Refusal :=
  .next (doSupplyOkDeassert s)

/-- SUPPLY_OK_ASSERT (R180). -/
def execSupplyOkAssert (s : State) : Host.Outcome State Fault Refusal :=
  .next (doSupplyOkAssert s)

end Sys2Proof.Machine
end

