-- ==== Sys2Proof/Machine/Resets.lean ====
section
/-! DEFINITION. Power-on and the reset pin, the end of the store load, and the soft reset, block by block (R29, R30, R63, R64, R82, R83, R100, R121, R122, R148, R171, R179, R183, R185, R194, R196). -/

namespace Sys2Proof.Machine

/-! ### POWER_ON_RESET (R29, R63, R82, R100, R121, R148, R171, R179, R183, R185, R196) -/

/-- R51, R52, R63: a channel's floats as they are read. -/
def readFloats (p : Pins) (ch : Nat) (c : Channel) : Channel :=
  { c with lowFloat := p.low.getLsbD ch, fullFloat := p.full.getLsbD ch }

/-- R63: a bay as its presence is read. -/
def readPresence (p : Pins) (b : Nat) (y : Bay) : Bay :=
  if p.present.getLsbD b then { y with present := true, state := .reading } else y

/-- R56, R63: the reads placed at the reset, in ascending bay order. -/
def resetReads (p : Pins) : List TagOp := ((List.range Config.bays).filter (fun b => p.present.getLsbD b)).map TagOp.read

/-- R63, R82: ISC as the reset finds its inputs. -/
def resetIsc (p : Pins) : Isc :=
  let i := Isc.afterReset factory
  { i with chans := i.chans.mapIdx (readFloats p), bays := i.bays.mapIdx (readPresence p), tagQueue := resetReads p }

/-- R121: MPC as the reset finds HOME. -/
def resetMpc (p : Pins) : Mpc :=
  { Mpc.afterReset factory with home := p.home, cutter := if p.home then .ready else .jammed }

/-- R185: LC as the reset finds the straps and the cover. -/
def resetLc (p : Pins) : Lc := { Lc.afterReset p.rate with cover := if p.coverOpen then .opened else .settled }

/-- Every block in its reset state, with the store load running (R196) and ASK_STATE sent (R29). The store image is kept. -/
def poweredOn (p : Pins) (s : State) : State :=
  { lc := resetLc p, rc := Rc.afterReset factory, isc := resetIsc p, mpc := resetMpc p, ccu := Ccu.afterReset factory,
    cu := Cu.afterReset factory,
    ss := { image := s.ss.image, store := .defaulted, changed := false, loading := some 0 },
    out := [.askState], pending := s.pending }

/-- POWER_ON_RESET (R183, R196): where SUPPLY_OK is deasserted a hold begins at once. -/
def doPowerOnReset (p : Pins) (s : State) : State :=
  if p.supplyOk then poweredOn p s else beginHold (poweredOn p s)

/-! ### STORE_LOAD_END (R196) -/

/-- R196: the settings that the load gives. -/
def loadedSettings (s : State) : Settings :=
  match s.ss.image with
  | .good p => p
  | .bad => factory

/-- R43, R63: a channel takes its stored settings; its runtime fields stay, within the new full volume. -/
def Channel.load (p : ChanCfg × Bool) (c : Channel) : Channel :=
  { c with cfg := p.1, enabled := p.2, level := c.level.map (fun l => min l p.1.full) }

/-- R196: every block takes its settings. -/
def applySettings (p : Settings) (s : State) : State :=
  { s with
    isc.chans := List.zipWith Channel.load p.chans s.isc.chans
    isc.gains := p.gains
    isc.gainGen := p.gainGen
    isc.pumpPeriod := p.pumpPeriod
    isc.spentMark := p.spentMark
    mpc.sOff := p.sOff
    mpc.cOff := p.cOff
    ccu.sets := p.sets
    ccu.params := p.params
    cu.active := p.prices
    cu.staged := p.prices
    cu.stagedMark := false
    cu.house := { s.cu.house with genAtOpen := p.gainGen }
    rc.queueMark := p.queueMark }

/-- R186, R196: the load has ended, and the receiver starts. -/
def loadDone (store : StoreState) (s : State) : State :=
  { s with ss.store := store, ss.changed := false, ss.loading := none, lc.started := true }

/-- R196: the outcome of the load: VALID, or DEFAULTED with STORE_DEFAULTED. -/
def endLoad (s : State) : State :=
  let s1 := applySettings (loadedSettings s) s
  match s.ss.image with
  | .good _ => loadDone .valid s1
  | .bad => raise .storeDefaulted none (loadDone .defaulted s1)

/-- STORE_LOAD_END (R196): nothing where no load runs (log 11). -/
def doStoreLoadEnd (s : State) : State := if s.ss.loading.isSome then endLoad (begin s) else begin s

/-! ### SOFT_RESET_ACT (R194) -/

/-- R30: a grant in flight is revoked and dropped, its tag kept as the stale tag. -/
def dropGrant (s : State) : State :=
  match grantedEntry s with
  | some e =>
    send (.revoke e.queueTag) (release (e.charges.getD []) { s with rc.fireTimer := none, rc.stale := some e.queueTag })
  | none => s

/-- R30: RC at the soft reset. -/
def softRc (s : State) : State :=
  let s1 := dropGrant s
  { s1 with rc.jobs := List.replicate 8 none, rc.queue := [], rc.belowMark := false }

/-- R64: a QUEUED channel goes IDLE. -/
def Channel.unqueued (c : Channel) : Channel := if c.refill = .queued then { c with refill := .idle } else c

/-- R64, R83: ISC at the soft reset. -/
def softIsc (s : State) : State :=
  let s1 := match s.isc.pump.draw with
    | some d => endDrawSoft d s
    | none => s
  { s1 with isc.chans := s1.isc.chans.map Channel.unqueued, isc.pumpQueue := [] }

/-- R122: the cutter at the soft reset. -/
def softCutter (c : Cutter) (home : Bool) : Cutter :=
  match c with
  | .stroke _ => if home then .ready else .jammed
  | .off _ => .off false
  | c => c

/-- R100, R122: MPC at the soft reset: the settle window runs where the feed was driven, or runs on where it already ran, and its charge will not be handed. -/
def softMpc (s : State) : State :=
  { s with mpc.exec := .idle
           mpc.settle := if feedDriven s then some Config.settleTime else s.mpc.settle
           mpc.resetWindow := windowOpen s
           mpc.cuts := []
           mpc.plan := .empty
           mpc.cutter := softCutter s.mpc.cutter s.mpc.home
           mpc.strokeTimer := none }

/-- R139, R148: the link of an abandoned scan drains. -/
def softLink : Link → Link
  | .scanning _ _ _ t => .draining t
  | l => l

/-- R148: CCU at the soft reset. -/
def softCcu (s : State) : State :=
  { s with ccu.checks := List.replicate 4 Check.blank, ccu.link := softLink s.ccu.link, ccu.ring := [], ccu.retain := false }

/-- R171: CU at the soft reset; the house account reopens zeroed. -/
def softCu (s : State) : State :=
  openHouse { s with cu.printAccts := List.replicate 8 none, cu.quotes := List.replicate 4 none, cu.records := [] }

/-- R179, R194: LC at the soft reset. -/
def softLc (s : State) : State := { s with lc.conds := [], lc.noticeDue := false, lc.softReset := .none }

/-- R194: every block applies its soft-reset rule. -/
def softReset (s : State) : State := softLc (softCu (softCcu (softMpc (softIsc (softRc s)))))

/-- SOFT_RESET_ACT (R194): nothing unless the last byte of a RESET_SOFT reply has left the line (log 17). -/
def doSoftResetAct (s : State) : State := if s.lc.softReset = .due then softReset (begin s) else begin s

/-! ### The meanings -/

/-- POWER_ON_RESET (R196). -/
def execPowerOnReset (pins : Pins) (s : State) : Host.Outcome State Fault Refusal :=
  .next (doPowerOnReset pins s)

/-- STORE_LOAD_END (R196). -/
def execStoreLoadEnd (s : State) : Host.Outcome State Fault Refusal :=
  .next (doStoreLoadEnd s)

/-- SOFT_RESET_ACT (R194). -/
def execSoftResetAct (s : State) : Host.Outcome State Fault Refusal :=
  .next (doSoftResetAct s)

end Sys2Proof.Machine
end

