-- ==== Sys2Proof/Machine/SensorEvents.lean ====
section
/-! DEFINITION. What the colour sensor sends, the scan timer and the timers of the checks (R131, R132, R134 to R139). -/

namespace Sys2Proof.Machine

/-- R137: a reading's L*, a* and b* inside their ranges. -/
def readingOk (l a b : Int) : Bool :=
  inRangeInt 0 10000 l && inRangeInt (-12800) 12799 a && inRangeInt (-12800) 12799 b

/-- R137: the entry that a READING writes as the reading after `written` others. -/
def ringEntry (check written : Nat) (crcOk : Bool) (index : Nat) (l a b : Int) (good : Bool) : RingEntry :=
  { check := check, index := written, l := l, a := a, b := b,
    valid := crcOk && good && index == written && readingOk l a b }

/-- READING (R137): a reading beyond the patch count, or with no scan in progress, is discarded. -/
def doReading (crcOk : Bool) (index : Nat) (l a b : Int) (good : Bool) (s : State) : State :=
  match s.ccu.link with
  | .scanning id w n t =>
    if w < n then
      { begin s with ccu.ring := s.ccu.ring ++ [ringEntry id w crcOk index l a b good], ccu.link := .scanning id (w + 1) n t }
    else begin s
  | _ => begin s

/-- R143: the entries that a scan wrote, at the tail of the ring. -/
def scanReadings (w : Nat) (s : State) : List RingEntry := s.ccu.ring.drop (s.ccu.ring.length - w)

/-- R138: the link goes IDLE. -/
def idleLink (s : State) : State := { s with ccu.link := .idle }

/-- R138, R144: the result of a scan that its timer or SENSOR_FAULT ended: SENSOR_ERROR, with the valid count of the entries written. -/
def errorResult (id w : Nat) (s : State) : Result :=
  match checkSetOf s (checkAt s id) with
  | some p => Result.sensorError (diffsFrom (scanReadings w s) 0 p.patches).length
  | none => Result.sensorError 0

/-- R138, R144: the result of a scan that SCAN_END ended. -/
def fullResult (id w : Nat) (s : State) : Result :=
  match checkSetOf s (checkAt s id) with
  | some p => evaluate s p (checkAt s id).policy (scanReadings w s)
  | none => Result.sensorError 0

/-- R138: a scan ends by SCAN_END: evaluated, corrected (R145) and closed. -/
def endScan (id w : Nat) (s : State) : State :=
  let r := fullResult id w s
  closeCheck id r w (applyCorrections r (idleLink s))

/-- R138: a scan ends by its timer or by SENSOR_FAULT. -/
def failScan (id w : Nat) (s : State) : State := closeCheck id (errorResult id w s) w (idleLink s)

/-- R136, R139: a draining link goes IDLE, and the scan start test is taken again. -/
def endDrain (s : State) : State := retestScan (idleLink s)

/-- SCAN_END (R135, R138, R139). -/
def doScanEnd (crcOk : Bool) (s : State) : State :=
  if crcOk then
    match s.ccu.link with
    | .scanning id w _ _ => settle (endScan id w (begin s))
    | .draining _ => settle (endDrain (begin s))
    | .idle => begin s
  else begin s

/-- SENSOR_READY (R134). -/
def doSensorReady (crcOk : Bool) (s : State) : State :=
  if crcOk then settle (retestScan { begin s with ccu.sensor := .ready }) else begin s

/-- R134: the sensor goes FAULT. -/
def faultSensor (s : State) : State := raise .sensorFault none { s with ccu.sensor := .fault }

/-- SENSOR_FAULT (R134, R138, R139). -/
def doSensorFault (crcOk : Bool) (s : State) : State :=
  if crcOk then
    match s.ccu.link with
    | .scanning id w _ _ => settle (failScan id w (faultSensor (begin s)))
    | .draining _ => settle (endDrain (faultSensor (begin s)))
    | .idle => settle (faultSensor (begin s))
  else begin s

/-- SCAN_TIMEOUT (R138, R139): nothing where no scan timer runs (log 11). -/
def doScanTimeout (s : State) : State :=
  match s.ccu.link with
  | .scanning id w _ _ => settle (failScan id w (begin s))
  | .draining _ => settle (endDrain (begin s))
  | .idle => begin s

/-- R131: the check is ARMED. -/
def armCheck (id : Nat) (s : State) : State := scanTest id (updCheck id (fun c => { c with state := .armed, dry := none }) s)

/-- DRY_TIMER_EXPIRY (R131): nothing for a check that is not DRYING (log 11). -/
def doDryTimerExpiry (check : Fin 4) (s : State) : State :=
  if (checkAt s check).state = .drying then settle (armCheck check (begin s)) else begin s

/-- LIMIT_TIMER_EXPIRY (R132): nothing where no limit timer runs (log 11). -/
def doLimitTimerExpiry (check : Fin 4) (s : State) : State :=
  if (checkAt s check).live && (checkAt s check).limit.isSome then settle (closeUnchecked check (begin s)) else begin s

/-! ### The meanings -/

/-- READING (R137). -/
def execReading (crcOk : Bool) (index : Nat) (l : Int) (a : Int) (b : Int) (good : Bool) (s : State) : Host.Outcome State Fault Refusal :=
  .next (doReading crcOk index l a b good s)

/-- SCAN_END (R138). -/
def execScanEnd (crcOk : Bool) (s : State) : Host.Outcome State Fault Refusal :=
  .next (doScanEnd crcOk s)

/-- SENSOR_READY (R134). -/
def execSensorReady (crcOk : Bool) (s : State) : Host.Outcome State Fault Refusal :=
  .next (doSensorReady crcOk s)

/-- SENSOR_FAULT (R134). -/
def execSensorFault (crcOk : Bool) (s : State) : Host.Outcome State Fault Refusal :=
  .next (doSensorFault crcOk s)

/-- SCAN_TIMEOUT (R138). -/
def execScanTimeout (s : State) : Host.Outcome State Fault Refusal :=
  .next (doScanTimeout s)

/-- DRY_TIMER_EXPIRY (R131). -/
def execDryTimerExpiry (check : Fin 4) (s : State) : Host.Outcome State Fault Refusal :=
  .next (doDryTimerExpiry check s)

/-- LIMIT_TIMER_EXPIRY (R132). -/
def execLimitTimerExpiry (check : Fin 4) (s : State) : Host.Outcome State Fault Refusal :=
  .next (doLimitTimerExpiry check s)

end Sys2Proof.Machine
end

