-- ==== Sys2Proof/Machine/Dispatch.lean ====
section
/-! DEFINITION. The dispatch: one arm for each command, each a direct call of its meaning. -/

namespace Sys2Proof.Machine

def exec (i : Instr) (s : State) : Host.Outcome State Fault Refusal :=
  match i with
  | .powerOnReset pins => Sys2Proof.Machine.execPowerOnReset pins s
  | .storeLoadEnd => Sys2Proof.Machine.execStoreLoadEnd s
  | .hostFrameReceived f => Sys2Proof.Machine.execHostFrameReceived f s
  | .rxGapTimeout => Sys2Proof.Machine.execRxGapTimeout s
  | .frameDispatch => Sys2Proof.Machine.execFrameDispatch s
  | .transmitFrameStart => Sys2Proof.Machine.execTransmitFrameStart s
  | .frameSendEnd => Sys2Proof.Machine.execFrameSendEnd s
  | .softResetAct => Sys2Proof.Machine.execSoftResetAct s
  | .hello ft => Sys2Proof.Machine.execHello ft s
  | .status ft => Sys2Proof.Machine.execStatus ft s
  | .resetSoft ft => Sys2Proof.Machine.execResetSoft ft s
  | .readFaults ft => Sys2Proof.Machine.execReadFaults ft s
  | .readHolds ft => Sys2Proof.Machine.execReadHolds ft s
  | .readProgress ft => Sys2Proof.Machine.execReadProgress ft s
  | .readChanges ft => Sys2Proof.Machine.execReadChanges ft s
  | .resume ft => Sys2Proof.Machine.execResume ft s
  | .jobOpen ft tag media policy setId flags => Sys2Proof.Machine.execJobOpen ft tag media policy setId flags s
  | .swathPut ft d => Sys2Proof.Machine.execSwathPut ft d s
  | .jobEnd ft tag => Sys2Proof.Machine.execJobEnd ft tag s
  | .jobAbort ft tag => Sys2Proof.Machine.execJobAbort ft tag s
  | .queueMark ft value => Sys2Proof.Machine.execQueueMark ft value s
  | .chanSet ft channel cfg => Sys2Proof.Machine.execChanSet ft channel cfg s
  | .chanOn ft channel => Sys2Proof.Machine.execChanOn ft channel s
  | .chanOff ft channel => Sys2Proof.Machine.execChanOff ft channel s
  | .chanGet ft channel => Sys2Proof.Machine.execChanGet ft channel s
  | .refillAsk ft channel => Sys2Proof.Machine.execRefillAsk ft channel s
  | .pumpSet ft period spent => Sys2Proof.Machine.execPumpSet ft period spent s
  | .bayClear ft bay => Sys2Proof.Machine.execBayClear ft bay s
  | .rollLoad ft media width length => Sys2Proof.Machine.execRollLoad ft media width length s
  | .rollUnload ft => Sys2Proof.Machine.execRollUnload ft s
  | .feed ft distance => Sys2Proof.Machine.execFeed ft distance s
  | .feedRetry ft => Sys2Proof.Machine.execFeedRetry ft s
  | .sheetFrom ft position => Sys2Proof.Machine.execSheetFrom ft position s
  | .sheetTo ft position => Sys2Proof.Machine.execSheetTo ft position s
  | .sheetCommit ft selector tag lead trail guard => Sys2Proof.Machine.execSheetCommit ft selector tag lead trail guard s
  | .cutCancel ft position => Sys2Proof.Machine.execCutCancel ft position s
  | .cutterClear ft => Sys2Proof.Machine.execCutterClear ft s
  | .geometrySet ft sensor cutter => Sys2Proof.Machine.execGeometrySet ft sensor cutter s
  | .patchsetLoad ft setId count body => Sys2Proof.Machine.execPatchsetLoad ft setId count body s
  | .gainSet ft channel value => Sys2Proof.Machine.execGainSet ft channel value s
  | .ringRetain ft setting => Sys2Proof.Machine.execRingRetain ft setting s
  | .ringRead ft offset count => Sys2Proof.Machine.execRingRead ft offset count s
  | .ringRelease ft n => Sys2Proof.Machine.execRingRelease ft n s
  | .checkSet ft params => Sys2Proof.Machine.execCheckSet ft params s
  | .checkGet ft check => Sys2Proof.Machine.execCheckGet ft check s
  | .quoteOpen ft tag media width cuts => Sys2Proof.Machine.execQuoteOpen ft tag media width cuts s
  | .quoteSwath ft tag d => Sys2Proof.Machine.execQuoteSwath ft tag d s
  | .quoteClose ft tag => Sys2Proof.Machine.execQuoteClose ft tag s
  | .houseClose ft => Sys2Proof.Machine.execHouseClose ft s
  | .priceStage ft selector index value => Sys2Proof.Machine.execPriceStage ft selector index value s
  | .priceCommit ft => Sys2Proof.Machine.execPriceCommit ft s
  | .priceGet ft selector => Sys2Proof.Machine.execPriceGet ft selector s
  | .accountGet ft selector tag => Sys2Proof.Machine.execAccountGet ft selector tag s
  | .recordTake ft => Sys2Proof.Machine.execRecordTake ft s
  | .storeSave ft => Sys2Proof.Machine.execStoreSave ft s
  | .storeSaveEnd => Sys2Proof.Machine.execStoreSaveEnd s
  | .fired crcOk tag => Sys2Proof.Machine.execFired crcOk tag s
  | .broken crcOk tag => Sys2Proof.Machine.execBroken crcOk tag s
  | .notFired crcOk tag => Sys2Proof.Machine.execNotFired crcOk tag s
  | .headReady crcOk => Sys2Proof.Machine.execHeadReady crcOk s
  | .headFault crcOk => Sys2Proof.Machine.execHeadFault crcOk s
  | .cleaned crcOk counts => Sys2Proof.Machine.execCleaned crcOk counts s
  | .fireTimeout => Sys2Proof.Machine.execFireTimeout s
  | .encoderStep forward => Sys2Proof.Machine.execEncoderStep forward s
  | .settleWindowEnd => Sys2Proof.Machine.execSettleWindowEnd s
  | .feedLimitExpiry => Sys2Proof.Machine.execFeedLimitExpiry s
  | .homeChange asserted => Sys2Proof.Machine.execHomeChange asserted s
  | .strokeTimeout => Sys2Proof.Machine.execStrokeTimeout s
  | .coverOpen => Sys2Proof.Machine.execCoverOpen s
  | .coverClose => Sys2Proof.Machine.execCoverClose s
  | .coverSettleExpiry => Sys2Proof.Machine.execCoverSettleExpiry s
  | .supplyOkDeassert => Sys2Proof.Machine.execSupplyOkDeassert s
  | .supplyOkAssert => Sys2Proof.Machine.execSupplyOkAssert s
  | .lowFloatAssert ch => Sys2Proof.Machine.execLowFloatAssert ch s
  | .lowFloatDeassert ch => Sys2Proof.Machine.execLowFloatDeassert ch s
  | .fullFloatAssert ch => Sys2Proof.Machine.execFullFloatAssert ch s
  | .fullFloatDeassert ch => Sys2Proof.Machine.execFullFloatDeassert ch s
  | .drawLimitExpiry => Sys2Proof.Machine.execDrawLimitExpiry s
  | .bayPresenceAssert bay => Sys2Proof.Machine.execBayPresenceAssert bay s
  | .bayPresenceDeassert bay => Sys2Proof.Machine.execBayPresenceDeassert bay s
  | .tagOpStart => Sys2Proof.Machine.execTagOpStart s
  | .tagReadComplete inkId capacity remaining check => Sys2Proof.Machine.execTagReadComplete inkId capacity remaining check s
  | .tagWriteComplete => Sys2Proof.Machine.execTagWriteComplete s
  | .tagOpTimeout => Sys2Proof.Machine.execTagOpTimeout s
  | .reading crcOk index l a b good => Sys2Proof.Machine.execReading crcOk index l a b good s
  | .scanEnd crcOk => Sys2Proof.Machine.execScanEnd crcOk s
  | .sensorReady crcOk => Sys2Proof.Machine.execSensorReady crcOk s
  | .sensorFault crcOk => Sys2Proof.Machine.execSensorFault crcOk s
  | .scanTimeout => Sys2Proof.Machine.execScanTimeout s
  | .dryTimerExpiry check => Sys2Proof.Machine.execDryTimerExpiry check s
  | .limitTimerExpiry check => Sys2Proof.Machine.execLimitTimerExpiry check s
  | .hostByteReceived byte stopOk => Sys2Proof.Machine.execHostByteReceived byte stopOk s

end Sys2Proof.Machine
end

