-- ==== Sys2Proof/Machine/Tick.lean ====
section
/-! DEFINITION. What the part does on an empty queue (log 3): its own next step where one is possible, and else one millisecond of time. Each timer that runs out puts its row of the table on the queue. -/

namespace Sys2Proof.Machine

/-! ### Timers -/

/-- A command put at the end of the queue. -/
def enqueue (i : Instr) (s : State) : State := { s with pending := s.pending ++ [i] }

/-- One ms off a remaining time. -/
def countDown (o : Option Nat) : Option Nat := o.map (fun n => n - 1)

/-- A remaining time that runs out in this ms. -/
def runsOut (o : Option Nat) : Bool := o == some 1

/-- R196: the store load ends within 50 ms. -/
def tickLoad (s : State) : State :=
  match s.ss.loading with
  | some n =>
    let s1 := { s with ss.loading := some (n + 1) }
    if n + 1 = Config.loadTime then enqueue .storeLoadEnd s1 else s1
  | none => s

/-- R187: the gap inside a partial frame. -/
def tickGap (s : State) : State :=
  if s.lc.rx.isEmpty then s
  else
    let s1 := { s with lc.rxGap := s.lc.rxGap + 1 }
    if s1.lc.rxGap = Config.gapTime + 1 then enqueue .rxGapTimeout s1 else s1

/-- R56: the timeout of the tag operation on the bus. -/
def tickTag (s : State) : State :=
  match s.isc.tagBus with
  | some r =>
    let s1 := { s with isc.tagBus := some { r with elapsed := r.elapsed + 1 } }
    if r.elapsed + 1 = Config.tagTime then enqueue .tagOpTimeout s1 else s1
  | none => s

/-- R74: the elapsed draw time, and its limit (R75). -/
def tickDraw (s : State) : State :=
  match s.isc.pump with
  | .running d =>
    let s1 := { s with isc.pump := .running { d with elapsed := d.elapsed + 1 } }
    if d.elapsed + 1 = d.limit then enqueue .drawLimitExpiry s1 else s1
  | _ => s

/-- R12: the fire timer. -/
def tickFire (s : State) : State :=
  let s1 := { s with rc.fireTimer := countDown s.rc.fireTimer }
  if runsOut s.rc.fireTimer then enqueue .fireTimeout s1 else s1

/-- R184: the cover's settle timer. -/
def tickCover (s : State) : State :=
  match s.lc.cover with
  | .settling n =>
    let s1 := { s with lc.cover := .settling (n - 1) }
    if n = 1 then enqueue .coverSettleExpiry s1 else s1
  | _ => s

/-- R87: the settle window. -/
def tickSettle (s : State) : State :=
  let s1 := { s with mpc.settle := countDown s.mpc.settle }
  if runsOut s.mpc.settle then enqueue .settleWindowEnd s1 else s1

/-- R91, R94: the elapsed run time of a driven segment. -/
def tickFeed (s : State) : State :=
  match s.mpc.exec with
  | .moving a g =>
    if g.phase = .driving then
      let s1 := setExec (.moving a { g with run := g.run + 1 }) s
      if g.run + 1 = g.limit then enqueue .feedLimitExpiry s1 else s1
    else s
  | _ => s

/-- R114: the stroke timer. -/
def tickStroke (s : State) : State :=
  let s1 := { s with mpc.strokeTimer := countDown s.mpc.strokeTimer }
  if runsOut s.mpc.strokeTimer then enqueue .strokeTimeout s1 else s1

/-- The scan timer of a link that is not IDLE. -/
def Link.timer : Link → Option Nat
  | .idle => none
  | .scanning _ _ _ t => some t
  | .draining t => some t

/-- One ms off the scan timer. -/
def Link.tick : Link → Link
  | .idle => .idle
  | .scanning c w n t => .scanning c w n (t - 1)
  | .draining t => .draining (t - 1)

/-- R138, R139: the scan timer. -/
def tickScan (s : State) : State :=
  let s1 := { s with ccu.link := s.ccu.link.tick }
  if runsOut s.ccu.link.timer then enqueue .scanTimeout s1 else s1

/-- R128, R129: the timers of one check. -/
def tickCheck (id : Fin 4) (s : State) : State :=
  let c := checkAt s id
  let s1 := updCheck id (fun c => { c with dry := countDown c.dry, limit := countDown c.limit }) s
  let s2 := if runsOut c.dry then enqueue (.dryTimerExpiry id) s1 else s1
  if runsOut c.limit then enqueue (.limitTimerExpiry id) s2 else s2

/-- R197: a save ends within 400 ms. -/
def tickSave (s : State) : State :=
  match s.ss.store with
  | .saving p n =>
    let s1 := { s with ss.store := .saving p (n + 1) }
    if n + 1 = Config.saveTime then enqueue .storeSaveEnd s1 else s1
  | _ => s

/-- One millisecond: every timer that runs, in a fixed order (log 3). -/
def tick (s : State) : State :=
  let s1 := tickStroke (tickFeed (tickSettle (tickCover (tickFire (tickDraw (tickTag (tickGap (tickLoad s))))))))
  tickSave (tickCheck 3 (tickCheck 2 (tickCheck 1 (tickCheck 0 (tickScan s1)))))

/-! ### The part's own steps (log 17) -/

/-- R190: a frame waits for the free transmitter. -/
def maySend (s : State) : Bool :=
  s.lc.line.isNone && (s.lc.noticeDue || !s.lc.busy.isEmpty || !s.lc.formed.isEmpty)

/-- R56: an operation waits for the free tag bus. -/
def mayStartTag (s : State) : Bool := s.isc.tagBus.isNone && !s.isc.tagQueue.isEmpty

/-- The part's own next step on an empty queue, where one is possible. -/
def ownStep (s : State) : Option Instr :=
  if s.lc.softReset = .due then some .softResetAct
  else if mayDispatch s && !s.lc.buffer.isEmpty then some .frameDispatch
  else if maySend s then some .transmitFrameStart
  else if mayStartTag s then some .tagOpStart
  else none

end Sys2Proof.Machine
end

