-- ==== Sys2Proof/Machine/Step.lean ====
section
/-! DEFINITION. The step: the command at the front of the queue is taken and carried out; on an empty queue the part takes its own next step, or one millisecond passes (log 3). -/

namespace Sys2Proof.Machine

/-- The queue of waiting commands is first in, first out. -/
def step (s : State) : Host.Outcome State Fault Refusal :=
  match s.pending with
  | i :: t => exec i { s with pending := t }
  | [] => match ownStep s with
    | some i => exec i s
    | none => .next (tick (begin s))

/-- The command that a word spells, put at the front of the queue; the table gives no row any bits, so the state is unchanged (log 27). -/
def State.withFetchWord (s : State) (nbits w : Nat) : State :=
  match decodeTableWord nbits w with
  | some i => { s with pending := i :: s.pending }
  | none => s

end Sys2Proof.Machine
end

