-- ==== Sys2Proof/Safety.lean ====
section
/-! DEFINITION. The terms of the statements: the forms that every step keeps (capacities, ranges and orders of the manual's records), what the part's own reactions never move, and when no reaction is due. -/

namespace Sys2Proof.Machine

/-! ### Forms that every step keeps -/

/-- R60: a gain table inside its range. -/
def GainsIn (g : List Nat) : Prop := ∀ x ∈ g, Config.gainMin ≤ x ∧ x ≤ Config.gainMax

/-- R60, R195: the gain table in the part, in a save under way and in the store image, each inside the range. -/
def GainForm (s : State) : Prop :=
  GainsIn s.isc.gains ∧ (∀ p, s.ss.image = .good p → GainsIn p.gains) ∧ (∀ p n, s.ss.store = .saving p n → GainsIn p.gains)

/-- R188, R177: the request buffer, the busy-reply list and the notice sequence number within their sizes. -/
def LinkForm (l : Lc) : Prop :=
  l.buffer.length ≤ Config.bufferSize ∧ l.busy.length ≤ Config.busySize ∧ l.noticeSeq < 256

/-- R172 to R174: one entry for a pair of condition and subject, entries in class order, occurrences of one byte, and a cause only on a standing condition. -/
def TableForm (l : List CondEntry) : Prop :=
  l.Pairwise (fun a b => a.cond.cls ≤ b.cond.cls ∧ ¬(a.cond = b.cond ∧ a.subject = b.subject))
    ∧ ∀ e ∈ l, e.occurrences ≤ 255 ∧ (e.cause = true → e.cond.standing = true)

/-- R3, R4: at most 64 entries, no two with the same queue tag. -/
def QueueForm (q : List QEntry) : Prop := q.length ≤ Config.queueSize ∧ (q.map (fun e => e.queueTag)).Nodup

/-- R33, R50: a known level within the full volume, and a residue below the charge divisor. -/
def ChanForm (c : Channel) : Prop := (∀ l, c.level = some l → l ≤ c.cfg.full) ∧ c.residue < Config.chargeDivisor

/-- R12, R33: a saved residue below the charge divisor. -/
def ChargesForm (e : QEntry) : Prop := ∀ l, e.charges = some l → ∀ r ∈ l, r.saved < Config.chargeDivisor

/-- R33, R50: every channel record, and every residue saved for a restore. -/
def InkForm (s : State) : Prop := (∀ c ∈ s.isc.chans, ChanForm c) ∧ ∀ e ∈ s.rc.queue, ChargesForm e

/-- R84: P lies in 0..loaded length. -/
def RollForm (s : State) : Prop := ∀ r, s.mpc.roll = some r → r.pos ≤ r.length

/-- R101: at most 32 cut entries, in strictly ascending position. -/
def CutForm (l : List CutEntry) : Prop := l.length ≤ Config.cutSize ∧ (l.map (fun e => e.position)).Pairwise (· < ·)

/-- R136, R140: at most 64 readings, with room left for the rest of the scan in progress. -/
def RingForm (c : Ccu) : Prop :=
  c.ring.length ≤ Config.ringSize ∧
    match c.link with
    | .scanning _ w n _ => w ≤ n ∧ c.ring.length + (n - w) ≤ Config.ringSize
    | _ => True

/-- R162: at most 16 closed records. -/
def RecordForm (s : State) : Prop := s.cu.records.length ≤ Config.recordSize

/-- R62, R81: no draw runs. -/
def pumpStill : Pump → Bool
  | .running _ => false
  | _ => true

/-- R119: the cutter neither strokes nor stands ready to. -/
def cutterStill : Cutter → Bool
  | .ready | .stroke _ => false
  | _ => true

/-- R97: the feed is not driven, nor can the executor drive it at the end of a settle window or of a stop. -/
def execStill : Exec → Bool
  | .idle | .stalled _ | .off _ _ => true
  | .atStop _ _ => false
  | .moving _ g => g.phase == .stalling || g.phase == .holding

/-- R62, R81, R97, R119: during a supply hold the pump, the cutter and the feed stand still. -/
def HoldForm (s : State) : Prop :=
  held s = true → pumpStill s.isc.pump = true ∧ cutterStill s.mpc.cutter = true ∧ execStill s.mpc.exec = true

/-! ### What the reactions of a command never move -/

/-- The part of a channel record that no refill, commit or grant moves: its settings, its enable and its floats. -/
def Channel.setup (c : Channel) : Channel :=
  { c with level := none, reserved := 0, residue := 0, drift := false, refill := .idle }

/-- The part of a bay record that only its presence input moves. -/
def Bay.setup (b : Bay) : Bay := { Bay.afterReset with present := b.present }

/-- The state with all that a reaction may move masked. What stays is what a reaction never moves: the link with its formed replies, the hold and the cover; the queue tag counter, the low-water mark, the head state and the stale tag; the settings, gains and floats; the roll and its P, the geometry, the stray tally, the sheet plan and HOME; patch sets, check parameters, the sensor state and retain; the quotes, the house account and the prices; the Settings Store; and the waiting commands. -/
def kept (s : State) : State :=
  { lc := { s.lc with conds := [], noticeDue := false }
    rc := { s.rc with jobs := [], queue := [], belowMark := false, fireTimer := none }
    isc := { s.isc with chans := s.isc.chans.map Channel.setup, bays := s.isc.bays.map Bay.setup, pump := .free,
                        pumpQueue := [], tagQueue := [] }
    mpc := { s.mpc with exec := .idle, settle := none, moved := 0, resetWindow := false, cuts := [], cutter := .ready, strokeTimer := none }
    ccu := { s.ccu with checks := [], link := .idle, ring := [] }
    cu := { s.cu with printAccts := [], records := [] }
    ss := s.ss
    out := []
    pending := s.pending }

/-- R10, R11: the considered head swath is held again for the reason its job already records, and no refill request can be placed for it. -/
def HeldAgain (s : State) (e : QEntry) : Prop :=
  ∃ slot j r, slotOf s e.job = some slot ∧ jobAt s slot = some j ∧ j.hold = some r ∧ holdReason s j e = some r
    ∧ (r.asksInk = true → ∀ c ∈ dropChannels e.drops, wantsInk s e c = true → (chanAt s c).refill ≠ .idle)

/-- No reaction is due: the executor stands at no stop that has left the list (R92), no aborted job is to be finished (R27), no WAITING job is done (R25), no tail feed decision waits (R24), and the head swath is not considered (R9), or is held as it was (R10). -/
def Resting (s : State) : Prop := quiet s = true ∧ ∀ e, considered s = some e → HeldAgain s e

/-- `t` is the state that the part's reactions make of `x` at the end of a command (log 18): what no reaction moves stands as in `x`, and where none is due `t` is `x` with the causes that ended cleared (R174). -/
def Follows (x t : State) : Prop := t = settle x ∧ kept t = kept x ∧ (Resting x → t = syncCauses x)

/-- R189 step 3: the state with one more formed reply. -/
def answer (kind : Nat) (ft : Byte) (code : Code) (mark : Bool) (b : Body) (s : State) : State :=
  { s with lc.formed := s.lc.formed ++ [⟨replyKind kind, ft, code, mark, b⟩] }

/-- R7: what a rise of the free entries brings: where the below-mark flag stands and the free entries have reached the mark, the flag is cleared and SWATH_ROOM raised. -/
def roomed (s : State) : State :=
  if s.rc.belowMark = true ∧ s.rc.queueMark ≤ 64 - s.rc.queue.length then
    raise .swathRoom none { s with rc.belowMark := false }
  else s

/-- R136: what the scan start test makes of `z` for the ARMED check `id` of the job `tag`, at whose stop the executor stands: RING_FULL where the ring is short of room for its patches, not raised again while its cause lasts (R174); else the scan, where the sensor is READY and the link IDLE; else nothing. -/
def scanTested (id tag : Nat) (z : State) : State :=
  let c := checkAt z id
  let n := checkCount z c
  if 64 - z.ccu.ring.length < n then
    if z.lc.conds.any (fun e => e.isFor .ringFull (some tag) && e.cause) then z else raise .ringFull (some tag) z
  else if z.ccu.sensor = .ready ∧ z.ccu.link = .idle then
    { z with
      ccu := { z.ccu with
        checks := z.ccu.checks.modify id (fun c => { c with state := .measuring })
        link := .scanning id 0 n (2000 + 400 * n) }
      out := z.out ++ [.scan (c.setId.getD 0) n ((z.mpc.roll.map (fun r => r.width)).getD 0)] }
  else z

/-- R106, log 20: the state as a request that interrupts a plan finds it: nothing sent yet, and no sheet plan. -/
def cleared (s : State) : State := { s with out := [], mpc.plan := .empty }

/-- R106: the PLAN_RESET mark of a request that interrupts a plan. -/
def planMark (s : State) : Bool := decide (s.mpc.plan ≠ .empty)

/-- Commands carried out one after another, each on the state that the one before it left. -/
def execAll : List Instr → State → Host.Outcome State Fault Refusal
  | [], s => .next s
  | i :: l, s => match exec i s with
    | .next t => execAll l t
    | .fault r => .fault r
    | .refused r => .refused r

/-- A command that is a request: one that R198 gives a frame. -/
def isRequest (i : Instr) : Bool := (encodeRequest i).isSome

/-- R106: the requests that a sheet plan is kept across. -/
def keepsPlan : Instr → Bool
  | .status _ | .readFaults _ | .readHolds _ | .readProgress _ | .readChanges _ => true
  | _ => false

/-- R106: the requests that act on the sheet plan themselves. -/
def actsOnPlan : Instr → Bool
  | .sheetFrom _ _ | .sheetTo _ _ | .sheetCommit _ _ _ _ _ _ => true
  | _ => false

end Sys2Proof.Machine
end

