-- ==== Sys2Proof/WellFormed.lean ====
section
/-! DEFINITION. Which commands can arrive: every field inside the width its link gives it (R198, spec/10 section 10.4 for requests; R186 for frames; R13, R41 and R54 for the head link and the tags). The meanings take other values too and judge them by their own ranges (log 24). -/

namespace Sys2Proof

/-- A field of one byte. -/
def fits1 (n : Nat) : Bool := decide (n < 256)

/-- A field of two bytes. -/
def fits2 (n : Nat) : Bool := decide (n < 65536)

/-- A field of four bytes. -/
def fits4 (n : Nat) : Bool := decide (n < 4294967296)

/-- Section 10.4: a drop entry of six bytes. -/
def dropFits (d : DropEntry) : Bool := fits1 d.channel && fits1 d.size && fits4 d.count

/-- Section 10.4: a descriptor of 7 + 6n bytes with n at most 30. -/
def swathFits (d : Descriptor) : Bool :=
  fits1 d.jobTag && fits2 d.number && fits1 d.kind && fits2 d.advance && decide (d.drops.length ≤ 30)
    && d.drops.all dropFits

/-- R198: the settings of CHAN_SET. -/
def chanFits (c : ChanCfg) : Bool :=
  fits1 c.inkId && fits2 c.volS && fits2 c.volM && fits2 c.volL && fits4 c.full && fits4 c.floor && fits4 c.refillMark
    && fits4 c.lowVol && fits2 c.flow && fits1 c.duty

/-- R198: the parameters of CHECK_SET: ten sensitivities of one byte. -/
def paramsFit (p : CheckParams) : Bool :=
  decide (p.sens.length = 10) && p.sens.all fits1 && fits2 p.maxStep && fits1 p.maxInvalid && fits2 p.dryTime
    && fits2 p.limit

/-- R41: the counts of one channel in a CLEANED record. -/
def countsFit (n : Counts) : Bool :=
  decide (n.small ≤ Config.countMax) && decide (n.medium ≤ Config.countMax) && decide (n.large ≤ Config.countMax)

/-- A command that can arrive. -/
def Instr.wellFormed : Instr → Bool
  | .powerOnReset _ | .storeLoadEnd | .rxGapTimeout | .frameDispatch | .transmitFrameStart | .frameSendEnd
  | .softResetAct => true
  | .hostFrameReceived f => decide (f.payload.length ≤ Config.payloadMax)
  | .hello _ | .status _ | .resetSoft _ | .readFaults _ | .readHolds _ | .readProgress _ | .readChanges _
  | .resume _ => true
  | .jobOpen _ tag media policy setId flags => fits1 tag && fits1 media && fits1 policy && fits1 setId && fits1 flags
  | .swathPut _ d => swathFits d
  | .jobEnd _ tag | .jobAbort _ tag => fits1 tag
  | .queueMark _ value => fits1 value
  | .chanSet _ ch cfg => fits1 ch && chanFits cfg
  | .chanOn _ ch | .chanOff _ ch | .chanGet _ ch | .refillAsk _ ch => fits1 ch
  | .pumpSet _ period spent => fits1 period && fits4 spent
  | .bayClear _ bay => fits1 bay
  | .rollLoad _ media width length => fits1 media && fits2 width && fits4 length
  | .rollUnload _ | .feedRetry _ | .cutterClear _ => true
  | .feed _ distance => fits4 distance
  | .sheetFrom _ position | .sheetTo _ position | .cutCancel _ position => fits4 position
  | .sheetCommit _ selector tag lead trail guard =>
    fits1 selector && fits1 tag && fits1 lead && fits1 trail && fits1 guard
  | .geometrySet _ sensor cutter => fits2 sensor && fits2 cutter
  | .patchsetLoad _ setId count body => fits1 setId && fits1 count && decide (body.length + 2 ≤ Config.payloadMax)
  | .gainSet _ ch value => fits1 ch && fits2 value
  | .ringRetain _ setting => fits1 setting
  | .ringRead _ offset count => fits1 offset && fits1 count
  | .ringRelease _ n => fits1 n
  | .checkSet _ params => paramsFit params
  | .checkGet _ check => fits1 check
  | .quoteOpen _ tag media width cuts => fits1 tag && fits1 media && fits2 width && fits2 cuts
  | .quoteSwath _ tag d => fits1 tag && swathFits d
  | .quoteClose _ tag => fits1 tag
  | .houseClose _ | .priceCommit _ | .recordTake _ | .storeSave _ => true
  | .priceStage _ selector index value => fits1 selector && fits1 index && fits4 value
  | .priceGet _ selector => fits1 selector
  | .accountGet _ selector tag => fits1 selector && fits1 tag
  | .storeSaveEnd => true
  | .fired _ tag | .broken _ tag | .notFired _ tag => fits1 tag
  | .headReady _ | .headFault _ => true
  | .cleaned _ counts => decide (counts.length = 10) && counts.all countsFit
  | .fireTimeout | .encoderStep _ | .settleWindowEnd | .feedLimitExpiry | .homeChange _ | .strokeTimeout | .coverOpen
  | .coverClose | .coverSettleExpiry | .supplyOkDeassert | .supplyOkAssert => true
  | .lowFloatAssert _ | .lowFloatDeassert _ | .fullFloatAssert _ | .fullFloatDeassert _ | .drawLimitExpiry
  | .bayPresenceAssert _ | .bayPresenceDeassert _ | .tagOpStart => true
  | .tagReadComplete inkId capacity remaining _ => fits1 inkId && fits4 capacity && fits4 remaining
  | .tagWriteComplete | .tagOpTimeout => true
  | .reading _ _ _ _ _ _ | .scanEnd _ | .sensorReady _ | .sensorFault _ | .scanTimeout | .dryTimerExpiry _
  | .limitTimerExpiry _ => true
  | .hostByteReceived _ _ => true

end Sys2Proof
end

