-- ==== Sys2Proof/Certificates/Slice0/Obligations.lean ====
section
/-! DEFINITION. The statements for the provers. Each docstring names the rules of spec/ that the statement says in Lean. -/

open Sys2Proof Sys2Proof.Machine

/-! ### The step -/

/-- A step takes the command at the front of the queue and carries it out with the queue's rest. -/
def Obligations.StepCarriesOutFrontCommand : Prop :=
  ∀ (c : Instr) (s : State) (l : List Instr), step { s with pending := c :: l } = exec c { s with pending := l }

/-- The model's own choice (log 3, log 17), no rule of the manual, over steps that R194, R189, R190, R177 and R56 allow: on an empty queue the part takes the first of its own steps that is possible, and else one millisecond passes. The steps in order: a soft reset that is due; a frame from the buffer, where no formed reply waits and no RESET_SOFT reply is being sent; a frame for the free line, where a notice is due, or a busy or a formed reply waits; a tag operation for the free bus. -/
def Obligations.EmptyQueueTakesOwnStepOrTicks : Prop :=
  ∀ s : State, s.pending = [] →
    let dispatch : Prop := s.lc.buffer ≠ [] ∧ s.lc.formed = [] ∧ s.lc.softReset = .none
    let transmit : Prop := s.lc.line = none ∧ (s.lc.noticeDue = true ∨ s.lc.busy ≠ [] ∨ s.lc.formed ≠ [])
    let start : Prop := s.isc.tagBus = none ∧ s.isc.tagQueue ≠ []
    (s.lc.softReset = .due → step s = exec .softResetAct s) ∧
    (s.lc.softReset ≠ .due → dispatch → step s = exec .frameDispatch s) ∧
    (s.lc.softReset ≠ .due → ¬ dispatch → transmit → step s = exec .transmitFrameStart s) ∧
    (s.lc.softReset ≠ .due → ¬ dispatch → ¬ transmit → start → step s = exec .tagOpStart s) ∧
    (s.lc.softReset ≠ .due → ¬ dispatch → ¬ transmit → ¬ start → step s = .next (tick { s with out := [] }))

/-! ### What every step keeps -/

/-- R60, R61, R195, R33, R12, R50: every gain in the part, in a save under way and in the store image lies in 3,072..5,120, a known level never exceeds the full volume, and every residue, saved ones too, stays below 65,536,000; every step keeps each of the two. -/
def Obligations.GainsLevelsAndResiduesStayInRange : Prop :=
  ∀ s t : State, step s = .next t → (GainForm s → GainForm t) ∧ (InkForm s → InkForm t)

/-- R172 to R174, R177, R188: the buffers of the link stay within their sizes, and the condition table keeps its order, its one entry for a pair, and its saturating counts; every step keeps it. -/
def Obligations.LinkAndConditionTableKeepTheirForm : Prop :=
  ∀ s t : State, LinkForm s.lc ∧ TableForm s.lc.conds → step s = .next t → LinkForm t.lc ∧ TableForm t.lc.conds

/-- R3, R4, R101: the swath queue holds at most 64 entries, no two with the same queue tag, and the cut list at most 32, in strictly ascending position; every step keeps each of the two. -/
def Obligations.QueueTagsStayDistinctAndCutsAscending : Prop :=
  ∀ s t : State, step s = .next t →
    (QueueForm s.rc.queue → QueueForm t.rc.queue) ∧ (CutForm s.mpc.cuts → CutForm t.mpc.cuts)

/-- R84: P lies in 0..loaded length, which every step keeps; while the roll is LOADED its media type, width and loaded length stay, and P does not decrease nor move more than one unit in a step. -/
def Obligations.RollPositionStaysOnTheRollAndNeverDecreases : Prop :=
  ∀ s t : State, step s = .next t → (RollForm s → RollForm t) ∧
    ∀ r q : Roll, s.mpc.roll = some r → t.mpc.roll = some q →
      q.media = r.media ∧ q.width = r.width ∧ q.length = r.length ∧ r.pos ≤ q.pos ∧ q.pos ≤ r.pos + 1

/-- R62, R81, R97, R119: during a supply hold no draw runs, the cutter neither strokes nor stands ready, and the feed is not driven; every step keeps it. -/
def Obligations.NoMechanismRunsDuringHold : Prop :=
  ∀ s t : State, HoldForm s → step s = .next t → HoldForm t

/-- R136, R140, R162: the measurement ring never outgrows its 64 places, a scan in progress always has room for the rest of its readings, and at most 16 closed records wait; every step keeps it. -/
def Obligations.RingAndRecordsStayWithinCapacity : Prop :=
  ∀ s t : State, RingForm s.ccu ∧ RecordForm s → step s = .next t → RingForm t.ccu ∧ RecordForm t

/-- The state after reset has every form that the steps keep. -/
def Obligations.ResetStateHasEveryForm : Prop :=
  GainForm State.reset ∧ LinkForm State.reset.lc ∧ TableForm State.reset.lc.conds ∧ QueueForm State.reset.rc.queue
    ∧ InkForm State.reset ∧ RollForm State.reset ∧ CutForm State.reset.mpc.cuts ∧ HoldForm State.reset
    ∧ RingForm State.reset.ccu ∧ RecordForm State.reset

/-! ### Requests and their frames -/

/-- R189, R198: the frame written for a well-formed request is read back as that request, with every field at every value its width admits. -/
def Obligations.DecodeOfEncodedRequest : Prop :=
  ∀ (i : Instr) (f : Frame), i.wellFormed = true → encodeRequest i = some f →
    decodeRequest f = .request i ∧ f.payload.length ≤ Config.payloadMax

/-- R189, R198, said of decoding alone: a frame that is read as a request is the frame written for it, so that no byte of its payload is left unread; the request fits the widths of the link where the payload fits a frame. -/
def Obligations.EncodeOfDecodedFrame : Prop :=
  ∀ (f : Frame) (i : Instr), decodeRequest f = .request i →
    encodeRequest i = some f ∧ (f.payload.length ≤ Config.payloadMax → i.wellFormed = true)

/-- R186, R187, R188: the bytes of a frame with a good CRC, received one by one with valid stop bits from HUNTING, end as HOST_FRAME_RECEIVED of that frame: buffered, answered LINK_BUSY, or, with no room for either, dropped; that drop searches the frame's own bytes again, and so must find no start byte in them here (log 33). -/
def Obligations.ReceivedBytesSpellTheirFrame : Prop :=
  ∀ (f : Frame) (s : State), f.payload.length ≤ Config.payloadMax → s.lc.started = true → s.lc.rx = [] →
    s.lc.rxGap = 0 →
    s.lc.buffer.length < 4 ∨ s.lc.busy.length < 8 ∨ 0x7E#8 ∉ (frameBytes f.kind f.tag f.payload).drop 1 →
    execAll ((frameBytes f.kind f.tag f.payload).map (fun b => .hostByteReceived b true)) s
      = exec (.hostFrameReceived f) s

/-! ### Every request -/

/-- R189 step 3, R186, R191: every request is carried out to a next state and forms exactly one reply, with kind 128 above the request's and its frame tag; where the code is not OK the reply carries no fields, and nothing is changed but the sheet plan, which R102 to R104 and R106 empty. -/
def Obligations.RequestFormsOneReplyAndRefusalChangesNothing : Prop :=
  ∀ (i : Instr) (f : Frame) (s : State), encodeRequest i = some f →
    ∃ (t : State) (r : Reply), exec i s = .next t ∧ t.lc.formed = s.lc.formed ++ [r]
      ∧ r.kind = f.kind + 128#8 ∧ r.tag = f.tag
      ∧ (r.code ≠ .ok → r.body = .none ∧
          t = { s with out := [], mpc.plan := .empty, lc.formed := s.lc.formed ++ [r] })

/-- R106: a plan is kept across the four condition reads and STATUS; any other request but the three plan requests empties it, and its reply, whatever its code, carries the PLAN_RESET mark just where a plan was held. -/
def Obligations.RequestInterruptsSheetPlan : Prop :=
  ∀ (i : Instr) (s t : State), isRequest i = true → actsOnPlan i = false → exec i s = .next t →
    ∃ r : Reply, t.lc.formed = s.lc.formed ++ [r] ∧
      (keepsPlan i = true → t.mpc.plan = s.mpc.plan ∧ r.planReset = false) ∧
      (keepsPlan i = false → t.mpc.plan = .empty ∧ r.planReset = decide (s.mpc.plan ≠ .empty))

/-! ### Resets and the store load -/

/-- R29, R63, R82, R100, R121, R148, R171, R179, R183, R185, R190: POWER_ON_RESET from any state. These values are the model's choices: what the settings and the store state read before the store load ends (log 6), the count of P increases as 0 (log 5), the model's own mark resetWindow as clear (log 25), and the waiting commands as they stood (log 27). -/
def Obligations.PowerOnResetSetsEveryBlock : Prop :=
  ∀ (p : Pins) (s : State), ∃ t : State, exec (.powerOnReset p) s = .next t
    ∧ t.rc = { jobs := List.replicate 8 none, queue := [], tagCounter := 0, belowMark := false, queueMark := 16,
               head := .notReady, fireTimer := none, stale := none }
    ∧ t.isc.chans = (List.range 10).map (fun c =>
        { cfg := factoryChan c, enabled := false, level := none, reserved := 0, residue := 0, drift := false,
          refill := .idle, lowFloat := p.low.getLsbD c, fullFloat := p.full.getLsbD c })
    ∧ t.isc.bays = (List.range 16).map (fun b =>
        { state := if p.present.getLsbD b then .reading else .empty, tag := none, drift := false,
          present := p.present.getLsbD b })
    ∧ t.isc.pump = .free ∧ t.isc.pumpQueue = [] ∧ t.isc.tagBus = none
    ∧ t.isc.tagQueue = ((List.range 16).filter (fun b => p.present.getLsbD b)).map TagOp.read
    ∧ t.mpc.roll = none ∧ t.mpc.exec = .idle ∧ t.mpc.settle = none ∧ t.mpc.moved = 0 ∧ t.mpc.stray = 0
    ∧ t.mpc.resetWindow = false
    ∧ t.mpc.cuts = [] ∧ t.mpc.plan = .empty ∧ t.mpc.strokeTimer = none ∧ t.mpc.home = p.home
    ∧ t.ccu.checks = List.replicate 4 Check.blank ∧ t.ccu.sensor = .notReady ∧ t.ccu.link = .idle ∧ t.ccu.ring = []
    ∧ t.ccu.retain = false
    ∧ t.cu.printAccts = List.replicate 8 none ∧ t.cu.quotes = List.replicate 4 none
    ∧ t.cu.house = Account.opened .house none 0 0 ∧ t.cu.records = []
    ∧ t.lc.rate = p.rate ∧ t.lc.started = false ∧ t.lc.rx = [] ∧ t.lc.buffer = [] ∧ t.lc.formed = [] ∧ t.lc.busy = []
    ∧ t.lc.line = none ∧ t.lc.softReset = .none ∧ t.lc.noticeSeq = 0
    ∧ t.lc.cover = (if p.coverOpen then .opened else .settled)
    ∧ workingSettings t = factory ∧ t.ss.image = s.ss.image ∧ t.ss.loading = some 0 ∧ t.ss.changed = false
    ∧ t.out = [.askState] ∧ t.pending = s.pending
    ∧ (p.supplyOk = true → t.lc.hold = .none ∧ t.lc.conds = [] ∧ t.lc.noticeDue = false
        ∧ t.mpc.cutter = (if p.home then .ready else .jammed))
    ∧ (p.supplyOk = false → t.lc.hold = .down ∧ t.lc.conds = [⟨.supplyHold, none, true, 1⟩] ∧ t.lc.noticeDue = true
        ∧ t.mpc.cutter = (if p.home then .off false else .jammed))

/-- R196, R63: STORE_LOAD_END while the load runs: with a good image every block takes its settings from it and the store is VALID; with a bad one the factory defaults are taken, the store is DEFAULTED and STORE_DEFAULTED is raised. The receiver starts. Everything else stays, but that a known level is held within the full volume that came (log 6), and that the house account, opened before the load, takes the generation of the loaded gain table (R171, log 32). -/
def Obligations.StoreLoadEndTakesTheImage : Prop :=
  ∀ (s : State) (n : Nat) (p : Settings), s.ss.loading = some n →
    (s.ss.image = .good p ∨ s.ss.image = .bad ∧ p = factory) → p.chans.length = s.isc.chans.length →
      let x : State :=
        { s with
          out := []
          lc.started := true
          rc.queueMark := p.queueMark
          isc := { s.isc with
            chans := List.zipWith (fun q c =>
              { c with cfg := q.1, enabled := q.2, level := c.level.map (fun l => min l q.1.full) }) p.chans s.isc.chans
            gains := p.gains, gainGen := p.gainGen, pumpPeriod := p.pumpPeriod, spentMark := p.spentMark }
          mpc := { s.mpc with sOff := p.sOff, cOff := p.cOff }
          ccu := { s.ccu with sets := p.sets, params := p.params }
          cu := { s.cu with active := p.prices, staged := p.prices, stagedMark := false,
                            house := { s.cu.house with genAtOpen := p.gainGen } }
          ss := { s.ss with store := if s.ss.image = .bad then .defaulted else .valid, changed := false, loading := none } }
      workingSettings x = p
        ∧ (s.ss.image ≠ .bad → exec .storeLoadEnd s = .next x)
        ∧ (s.ss.image = .bad → exec .storeLoadEnd s = .next (raise .storeDefaulted none x))

/-- R30, R37, R64, R83, R100, R122, R148, R171, R179, R194: SOFT_RESET_ACT once the reply of RESET_SOFT has left the line: the work is gone, a grant is revoked with its tag kept as the stale tag, its reservations are released and its saved residues written back, a draw ends with its volume booked and its tag write placed; every other field of every channel and bay, the roll, the prices, the request buffer and the stored settings stay. A settle window that runs after the reset hands no charge (R100, log 25). -/
def Obligations.SoftResetDropsTheWorkAndKeepsTheRest : Prop :=
  ∀ s : State, s.lc.softReset = .due → ∃ t : State, exec .softResetAct s = .next t
    ∧ t.lc = { s.lc with conds := [], noticeDue := false, softReset := .none }
    ∧ t.rc = { s.rc with
        jobs := List.replicate 8 none, queue := [], belowMark := false
        fireTimer := if (grantedEntry s).isSome then none else s.rc.fireTimer
        stale := match grantedEntry s with
          | some e => some e.queueTag
          | none => s.rc.stale }
    ∧ t.isc.pump = .free ∧ t.isc.pumpQueue = []
    ∧ t.isc.gains = s.isc.gains ∧ t.isc.gainGen = s.isc.gainGen ∧ t.isc.pumpPeriod = s.isc.pumpPeriod
    ∧ t.isc.spentMark = s.isc.spentMark ∧ t.isc.tagBus = s.isc.tagBus
    ∧ (let freed : List Channel := match grantedEntry s with
        | some e => (e.charges.getD []).foldl (fun cs r =>
            cs.modify r.channel (fun c => { c with reserved := 0, residue := r.saved })) s.isc.chans
        | none => s.isc.chans
       let unqueued : Channel → Channel := fun c => if c.refill = .queued then { c with refill := .idle } else c
       (s.isc.pump = .free → t.isc = { s.isc with chans := freed.map unqueued, pumpQueue := [] }) ∧
       (∀ (d : Draw) (g : TagData), s.isc.pump.draw = some d → (bayAt s d.bay).tag = some g →
        let x := chanAt s d.channel
        let moved := min (x.cfg.flow * d.elapsed) (min g.remaining (x.cfg.full - x.level.getD 0))
        let left : TagData := { g with remaining := g.remaining - moved }
        t.isc = { s.isc with
          chans := (freed.modify d.channel (fun c =>
            { c with level := c.level.map (fun l => l + moved), refill := .idle })).map unqueued
          bays := s.isc.bays.modify d.bay (fun y => { y with state := .writing, tag := some left })
          pump := .free, pumpQueue := [], tagQueue := s.isc.tagQueue ++ [.write d.bay left] }))
    ∧ t.mpc = { s.mpc with
        exec := .idle
        settle := if feedDriven s then some Config.settleTime else s.mpc.settle
        resetWindow := feedDriven s || s.mpc.settle.isSome
        cuts := [], plan := .empty, strokeTimer := none
        cutter := match s.mpc.cutter with
          | .stroke _ => if s.mpc.home then .ready else .jammed
          | .off _ => .off false
          | c => c }
    ∧ t.ccu = { s.ccu with
        checks := List.replicate 4 Check.blank, ring := [], retain := false
        link := match s.ccu.link with
          | .scanning _ _ _ w => .draining w
          | l => l }
    ∧ t.cu = { s.cu with
        printAccts := List.replicate 8 none, quotes := List.replicate 4 none, records := []
        house := Account.opened .house none (houseMedia s) s.isc.gainGen }
    ∧ t.ss = s.ss ∧ t.pending = s.pending
    ∧ t.out = (match grantedEntry s with
        | some e => [.revoke e.queueTag]
        | none => [])

/-! ### The host link -/

/-- R188: HOST_FRAME_RECEIVED: into the buffer while it holds fewer than 4 frames, else a LINK_BUSY reply while that list holds fewer than 8, else dropped; before the receiver starts nothing is taken (R186). The model's choices in it: the reply kind of a frame of kind 0x80 or above is taken modulo 256 (log 37), a partial frame of bytes stays as it is (log 30), and a frame dropped whole leaves no bytes to search (log 33). -/
def Obligations.ReceivedFrameIsBufferedAnsweredBusyOrDropped : Prop :=
  ∀ (f : Frame) (s : State),
    (s.lc.started = true → s.lc.buffer.length < 4 →
      exec (.hostFrameReceived f) s = .next { s with out := [], lc.buffer := s.lc.buffer ++ [f] }) ∧
    (s.lc.started = true → 4 ≤ s.lc.buffer.length → s.lc.busy.length < 8 →
      exec (.hostFrameReceived f) s = .next { s with
        out := [], lc.busy := s.lc.busy ++ [⟨f.kind + 128#8, f.tag, .linkBusy, false, .none⟩] }) ∧
    (s.lc.started = true → 4 ≤ s.lc.buffer.length → 8 ≤ s.lc.busy.length →
      exec (.hostFrameReceived f) s = .next { s with out := [] }) ∧
    (s.lc.started = false → exec (.hostFrameReceived f) s = .next { s with out := [] })

/-- R187: the receiver. HUNTING discards a byte that is no start byte and begins a frame with one that is. A gap or a byte without a valid stop bit drops a partial frame (one shorter than its length field says) in which no other start byte stands, and the receiver is HUNTING; before it starts, bytes are not taken (R186). That the byte without a valid stop bit is itself neither kept nor searched, a start byte too, is read from the rule by inference (log 10). -/
def Obligations.ReceiverHuntsAndDropsPartialFrames : Prop :=
  ∀ (b : Byte) (l : List Byte) (s : State),
    (s.lc.started = true → s.lc.rx = [] → b ≠ 0x7E#8 →
      exec (.hostByteReceived b true) s = .next { s with out := [], lc.rxGap := 0 }) ∧
    (s.lc.started = true → s.lc.rx = [] →
      exec (.hostByteReceived 0x7E#8 true) s = .next { s with out := [], lc.rx := [0x7E#8], lc.rxGap := 0 }) ∧
    (s.lc.started = true → s.lc.rx = 0x7E#8 :: l → 0x7E#8 ∉ l → l.length < 2 ∨ l.length < fieldAt 0 2 l + 6 →
      exec (.hostByteReceived b false) s = .next { s with out := [], lc.rx := [], lc.rxGap := 0 }) ∧
    (s.lc.rx = 0x7E#8 :: l → 0x7E#8 ∉ l → l.length < 2 ∨ l.length < fieldAt 0 2 l + 6 →
      exec .rxGapTimeout s = .next { s with out := [], lc.rx := [], lc.rxGap := 0 }) ∧
    (∀ ok : Bool, s.lc.started = false → exec (.hostByteReceived b ok) s = .next { s with out := [] })

/-- R189: FRAME_DISPATCH where no formed reply waits and no RESET_SOFT reply is being sent: the oldest frame leaves the buffer; an unassigned kind is answered UNKNOWN and a wrong payload length MALFORMED, neither touching the sheet plan; a request is carried out by its own rule. That the UNKNOWN reply to a frame of kind 0x80 or above has the kind plus 0x80 modulo 256 (R186) is the model's choice (log 37). -/
def Obligations.DispatchTakesTheOldestFrame : Prop :=
  ∀ (f : Frame) (l : List Frame) (s : State), s.lc.formed = [] → s.lc.softReset = .none → s.lc.buffer = f :: l →
    (decodeRequest f = .unknown → exec .frameDispatch s = .next { s with
      out := [], lc.buffer := l, lc.formed := [⟨f.kind + 128#8, f.tag, .unknown, false, .none⟩] }) ∧
    (decodeRequest f = .malformed → exec .frameDispatch s = .next { s with
      out := [], lc.buffer := l, lc.formed := [⟨f.kind + 128#8, f.tag, .malformed, false, .none⟩] }) ∧
    (∀ i : Instr, decodeRequest f = .request i → exec .frameDispatch s = exec i { s with lc.buffer := l })

/-- R177, R178, R186, R190, R194: the free transmitter sends a notice first where one is due and the table is not empty, then the oldest busy reply, then the formed reply; the notice has the kind 0xFF and its sequence number as its frame tag, counts every class and names up to 32 subjects of the first class that holds entries. The last byte frees the transmitter, and after the reply of RESET_SOFT the soft reset is due. -/
def Obligations.TransmitterSendsNoticeThenBusyThenFormed : Prop :=
  ∀ s : State,
    (s.lc.line = none → s.lc.noticeDue = true → ∀ (e : CondEntry) (l : List CondEntry), s.lc.conds = e :: l →
      let n : Notice :=
        { kind := 0xFF#8, seq := (s.lc.noticeSeq + 1) % 256, cls := e.cond.cls
          counts := [1, 2, 3, 4].map (fun k => (s.lc.conds.filter (fun x => x.cond.cls == k)).length)
          subjects := ((s.lc.conds.filter (fun x => x.cond.cls == e.cond.cls)).take 32).map (fun x => (x.cond, x.subject))
          more := decide (32 < (s.lc.conds.filter (fun x => x.cond.cls == e.cond.cls)).length) }
      exec .transmitFrameStart s = .next { s with
        out := [.frame (.notice n)]
        lc := { s.lc with line := some (.notice n), noticeDue := false, noticeSeq := (s.lc.noticeSeq + 1) % 256 } } ∧
      (∀ payload, (TxFrame.notice n).bytes payload
        = frameBytes 0xFF#8 (BitVec.ofNat 8 ((s.lc.noticeSeq + 1) % 256)) payload)) ∧
    (∀ (r : Reply) (l : List Reply), s.lc.line = none → (s.lc.noticeDue = false ∨ s.lc.conds = []) → s.lc.busy = r :: l →
      exec .transmitFrameStart s = .next { s with
        out := [.frame (.reply r)], lc := { s.lc with line := some (.reply r), noticeDue := false, busy := l } }) ∧
    (∀ (r : Reply) (l : List Reply), s.lc.line = none → (s.lc.noticeDue = false ∨ s.lc.conds = []) → s.lc.busy = [] →
      s.lc.formed = r :: l →
      exec .transmitFrameStart s = .next { s with
        out := [.frame (.reply r)], lc := { s.lc with line := some (.reply r), noticeDue := false, formed := l } }) ∧
    (∀ f : TxFrame, s.lc.line = some f →
      exec .frameSendEnd s = .next { s with
        out := [], lc := { s.lc with
          line := none
          softReset := match f with
            | .reply r => if r.kind = 0x83#8 ∧ r.code = .ok then .due else s.lc.softReset
            | .notice _ => s.lc.softReset } })

/-- R192, R193, R194, R197: HELLO, STATUS and RESET_SOFT answer OK in every state. HELLO and STATUS change nothing (but that HELLO interrupts a plan, R106); RESET_SOFT waits for its reply to leave the line. HELLO carries the store state alone, STATUS with it the elapsed save time. The revision letter is open (log 9). In the lines of STATUS the house account without a slot (log 36) and the elapsed stroke time of 0 while no stroke runs (log 40) are the model's choices. -/
def Obligations.HelloStatusAndResetSoftAnswer : Prop :=
  ∀ (ft : Byte) (s : State),
    exec (.hello ft) s = .next (answer 0x01 ft .ok (planMark s)
      (.hello "HESTIG GS44" Config.revision s.lc.rate (match s.ss.store with
        | .valid => .valid
        | .defaulted => .defaulted
        | .saving _ _ => .saving) s.ss.changed) (cleared s)) ∧
    exec (.status ft) s = .next (answer 0x02 ft .ok false
      (.status (lcLine s) (rcLine s) (iscLine s) (mpcLine s) (ccuLine s) (cuLine s) (storeReport s) s.ss.changed)
      { s with out := [] }) ∧
    exec (.resetSoft ft) s = .next (answer 0x03 ft .ok (planMark s) .none
      { cleared s with lc.softReset := .replying })

/-- R175, R176: a class read reports the first 200 entries of its class in table order, gives the number left out, and removes each reported entry whose cause has ended, the other reported ones staying with occurrences 0; the entries not reported stay as they are for the next read, and the other classes are not touched. Where the class is then empty and a class below it is not, the notice-due mark is set; that it is set too where the class was empty before the read is the model's choice (log 31). -/
def Obligations.ClassReadsReportAndRemove : Prop :=
  ∀ (ft : Byte) (s : State) (k : Nat) (i : Instr),
    (k, i) ∈ [(1, Instr.readFaults ft), (2, Instr.readHolds ft), (3, Instr.readProgress ft), (4, Instr.readChanges ft)] →
    let mine := s.lc.conds.filter (fun e => e.cond.cls == k)
    ∃ (t : State) (conds : List CondEntry) (due : Bool),
      exec i s = .next t
        ∧ t = answer (k + 3) ft .ok false (.entries (mine.take 200) (mine.length - 200))
            { s with out := [], lc.conds := conds, lc.noticeDue := due }
        ∧ conds.filter (fun e => e.cond.cls != k) = s.lc.conds.filter (fun e => e.cond.cls != k)
        ∧ conds.filter (fun e => e.cond.cls == k)
            = ((mine.take 200).filter (fun e => e.cause)).map (fun e => { e with occurrences := 0 }) ++ mine.drop 200
        ∧ due = (s.lc.noticeDue || (conds.all (fun e => e.cond.cls != k) && conds.any (fun e => k < e.cond.cls)))

/-- R181, R81, R97, R120: RESUME is refused NOT_NOW outside UP. In UP the hold ends: a suspended draw runs on, the cutter goes READY with HOME asserted (an entry cut half through is DUE again) and else JAMMED with CUTTER_JAM, an OFF executor proceeds from the P of the moment, and ASK_STATE is sent. The pump has nothing else to serve here. -/
def Obligations.ResumeEndsTheHold : Prop :=
  ∀ (ft : Byte) (s : State),
    (s.lc.hold ≠ .up → exec (.resume ft) s = .next (answer 0x08 ft .notNow (planMark s) .none (cleared s))) ∧
    (s.lc.hold = .up → s.isc.pumpQueue = [] →
      (∀ d, s.isc.pump = .suspended d → (chanAt s d.channel).fullFloat = false) →
        let cuts := if s.mpc.cutter = .off true then
          s.mpc.cuts.map (fun e => if e.state = .cutting then { e with state := .due } else e) else s.mpc.cuts
        let pump := match s.isc.pump with
          | .suspended d => Pump.running d
          | p => p
        let x : State := match s.mpc.cutter with
          | .off _ =>
            if s.mpc.home then
              { cleared s with lc.hold := .none, isc.pump := pump, mpc.cuts := cuts, mpc.cutter := .ready }
            else raise .cutterJam none
              { cleared s with lc.hold := .none, isc.pump := pump, mpc.cuts := cuts, mpc.cutter := .jammed }
          | _ => { cleared s with lc.hold := .none, isc.pump := pump }
        let y : State := match s.mpc.exec with
          | .off a _ => runOn a x
          | _ => x
        ∃ t : State, Follows { y with out := y.out ++ [.askState] } t
          ∧ exec (.resume ft) s = .next (answer 0x08 ft .ok (planMark s) (.resumed .up) t))

/-! ### Jobs and swaths -/

/-- R1, R2, R126, R149: an accepted JOB_OPEN takes the lowest free slot, opens the print account beside it, and with policy VERIFY (1) or ADJUST (2) the lowest free check record in WAITING_STRIP; nothing else changes. -/
def Obligations.JobOpenTakesSlotAccountAndCheck : Prop :=
  ∀ (ft : Byte) (tag media policy setId flags slot : Nat) (s : State),
    1 ≤ tag → tag ≤ 255 → media ≤ 15 → slotOf s tag = none → quoteSlotOf s tag = none →
    s.rc.jobs.findIdx? (fun o => o.isNone) = some slot →
      let job (p : Policy) (set check : Option Nat) : Job :=
        { tag := tag, state := .opened, media := media, policy := p, rejectOnFail := flags.testBit 0,
          tailFeed := flags.testBit 1, setId := set, checkId := check, strip := .none, put := .none, accepted := 0,
          fired := 0, broken := 0, withdrawn := 0, hold := none, verdict := none, outcome := none }
      let account := Account.opened .print (some tag) media s.isc.gainGen
      (policy = 0 →
        exec (.jobOpen ft tag media policy setId flags) s
          = .next (answer 0x09 ft .ok (planMark s) (.jobOpened slot none)
              { cleared s with rc.jobs := s.rc.jobs.set slot (some (job .none none none))
                               cu.printAccts := s.cu.printAccts.set slot (some account) })) ∧
      (∀ (p : Policy) (id : Nat), (policy, p) ∈ [(1, Policy.verify), (2, Policy.adjust)] → setId ≤ 3 →
        (setAt s setId).isSome = true → s.ccu.checks.findIdx? (fun c => c.state == .free) = some id →
        exec (.jobOpen ft tag media policy setId flags) s
          = .next (answer 0x09 ft .ok (planMark s) (.jobOpened slot (some id))
              { cleared s with
                rc.jobs := s.rc.jobs.set slot (some (job p (some setId) (some id)))
                cu.printAccts := s.cu.printAccts.set slot (some account)
                ccu.checks := s.ccu.checks.modify id (fun _ =>
                  { Check.blank with state := .waitingStrip, job := some tag, policy := some p, setId := some setId }) }))

/-- R4, R5, R6, R7, R12: an accepted SWATH_PUT puts a QUEUED entry at the tail with a queue tag that no entry and no stale tag uses, counts it, moves the put phase and the below-mark flag, and is answered with the tag and the free entries; then admission follows. Where every job is OPEN the queue after it is the queue before it and the new entry behind it, with no more moved than a QUEUED head that admission grants. -/
def Obligations.SwathPutQueuesTheSwath : Prop :=
  ∀ (ft : Byte) (d : Descriptor) (s : State) (i : Nat) (j : Job) (k : SwathKind),
    slotOf s d.jobTag = some i → jobAt s i = some j → j.state = .opened → s.rc.queue.length < 64 →
    swathKind d = some k → d.advance ≤ 3000 → oversize s d.drops = false → ¬(k = .strip ∧ j.put = .after) →
      let q := nextTag s
      let entry : QEntry := { job := d.jobTag, number := d.number, kind := k, advance := d.advance, drops := d.drops,
                              queueTag := q, state := .queued, charges := none, revoked := none }
      let put : PutPhase := match j.put, k with
        | .none, .strip => .strip
        | .none, _ => .none
        | .strip, .strip => .strip
        | .strip, _ => .after
        | .after, _ => .after
      (∀ e ∈ s.rc.queue, e.queueTag ≠ q) ∧ s.rc.stale ≠ some q ∧
      ∃ t : State,
        Follows { cleared s with
          rc := { s.rc with
            queue := s.rc.queue ++ [entry]
            tagCounter := (q + 1) % 256
            jobs := s.rc.jobs.modify i (fun o => o.map (fun j =>
              { j with accepted := min 4294967295 (j.accepted + 1), put := put }))
            belowMark := if 64 - (s.rc.queue.length + 1) < s.rc.queueMark then true else s.rc.belowMark } } t
        ∧ exec (.swathPut ft d) s
            = .next (answer 0x0A ft .ok (planMark s) (.swathPut q (64 - (s.rc.queue.length + 1))) t)
        ∧ ((∀ n l, jobAt s n = some l → l.state = .opened) → stopFree s = false → (s.rc.queue.map (fun e => e.queueTag)).Nodup →
            t.rc.queue = s.rc.queue ++ [entry] ∨
            ∃ e l c, s.rc.queue ++ [entry] = e :: l ∧ e.state = .queued ∧
              t.rc.queue = { e with state := .granted, charges := some c, revoked := some false } :: l)

/-- R7, R22, R23, R27: JOB_END takes an OPEN job to ENDING, and on to WAITING where it has no entry, no check and no tail feed. JOB_ABORT withdraws the job's QUEUED entries, with SWATH_ROOM where the free entries then reach the mark, revokes its GRANTED one and takes the job to ABORTING; in CLOSING it changes the outcome to ABORTED alone. The next state is written out whole where nothing follows: every other job OPEN, no QUEUED swath at the head of the queue and no released stop, an ENDING job with an entry left, a WAITING one with a cut left, an ABORTING one with an entry left or its tail feed running. -/
def Obligations.JobEndAndJobAbortMoveTheJob : Prop :=
  ∀ (ft : Byte) (tag i : Nat) (s : State) (j : Job), slotOf s tag = some i → jobAt s i = some j →
    let still : List QEntry → Prop := fun l =>
      (∀ n k, n ≠ i → jobAt s n = some k → k.state = .opened) ∧ stopFree s = false ∧ ∀ e, l.head? = some e → e.state ≠ .queued
    let moved : JobState → State := fun x =>
      { cleared s with rc.jobs := s.rc.jobs.modify i (fun o => o.map (fun j => { j with state := x })) }
    (j.state = .opened → hasEntry s tag = true →
      (∃ t : State, Follows (moved .ending) t ∧ exec (.jobEnd ft tag) s = .next (answer 0x0B ft .ok (planMark s) .none t)) ∧
      (still s.rc.queue →
        exec (.jobEnd ft tag) s = .next (answer 0x0B ft .ok (planMark s) .none (syncCauses (moved .ending))))) ∧
    (j.state = .opened → hasEntry s tag = false → j.checkId = none → j.tailFeed = false → j.strip ≠ .inStrip →
      (∃ t : State, Follows (moved .waiting) t ∧ exec (.jobEnd ft tag) s = .next (answer 0x0B ft .ok (planMark s) .none t)) ∧
      (still s.rc.queue → (∃ e ∈ s.mpc.cuts, .job tag ∈ e.owners) →
        exec (.jobEnd ft tag) s = .next (answer 0x0B ft .ok (planMark s) .none (syncCauses (moved .waiting))))) ∧
    (j.state ≠ .aborting → j.state ≠ .closing →
      let mine : QEntry → Bool := fun e => e.job == tag && e.state == .queued
      let n := (s.rc.queue.filter mine).length
      let left := s.rc.queue.filter (fun e => !mine e)
      let g := (s.rc.queue.find? (fun e => e.state == .granted)).filter (fun e => e.job == tag)
      let base : State := { cleared s with
        rc.queue := left.map (fun e => if g.map (fun x => x.queueTag) = some e.queueTag then { e with revoked := some true } else e)
        rc.jobs := s.rc.jobs.modify i (fun o => o.map (fun j =>
          { j with state := .aborting, hold := none, withdrawn := min 4294967295 (j.withdrawn + n) }))
        out := (g.toList).map (fun e => .revoke e.queueTag) }
      let x : State := if n = 0 then base else roomed base
      (∃ t : State, Follows x t ∧ exec (.jobAbort ft tag) s = .next (answer 0x0C ft .ok (planMark s) (.withdrawn n) t)) ∧
      (still left → (∃ e ∈ left, e.job = tag) ∨ (∃ a h, s.mpc.exec = .moving a h ∧ a.requester = .tailFeed ∧ a.owner = .print i) →
        exec (.jobAbort ft tag) s = .next (answer 0x0C ft .ok (planMark s) (.withdrawn n) (syncCauses x)))) ∧
    (j.state = .closing →
      exec (.jobAbort ft tag) s = .next (answer 0x0C ft .ok (planMark s) (.withdrawn 0)
        { cleared s with rc.jobs := s.rc.jobs.modify i (fun o => o.map (fun j => { j with outcome := some .aborted })) })) ∧
    (j.state ≠ .opened → exec (.jobEnd ft tag) s = .next (answer 0x0B ft .notNow (planMark s) .none (cleared s)))

/-! ### Settings -/

/-- R8, R71, R86, R124, R125, R195: each accepted setting is stored as it came and sets the changed mark: QUEUE_MARK (with the below-mark flag taken anew), PUMP_SET, GEOMETRY_SET, CHECK_SET, and PATCHSET_LOAD, which replaces a set whole or, with count 0, makes it not loaded. -/
def Obligations.SettingRequestsStoreTheirValues : Prop :=
  ∀ (ft : Byte) (s : State), saving s = false →
    (∀ v : Nat, 1 ≤ v → v ≤ 64 →
      exec (.queueMark ft v) s = .next (answer 0x0D ft .ok (planMark s) (.free (64 - s.rc.queue.length))
        { cleared s with rc.queueMark := v, rc.belowMark := decide (64 - s.rc.queue.length < v), ss.changed := true })) ∧
    (∀ period spent : Nat, 1 ≤ period → period ≤ 255 → spent ≤ 5000000 →
      exec (.pumpSet ft period spent) s = .next (answer 0x13 ft .ok (planMark s) (.pumpStored period spent)
        { cleared s with isc.pumpPeriod := period, isc.spentMark := spent, ss.changed := true })) ∧
    (∀ a b : Nat, 500 ≤ a → a < b → b ≤ 6000 → s.mpc.roll = none →
      exec (.geometrySet ft a b) s = .next (answer 0x1E ft .ok (planMark s) .none
        { cleared s with mpc.sOff := a, mpc.cOff := b, ss.changed := true })) ∧
    (∀ p : CheckParams, p.sens.length = 10 → (∀ n ∈ p.sens, n ≤ 255) → p.maxStep ≤ 256 → p.maxInvalid ≤ 24 →
      p.dryTime ≤ 600 → 60 ≤ p.limit → p.limit ≤ 3600 →
      exec (.checkSet ft p) s = .next (answer 0x24 ft .ok (planMark s) (.params p)
        { cleared s with ccu.params := p, ss.changed := true })) ∧
    (∀ id : Nat, id ≤ 3 → setNamed s id = false →
      exec (.patchsetLoad ft id 0 []) s = .next (answer 0x1F ft .ok (planMark s) (.setLoaded id false)
        { cleared s with ccu.sets := s.ccu.sets.set id none, ss.changed := true })) ∧
    (∀ (id n : Nat) (l : List Byte), id ≤ 3 → 1 ≤ n → n ≤ 24 → l.length = 6 + 7 * n → setNamed s id = false →
      setOk (readSet n l) = true →
      exec (.patchsetLoad ft id n l) s = .next (answer 0x1F ft .ok (planMark s) (.setLoaded id true)
        { cleared s with ccu.sets := s.ccu.sets.set id (some (readSet n l)), ss.changed := true }))

/-- R44, R45, R46, R61, R146, R153, R195: accepted CHAN_SET, CHAN_ON, CHAN_OFF and GAIN_SET. CHAN_SET replaces the settings of a disabled channel and clamps a known level with DRIFT; CHAN_ON of a disabled channel enables it, and of an enabled one leaves all as it was, the changed mark too (log 34); CHAN_OFF takes the channel out of the pump queue and to IDLE; GAIN_SET clamps its value to 3,072..5,120, raises the generation by one and marks GAIN_CHANGED on the open print and quote accounts whose generation differs. -/
def Obligations.ChannelRequestsStoreTheirValues : Prop :=
  ∀ (ft : Byte) (c : Nat) (s : State), c ≤ 9 → saving s = false →
    (∀ cfg : ChanCfg, (chanAt s c).enabled = false → cfgOk cfg = true → ∃ t : State,
      Follows { cleared s with
        isc.chans := s.isc.chans.modify c (fun x =>
          { x with cfg := cfg, level := x.level.map (fun l => min l cfg.full)
                   drift := x.drift || x.level.any (fun l => cfg.full < l) })
        ss.changed := true } t
        ∧ exec (.chanSet ft c cfg) s = .next (answer 0x0E ft .ok (planMark s) .none t)) ∧
    ((chanAt s c).enabled = false → ∃ t : State,
      Follows { cleared s with
        isc.chans := s.isc.chans.modify c (fun x => { x with enabled := true }), ss.changed := true } t
        ∧ exec (.chanOn ft c) s = .next (answer 0x0F ft .ok (planMark s) .none t)) ∧
    ((chanAt s c).enabled = true → ∃ t : State,
      Follows (cleared s) t ∧ exec (.chanOn ft c) s = .next (answer 0x0F ft .ok (planMark s) .none t)) ∧
    (grantNames s c = false → (∀ b, (chanAt s c).refill ≠ .drawing b) → (chanAt s c).enabled = true → ∃ t : State,
      Follows { cleared s with
        isc.chans := s.isc.chans.modify c (fun x => { x with enabled := false, refill := .idle })
        isc.pumpQueue := s.isc.pumpQueue.filter (fun e => e.channel != c), ss.changed := true } t
        ∧ exec (.chanOff ft c) s = .next (answer 0x10 ft .ok (planMark s) (.refill (chanAt s c).refill) t)) ∧
    (∀ v : Nat,
      let g := max 3072 (min 5120 v)
      let gen := (s.isc.gainGen + 1) % 65536
      let flag : Account → Account := fun a => if a.genAtOpen = gen then a else { a with flags.gainChanged := true }
      ∃ t : State,
        Follows { cleared s with
          isc.gains := s.isc.gains.set c g, isc.gainGen := gen
          cu.printAccts := s.cu.printAccts.map (fun o => o.map flag), cu.quotes := s.cu.quotes.map (fun o => o.map flag)
          ss.changed := true } t
        ∧ exec (.gainSet ft c v) s = .next (answer 0x20 ft .ok (planMark s) (.gainStored g gen) t))

/-! ### Costing -/

/-- R158, R159, R160, R161: the five lines and the total of an account against a table: each sum held exactly, one division rounded half up, each line and the total clamped to 999,999,999,999. A record of any outcome carries these costs, and SATURATED where a clamp applied. -/
def Obligations.PricingComputesFiveLinesAndTotal : Prop :=
  ∀ (a : Account) (t : PriceTable), a.ink.length = 10 → t.ink.length = 10 →
    let products := ((List.range 10).map (fun c => a.ink.getD c 0 * t.ink.getD c 0)).sum
    let areas := (a.media.map (fun m => m.area * t.media.getD m.media 0)).sum
    let ink := products / 1000000 + (if 500000 ≤ products % 1000000 then 1 else 0)
    let media := areas / 100000000 + (if 50000000 ≤ areas % 100000000 then 1 else 0)
    let lines := [ink, media, a.cuts * t.cut, a.strips * t.strip, if a.kind = .house then 0 else t.handling]
    let sum := (lines.map (fun n => min 999999999999 n)).sum
    let p := priceAccount a t
    [p.costs.ink, p.costs.media, p.costs.cut, p.costs.strip, p.costs.handling] = lines.map (fun n => min 999999999999 n) ∧
    p.costs.total = min 999999999999 sum ∧
    p.saturated = (lines.any (fun n => 999999999999 < n) || decide (999999999999 < sum)) ∧
    ∀ o : RecOutcome, (makeRecord a o t).costs = p.costs ∧ (makeRecord a o t).flags.saturated = (a.flags.saturated || p.saturated)

/-- R155, R156, R157: PRICE_GET carries a whole table, its generation and the staged mark, and changes nothing. PRICE_STAGE writes one field of STAGED, ACTIVE and both generations staying, and is refused RANGE for no field or a value above 9,999,999. PRICE_COMMIT, refused BUSY while a save runs, makes STAGED with the next generation both tables and clears the mark; the prices are a working setting (R195). -/
def Obligations.PriceRequestsReadStageAndCommit : Prop :=
  ∀ (ft : Byte) (s : State),
    let written : Nat → Nat → PriceTable → Host.Outcome State Fault Refusal := fun v old t =>
      .next (answer 0x2A ft .ok (planMark s) (.staged v old) { cleared s with cu.staged := t, cu.stagedMark := true })
    let next : PriceTable := { s.cu.staged with gen := (s.cu.active.gen + 1) % 65536 }
    (∀ i v, v ≤ 9999999 →
      (i ≤ 9 → exec (.priceStage ft 0 i v) s
        = written v (s.cu.active.ink.getD i 0) { s.cu.staged with ink := s.cu.staged.ink.set i v }) ∧
      (i ≤ 15 → exec (.priceStage ft 1 i v) s
        = written v (s.cu.active.media.getD i 0) { s.cu.staged with media := s.cu.staged.media.set i v }) ∧
      exec (.priceStage ft 2 i v) s = written v s.cu.active.cut { s.cu.staged with cut := v } ∧
      exec (.priceStage ft 3 i v) s = written v s.cu.active.strip { s.cu.staged with strip := v } ∧
      exec (.priceStage ft 4 i v) s = written v s.cu.active.handling { s.cu.staged with handling := v }) ∧
    (∀ k i v, 4 < k ∨ k = 0 ∧ 9 < i ∨ k = 1 ∧ 15 < i ∨ 9999999 < v →
      exec (.priceStage ft k i v) s = .next (answer 0x2A ft .range (planMark s) .none (cleared s))) ∧
    (∀ selector, exec (.priceGet ft selector) s = .next (match selector with
      | 0 => answer 0x2C ft .ok (planMark s) (.prices s.cu.active s.cu.stagedMark) (cleared s)
      | 1 => answer 0x2C ft .ok (planMark s) (.prices s.cu.staged s.cu.stagedMark) (cleared s)
      | _ => answer 0x2C ft .range (planMark s) .none (cleared s))) ∧
    (saving s = true → exec (.priceCommit ft) s = .next (answer 0x2B ft .busy (planMark s) .none (cleared s))) ∧
    (saving s = false → exec (.priceCommit ft) s = .next (answer 0x2B ft .ok (planMark s)
      (.generation ((s.cu.active.gen + 1) % 65536))
      { cleared s with cu.active := next, cu.staged := next, cu.stagedMark := false, ss.changed := true }))

/-- R166, R167, R34, R150: an accepted QUOTE_OPEN takes the lowest free quote slot with a zeroed account. An accepted QUOTE_SWATH adds each named channel's charge, computed with the quote's own residue and the settings and gain of the moment, counts the swath, sets strips for a STRIP, and books an advance under the quote's media type and width; nothing but the quote's account changes. -/
def Obligations.QuoteOpensAndTakesSwaths : Prop :=
  ∀ (ft : Byte) (tag : Nat) (s : State),
    (∀ media width cuts slot : Nat, 1 ≤ tag → tag ≤ 255 → media ≤ 15 → 1000 ≤ width → width ≤ 20000 → cuts ≤ 65535 →
      slotOf s tag = none → quoteSlotOf s tag = none → s.cu.quotes.findIdx? (fun o => o.isNone) = some slot →
      exec (.quoteOpen ft tag media width cuts) s = .next (answer 0x26 ft .ok (planMark s) (.quoteSlot slot)
        { cleared s with cu.quotes := s.cu.quotes.set slot (some
          { kind := .quote, tag := some tag, ink := List.replicate 10 0, media := [⟨media, 0, 0⟩], cuts := cuts, strips := 0,
            fired := 0, broken := 0, genAtOpen := s.isc.gainGen, flags := AcctFlags.clear, verdict := none,
            quoteMedia := some media, quoteWidth := some width, quoteResidue := some (List.replicate 10 0) }) })) ∧
    (∀ (d : Descriptor) (slot : Nat) (a : Account) (k : SwathKind) (media width : Nat) (residue : List Nat),
      quoteSlotOf s tag = some slot → quoteAt s slot = some a → swathKind d = some k → d.advance ≤ 3000 →
      a.quoteMedia = some media → a.quoteWidth = some width → a.quoteResidue = some residue →
      a.ink.length = 10 → residue.length = 10 →
      ∃ (b : Account) (m : MediaEntry) (rs : List Nat),
        exec (.quoteSwath ft tag d) s = .next (answer 0x27 ft .ok (planMark s)
          (.quoteSwath ((dropChannels d.drops).map (fun c => (c, b.ink.getD c 0))) m.length m.area b.fired s.isc.gainGen
            b.genAtOpen)
          { cleared s with cu.quotes := s.cu.quotes.set slot (some b) }) ∧
        b.quoteResidue = some rs ∧ b.ink.length = 10 ∧ rs.length = 10 ∧
        (∀ c, c < 10 →
          let n := dropCounts d.drops c
          let cfg := (chanAt s c).cfg
          let scaled := (n.small * cfg.volS + n.medium * cfg.volM + n.large * cfg.volL) * gainAt s c + residue.getD c 0
          (c ∈ dropChannels d.drops →
            b.ink.getD c 0 = min 4294967295 (a.ink.getD c 0 + scaled / 65536000) ∧ rs.getD c 0 = scaled % 65536000) ∧
          (c ∉ dropChannels d.drops → b.ink.getD c 0 = a.ink.getD c 0 ∧ rs.getD c 0 = residue.getD c 0)) ∧
        b.fired = min 4294967295 (a.fired + 1) ∧ b.strips = (if k = .strip then 1 else a.strips) ∧
        (d.advance = 0 → b.media = a.media) ∧
        (∀ e : MediaEntry, a.media = [e] → e.media = media → b.media = [m] ∧
          m = if d.advance = 0 then e else
            ⟨media, min 4294967295 (e.length + d.advance), min 999999999999999 (e.area + d.advance * width)⟩) ∧
        b = { a with ink := b.ink, media := b.media, strips := b.strips, fired := b.fired, quoteResidue := b.quoteResidue
                     flags := { a.flags with saturated := b.flags.saturated } })

/-- R163, R168, R170, R149: QUOTE_CLOSE and HOUSE_CLOSE, refused FULL while 16 records wait, place a priced record at the tail, raise RECORD_READY, and QUEUE_FULL where the queue now holds 16; the quote's slot is freed, and the house account opens anew, zeroed. -/
def Obligations.QuoteCloseAndHouseClosePlaceARecord : Prop :=
  ∀ (ft : Byte) (s : State),
    let priced : Account → RecOutcome → ClosedRecord := fun a o =>
      { kind := a.kind, tag := a.tag, outcome := o
        ink := ((List.range a.ink.length).map (fun c => (c, a.ink.getD c 0))).filter (fun p => p.2 != 0)
        media := a.media, cuts := a.cuts, strips := a.strips, fired := a.fired, broken := a.broken
        flags := { a.flags with saturated := a.flags.saturated || (priceAccount a s.cu.active).saturated }
        verdict := a.verdict, genAtOpen := a.genAtOpen, priceGen := s.cu.active.gen
        costs := (priceAccount a s.cu.active).costs }
    let placed : Account → RecOutcome → State := fun a o =>
      let x := raise .recordReady none { cleared s with cu.records := s.cu.records ++ [priced a o] }
      if s.cu.records.length = 15 then raise .queueFull none x else x
    let total : Account → Nat := fun a => (priceAccount a s.cu.active).costs.total
    (∀ tag, quoteSlotOf s tag = none →
      exec (.quoteClose ft tag) s = .next (answer 0x28 ft .noJob (planMark s) .none (cleared s))) ∧
    (∀ tag slot a, quoteSlotOf s tag = some slot → quoteAt s slot = some a →
      (16 ≤ s.cu.records.length →
        exec (.quoteClose ft tag) s = .next (answer 0x28 ft .full (planMark s) .none (cleared s))) ∧
      (s.cu.records.length < 16 →
        exec (.quoteClose ft tag) s = .next (answer 0x28 ft .ok (planMark s) (.total (total a))
          { placed a .quoted with cu.quotes := s.cu.quotes.set slot none }))) ∧
    (16 ≤ s.cu.records.length →
      exec (.houseClose ft) s = .next (answer 0x29 ft .full (planMark s) .none (cleared s))) ∧
    (s.cu.records.length < 16 →
      exec (.houseClose ft) s = .next (answer 0x29 ft .ok (planMark s) (.total (total s.cu.house))
        { placed s.cu.house .house with
          cu.house := { kind := .house, tag := none, ink := List.replicate 10 0
                        media := [⟨(s.mpc.roll.map (fun r => r.media)).getD 0, 0, 0⟩], cuts := 0, strips := 0, fired := 0
                        broken := 0, genAtOpen := s.isc.gainGen, flags := AcctFlags.clear, verdict := none
                        quoteMedia := none, quoteWidth := none, quoteResidue := none } }))

/-- R164, R26: RECORD_TAKE, refused NOT_NOW on an empty queue, removes the oldest record and carries it with the records held after. Where the one CLOSING job has no check, its account then closes into the freed place, and its slots are freed. -/
def Obligations.RecordTakeRemovesTheOldestRecord : Prop :=
  ∀ (ft : Byte) (s : State),
    (s.cu.records = [] → exec (.recordTake ft) s = .next (answer 0x2E ft .notNow (planMark s) .none (cleared s))) ∧
    (∀ r l, s.cu.records = r :: l → (∀ i j, jobAt s i = some j → j.state ≠ .closing) → ∃ t : State,
      Follows { cleared s with cu.records := l } t
        ∧ exec (.recordTake ft) s = .next (answer 0x2E ft .ok (planMark s) (.record l.length r) t)) ∧
    (∀ r l i j a o, s.cu.records = r :: l → l.length = 15 → jobAt s i = some j → j.state = .closing → j.outcome = some o →
      j.checkId = none → printAt s i = some a → (∀ n k, n ≠ i → jobAt s n = some k → k.state ≠ .closing) →
      s.rc.jobs.length = 8 → ∃ t : State,
        Follows { raise .queueFull none (raise .recordReady none
            { cleared s with cu.records := l ++ [makeRecord a (.job o) s.cu.active] }) with
          cu.printAccts := s.cu.printAccts.set i none, rc.jobs := s.rc.jobs.set i none } t
          ∧ exec (.recordTake ft) s = .next (answer 0x2E ft .ok (planMark s) (.record l.length r) t))

/-- R197: STORE_SAVE, refused BUSY while a save runs, takes a snapshot of every working setting and clears the changed mark; until STORE_SAVE_END the image is neither old nor new (log 7); then it holds the snapshot and the store is VALID. -/
def Obligations.StoreSaveWritesTheSnapshot : Prop :=
  ∀ (ft : Byte) (s : State),
    (saving s = true → exec (.storeSave ft) s = .next (answer 0x2F ft .busy (planMark s) .none (cleared s))) ∧
    (saving s = false → exec (.storeSave ft) s = .next (answer 0x2F ft .ok (planMark s) .none
      { cleared s with
        ss.store := .saving { chans := s.isc.chans.map (fun c => (c.cfg, c.enabled)), gains := s.isc.gains
                              gainGen := s.isc.gainGen, pumpPeriod := s.isc.pumpPeriod, spentMark := s.isc.spentMark
                              sOff := s.mpc.sOff, cOff := s.mpc.cOff, sets := s.ccu.sets, params := s.ccu.params
                              prices := s.cu.active, queueMark := s.rc.queueMark } 0
        ss.changed := false
        ss.image := .bad })) ∧
    (∀ p n, s.ss.store = .saving p n →
      exec .storeSaveEnd s = .next { s with out := [], ss.store := .valid, ss.image := .good p })

/-! ### Records as they stand -/

/-- R47, R127, R165: CHAN_GET carries the channel's record, gain and bays and then clears its DRIFT mark, nothing else; CHECK_GET and ACCOUNT_GET carry a record as it stands, the check's with its id and every field of its table, the account with its provisional pricing against ACTIVE, and change nothing. That the house account comes without a slot is the model's choice (log 36). -/
def Obligations.RecordReadsCarryWhatStands : Prop :=
  ∀ (ft : Byte) (s : State),
    (∀ c, c ≤ 9 → exec (.chanGet ft c) s = .next (answer 0x11 ft .ok (planMark s)
      (.channel (chanAt s c) (gainAt s c) s.isc.gainGen
        (((List.range 16).filter (fun b => (chanAt s c).cfg.bayMap.getLsbD b)).map (fun b =>
          (b, (bayAt s b).state, (bayAt s b).tag.map (fun g => g.remaining), (bayAt s b).drift))))
      { cleared s with isc.chans := s.isc.chans.modify c (fun x => { x with drift := false }) })) ∧
    (∀ c, 9 < c → exec (.chanGet ft c) s = .next (answer 0x11 ft .range (planMark s) .none (cleared s))) ∧
    (∀ id, id ≤ 3 → exec (.checkGet ft id) s
      = .next (answer 0x25 ft .ok (planMark s) (.check (let c := s.ccu.checks.getD id Check.blank
        { id := id, job := c.job, policy := c.policy, setId := c.setId, state := c.state, stripStart := c.stripStart
          stripEnd := c.stripEnd, stop := c.stop, dry := c.dry, limit := c.limit, verdict := c.verdict, worst := c.worst
          mean := c.mean, valid := c.valid, corrections := c.corrections })) (cleared s))) ∧
    (∀ id, 3 < id → exec (.checkGet ft id) s = .next (answer 0x25 ft .range (planMark s) .none (cleared s))) ∧
    let seen : Account → Option Nat → Option (JobState × Option JobOutcome) → Body := fun a slot job =>
      .account a slot job (priceAccount a s.cu.active).costs s.cu.active.gen (priceAccount a s.cu.active).saturated
    (∀ tag, exec (.accountGet ft 1 tag) s
      = .next (answer 0x2D ft .ok (planMark s) (seen s.cu.house none none) (cleared s))) ∧
    exec (.accountGet ft 0 0) s = .next (answer 0x2D ft .range (planMark s) .none (cleared s)) ∧
    (∀ tag i j a, tag ≠ 0 → slotOf s tag = some i → jobAt s i = some j → printAt s i = some a →
      exec (.accountGet ft 0 tag) s
        = .next (answer 0x2D ft .ok (planMark s) (seen a (some i) (some (j.state, j.outcome))) (cleared s))) ∧
    (∀ tag i a, tag ≠ 0 → slotOf s tag = none → quoteSlotOf s tag = some i → quoteAt s i = some a →
      exec (.accountGet ft 0 tag) s = .next (answer 0x2D ft .ok (planMark s) (seen a (some i) none) (cleared s))) ∧
    (∀ tag, tag ≠ 0 → slotOf s tag = none → quoteSlotOf s tag = none →
      exec (.accountGet ft 0 tag) s = .next (answer 0x2D ft .noJob (planMark s) .none (cleared s)))

/-- R140, R141, R142: RING_RETAIN stores its setting; RING_READ carries the entries held at the places asked for and removes nothing; RING_RELEASE removes the oldest entries that stand outside a scan in progress, and the scan start test (R136) is taken again for an ARMED check at whose stop the executor stands: its scan starts where the ring now has the room, the sensor is READY and the link IDLE; where the executor stands at no stop of an ARMED check nothing else follows but the reactions. -/
def Obligations.RingRequestsReadAndRelease : Prop :=
  ∀ (ft : Byte) (s : State),
    let held := s.ccu.ring.length
    (∀ v, v ≤ 1 →
      exec (.ringRetain ft v) s = .next (answer 0x21 ft .ok (planMark s) (.ringHeld held)
        { cleared s with ccu.retain := decide (v = 1) })) ∧
    (∀ offset count, exec (.ringRead ft offset count) s = .next (answer 0x22 ft .ok (planMark s)
      (.ringEntries ((List.range (min count (held - offset))).filterMap (fun k => s.ccu.ring[offset + k]?)) held)
      (cleared s))) ∧
    (∀ n,
      let scanning := match s.ccu.link with
        | .scanning _ w _ _ => w
        | _ => 0
      let k := min n (held - scanning)
      let x : State := { cleared s with ccu.ring := s.ccu.ring.drop k }
      ∃ t : State, exec (.ringRelease ft n) s = .next (answer 0x23 ft .ok (planMark s) (.ringReleased k (held - k)) t) ∧
        ((∀ id, heldStop s = some id → (checkAt s id).state ≠ .armed) → Follows x t) ∧
        (∀ id tag, heldStop s = some id → (checkAt s id).state = .armed → (checkAt s id).job = some tag →
          Follows (scanTested id tag x) t))

/-! ### The media path -/

/-- R85, R99: ROLL_LOAD in NO_ROLL loads the roll with P = 0 and the stray tally 0. ROLL_UNLOAD, with the executor IDLE and no grant, removes every cut entry, sets CUT_LOST on the account of each owner, and leaves NO_ROLL; here no job waits for its end and no check leaves with the roll, so nothing else follows but the reactions. -/
def Obligations.RollLoadAndUnloadMoveTheRoll : Prop :=
  ∀ (ft : Byte) (s : State),
    (∀ media width length, media ≤ 15 → 1000 ≤ width → width ≤ 20000 → 1 ≤ length → length ≤ 2000000 →
      (s.mpc.roll = none → ∃ t : State,
        Follows { cleared s with mpc.roll := some ⟨media, width, length, 0⟩, mpc.stray := 0 } t
          ∧ exec (.rollLoad ft media width length) s = .next (answer 0x15 ft .ok (planMark s) .none t)) ∧
      (s.mpc.roll ≠ none →
        exec (.rollLoad ft media width length) s = .next (answer 0x15 ft .notNow (planMark s) .none (cleared s)))) ∧
    (∀ media width length, 15 < media ∨ width < 1000 ∨ 20000 < width ∨ length = 0 ∨ 2000000 < length →
      exec (.rollLoad ft media width length) s = .next (answer 0x15 ft .range (planMark s) .none (cleared s))) ∧
    (s.mpc.roll = none → exec (.rollUnload ft) s = .next (answer 0x16 ft .notNow (planMark s) .none (cleared s))) ∧
    (s.mpc.roll ≠ none → (s.mpc.exec ≠ .idle ∨ grantedEntry s ≠ none) →
      exec (.rollUnload ft) s = .next (answer 0x16 ft .busy (planMark s) .none (cleared s))) ∧
    (s.mpc.roll ≠ none → s.mpc.exec = .idle → grantedEntry s = none → (∀ i j, jobAt s i = some j → j.state ≠ .waiting) →
      (∀ id, id < 4 → (checkAt s id).state ≠ .drying ∧ (checkAt s id).state ≠ .armed
        ∧ ¬((checkAt s id).state = .waitingStrip ∧ (checkAt s id).stripStart ≠ none)) →
      ∃ (accts : List (Option Account)) (t : State),
        Follows { cleared s with
          mpc.roll := none, mpc.cuts := [], cu.printAccts := accts
          cu.house := { s.cu.house with flags.cutLost :=
            s.cu.house.flags.cutLost || s.mpc.cuts.any (fun e => e.owners.contains .house) } } t
        ∧ exec (.rollUnload ft) s = .next (answer 0x16 ft .ok (planMark s) (.removed s.mpc.cuts.length) t)
        ∧ ∀ slot, accts[slot]? = (s.cu.printAccts[slot]?).map (fun o : Option Account => o.map (fun a =>
            { a with flags.cutLost := a.flags.cutLost || s.mpc.cuts.any (fun e => e.owners.any (fun w =>
              match w with
              | .job tag => decide (slotOf s tag = some slot)
              | .house => false)) })))

/-- R89, R91, R95: FEED, and FEED_RETRY in STALLED, with no reached stop in the list: the executor goes MOVING toward the nearer of the target and the first stop beyond P, with the feed limit 1,000 ms plus 2 ms per unit, paused while the cover is unsettled (R96); a target beyond the loaded length is clamped to it, with ROLL_END. -/
def Obligations.FeedAndRetryStartASegment : Prop :=
  ∀ (ft : Byte) (s : State) (r : Roll), s.mpc.roll = some r → s.lc.hold = .none → firstReached s = none →
    s.mpc.settle = none →
    let moving : Advance → Exec := fun a =>
      let stop := match (stopList s).find? (fun x => decide (r.pos < x.pos)) with
        | some x => min a.target x.pos
        | none => a.target
      .moving a ⟨stop, 1000 + 2 * (stop - r.pos), 0, if s.lc.cover = .settled then .driving else .paused⟩
    (∀ d, 1 ≤ d → d ≤ 2000000 → s.mpc.exec = .idle → grantedEntry s = none → r.pos < r.length →
      let a : Advance := ⟨.house, .feed, min r.length (r.pos + d), decide (r.length < r.pos + d)⟩
      let x := if r.length < r.pos + d then raise .rollEnd none (cleared s) else cleared s
      ∃ t : State, Follows { x with mpc.exec := moving a } t
        ∧ exec (.feed ft d) s = .next (answer 0x17 ft .ok (planMark s) (.fed a.target a.clamped) t)) ∧
    (∀ a, s.mpc.exec = .stalled a → r.pos < a.target → ∃ t : State,
      Follows { cleared s with mpc.exec := moving a } t
        ∧ exec (.feedRetry ft) s = .next (answer 0x18 ft .ok (planMark s) (.retried r.pos a.target) t)) ∧
    (∀ d, 1 ≤ d → d ≤ 2000000 → (s.mpc.exec ≠ .idle ∨ grantedEntry s ≠ none) →
      exec (.feed ft d) s = .next (answer 0x17 ft .busy (planMark s) .none (cleared s))) ∧
    ((∀ a, s.mpc.exec ≠ .stalled a) →
      exec (.feedRetry ft) s = .next (answer 0x18 ft .notNow (planMark s) .none (cleared s)))

/-! ### The sheet plan and the cutter -/

/-- R102, R103: SHEET_FROM and SHEET_TO in every state of the plan, with the codes and the PLAN_RESET mark that the rules give; neither reads anything but the plan and the cutter offset. -/
def Obligations.SheetFromAndSheetToMoveThePlan : Prop :=
  ∀ (ft : Byte) (position : Nat) (s : State),
    let having : Plan → State := fun p => { s with out := [], mpc.plan := p }
    (position ≤ 2000000 → exec (.sheetFrom ft position) s
      = .next (answer 0x19 ft .ok (planMark s) (.cutStop (position + s.mpc.cOff)) (having (.from position)))) ∧
    (2000000 < position → exec (.sheetFrom ft position) s = .next (answer 0x19 ft .range (planMark s) .none (having .empty))) ∧
    exec (.sheetTo ft position) s = .next (match s.mpc.plan with
      | .from p =>
        if position ≤ 2000000 then answer 0x1A ft .ok false (.cutStop (position + s.mpc.cOff)) (having (.to p position))
        else answer 0x1A ft .range true .none (having .empty)
      | _ => answer 0x1A ft .sequence false .none (having .empty))

/-- R104, R105, R101: SHEET_COMMIT of a plan in TO that passes every test: each of the two positions gets a PLANNED entry with the account as its one owner, or the account is merged into the entry that stands there; the trail entry takes the guard; every other entry stays, and only a MOVING executor may get a new segment end (R93). Without a plan in TO it is refused SEQUENCE, and with the lead cut stop at or behind P, LATE. -/
def Obligations.SheetCommitPlacesBothCuts : Prop :=
  ∀ (ft : Byte) (s : State),
    (∀ sel tag lead trail guard, (∀ p q, s.mpc.plan ≠ .to p q) →
      exec (.sheetCommit ft sel tag lead trail guard) s
        = .next (answer 0x1B ft .sequence false .none { s with out := [], mpc.plan := .empty })) ∧
    (∀ (p q sel tag lead trail guard : Nat) (r : Roll) (o : CutOwner) (k l : CutKind) (check : Option Nat),
      s.mpc.plan = .to p q → s.mpc.roll = some r → p + 500 ≤ q →
      (lead, k) ∈ [(0, CutKind.sheet), (1, CutKind.trim)] → (trail, l) ∈ [(0, CutKind.sheet), (1, CutKind.trim)] →
      (sel = 1 ∧ o = .house ∧ guard = 0 ∧ check = none ∨
        sel = 0 ∧ 1 ≤ tag ∧ tag ≤ 255 ∧ o = .job tag ∧ ∃ j, jobOf s tag = some j ∧ j.state ≠ .aborting ∧ j.state ≠ .closing
          ∧ (guard = 0 ∧ check = none ∨ guard ≠ 0 ∧ check = j.checkId ∧ j.checkId ≠ none)) →
      (p + s.mpc.cOff ≤ r.pos →
        exec (.sheetCommit ft sel tag lead trail guard) s
          = .next (answer 0x1B ft .late false .none { s with out := [], mpc.plan := .empty })) ∧
      (r.pos < p + s.mpc.cOff →
        (∀ e, cutAt s p = some e ∨ cutAt s q = some e → e.owners.length < 2 ∨ e.owners.contains o = true) →
        (∀ e, cutAt s q = some e → guard ≠ 0 → e.guard = none ∨ e.guard = check) →
        (cutAt s p).isNone.toNat + (cutAt s q).isNone.toNat ≤ 32 - s.mpc.cuts.length →
        let placed : Nat → CutKind → Option Nat → CutEntry := fun x kind g => match cutAt s x with
          | none => ⟨x, [o], kind, g, .planned⟩
          | some e => { e with
              owners := if e.owners.contains o then e.owners else e.owners ++ [o]
              kind := if e.kind = .sheet ∨ kind = .sheet then .sheet else .trim
              guard := if e.guard = none then g else e.guard }
        let shown : Nat → CutEntry → CutReply := fun x e => ⟨x + s.mpc.cOff, e.owners, e.kind, (cutAt s x).isSome⟩
        ∃ (cuts : List CutEntry) (run : Exec),
          let t : State := { s with out := [], mpc.plan := .empty, mpc.cuts := cuts, mpc.exec := run }
          exec (.sheetCommit ft sel tag lead trail guard) s = .next (answer 0x1B ft .ok false
            (.committed (shown p (placed p k none)) (shown q (placed q l check)) (32 - cuts.length)) t) ∧
          cutAt t p = some (placed p k none) ∧ cutAt t q = some (placed q l check) ∧
          (∀ x, x ≠ p → x ≠ q → cutAt t x = cutAt s x) ∧
          ((∀ a g, s.mpc.exec ≠ .moving a g) → run = s.mpc.exec)))

/-- R107, R108, R117, R114: CUT_CANCEL removes a PLANNED entry, or a DUE one while the cutter is JAMMED, here with the executor IDLE or STALLED. CUTTER_CLEAR, with the cutter JAMMED and HOME asserted outside a hold, makes the cutter READY; at a DUE cut stop without a guard and outside every strip span the stroke then starts. -/
def Obligations.CutCancelAndCutterClear : Prop :=
  ∀ (ft : Byte) (s : State),
    (∀ p e, p ≤ 2000000 → cutAt s p = some e →
      (e.state = .cutting ∨ e.state = .due ∧ s.mpc.cutter ≠ .jammed →
        exec (.cutCancel ft p) s = .next (answer 0x1C ft .notNow (planMark s) .none (cleared s))) ∧
      ((s.mpc.exec = .idle ∨ ∃ a, s.mpc.exec = .stalled a) →
        (e.state = .planned ∨ e.state = .due ∧ s.mpc.cutter = .jammed) → ∃ t : State,
        Follows { cleared s with mpc.cuts := s.mpc.cuts.filter (fun e => e.position != p) } t
          ∧ exec (.cutCancel ft p) s = .next (answer 0x1C ft .ok (planMark s) (.cancelled e) t))) ∧
    (∀ p, cutAt s p = none → exec (.cutCancel ft p) s = .next (answer 0x1C ft .range (planMark s) .none (cleared s))) ∧
    (s.lc.hold ≠ .none → exec (.cutterClear ft) s = .next (answer 0x1D ft .held (planMark s) .none (cleared s))) ∧
    (s.lc.hold = .none → s.mpc.cutter ≠ .jammed ∨ s.mpc.home = false →
      exec (.cutterClear ft) s = .next (answer 0x1D ft .notNow (planMark s) .none (cleared s))) ∧
    (s.lc.hold = .none → s.mpc.cutter = .jammed → s.mpc.home = true →
      ((∀ a p, s.mpc.exec ≠ .atStop a (.cut p)) → ∃ t : State,
        Follows { cleared s with mpc.cutter := .ready } t
          ∧ exec (.cutterClear ft) s = .next (answer 0x1D ft .ok (planMark s) .none t)) ∧
      (∀ a p e, s.mpc.exec = .atStop a (.cut p) → cutAt s p = some e → e.state = .due → e.guard = none →
        (∀ c ∈ s.ccu.checks, c.state ≠ .free → c.state ≠ .closed → ∀ b, c.stripStart = some b → b ≤ p →
          ∃ z, c.stripEnd = some z ∧ z ≤ p) →
        s.lc.cover = .settled → ∃ t : State,
          Follows { cleared s with
            mpc.cutter := .stroke false, mpc.strokeTimer := some 1500
            mpc.cuts := s.mpc.cuts.map (fun e => if e.position = p then { e with state := .cutting } else e) } t
          ∧ exec (.cutterClear ft) s = .next (answer 0x1D ft .ok (planMark s) .none t)))

/-! ### Ink -/

/-- R65, R67, R69, R70, R72 to R75, R77, R49, R52: REFILL_ASK. With the pump busy an IDLE or DRY channel is queued, and its place in the serving order answered. With the pump FREE and nothing queued it is served at once (log 13): every READY bay of its map with another ink raises WRONG_INK; with no usable bay, one that is READY with its ink and more than the spent mark, it goes DRY with INK_OUT, again where it was DRY before; else the lowest usable bay is drawn from, with the draw limit of R75, unless it stands in another enabled channel's map, which is a FAULT with MAP_CONFLICT; a draw that starts with the FULL float asserted ends at once. The reply carries what stands after the serve (log 29). -/
def Obligations.RefillAskQueuesOrServesTheChannel : Prop :=
  ∀ (ft : Byte) (c : Nat) (s : State), c ≤ 9 → c < s.isc.chans.length →
    let x := chanAt s c
    let refilled : Refill → List Channel := fun r => s.isc.chans.modify c (fun y => { y with refill := r })
    let answered : Refill → List PumpEntry → State → Host.Outcome State Fault Refusal := fun r q t =>
      let order := q.filter (fun e => e.marked) ++ q.filter (fun e => !e.marked)
      .next (answer 0x12 ft .ok (planMark s) (.refillPlace r (order.findIdx? (fun e => e.channel == c))) t)
    (s.lc.hold ≠ .none → exec (.refillAsk ft c) s = .next (answer 0x12 ft .held (planMark s) .none (cleared s))) ∧
    (s.lc.hold = .none → x.enabled = false ∨ (∃ k, x.refill = .fault k) →
      exec (.refillAsk ft c) s = .next (answer 0x12 ft .notNow (planMark s) .none (cleared s))) ∧
    (s.lc.hold = .none → x.enabled = true → x.refill = .queued ∨ (∃ b, x.refill = .drawing b) → ∃ t : State,
      Follows (cleared s) t ∧ exec (.refillAsk ft c) s = answered x.refill s.isc.pumpQueue t) ∧
    (s.lc.hold = .none → x.enabled = true → x.refill = .idle ∨ x.refill = .dry →
      (s.isc.pump ≠ .free → ∃ t : State,
        let q := s.isc.pumpQueue ++ [⟨c, x.lowFloat⟩]
        Follows { cleared s with isc.chans := refilled .queued, isc.pumpQueue := q } t
          ∧ exec (.refillAsk ft c) s = answered .queued q t) ∧
      (s.isc.pump = .free → s.isc.pumpQueue = [] →
        let standing : Nat → (TagData → Bool) → Bool := fun b f =>
          x.cfg.bayMap.getLsbD b && (bayAt s b).state == .ready && (bayAt s b).tag.any f
        let usable : Nat → Bool := fun b =>
          standing b (fun g => g.inkId == x.cfg.inkId && decide (s.isc.spentMark < g.remaining))
        let warned : State → State := fun y => ((List.range 16).filter (fun b =>
          standing b (fun g => g.inkId != x.cfg.inkId))).foldl (fun y b => raise .wrongInk (some b) y) y
        ((∀ b, b < 16 → usable b = false) → ∃ t : State,
          Follows (raise .inkOut (some c) (warned { cleared s with isc.chans := refilled .dry })) t
            ∧ exec (.refillAsk ft c) s = answered .dry [] t) ∧
        (∀ b g, b < 16 → usable b = true → (∀ d, d < b → usable d = false) → (bayAt s b).tag = some g →
          ((∃ k, k < 10 ∧ k ≠ c ∧ (chanAt s k).enabled = true ∧ (chanAt s k).cfg.bayMap.getLsbD b = true) → ∃ t : State,
            Follows (raise .mapConflict (some c) (warned { cleared s with isc.chans := refilled (.fault .mapConflict) })) t
              ∧ exec (.refillAsk ft c) s = answered (.fault .mapConflict) [] t) ∧
          ((∀ k, k < 10 → k ≠ c → (chanAt s k).enabled = true → (chanAt s k).cfg.bayMap.getLsbD b = false) →
            let level := x.level.getD 0
            (x.fullFloat = false → ∃ t : State,
              let expected := (x.cfg.full - level + x.cfg.flow - 1) / x.cfg.flow
              Follows (warned { cleared s with
                isc.chans := refilled (.drawing b)
                isc.bays := s.isc.bays.modify b (fun y => { y with state := .drawing })
                isc.pump := .running { channel := c, bay := b, levelAtStart := level, prime := x.level.isNone, elapsed := 0
                                       limit := min 60000 (2000 + 4 * expected) } }) t
                ∧ exec (.refillAsk ft c) s = answered (.drawing b) [] t) ∧
            (x.fullFloat = true → ∃ t : State,
              let moved := if x.level = none then 0 else x.cfg.full - level
              let left : TagData := { g with remaining := g.remaining - moved }
              Follows (warned { cleared s with
                isc.chans := s.isc.chans.modify c (fun y => { y with level := some x.cfg.full, refill := .idle })
                isc.bays := s.isc.bays.modify b (fun y =>
                  { y with state := .writing, tag := some left, drift := y.drift || decide (g.remaining < moved) })
                isc.tagQueue := s.isc.tagQueue ++ [.write b left] }) t
                ∧ exec (.refillAsk ft c) s = answered .idle [] t)))))

/-- R53, R55, R58: a cartridge inserted, or a bay cleared by BAY_CLEAR, goes READING with a tag read placed; a cartridge removed leaves its bay EMPTY with BAY_CHANGED, its tag operation abandoned, and TAG_STALE where that was a write. An input that already stands as reported changes nothing (log 11). -/
def Obligations.BayInsertionRemovalAndClear : Prop :=
  ∀ (b : Fin 16) (s : State),
    let bays : (Bay → Bay) → List Bay := fun f => s.isc.bays.modify b f
    let now : State := { s with out := [] }
    let others : TagOp → Bool := fun op => match op with
      | .read d => d != b.val
      | .write d _ => d != b.val
    let emptied : State := { now with isc.bays := bays (fun _ => ⟨.empty, none, false, false⟩) }
    let abandoned : State := { emptied with
      isc.tagQueue := s.isc.tagQueue.filter others
      isc.tagBus := s.isc.tagBus.filter (fun r => others r.op) }
    ((bayAt s b).present = true → exec (.bayPresenceAssert b) s = .next now) ∧
    ((bayAt s b).present = false → exec (.bayPresenceDeassert b) s = .next now) ∧
    ((bayAt s b).present = false → exec (.bayPresenceAssert b) s = .next (raise .bayChanged (some b.val)
      { now with isc.bays := bays (fun _ => ⟨.reading, none, false, true⟩)
                 isc.tagQueue := s.isc.tagQueue ++ [.read b] })) ∧
    ((bayAt s b).present = true → ∃ t : State, exec (.bayPresenceDeassert b) s = .next t ∧
      ((bayAt s b).state = .reading → Follows (raise .bayChanged (some b.val) abandoned) t) ∧
      ((bayAt s b).state = .writing →
        Follows (raise .tagStale (some b.val) (raise .bayChanged (some b.val) abandoned)) t) ∧
      ((bayAt s b).state = .ready ∨ (bayAt s b).state = .spent ∨ (bayAt s b).state = .suspect ∨ (bayAt s b).state = .tagFault →
        Follows (raise .bayChanged (some b.val) emptied) t)) ∧
    (∀ ft, ((bayAt s b).state = .suspect ∨ (bayAt s b).state = .tagFault) ∧ (bayAt s b).present = true →
      exec (.bayClear ft b) s = .next (answer 0x14 ft .ok (planMark s) .none { cleared s with
        isc.bays := bays (fun y => ⟨.reading, none, false, y.present⟩)
        isc.tagQueue := s.isc.tagQueue ++ [.read b]
        lc.conds := s.lc.conds.map (fun e =>
          if e.cond = .tagFault ∧ e.subject = some b.val then { e with cause := false } else e) })) ∧
    (∀ ft, ¬(((bayAt s b).state = .suspect ∨ (bayAt s b).state = .tagFault) ∧ (bayAt s b).present = true) →
      exec (.bayClear ft b) s = .next (answer 0x14 ft .notNow (planMark s) .none (cleared s))) ∧
    (∀ ft n, 15 < n → exec (.bayClear ft n) s = .next (answer 0x14 ft .range (planMark s) .none (cleared s)))

/-- R51, R52: a float that asserts corrects the level, with DRIFT where a known level moved; a LOW float requests an enabled IDLE channel with the mark, marks a QUEUED one, and requests no other; here the pump is busy or nothing is served. A float that deasserts is recorded and changes nothing else; one that already stands as reported changes nothing (log 11). -/
def Obligations.FloatsCorrectTheLevel : Prop :=
  ∀ (c : Fin 10) (s : State), c.val < s.isc.chans.length →
    let x := chanAt s c
    let now : State := { s with out := [] }
    let low : Channel → Channel := fun y =>
      { y with lowFloat := true, level := x.level.map (fun l => min l x.cfg.lowVol)
               drift := x.drift || x.level.any (fun l => x.cfg.lowVol < l) }
    exec (.lowFloatDeassert c) s = .next { now with isc.chans := s.isc.chans.modify c (fun y => { y with lowFloat := false }) } ∧
    exec (.fullFloatDeassert c) s = .next { now with isc.chans := s.isc.chans.modify c (fun y => { y with fullFloat := false }) } ∧
    (x.lowFloat = true → exec (.lowFloatAssert c) s = .next now) ∧
    (x.fullFloat = true → exec (.fullFloatAssert c) s = .next now) ∧
    (x.lowFloat = false → ∃ t : State, exec (.lowFloatAssert c) s = .next t ∧
      (x.enabled = true → x.refill = .idle → s.isc.pump ≠ .free → Follows { now with
        isc.chans := s.isc.chans.modify c (fun y => { low y with refill := .queued })
        isc.pumpQueue := s.isc.pumpQueue ++ [⟨c, true⟩] } t) ∧
      (x.refill = .queued → Follows { now with
        isc.chans := s.isc.chans.modify c low
        isc.pumpQueue := s.isc.pumpQueue.map (fun e => if e.channel = c.val then { e with marked := true } else e) } t) ∧
      (x.refill ≠ .queued → (x.enabled = true → x.refill ≠ .idle) →
        Follows { now with isc.chans := s.isc.chans.modify c low } t)) ∧
    (x.fullFloat = false → (∀ d, s.isc.pump = .running d ∨ s.isc.pump = .suspended d → d.channel ≠ c) → ∃ t : State,
      Follows { now with isc.chans := s.isc.chans.modify c (fun y =>
        { y with fullFloat := true, level := some x.cfg.full
                 drift := x.drift || x.level.any (fun l => l < x.cfg.full) }) } t
        ∧ exec (.fullFloatAssert c) s = .next t)

/-- R57, R76 to R79: the endings of a draw, with no channel waiting for the pump. At the FULL float the moved volume is the full volume less the level (of a prime draw, flow times elapsed, at most the full volume), the bay is debited and its tag write placed; at the limit it is capped by flow, bay and room, the channel goes FAULT and the bay SUSPECT; at a removal it is capped by flow and room, and the channel is requested again: during a hold it waits, and with the pump FREE and no READY bay left in its map it goes DRY with INK_OUT. At the expiry the elapsed time is the limit (log 23); with no draw running the expiry changes nothing (log 11). -/
def Obligations.DrawEndingsBookTheMovedVolume : Prop :=
  ∀ (s : State) (d : Draw) (c : Fin 10) (b : Fin 16) (g : TagData), d.channel = c.val → d.bay = b.val →
    c.val < s.isc.chans.length → b.val < s.isc.bays.length →
    (bayAt s b).tag = some g → s.isc.pumpQueue = [] →
    let x := chanAt s c
    let now : State := { s with out := [] }
    let room := x.cfg.full - x.level.getD 0
    (x.fullFloat = false → s.isc.pump = .running d ∨ s.isc.pump = .suspended d → ∃ t : State,
      let moved := if d.prime then min (x.cfg.flow * d.elapsed) x.cfg.full else room
      let left : TagData := { g with remaining := g.remaining - moved }
      Follows { now with
        isc.pump := .free
        isc.chans := s.isc.chans.modify c (fun y => { y with fullFloat := true, level := some x.cfg.full, refill := .idle })
        isc.bays := s.isc.bays.modify b (fun y =>
          { y with state := .writing, tag := some left, drift := y.drift || decide (g.remaining < moved) })
        isc.tagQueue := s.isc.tagQueue ++ [.write b left] } t
      ∧ exec (.fullFloatAssert c) s = .next t) ∧
    (s.isc.pump = .running d → ∃ t : State,
      let moved := min (x.cfg.flow * d.limit) (min g.remaining room)
      Follows (raise .refillTimeout (some c.val) { now with
        isc.pump := .free
        isc.chans := s.isc.chans.modify c (fun y =>
          { y with level := y.level.map (fun l => l + moved), refill := .fault .refillTimeout })
        isc.bays := s.isc.bays.modify b (fun y =>
          { y with state := .suspect, tag := some { g with remaining := g.remaining - moved } }) }) t
      ∧ exec .drawLimitExpiry s = .next t) ∧
    ((∀ d, s.isc.pump ≠ .running d) → exec .drawLimitExpiry s = .next now) ∧
    (s.isc.pump = .suspended d → s.lc.hold ≠ .none → (bayAt s b).state = .drawing → (bayAt s b).present = true →
      x.enabled = true → ∃ t : State,
      let moved := min (x.cfg.flow * d.elapsed) room
      let y := raise .drawCut (some b.val) (raise .bayChanged (some b.val) { now with
        isc.pump := .free
        isc.chans := s.isc.chans.modify c (fun y => { y with level := y.level.map (fun l => l + moved), refill := .queued })
        isc.bays := s.isc.bays.modify b (fun _ => ⟨.empty, none, false, false⟩) })
      Follows { y with isc.pumpQueue := [⟨c, x.lowFloat⟩] } t ∧ exec (.bayPresenceDeassert b) s = .next t) ∧
    (s.isc.pump = .running d → s.lc.hold = .none → (bayAt s b).state = .drawing → (bayAt s b).present = true →
      x.enabled = true → ∃ t : State, exec (.bayPresenceDeassert b) s = .next t ∧
      let moved := min (x.cfg.flow * d.elapsed) room
      let cut : Refill → State := fun r => raise .drawCut (some b.val) (raise .bayChanged (some b.val) { now with
        isc.pump := .free
        isc.chans := s.isc.chans.modify c (fun y => { y with level := y.level.map (fun l => l + moved), refill := r })
        isc.bays := s.isc.bays.modify b (fun _ => ⟨.empty, none, false, false⟩) })
      Follows (placeRequest c false (cut .idle)) t ∧
      ((∀ m, m < 16 → m ≠ b.val → x.cfg.bayMap.getLsbD m = true → (bayAt s m).state ≠ .ready) →
        Follows (raise .inkOut (some c.val) (cut .dry)) t))

/-- R54, R56, R57, R65, R68: the oldest tag operation starts on the free bus, a write with the check value of the new contents. A completed read with a good check and a capacity that holds the remaining fills the record, and the bay goes READY above the spent mark and else SPENT, as after a completed write; a bad read, and an operation without a completion in time, leave TAG_FAULT. Each DRY channel whose map holds a bay that goes READY is requested again, in ascending order (log 13): with the pump busy, each is queued. -/
def Obligations.TagBusRunsOneOperation : Prop :=
  ∀ (s : State),
    let now : State := { s with out := [] }
    let done : State := { now with isc.tagBus := none }
    let good : BitVec 16 → TagData → Bool := fun check g =>
      decide (check = crc16 (leBytes 1 g.inkId ++ leBytes 4 g.capacity ++ leBytes 4 g.remaining)) && decide (1 ≤ g.capacity)
        && decide (g.remaining ≤ g.capacity)
    (∀ op l, s.isc.tagBus = none → s.isc.tagQueue = op :: l → exec .tagOpStart s = .next { now with
      isc.tagQueue := l, isc.tagBus := some ⟨op, 0⟩
      out := [match op with
        | .read b => .tagRead b
        | .write b g => .tagWrite b g (crc16 (leBytes 1 g.inkId ++ leBytes 4 g.capacity ++ leBytes 4 g.remaining))] }) ∧
    let dry : Nat → List Nat := fun b =>
      (List.range 10).filter (fun c => (chanAt s c).refill == .dry && (chanAt s c).cfg.bayMap.getLsbD b)
    let ready : Nat → List Bay → State → Prop := fun b bays t =>
      Follows ((dry b).foldl (fun y c => placeRequest c false (updChan c (fun x => { x with refill := .idle }) y))
        { done with isc.bays := bays }) t ∧
      (dry b = [] ∨ s.isc.pump ≠ .free ∧ (∀ c ∈ dry b, (chanAt s c).enabled = true) → Follows { done with
        isc.bays := bays
        isc.chans := (dry b).foldl (fun cs c => cs.modify c (fun x => { x with refill := .queued })) s.isc.chans
        isc.pumpQueue := s.isc.pumpQueue ++ (dry b).map (fun c => ⟨c, (chanAt s c).lowFloat⟩) } t)
    let faulted : Nat → Bool → State := fun b keep => raise .tagFault (some b) { done with
      isc.bays := s.isc.bays.modify b (fun y => { y with state := .tagFault, tag := if keep then y.tag else none }) }
    (∀ b n, s.isc.tagBus = some ⟨.read b, n⟩ → b < s.isc.bays.length →
      (∀ ink capacity remaining check, ∃ t : State,
        exec (.tagReadComplete ink capacity remaining check) s = .next t ∧
        let filled : BayState → List Bay := fun x =>
          s.isc.bays.modify b (fun y => { y with tag := some ⟨ink, capacity, remaining⟩, state := x })
        (good check ⟨ink, capacity, remaining⟩ = true →
          (s.isc.spentMark < remaining → ready b (filled .ready) t) ∧
          (remaining ≤ s.isc.spentMark → Follows { done with isc.bays := filled .spent } t)) ∧
        (good check ⟨ink, capacity, remaining⟩ = false → Follows (faulted b false) t)) ∧
      (∃ t : State, exec .tagOpTimeout s = .next t ∧ Follows (faulted b false) t)) ∧
    (∀ b w n g, s.isc.tagBus = some ⟨.write b w, n⟩ → (bayAt s b).tag = some g → b < s.isc.bays.length →
      (∃ t : State, exec .tagWriteComplete s = .next t ∧
        let written : BayState → List Bay := fun x => s.isc.bays.modify b (fun y => { y with state := x })
        (s.isc.spentMark < g.remaining → ready b (written .ready) t) ∧
        (g.remaining ≤ s.isc.spentMark → Follows { done with isc.bays := written .spent } t)) ∧
      (∃ t : State, exec .tagOpTimeout s = .next t ∧ Follows (faulted b true) t))

/-! ### The head -/

/-- R13, R15, R16, R38, R150: a FIRED or BROKEN report for the GRANTED head entry, where no channel asks for a refill: each charge is taken from its level (down to 0, then with DRIFT) and its reservation ends, the charges and the swath are booked to the job's account, a broken swath raises SWATH_BROKEN, and the strip events of R21 are made. With advance 0 the entry leaves the queue, with SWATH_ROOM where the free entries then reach the mark (R7; here with no strip event and no job at its end); else it is ADVANCING and the executor takes the advance. -/
def Obligations.FiredAndBrokenEndTheGrant : Prop :=
  ∀ (broken : Bool) (e : QEntry) (q : List QEntry) (slot : Nat) (j : Job) (a : Account) (l : List ChargeRec) (s : State),
    s.rc.queue = e :: q → e.state = .granted → e.charges = some l → (∀ x ∈ q, x.queueTag ≠ e.queueTag) →
    slotOf s e.job = some slot → jobAt s slot = some j → printAt s slot = some a →
    let chans := l.foldl (fun cs r => cs.modify r.channel (fun c =>
      { c with level := c.level.map (fun v => v - r.charge)
               drift := c.drift || c.level.any (fun v => v < r.charge), reserved := 0 })) s.isc.chans
    (∀ r ∈ l, let c := chanAt { s with isc.chans := chans } r.channel
      c.enabled = false ∨ c.refill ≠ .idle ∨ ∃ v, c.level = some v ∧ c.cfg.refillMark + c.reserved ≤ v) →
    ∃ (b : Account) (t : State),
      let booked : State := { s with
        out := [], isc.chans := chans
        cu.printAccts := s.cu.printAccts.modify slot (fun _ => some b)
        rc := { s.rc with
          fireTimer := none
          queue := { e with state := .fired } :: q
          jobs := s.rc.jobs.modify slot (fun o => o.map (fun j =>
            if broken then { j with broken := min 4294967295 (j.broken + 1) }
            else { j with fired := min 4294967295 (j.fired + 1) })) } }
      let x := if broken then raise .swathBroken (some e.job) booked else booked
      exec (if broken then .broken true e.queueTag else .fired true e.queueTag) s = .next t ∧
      (e.advance = 0 → j.state ≠ .ending →
        (if e.kind = .strip then j.strip ≠ .none else j.strip ≠ .inStrip) → Follows (roomed { x with rc.queue := q }) t) ∧
      (e.advance ≠ 0 → Follows (takeAdvance (.print slot) .swath e.advance
        (updEntry e.queueTag (fun e => { e with state := .advancing }) (stripEvents slot e.kind x))) t) ∧
      b.ink = l.foldl (fun ink r => ink.modify r.channel (fun n => min 4294967295 (n + r.charge))) a.ink ∧
      b.fired = (if broken then a.fired else min 4294967295 (a.fired + 1)) ∧
      b.broken = (if broken then min 4294967295 (a.broken + 1) else a.broken) ∧
      b.strips = (if e.kind = .strip then 1 else a.strips) ∧
      b = { a with ink := b.ink, fired := b.fired, broken := b.broken, strips := b.strips
                   flags := { a.flags with saturated := b.flags.saturated } }

/-- R13, R14, R17, R18, R19, R29, R37: a head record with a bad check changes nothing, and a report without its grant only clears the stale tag it carries. NOT_FIRED gives back the reservations and the residues: a revoked entry is withdrawn, with SWATH_ROOM where the free entries then reach the mark (R7), and its job, ABORTING and without an entry, is finished by what follows (R27, R28: EndedAndAbortedJobsCloseTheirAccount writes that state out); any other is QUEUED again with the head NOT_READY and ASK_STATE sent, and with nothing else to react to, its job is then held HEAD_NOT_READY. HEAD_FAULT and FIRE_TIMEOUT put the head in FAULT and end a grant as BROKEN; FIRE_TIMEOUT with no grant in flight changes nothing (log 11). -/
def Obligations.HeadReportsEndOrDiscardTheGrant : Prop :=
  ∀ s : State,
    let now : State := { s with out := [] }
    (∀ i tag counts, i ∈ [Instr.fired false tag, .broken false tag, .notFired false tag, .headReady false, .headFault false,
      .cleaned false counts] → exec i s = .next now) ∧
    (∀ i tag, i ∈ [Instr.fired true tag, .broken true tag, .notFired true tag] →
      (∀ e, grantedEntry s = some e → e.queueTag ≠ tag) →
      exec i s = .next { now with rc.stale := if s.rc.stale = some tag then none else s.rc.stale }) ∧
    (grantedEntry s = none → exec .fireTimeout s = .next now ∧
      ∃ t : State, exec (.headFault true) s = .next t ∧
        Follows (raise .headFault none { now with rc.head := .fault, rc.stale := none }) t) ∧
    (∀ (e : QEntry) (q : List QEntry) (l : List ChargeRec) (slot : Nat) (j : Job), s.rc.queue = e :: q → e.state = .granted →
      e.charges = some l → (∀ x ∈ q, x.queueTag ≠ e.queueTag) → slotOf s e.job = some slot → jobAt s slot = some j →
      let chans := l.foldl (fun cs r => cs.modify r.channel (fun c => { c with reserved := 0, residue := r.saved })) s.isc.chans
      (∃ t : State, exec .fireTimeout s = .next t ∧
        let x := endGrant true e now
        Follows { raise .headFault none { x with rc.head := .fault } with out := x.out ++ [.askState] } t) ∧
      (∃ t : State, exec (.headFault true) s = .next t ∧
        Follows (endGrant true e (raise .headFault none { now with rc.head := .fault, rc.stale := none })) t) ∧
      (e.revoked = some true → ∃ t : State, exec (.notFired true e.queueTag) s = .next t ∧
        Follows (roomed { now with
          isc.chans := chans
          rc := { s.rc with
            fireTimer := none
            queue := q
            jobs := s.rc.jobs.modify slot (fun o => o.map (fun j =>
              { j with withdrawn := min 4294967295 (j.withdrawn + 1) })) } }) t) ∧
      (e.revoked ≠ some true → s.lc.hold = .none → s.lc.cover = .settled → s.mpc.exec = .idle →
        (∀ left, s.mpc.cutter ≠ .stroke left) → (∀ c ∈ s.ccu.checks, c.state ≠ .measuring) →
        (∀ x ∈ q, x.state ≠ .granted) → (∀ i k, jobAt s i = some k → k.state = .opened) →
        let x : State := { now with
          isc.chans := chans
          out := [.askState]
          rc := { s.rc with
            fireTimer := none
            head := .notReady
            queue := { e with state := .queued, charges := none, revoked := none } :: q
            jobs := s.rc.jobs.modify slot (fun o => o.map (fun j => { j with hold := some .headNotReady })) } }
        exec (.notFired true e.queueTag) s
          = .next (syncCauses (if j.hold = some .headNotReady then x else raise .jobHeld (some j.tag) x))))

/-- R9, R10, R11, R12, R14, R31, R36: HEAD_READY makes the head READY, and the QUEUED head swath is then considered, with every job OPEN and the media path idle. The first reason of R10's tests 1, 2 and 4 to 12 that applies is recorded, with JOB_HELD where it is new; an INK_UNKNOWN or INK_WAIT also requests a refill of each IDLE channel of the drop list whose level is unknown or short, in ascending order (here with the pump busy, so that each is queued, or with no such channel; log 13); where none applies the swath is granted: each channel's charge is reserved, its new residue written with the old one saved, the fire timer started and GRANT sent. -/
def Obligations.HeadReadyAdmitsOrHoldsTheHeadSwath : Prop :=
  ∀ (e : QEntry) (q : List QEntry) (slot : Nat) (j : Job) (s : State),
    s.rc.queue = e :: q → e.state = .queued → (∀ x ∈ q, x.state ≠ .granted) → (∀ x ∈ q, x.queueTag ≠ e.queueTag) →
    slotOf s e.job = some slot → jobAt s slot = some j → (∀ i k, jobAt s i = some k → k.state = .opened) →
    (∀ a g, s.mpc.exec ≠ .moving a g) → (∀ a r, s.mpc.exec ≠ .atStop a r) →
    (∀ a r, s.mpc.exec = .off a (some r) → inStopList s r = true) →
    (∀ left, s.mpc.cutter ≠ .stroke left) → (∀ c ∈ s.ccu.checks, c.state ≠ .measuring) →
    let used := dropChannels e.drops
    let scaled : Nat → Nat := fun c =>
      let n := dropCounts e.drops c
      let cfg := (chanAt s c).cfg
      (n.small * cfg.volS + n.medium * cfg.volM + n.large * cfg.volL) * gainAt s c + (chanAt s c).residue
    let charge : Nat → Nat := fun c => scaled c / 65536000
    let limit : Nat → Nat := fun c => (chanAt s c).cfg.full - (chanAt s c).cfg.floor
    let short : Nat → Prop := fun c => ∃ v, (chanAt s c).level = some v ∧ v < (chanAt s c).cfg.floor + charge c
    let path : Option HoldReason :=
      if s.lc.hold ≠ .none then some .supplyHold
      else if s.lc.cover ≠ .settled then some .coverOpen
      else if s.mpc.cutter = .jammed then some .cutterJammed
      else match s.mpc.exec, s.mpc.roll with
        | .stalled _, _ => some .feedStalled
        | _, none => some .noRoll
        | _, some r =>
          if r.media ≠ j.media then some .wrongMedia else if r.length - r.pos < e.advance then some .rollEnd else none
    let now : State := { s with out := [], rc.head := .ready }
    let holding : List Nat → HoldReason → State := fun asked r =>
      let x : State := { now with
        rc.jobs := s.rc.jobs.modify slot (fun o => o.map (fun j => { j with hold := some r }))
        isc.chans := asked.foldl (fun cs c => cs.modify c (fun x => { x with refill := .queued })) s.isc.chans
        isc.pumpQueue := s.isc.pumpQueue ++ asked.map (fun c => ⟨c, (chanAt s c).lowFloat⟩) }
      syncCauses (if j.hold = some r then x else raise .jobHeld (some j.tag) x)
    let heldFor : HoldReason → State := holding []
    let asked : List Nat := used.filter (fun c => (chanAt s c).enabled && (chanAt s c).refill == .idle
      && (match (chanAt s c).level with
        | none => true
        | some v => decide (v < (chanAt s c).cfg.floor + charge c)))
    let queueing : Prop := asked = [] ∨ s.isc.pump ≠ .free
    (∀ r, path = some r → exec (.headReady true) s = .next (heldFor r)) ∧
    (path = none →
      (∀ c ∈ used, (chanAt s c).enabled = false → (∀ d ∈ used, d < c → (chanAt s d).enabled = true) →
        exec (.headReady true) s = .next (heldFor (.channelOff c))) ∧
      ((∀ c ∈ used, (chanAt s c).enabled = true) →
        (∀ c ∈ used, (chanAt s c).level = none → (∀ d ∈ used, d < c → (chanAt s d).level ≠ none) → queueing →
          exec (.headReady true) s = .next (holding asked (.inkUnknown c))) ∧
        ((∀ c ∈ used, (chanAt s c).level ≠ none) →
          (∀ c ∈ used, limit c < charge c → (∀ d ∈ used, d < c → charge d ≤ limit d) →
            exec (.headReady true) s = .next (heldFor (.inkNever c))) ∧
          ((∀ c ∈ used, charge c ≤ limit c) →
            (∀ c ∈ used, short c → (∀ d ∈ used, d < c → ¬ short d) → queueing →
              exec (.headReady true) s = .next (holding asked (.inkWait c))) ∧
            ((∀ c ∈ used, ¬ short c) →
              exec (.headReady true) s = .next (syncCauses { now with
                out := [.grant e.queueTag e.number e.kind]
                isc.chans := used.foldl (fun cs c => cs.modify c (fun x =>
                  { x with reserved := charge c, residue := scaled c % 65536000 })) s.isc.chans
                rc := { s.rc with
                  head := .ready
                  fireTimer := some 30000
                  queue := { e with state := .granted, revoked := some false
                                    charges := some (used.map (fun c => ⟨c, charge c, (chanAt s c).residue⟩)) } :: q
                  jobs := s.rc.jobs.modify slot (fun o => o.map (fun j => { j with hold := none })) } }))))))

/-- R31, R41, R150, R169: a CLEANED record is booked whatever the grant and the head state: each channel with a nonzero count gets its new residue and loses the charge (down to 0, then with DRIFT), the house account gains the charge, and every other channel stays. Here no channel it touches asks for a refill. -/
def Obligations.CleanedBooksForcedCommits : Prop :=
  ∀ (counts : List Counts) (s : State), s.isc.chans.length = 10 → s.cu.house.ink.length = 10 →
    let count : Nat → Counts := fun c => counts.getD c ⟨0, 0, 0⟩
    let hit : Nat → Prop := fun c => count c ≠ ⟨0, 0, 0⟩
    let scaled : Nat → Nat := fun c =>
      let cfg := (chanAt s c).cfg
      ((count c).small * cfg.volS + (count c).medium * cfg.volM + (count c).large * cfg.volL) * gainAt s c + (chanAt s c).residue
    let charge : Nat → Nat := fun c => scaled c / 65536000
    (∀ c, c < 10 → hit c → let x := chanAt s c
      x.enabled = false ∨ x.refill ≠ .idle ∨ ∃ v, x.level = some v ∧ x.cfg.refillMark + x.reserved ≤ v - charge c) →
    ∃ (chans : List Channel) (h : Account) (t : State),
      exec (.cleaned true counts) s = .next t ∧
      Follows { s with out := [], isc.chans := chans, cu.house := h } t ∧
      chans.length = 10 ∧ h.ink.length = 10 ∧
      (∀ c, c < 10 → chans[c]? = some (
        let x := chanAt s c
        if count c = ⟨0, 0, 0⟩ then x
        else { x with residue := scaled c % 65536000, level := x.level.map (fun v => v - charge c)
                      drift := x.drift || x.level.any (fun v => v < charge c) })) ∧
      (∀ c, c < 10 → hit c → h.ink.getD c 0 = min 4294967295 (s.cu.house.ink.getD c 0 + charge c)) ∧
      (∀ c, c < 10 → ¬ hit c → h.ink.getD c 0 = s.cu.house.ink.getD c 0) ∧
      h = { s.cu.house with ink := h.ink, flags := { s.cu.house.flags with saturated := h.flags.saturated } }

/-! ### The encoder, the executor and the cutter -/

/-- R84, R87, R91: a forward step with the roll LOADED and the window open (the feed driven, or the settle window running) adds 1 to P, at most to the loaded length, marks every stop that P has reached, and at the segment end stops the feed with a settle window of 100 ms. Every other step adds 1 to the stray tally, at most to 65,535, and changes nothing else. -/
def Obligations.EncoderStepMovesTheRollOrIsStray : Prop :=
  ∀ s : State,
    let now : State := { s with out := [] }
    let open_ : Prop := s.mpc.settle ≠ none ∨ ∃ a g, s.mpc.exec = .moving a g ∧ g.phase = .driving
    let stray : State := { now with mpc.stray := min 65535 (s.mpc.stray + 1) }
    exec (.encoderStep false) s = .next stray ∧
    (s.mpc.roll = none ∨ ¬ open_ → exec (.encoderStep true) s = .next stray) ∧
    (∀ r, s.mpc.roll = some r → open_ →
      (r.length ≤ r.pos → exec (.encoderStep true) s = .next now) ∧
      (r.pos < r.length →
        let p := r.pos + 1
        let x : State := { now with
          mpc.roll := some { r with pos := p }
          mpc.moved := s.mpc.moved + 1
          mpc.cuts := s.mpc.cuts.map (fun e =>
            if e.state = .planned ∧ e.position + s.mpc.cOff ≤ p then { e with state := .due } else e)
          ccu.checks := s.ccu.checks.map (fun c =>
            if c.state ≠ .free ∧ c.state ≠ .closed ∧ c.stop.any (fun q => q ≤ p) = true then { c with reached := true } else c) }
        exec (.encoderStep true) s = .next (match s.mpc.exec with
          | .moving a g =>
            if g.phase = .driving ∧ g.segEnd ≤ p then
              { x with mpc.exec := .moving a { g with phase := .settling }, mpc.settle := some 100 }
            else x
          | _ => x)))

/-- R7, R20, R24, R88, R91, R92, R94, R97, R100, R110, R112, R114, R151: SETTLE_WINDOW_END hands the moved distance, with its area, to the owner of the advance, unless a soft reset left the window open (log 25), and the executor goes on by what ended its segment: at a segment end to the first reached stop, to a new segment, or to the end of the advance, which retires the swath (here with no job at its end) or takes a FEEDING job to WAITING; after a stall to STALLED with FEED_STALL; in a supply hold to OFF. At the stop of an ARMED check the scan start test is taken (R136). At a cut stop a position inside an open strip span is skipped (R111): the entry leaves uncut, CUT_SKIPPED is raised for each print job among its owners, in the order of the owners (the model's choice, log 12), or once for HOUSE alone, and the executor goes on (here to no other reached stop). Otherwise a guard is met by a CLOSED check, and dropped with GUARD_LOST where the check's stop lies beyond or does not exist (R112); then the stroke starts where the cutter is READY, the cover settled and no hold in effect. At a guarded cut whose check is open with its stop reached no stroke starts (log 21). Where a FEEDING job goes WAITING with a cut or a check of its own left, all others OPEN, the next state is written out whole. Without an open window nothing happens (log 11). FEED_LIMIT_EXPIRY stops a driven feed, with a settle window of 100 ms that ends in the stall; while the feed is not driven nothing follows from it but the reactions (log 4). -/
def Obligations.SettleWindowEndAndFeedLimitMoveTheExecutor : Prop :=
  ∀ (s : State) (n : Nat) (r : Roll) (a : Advance) (g : Segment),
    let now : State := { s with out := [] }
    (∃ t : State, exec .feedLimitExpiry s = .next t ∧
      (∀ a g, s.mpc.exec = .moving a g → g.phase = .driving → Follows { now with
        mpc.exec := .moving a { g with run := g.limit, phase := .stalling }, mpc.settle := some 100 } t) ∧
      ((∀ a g, s.mpc.exec = .moving a g → g.phase ≠ .driving) → Follows now t)) ∧
    (s.mpc.settle = none → exec .settleWindowEnd s = .next now) ∧
    (s.mpc.settle = some n → (∀ a g, s.mpc.exec ≠ .moving a g) → ∃ t : State, exec .settleWindowEnd s = .next t ∧
      Follows { now with mpc.settle := none, mpc.moved := 0, mpc.resetWindow := false } t) ∧
    (s.mpc.settle = some n → s.mpc.roll = some r → s.mpc.exec = .moving a g →
      let d := s.mpc.moved
      let charged : Account → Account := fun b =>
        let list := if b.media.any (fun m => m.media == r.media) then b.media else b.media ++ [⟨r.media, 0, 0⟩]
        { b with
          media := list.map (fun m => if m.media = r.media then
            ⟨m.media, min 4294967295 (m.length + d), min 999999999999999 (m.area + d * r.width)⟩ else m)
          flags.saturated := b.flags.saturated || list.any (fun m => m.media == r.media
            && (decide (4294967295 < m.length + d) || decide (999999999999999 < m.area + d * r.width))) }
      let x : State := { now with
        mpc.settle := none
        mpc.moved := 0
        mpc.resetWindow := false
        cu := if d = 0 ∨ s.mpc.resetWindow = true then s.cu else match a.owner with
          | .print slot => { s.cu with printAccts := s.cu.printAccts.modify slot (fun o => o.map charged) }
          | .house => { s.cu with house := charged s.cu.house } }
      ∃ t : State, exec .settleWindowEnd s = .next t ∧
        (g.phase = .stalling → Follows (raise .feedStall none { x with mpc.exec := .stalled a }) t) ∧
        (g.phase = .holding → s.lc.hold ≠ .none → Follows { x with mpc.exec := .off a none } t) ∧
        (g.phase = .driving ∨ g.phase = .paused → Follows x t) ∧
        (g.phase = .settling → firstReached s = none → r.pos < a.target →
          let stop := match (stopList s).find? (fun x => decide (r.pos < x.pos)) with
            | some x => min a.target x.pos
            | none => a.target
          Follows { x with mpc.exec := .moving a ⟨stop, 1000 + 2 * (stop - r.pos), 0,
            if s.lc.cover = .settled then .driving else .paused⟩ } t) ∧
        (g.phase = .settling → firstReached s = none → a.target ≤ r.pos →
          (∀ e q slot j, a.requester = .swath → s.rc.queue = e :: q → e.state = .advancing →
            (∀ y ∈ q, y.queueTag ≠ e.queueTag) → slotOf s e.job = some slot → jobAt s slot = some j → j.state ≠ .ending →
            Follows (roomed { x with mpc.exec := .idle, rc.queue := q }) t) ∧
          (∀ slot j, a.requester = .tailFeed → a.owner = .print slot → jobAt s slot = some j → j.state = .feeding →
            let y : State := { x with
              mpc.exec := .idle
              rc.jobs := s.rc.jobs.modify slot (fun o => o.map (fun j => { j with state := .waiting })) }
            Follows y t ∧
            ((∀ i k, i ≠ slot → jobAt s i = some k → k.state = .opened) →
              (∀ e, s.rc.queue.head? = some e → e.state ≠ .queued) →
              (∃ e ∈ s.mpc.cuts, .job j.tag ∈ e.owners) ∨ (∃ id, j.checkId = some id ∧ (checkAt s id).state ≠ .closed) →
              t = syncCauses y)) ∧
          (a.requester = .feed → Follows { x with mpc.exec := .idle } t)) ∧
        (∀ id, g.phase = .settling → firstReached s = some (.meas id) →
          ((checkAt s id).state ≠ .armed → Follows { x with mpc.exec := .atStop a (.meas id) } t) ∧
          (∀ tag, (checkAt s id).state = .armed → (checkAt s id).job = some tag →
            Follows (scanTested id tag { x with mpc.exec := .atStop a (.meas id) }) t)) ∧
        (∀ p e, g.phase = .settling → firstReached s = some (.cut p) → cutAt s p = some e → e.state = .due →
          let y : State := { x with mpc.exec := .atStop a (.cut p) }
          let stroked : State → State := fun z => { z with
            mpc.cutter := .stroke false
            mpc.strokeTimer := some 1500
            mpc.cuts := z.mpc.cuts.map (fun e => if e.position = p then { e with state := .cutting } else e) }
          ((∃ c ∈ s.ccu.checks, c.state ≠ .free ∧ c.state ≠ .closed ∧ ∃ b, c.stripStart = some b ∧ b ≤ p ∧
              ∀ z, c.stripEnd = some z → p < z) →
            let tags := e.owners.filterMap (fun o => match o with
              | .job tag => some tag
              | .house => none)
            let skipped : State → State := fun z =>
              if tags = [] then raise .cutSkipped none z else tags.foldl (fun z tag => raise .cutSkipped (some tag) z) z
            let w : State := { x with mpc.cuts := s.mpc.cuts.filter (fun e => e.position != p) }
            firstReached w = none →
            (r.pos < a.target →
              let stop := match (stopList w).find? (fun x => decide (r.pos < x.pos)) with
                | some x => min a.target x.pos
                | none => a.target
              Follows { skipped w with mpc.exec := .moving a ⟨stop, 1000 + 2 * (stop - r.pos), 0,
                if s.lc.cover = .settled then .driving else .paused⟩ } t) ∧
            (a.target ≤ r.pos → a.requester = .feed → Follows { skipped w with mpc.exec := .idle } t)) ∧
          ((∀ c ∈ s.ccu.checks, c.state ≠ .free → c.state ≠ .closed → ∀ b, c.stripStart = some b → b ≤ p →
              ∃ z, c.stripEnd = some z ∧ z ≤ p) →
            ((∀ id, e.guard = some id → (checkAt s id).state = .free ∨ (checkAt s id).state = .closed) →
              (s.mpc.cutter = .ready → s.lc.cover = .settled → s.lc.hold = .none → Follows (stroked y) t) ∧
              (s.mpc.cutter ≠ .ready ∨ s.lc.cover ≠ .settled → Follows y t)) ∧
            (∀ id, e.guard = some id → (checkAt s id).state ≠ .free → (checkAt s id).state ≠ .closed →
              (∀ q, (checkAt s id).stop = some q → q ≤ p + s.mpc.cOff → Follows y t) ∧
              (∀ tag slot, (∀ q, (checkAt s id).stop = some q → p + s.mpc.cOff < q) →
                (checkAt s id).job = some tag → slotOf s tag = some slot →
                let z : State := { y with
                  mpc.cuts := s.mpc.cuts.map (fun e => if e.position = p then { e with guard := none } else e)
                  cu.printAccts := x.cu.printAccts.modify slot (fun o => o.map (fun b => { b with flags.guardLost := true })) }
                (s.mpc.cutter = .ready → s.lc.cover = .settled → s.lc.hold = .none → Follows (stroked z) t) ∧
                (s.mpc.cutter ≠ .ready ∨ s.lc.cover ≠ .settled → Follows z t))))))

/-- R113, R115, R116: HOME leaving a READY cutter, and the stroke timer, jam it with CUTTER_JAM, the stroked entry going back to DUE; HOME returning after it left completes the stroke: the cutter is READY, the entry removed, one cut charged to the owner of the advance, and the executor goes on from its stop. In JAMMED and OFF a change of HOME is only recorded. An input that already stands as reported, and a timer that does not run, change nothing (log 11). -/
def Obligations.HomeAndStrokeTimerDecideTheStroke : Prop :=
  ∀ s : State,
    let now : State := { s with out := [] }
    (∀ b, s.mpc.home = b → exec (.homeChange b) s = .next now) ∧
    (s.mpc.home = true → s.mpc.cutter = .ready → ∃ t : State, exec (.homeChange false) s = .next t ∧
      Follows (raise .cutterJam none { now with mpc.home := false, mpc.cutter := .jammed }) t) ∧
    (∀ b, s.mpc.home ≠ b → s.mpc.cutter = .jammed ∨ (∃ m, s.mpc.cutter = .off m) → ∃ t : State,
      exec (.homeChange b) s = .next t ∧ Follows { now with mpc.home := b } t) ∧
    (∀ left, s.mpc.cutter = .stroke left →
      (s.mpc.home = true → ∃ t : State, exec (.homeChange false) s = .next t ∧
        Follows { now with mpc.home := false, mpc.cutter := .stroke true } t) ∧
      (s.mpc.home = false → left = false → ∃ t : State, exec (.homeChange true) s = .next t ∧
        Follows { now with mpc.home := true } t) ∧
      (∀ a p e, s.mpc.home = false → left = true → s.mpc.exec = .atStop a (.cut p) →
        s.mpc.cuts.find? (fun e => e.state == .cutting) = some e → e.position = p → ∃ t : State,
        exec (.homeChange true) s = .next t ∧
        let cut : Account → Account := fun b =>
          { b with cuts := min 4294967295 (b.cuts + 1), flags.saturated := b.flags.saturated || decide (4294967295 < b.cuts + 1) }
        Follows (runOn a { now with
          mpc.home := true
          mpc.cutter := .ready
          mpc.strokeTimer := none
          mpc.cuts := s.mpc.cuts.filter (fun e => e.position != p)
          cu := match a.owner with
            | .print slot => { s.cu with printAccts := s.cu.printAccts.modify slot (fun o => o.map cut) }
            | .house => { s.cu with house := cut s.cu.house } }) t) ∧
      (∃ t : State, exec .strokeTimeout s = .next t ∧ Follows (raise .cutterJam none { now with
        mpc.cutter := .jammed
        mpc.strokeTimer := none
        mpc.cuts := s.mpc.cuts.map (fun e => if e.state = .cutting then { e with state := .due } else e) }) t)) ∧
    ((∀ left, s.mpc.cutter ≠ .stroke left) → exec .strokeTimeout s = .next now)

/-! ### The cover and the supply hold -/

/-- R96, R114, R118, R184: COVER_OPEN and COVER_CLOSE move the cover state with COVER_CHANGED, opening pauses a driven feed with a settle window, and closing starts the settle timer of 2,000 ms; an input that already stands as reported changes nothing (log 11). When the timer expires the cover is SETTLED: a paused segment is driven on, closing a settle window that still runs (log 15; the steps of one left open by a soft reset are dropped, log 25), or ends, and a DUE entry without a guard at the executor's stop strokes. -/
def Obligations.CoverPausesAndSettles : Prop :=
  ∀ s : State,
    let now : State := { s with out := [] }
    let driven : Prop := ∃ a g, s.mpc.exec = .moving a g ∧ g.phase = .driving
    (s.lc.cover = .opened → exec .coverOpen s = .next now) ∧
    (s.lc.cover ≠ .opened → ∃ t : State, exec .coverOpen s = .next t ∧
      (¬ driven → Follows (raise .coverChanged none { now with lc.cover := .opened }) t) ∧
      (∀ a g, s.mpc.exec = .moving a g → g.phase = .driving → Follows (raise .coverChanged none { now with
        lc.cover := .opened, mpc.exec := .moving a { g with phase := .paused }, mpc.settle := some 100 }) t)) ∧
    (s.lc.cover ≠ .opened → exec .coverClose s = .next now) ∧
    (s.lc.cover = .opened → exec .coverClose s = .next (raise .coverChanged none { now with lc.cover := .settling 2000 })) ∧
    ((∀ n, s.lc.cover ≠ .settling n) → exec .coverSettleExpiry s = .next now) ∧
    (∀ n, s.lc.cover = .settling n → ∃ t : State, exec .coverSettleExpiry s = .next t ∧
      let x : State := { now with lc.cover := .settled }
      ((∀ a g, s.mpc.exec = .moving a g → g.phase ≠ .paused) → (∀ a p, s.mpc.exec ≠ .atStop a (.cut p)) → Follows x t) ∧
      (∀ a g r, s.mpc.exec = .moving a g → g.phase = .paused → s.mpc.roll = some r → r.pos < g.segEnd →
        Follows { x with
          mpc.exec := .moving a { g with phase := .driving }
          mpc.settle := none
          mpc.moved := if s.mpc.settle.isSome && s.mpc.resetWindow then 0 else s.mpc.moved
          mpc.resetWindow := s.mpc.settle.isNone && s.mpc.resetWindow } t) ∧
      (∀ a g r, s.mpc.exec = .moving a g → g.phase = .paused → s.mpc.roll = some r → g.segEnd ≤ r.pos →
        (s.mpc.settle ≠ none → Follows { x with mpc.exec := .moving a { g with phase := .settling } } t) ∧
        (s.mpc.settle = none → firstReached s = none → r.pos < a.target →
          let stop := match (stopList s).find? (fun x => decide (r.pos < x.pos)) with
            | some x => min a.target x.pos
            | none => a.target
          Follows { x with mpc.exec := .moving a ⟨stop, 1000 + 2 * (stop - r.pos), 0, .driving⟩ } t)) ∧
      (∀ a p e, s.mpc.exec = .atStop a (.cut p) → cutAt s p = some e →
        (e.state = .due → e.guard = none → s.mpc.cutter = .ready → s.lc.hold = .none → Follows { x with
          mpc.cutter := .stroke false
          mpc.strokeTimer := some 1500
          mpc.cuts := s.mpc.cuts.map (fun e => if e.position = p then { e with state := .cutting } else e) } t) ∧
        (e.state ≠ .due ∨ s.mpc.cutter ≠ .ready → Follows x t)))

/-- R14, R16, R19, R62, R81, R97, R119, R180: a deassertion of SUPPLY_OK begins a hold from NONE, and from UP takes it back to DOWN; an assertion in DOWN goes UP; an input that already stands as reported changes nothing (log 11). At the start the head goes NOT_READY, a draw is suspended, the feed stops with its settle window, an executor paused with its window ended goes OFF at once (log 14), an AT_STOP one goes OFF keeping its stop, the cutter goes OFF, with the mid-stroke mark out of a stroke, and a grant in flight ends as BROKEN. -/
def Obligations.SupplyHoldStopsEveryMechanism : Prop :=
  ∀ s : State,
    let now : State := { s with out := [] }
    (s.lc.hold = .up → exec .supplyOkDeassert s = .next { now with lc.hold := .down }) ∧
    (s.lc.hold = .down → exec .supplyOkDeassert s = .next now) ∧
    (s.lc.hold = .down → exec .supplyOkAssert s = .next { now with lc.hold := .up }) ∧
    (s.lc.hold ≠ .down → exec .supplyOkAssert s = .next now) ∧
    (s.lc.hold = .none → ∃ t : State, exec .supplyOkDeassert s = .next t ∧
      let x : State := raise .supplyHold none { now with
        lc.hold := .down
        rc.head := .notReady
        isc.pump := match s.isc.pump with
          | .running d => .suspended d
          | p => p
        mpc := { s.mpc with
          exec := match s.mpc.exec with
            | .moving a g => match g.phase with
              | .driving | .settling => .moving a { g with phase := .holding }
              | .paused => if s.mpc.settle = none then .off a none else .moving a { g with phase := .holding }
              | _ => .moving a g
            | .atStop a r => .off a (some r)
            | e => e
          settle := match s.mpc.exec with
            | .moving _ g => if g.phase = .driving then some 100 else s.mpc.settle
            | _ => s.mpc.settle
          cutter := match s.mpc.cutter with
            | .ready => .off false
            | .stroke _ => .off true
            | c => c
          strokeTimer := match s.mpc.cutter with
            | .stroke _ => none
            | _ => s.mpc.strokeTimer } }
      (grantedEntry s = none → Follows x t) ∧ (∀ e, grantedEntry s = some e → Follows (endGrant true e x) t))

/-! ### Colour checks -/

/-- R134, R135, R136, R137, R138, R139: while the link is SCANNING a READING below the patch count writes the next ring entry, valid just where its CRC, its good mark, its own index and its ranges are; the scan ends by SCAN_END (evaluated), by its timer or by SENSOR_FAULT (SENSOR_ERROR with the valid count), and closes its check; each of them ends the DRAINING of an abandoned scan. SENSOR_READY and SENSOR_FAULT move the sensor state. Where the executor stands at the stop of an ARMED check, SENSOR_READY and the link's return to IDLE take the scan start test again: RING_FULL, or the scan, or neither. Records with a bad CRC, but for a READING's, and records that find no scan change nothing, and neither does SCAN_TIMEOUT with the link IDLE (log 11). -/
def Obligations.SensorRecordsFillTheRingAndEndTheScan : Prop :=
  ∀ s : State,
    let now : State := { s with out := [] }
    let idle : State := { now with ccu.link := .idle }
    let fault : State → State := fun x => raise .sensorFault none { x with ccu.sensor := .fault }
    (∀ id w n timer, s.ccu.link = .scanning id w n timer → ∀ (ok good : Bool) (i : Nat) (l a b : Int),
      (n ≤ w → exec (.reading ok i l a b good) s = .next now) ∧
      (w < n → exec (.reading ok i l a b good) s = .next { now with
        ccu.link := .scanning id (w + 1) n timer
        ccu.ring := s.ccu.ring ++ [⟨id, w, l, a, b, ok && good && decide (i = w) && decide (0 ≤ l) && decide (l ≤ 10000)
          && decide (-12800 ≤ a) && decide (a ≤ 12799) && decide (-12800 ≤ b) && decide (b ≤ 12799)⟩] })) ∧
    ((∀ id w n timer, s.ccu.link ≠ .scanning id w n timer) →
      ∀ ok i l a b good, exec (.reading ok i l a b good) s = .next now) ∧
    (∀ i, i ∈ [Instr.scanEnd false, .sensorReady false, .sensorFault false] → exec i s = .next now) ∧
    (s.ccu.link = .idle → exec (.scanEnd true) s = .next now ∧ exec .scanTimeout s = .next now ∧
      ∃ t : State, exec (.sensorFault true) s = .next t ∧ Follows (fault now) t) ∧
    (∀ timer, s.ccu.link = .draining timer →
      let ends : State → State → Prop := fun x t =>
        ((∀ id, heldStop s = some id → (checkAt s id).state ≠ .armed) → Follows x t) ∧
        (∀ id tag, heldStop s = some id → (checkAt s id).state = .armed → (checkAt s id).job = some tag →
          Follows (scanTested id tag x) t)
      (∃ t : State, exec (.scanEnd true) s = .next t ∧ ends idle t) ∧
      (∃ t : State, exec .scanTimeout s = .next t ∧ ends idle t) ∧
      (∃ t : State, exec (.sensorFault true) s = .next t ∧ ends (fault idle) t)) ∧
    (∀ id w n timer p, s.ccu.link = .scanning id w n timer → checkSetOf s (checkAt s id) = some p →
      let readings := s.ccu.ring.drop (s.ccu.ring.length - w)
      let valid := (diffsFrom readings 0 p.patches).length
      let failed : Result := ⟨.sensorError, none, none, some valid, none⟩
      let result := evaluate s p (checkAt s id).policy readings
      (∃ t : State, exec (.scanEnd true) s = .next t ∧ Follows (closeCheck id result w (applyCorrections result idle)) t) ∧
      (∃ t : State, exec .scanTimeout s = .next t ∧ Follows (closeCheck id failed w idle) t) ∧
      (∃ t : State, exec (.sensorFault true) s = .next t ∧ Follows (closeCheck id failed w (fault idle)) t)) ∧
    (∃ t : State, exec (.sensorReady true) s = .next t ∧
      ((∀ id, heldStop s = some id → (checkAt s id).state ≠ .armed) → Follows { now with ccu.sensor := .ready } t) ∧
      (∀ id tag, heldStop s = some id → (checkAt s id).state = .armed → (checkAt s id).job = some tag →
        Follows (scanTested id tag { now with ccu.sensor := .ready }) t) ∧
      (∀ id p r c, heldStop s = some id → checkAt s id = c → c.state = .armed → c.setId = some p → s.mpc.roll = some r →
        id < s.ccu.checks.length → s.ccu.link = .idle → checkCount s c ≤ 64 - s.ccu.ring.length → Follows { now with
          ccu := { s.ccu with
            sensor := .ready
            checks := s.ccu.checks.modify id (fun c => { c with state := .measuring })
            link := .scanning id 0 (checkCount s c) (2000 + 400 * checkCount s c) }
          out := [.scan p (checkCount s c) r.width] } t))

/-- R61, R143, R144, R145, R153, R195: the evaluation of a scan. A patch's difference is the whole root of its squared difference; with no valid patch, or too many invalid ones, the verdict is SENSOR_ERROR; else the worst and the mean difference are recorded and the verdict is PASS or FAIL, and under ADJUST each channel with a valid density patch gets a step, held to the maximum step and then so that its gain stays in 3,072..5,120, FAIL_LIMIT standing where that second clamp bit. A result with a step that is not 0 makes one gain write: each such channel's gain is moved by its step, the generation is raised once, every open print and quote account of another generation is marked GAIN_CHANGED, and the settings are changed; a result without one makes none. -/
def Obligations.EvaluationGivesVerdictAndCorrections : Prop :=
  (∀ n, n < 4294967296 → isqrt n * isqrt n ≤ n ∧ n < (isqrt n + 1) * (isqrt n + 1)) ∧
  (∀ (params : CheckParams) (gain ch : Nat) (errors : List Int), 3072 ≤ gain → gain ≤ 5120 → errors ≠ [] →
    let error := errors.sum.tdiv errors.length
    let wanted := (error * (params.sens.getD ch 0 : Nat)).tdiv 100
    let c := correction params gain ch errors
    c.channel = ch ∧ 3072 ≤ gain + c.applied ∧ gain + c.applied ≤ 5120 ∧
    (params.maxStep : Int) * -1 ≤ c.applied ∧ c.applied ≤ params.maxStep ∧
    c.applied = max 3072 (min 5120 (gain + max (-(params.maxStep : Int)) (min params.maxStep wanted))) - gain ∧
    (c.limited = false → c.applied = max (-(params.maxStep : Int)) (min params.maxStep wanted)) ∧
    (c.limited = true ↔ gain + max (-(params.maxStep : Int)) (min params.maxStep wanted) < 3072
      ∨ 5120 < gain + max (-(params.maxStep : Int)) (min params.maxStep wanted))) ∧
  (∀ (s : State) (p : PatchSet) (policy : Option Policy) (readings : List RingEntry),
    let ds := diffsFrom readings 0 p.patches
    let r := evaluate s p policy readings
    let sizes := ds.map (fun d => isqrt (d.dl * d.dl + d.da * d.da + d.db * d.db).toNat)
    let corr := ((List.range 10).filter (fun c => ds.any (fun d => d.channel == some c))).map (fun c =>
      correction s.ccu.params (gainAt s c) c ((ds.filter (fun d => d.channel == some c)).map (fun d => d.dl)))
    (ds = [] ∨ s.ccu.params.maxInvalid < p.patches.length - ds.length → r = ⟨.sensorError, none, none, some ds.length, none⟩) ∧
    (ds ≠ [] → p.patches.length - ds.length ≤ s.ccu.params.maxInvalid →
      let passed := ds.all (fun d => decide ((d.dl * d.dl + d.da * d.da + d.db * d.db).toNat ≤ p.patchTol * p.patchTol))
        && decide (sizes.sum / ds.length ≤ p.meanTol)
      r.worst = some (sizes.foldl max 0) ∧ r.mean = some (sizes.sum / ds.length) ∧ r.valid = some ds.length ∧
      (policy ≠ some .adjust → r.corrections = none ∧ r.verdict = if passed then .pass else .fail) ∧
      (policy = some .adjust → r.corrections = some corr ∧
        r.verdict = if corr.any (fun c => c.limited) then .failLimit else if passed then .pass else .fail))) ∧
  (∀ (s : State) (r : Result),
    let steps := (r.corrections.getD []).filter (fun c => decide (c.applied ≠ 0))
    let gen := (s.isc.gainGen + 1) % 65536
    let flag : Account → Account := fun a => if a.genAtOpen = gen then a else { a with flags.gainChanged := true }
    (steps = [] → applyCorrections r s = s) ∧
    (steps ≠ [] → applyCorrections r s = { s with
      isc.gains := steps.foldl (fun l c => l.set c.channel ((gainAt s c.channel : Int) + c.applied).toNat) s.isc.gains
      isc.gainGen := gen
      cu.printAccts := s.cu.printAccts.map (fun o => o.map flag)
      cu.quotes := s.cu.quotes.map (fun o => o.map flag)
      ss.changed := true }))

/-- R23, R98, R128 to R133: what the strip of a job does to its check in WAITING_STRIP, and the closing of a check. A strip start records P and starts the limit timer; a completion with the measurement stop beyond P records the strip end and the stop, and the check is DRYING, or ARMED where the dry time is 0; one with the stop at or behind P closes the check UNCHECKED with MISSED; a job that ends without a strip closes its check UNCHECKED; a closing writes the verdict in the check, the job and the account, raises CHECK_CLOSED, CHECK_FAILED for a failed one, releases with retain off the scan's readings, and last makes the job's done test: a WAITING job that no cut names closes (R25, R26), into a record where there is room, else it goes CLOSING. A stop of the check at which the executor stands is released: OFF stays OFF, AT_STOP goes on to the next segment or the end of its advance (here to no other reached stop). DRY_TIMER_EXPIRY makes a DRYING check ARMED, with the scan start test (R136) where the executor stands at its stop, and LIMIT_TIMER_EXPIRY closes an open check UNCHECKED, abandoning its scan; for any other check, and where no limit timer runs, they change nothing (log 11). -/
def Obligations.ChecksOpenArmAndClose : Prop :=
  ∀ (s : State) (slot : Nat) (id : Fin 4) (j : Job) (c : Check), jobAt s slot = some j → j.checkId = some id.val →
    checkAt s id = c → id.val < s.ccu.checks.length →
    let now : State := { s with out := [] }
    let p := (s.mpc.roll.map (fun r => r.pos)).getD 0
    let strip : StripPhase → List (Option Job) := fun x => s.rc.jobs.modify slot (fun o => o.map (fun j => { j with strip := x }))
    (j.state ≠ .aborting → j.strip = .none → c.state = .waitingStrip → c.stripStart = none →
      stripEvents slot .strip s = { s with
        rc.jobs := strip .inStrip
        ccu.checks := s.ccu.checks.modify id (fun c =>
          { c with stripStart := some p, limit := some (s.ccu.params.limit * 1000) }) }) ∧
    (∀ k a set, k ≠ .strip → j.state ≠ .aborting → j.strip = .inStrip → c.state = .waitingStrip → c.stripStart = some a →
      checkSetOf s c = some set → p < a + set.rowOffset + s.mpc.sOff → (∀ b g, s.mpc.exec ≠ .moving b g) →
      stripEvents slot k s = { s with
        rc.jobs := strip .done
        ccu.checks := s.ccu.checks.modify id (fun c => { c with
          stripEnd := some p
          stop := some (a + set.rowOffset + s.mpc.sOff)
          reached := false
          state := if s.ccu.params.dryTime = 0 then .armed else .drying
          dry := if s.ccu.params.dryTime = 0 then none else some (s.ccu.params.dryTime * 1000) }) }) ∧
    (∀ tag, c.job = some tag → slotOf s tag = some slot → c.state = .waitingStrip → (∀ w m timer, s.ccu.link ≠ .scanning id w m timer) →
      let missed : Bool → Nat → StripPhase → JobState → State → State := fun m stripEnd x js y =>
        raise .checkClosed (some tag) { y with
          rc.jobs := s.rc.jobs.modify slot (fun o => o.map (fun j => { j with strip := x, state := js, verdict := some .unchecked }))
          cu.printAccts := s.cu.printAccts.modify slot (fun o => o.map (fun a =>
            { a with verdict := some .unchecked, flags.unchecked := true, flags.missed := a.flags.missed || m }))
          ccu.checks := s.ccu.checks.modify id (fun c => { c with
            stripEnd := if m then some stripEnd else c.stripEnd
            state := .closed, dry := none, limit := none, verdict := some .unchecked, worst := none, mean := none
            valid := none, corrections := none }) }
      (∀ k a set, k ≠ .strip → j.state ≠ .aborting → j.strip = .inStrip → c.stripStart = some a → checkSetOf s c = some set →
        a + set.rowOffset + s.mpc.sOff ≤ p → stripEvents slot k s = missed true p .done j.state s) ∧
      (j.state = .opened → hasEntry s tag = false → j.strip = .none → c.stripStart = none → j.tailFeed = false →
        ∀ ft, ∃ t : State, exec (.jobEnd ft tag) s = .next (answer 0x0B ft .ok (planMark s) .none t) ∧
          Follows (missed false p .none .waiting (cleared s)) t)) ∧
    (∀ (r : Result) (n : Nat) (tag : Nat) (acct : Account), c.job = some tag → slotOf s tag = some slot →
      printAt s slot = some acct → (∀ w m timer, s.ccu.link ≠ .scanning id w m timer) →
      let booked : Account := { acct with verdict := some r.verdict, flags.unchecked := acct.flags.unchecked || r.verdict == .unchecked }
      let x : State := { s with
        rc.jobs := s.rc.jobs.modify slot (fun o => o.map (fun j => { j with verdict := some r.verdict }))
        cu.printAccts := s.cu.printAccts.modify slot (fun _ => some booked)
        ccu.ring := if s.ccu.retain then s.ccu.ring else s.ccu.ring.take (s.ccu.ring.length - n)
        ccu.checks := s.ccu.checks.modify id (fun c =>
          { c with state := .closed, dry := none, limit := none, verdict := some r.verdict, worst := r.worst, mean := r.mean
                   valid := r.valid, corrections := r.corrections }) }
      let raised : State → State := fun z =>
        if r.verdict = .fail ∨ r.verdict = .failLimit then
          raise .checkFailed (some tag) (raise .checkClosed (some tag) z)
        else raise .checkClosed (some tag) z
      let outcome : JobOutcome := if j.rejectOnFail = true ∧ (r.verdict = .fail ∨ r.verdict = .failLimit) then .rejected else .completed
      let tested : State → State := fun z =>
        if j.state = .waiting ∧ ∀ e ∈ s.mpc.cuts, .job tag ∉ e.owners then
          if s.cu.records.length < 16 then
            let y := raise .recordReady none { z with
              cu.records := s.cu.records ++ [makeRecord booked (.job outcome) s.cu.active] }
            { (if s.cu.records.length = 15 then raise .queueFull none y else y) with
              rc.jobs := z.rc.jobs.set slot none
              cu.printAccts := z.cu.printAccts.set slot none
              ccu.checks := z.ccu.checks.modify id (fun c => { Check.blank with
                job := c.job, verdict := c.verdict, worst := c.worst, mean := c.mean, valid := c.valid
                corrections := c.corrections }) }
          else { z with rc.jobs := z.rc.jobs.modify slot (fun o => o.map (fun j =>
            { j with state := .closing, outcome := some outcome })) }
        else z
      (heldStop s = none → (∀ b g, s.mpc.exec ≠ .moving b g) → stopFree s = false → closeCheck id r n s = tested (raised x)) ∧
      (∀ b, s.mpc.exec = .off b (some (.meas id)) →
        closeCheck id r n s = tested (raised { x with mpc.exec := .off b none })) ∧
      (∀ b roll, s.mpc.exec = .atStop b (.meas id) → s.mpc.roll = some roll → s.mpc.settle = none → firstReached x = none →
        (roll.pos < b.target →
          let stop := match (stopList x).find? (fun x => decide (roll.pos < x.pos)) with
            | some x => min b.target x.pos
            | none => b.target
          closeCheck id r n s = tested (raised { x with mpc.exec := .moving b ⟨stop, 1000 + 2 * (stop - roll.pos), 0,
            if s.lc.cover = .settled then .driving else .paused⟩ })) ∧
        (b.target ≤ roll.pos → b.requester = .feed →
          closeCheck id r n s = tested (raised { x with mpc.exec := .idle })))) ∧
    (c.state ≠ .drying → exec (.dryTimerExpiry id) s = .next now) ∧
    (c.state = .drying →
      let x : State := { now with ccu.checks := s.ccu.checks.modify id (fun c => { c with state := .armed, dry := none }) }
      ∃ t : State, exec (.dryTimerExpiry id) s = .next t ∧
        (standsAt s id = false → Follows x t) ∧
        (∀ tag, c.job = some tag → standsAt s id = true → Follows (scanTested id tag x) t)) ∧
    (c.state = .free ∨ c.state = .closed ∨ c.limit = none → exec (.limitTimerExpiry id) s = .next now) ∧
    (c.state ≠ .free → c.state ≠ .closed → c.limit ≠ none → ∃ t : State, exec (.limitTimerExpiry id) s = .next t ∧
      Follows (closeCheck id ⟨.unchecked, none, none, none, none⟩
        (match s.ccu.link with
          | .scanning q w _ _ => if q = id.val then w else 0
          | _ => 0) now) t)

/-! ### The end of a job -/

/-- R7, R22, R23, R24, R25, R26, R27, R28, R163: a job without entries, check and cuts, all other jobs OPEN, with room for its record and nothing at the head of the queue to consider, is done by JOB_END at once: its account closes into a record with the outcome of R25, and its slot is freed; JOB_ABORT closes it ABORTED, as does NOT_FIRED for its revoked grant, with SWATH_ROOM where the free entries then reach the mark. With a tail feed and a cut of its own beyond P, JOB_END feeds to the farthest such cut stop. -/
def Obligations.EndedAndAbortedJobsCloseTheirAccount : Prop :=
  ∀ (ft : Byte) (tag slot : Nat) (j : Job) (a : Account) (s : State), slotOf s tag = some slot → jobAt s slot = some j →
    printAt s slot = some a → j.checkId = none → s.rc.jobs.length = 8 → (∀ i k, i ≠ slot → jobAt s i = some k → k.state = .opened) →
    s.cu.records.length < 16 → stopFree s = false →
    let closed : JobOutcome → State → State := fun o x =>
      let y := raise .recordReady none { x with cu.records := s.cu.records ++ [makeRecord a (.job o) s.cu.active] }
      syncCauses { (if s.cu.records.length = 15 then raise .queueFull none y else y) with
        rc.jobs := s.rc.jobs.set slot none, cu.printAccts := s.cu.printAccts.set slot none }
    let none_ : Prop := ∀ e ∈ s.mpc.cuts, .job tag ∉ e.owners
    (none_ → j.state = .opened → hasEntry s tag = false → j.tailFeed = false → (∀ e, s.rc.queue.head? = some e → e.state ≠ .queued) →
      exec (.jobEnd ft tag) s = .next (answer 0x0B ft .ok (planMark s) .none (closed
        (if j.rejectOnFail = true ∧ (j.verdict = some .fail ∨ j.verdict = some .failLimit) then .rejected else .completed)
        (cleared s)))) ∧
    (none_ → j.state = .opened ∨ j.state = .ending ∨ j.state = .waiting → s.rc.queue = [] → s.mpc.exec = .idle →
      exec (.jobAbort ft tag) s = .next (answer 0x0C ft .ok (planMark s) (.withdrawn 0) (closed .aborted (cleared s)))) ∧
    (∀ e l, none_ → j.state = .aborting → s.rc.queue = [e] → e.state = .granted → e.job = tag → e.revoked = some true →
      e.charges = some l → s.mpc.exec = .idle →
      exec (.notFired true e.queueTag) s = .next (closed .aborted (roomed { s with
        out := []
        rc.queue := []
        rc.fireTimer := none
        isc.chans := l.foldl (fun cs r => cs.modify r.channel (fun c => { c with reserved := 0, residue := r.saved })) s.isc.chans }))) ∧
    (∀ r, j.state = .opened → hasEntry s tag = false → j.tailFeed = true → j.strip ≠ .inStrip → s.mpc.exec = .idle →
      grantedEntry s = none → s.lc.hold = .none → s.mpc.roll = some r → firstReached s = none → s.mpc.settle = none →
      let target := ((s.mpc.cuts.filter (fun e => e.owners.contains (.job tag))).map (fun e => e.position + s.mpc.cOff)).foldl max 0
      let goal := min r.length target
      r.pos < goal →
      let stop := match (stopList s).find? (fun x => decide (r.pos < x.pos)) with
        | some x => min goal x.pos
        | none => goal
      let y := if r.length < target then raise .rollEnd (some tag) (cleared s) else cleared s
      exec (.jobEnd ft tag) s = .next (answer 0x0B ft .ok (planMark s) .none (syncCauses { y with
        rc.jobs := s.rc.jobs.modify slot (fun o => o.map (fun j => { j with state := .feeding }))
        mpc.exec := .moving ⟨.print slot, .tailFeed, goal, decide (r.length < target)⟩
          ⟨stop, 1000 + 2 * (stop - r.pos), 0, if s.lc.cover = .settled then .driving else .paused⟩ })))
end

