-- ==== Sys2Proof/Laws/Bytes.lean ====
section
/-! SUPPORT. Fields and bytes (R186, R198): a field written is read back, and a field read is written as the bytes it was read from. -/

namespace Sys2Proof.Machine

@[simp] theorem leBytes_length (k n : Nat) : (leBytes k n).length = k := by
  induction k generalizing n with
  | zero => rfl
  | succ k ih => simp [leBytes, ih]

/-- Bytes written low byte first spell the number they were written from. -/
theorem leNat_leBytes {k n : Nat} (h : n < 256 ^ k) : leNat (leBytes k n) = n := by
  induction k generalizing n with
  | zero => simp only [pow_zero, Nat.lt_one_iff] at h; simp [leBytes, leNat, h]
  | succ k ih =>
    have h1 : n / 256 < 256 ^ k := Nat.div_lt_of_lt_mul (by rw [pow_succ] at h; omega)
    simp only [leBytes, leNat, ih h1, BitVec.toNat_ofNat]
    omega

theorem leNat_lt (l : List Byte) : leNat l < 256 ^ l.length := by
  induction l with
  | nil => simp [leNat]
  | cons b t ih =>
    have hb := b.isLt
    simp only [leNat, List.length_cons, pow_succ]
    omega

/-- A number that bytes spell is written as those bytes. -/
theorem leBytes_leNat (l : List Byte) : leBytes l.length (leNat l) = l := by
  induction l with
  | nil => rfl
  | cons b t ih =>
    have hb : b.toNat < 256 := b.isLt
    have h1 : (b.toNat + 256 * leNat t) / 256 = leNat t := by omega
    have h2 : BitVec.ofNat 8 (b.toNat + 256 * leNat t) = b := by
      apply BitVec.eq_of_toNat_eq
      simp only [BitVec.toNat_ofNat]
      omega
    simp only [leNat, List.length_cons, leBytes, h1, h2, ih]

/-- A field of an append lies in its second part where it starts after the first. -/
theorem fieldAt_append {l m : List Byte} {off k : Nat} (h : l.length ≤ off) :
    fieldAt off k (l ++ m) = fieldAt (off - l.length) k m := by
  simp [fieldAt, List.drop_append, List.drop_eq_nil_of_le h]

/-- The field that a payload begins with. -/
theorem fieldAt_write {k n : Nat} (m : List Byte) (h : n < 256 ^ k) : fieldAt 0 k (leBytes k n ++ m) = n := by
  simp [fieldAt, leNat_leBytes h]

theorem fieldAt_last {k n : Nat} (h : n < 256 ^ k) : fieldAt 0 k (leBytes k n) = n := by
  simpa using fieldAt_write [] h

/-- A field that a payload holds is written as its bytes. -/
theorem leBytes_fieldAt {l : List Byte} {off k : Nat} (h : off + k ≤ l.length) :
    leBytes k (fieldAt off k l) = (l.drop off).take k := by
  have : ((l.drop off).take k).length = k := by simp; omega
  have h2 := leBytes_leNat ((l.drop off).take k)
  rw [this] at h2
  exact h2

theorem fieldAt_lt (off k : Nat) (l : List Byte) : fieldAt off k l < 256 ^ k := by
  refine (leNat_lt _).trans_le (Nat.pow_le_pow_right (by decide) ?_)
  simp

/-- Two neighbouring pieces of a payload. -/
theorem take_take_drop (l : List Byte) {off off' k k' : Nat} (h : off' = off + k) :
    (l.drop off).take k ++ (l.drop off').take k' = (l.drop off).take (k + k') := by
  rw [h, List.take_add, List.drop_drop]

theorem take_all {l : List Byte} {k : Nat} (h : l.length = k) : (l.drop 0).take k = l := by
  simp [← h]

end Sys2Proof.Machine
end

