-- ==== Sys2Proof/Laws/State.lean ====
section
/-! SUPPORT. What each named update of State writes, component by component: one lemma for each, true by definition. -/

namespace Sys2Proof.Machine

/-! ### begin -/

@[simp] theorem begin_lc (s : State) : (begin s).lc = s.lc := rfl
@[simp] theorem begin_rc (s : State) : (begin s).rc = s.rc := rfl
@[simp] theorem begin_isc (s : State) : (begin s).isc = s.isc := rfl
@[simp] theorem begin_mpc (s : State) : (begin s).mpc = s.mpc := rfl
@[simp] theorem begin_ccu (s : State) : (begin s).ccu = s.ccu := rfl
@[simp] theorem begin_cu (s : State) : (begin s).cu = s.cu := rfl
@[simp] theorem begin_ss (s : State) : (begin s).ss = s.ss := rfl
@[simp] theorem begin_out (s : State) : (begin s).out = [] := rfl
@[simp] theorem begin_pending (s : State) : (begin s).pending = s.pending := rfl

/-! ### send -/

@[simp] theorem send_lc (x : Sent) (s : State) : (send x s).lc = s.lc := rfl
@[simp] theorem send_rc (x : Sent) (s : State) : (send x s).rc = s.rc := rfl
@[simp] theorem send_isc (x : Sent) (s : State) : (send x s).isc = s.isc := rfl
@[simp] theorem send_mpc (x : Sent) (s : State) : (send x s).mpc = s.mpc := rfl
@[simp] theorem send_ccu (x : Sent) (s : State) : (send x s).ccu = s.ccu := rfl
@[simp] theorem send_cu (x : Sent) (s : State) : (send x s).cu = s.cu := rfl
@[simp] theorem send_ss (x : Sent) (s : State) : (send x s).ss = s.ss := rfl
@[simp] theorem send_out (x : Sent) (s : State) : (send x s).out = s.out ++ [x] := rfl
@[simp] theorem send_pending (x : Sent) (s : State) : (send x s).pending = s.pending := rfl

/-! ### setJob -/

@[simp] theorem setJob_lc (slot : Nat) (j : Option Job) (s : State) : (setJob slot j s).lc = s.lc := rfl
@[simp] theorem setJob_rc (slot : Nat) (j : Option Job) (s : State) : (setJob slot j s).rc = { s.rc with jobs := s.rc.jobs.set slot j } := rfl
@[simp] theorem setJob_isc (slot : Nat) (j : Option Job) (s : State) : (setJob slot j s).isc = s.isc := rfl
@[simp] theorem setJob_mpc (slot : Nat) (j : Option Job) (s : State) : (setJob slot j s).mpc = s.mpc := rfl
@[simp] theorem setJob_ccu (slot : Nat) (j : Option Job) (s : State) : (setJob slot j s).ccu = s.ccu := rfl
@[simp] theorem setJob_cu (slot : Nat) (j : Option Job) (s : State) : (setJob slot j s).cu = s.cu := rfl
@[simp] theorem setJob_ss (slot : Nat) (j : Option Job) (s : State) : (setJob slot j s).ss = s.ss := rfl
@[simp] theorem setJob_out (slot : Nat) (j : Option Job) (s : State) : (setJob slot j s).out = s.out := rfl
@[simp] theorem setJob_pending (slot : Nat) (j : Option Job) (s : State) : (setJob slot j s).pending = s.pending := rfl

/-! ### updJob -/

@[simp] theorem updJob_lc (slot : Nat) (f : Job → Job) (s : State) : (updJob slot f s).lc = s.lc := rfl
@[simp] theorem updJob_rc (slot : Nat) (f : Job → Job) (s : State) : (updJob slot f s).rc = { s.rc with jobs := s.rc.jobs.modify slot (fun o => o.map f) } := rfl
@[simp] theorem updJob_isc (slot : Nat) (f : Job → Job) (s : State) : (updJob slot f s).isc = s.isc := rfl
@[simp] theorem updJob_mpc (slot : Nat) (f : Job → Job) (s : State) : (updJob slot f s).mpc = s.mpc := rfl
@[simp] theorem updJob_ccu (slot : Nat) (f : Job → Job) (s : State) : (updJob slot f s).ccu = s.ccu := rfl
@[simp] theorem updJob_cu (slot : Nat) (f : Job → Job) (s : State) : (updJob slot f s).cu = s.cu := rfl
@[simp] theorem updJob_ss (slot : Nat) (f : Job → Job) (s : State) : (updJob slot f s).ss = s.ss := rfl
@[simp] theorem updJob_out (slot : Nat) (f : Job → Job) (s : State) : (updJob slot f s).out = s.out := rfl
@[simp] theorem updJob_pending (slot : Nat) (f : Job → Job) (s : State) : (updJob slot f s).pending = s.pending := rfl

/-! ### updEntry -/

@[simp] theorem updEntry_lc (t : Nat) (f : QEntry → QEntry) (s : State) : (updEntry t f s).lc = s.lc := rfl
@[simp] theorem updEntry_rc (t : Nat) (f : QEntry → QEntry) (s : State) : (updEntry t f s).rc = { s.rc with queue := s.rc.queue.map (fun e => if e.queueTag = t then f e else e) } := rfl
@[simp] theorem updEntry_isc (t : Nat) (f : QEntry → QEntry) (s : State) : (updEntry t f s).isc = s.isc := rfl
@[simp] theorem updEntry_mpc (t : Nat) (f : QEntry → QEntry) (s : State) : (updEntry t f s).mpc = s.mpc := rfl
@[simp] theorem updEntry_ccu (t : Nat) (f : QEntry → QEntry) (s : State) : (updEntry t f s).ccu = s.ccu := rfl
@[simp] theorem updEntry_cu (t : Nat) (f : QEntry → QEntry) (s : State) : (updEntry t f s).cu = s.cu := rfl
@[simp] theorem updEntry_ss (t : Nat) (f : QEntry → QEntry) (s : State) : (updEntry t f s).ss = s.ss := rfl
@[simp] theorem updEntry_out (t : Nat) (f : QEntry → QEntry) (s : State) : (updEntry t f s).out = s.out := rfl
@[simp] theorem updEntry_pending (t : Nat) (f : QEntry → QEntry) (s : State) : (updEntry t f s).pending = s.pending := rfl

/-! ### updChan -/

@[simp] theorem updChan_lc (c : Nat) (f : Channel → Channel) (s : State) : (updChan c f s).lc = s.lc := rfl
@[simp] theorem updChan_rc (c : Nat) (f : Channel → Channel) (s : State) : (updChan c f s).rc = s.rc := rfl
@[simp] theorem updChan_isc (c : Nat) (f : Channel → Channel) (s : State) : (updChan c f s).isc = { s.isc with chans := s.isc.chans.modify c f } := rfl
@[simp] theorem updChan_mpc (c : Nat) (f : Channel → Channel) (s : State) : (updChan c f s).mpc = s.mpc := rfl
@[simp] theorem updChan_ccu (c : Nat) (f : Channel → Channel) (s : State) : (updChan c f s).ccu = s.ccu := rfl
@[simp] theorem updChan_cu (c : Nat) (f : Channel → Channel) (s : State) : (updChan c f s).cu = s.cu := rfl
@[simp] theorem updChan_ss (c : Nat) (f : Channel → Channel) (s : State) : (updChan c f s).ss = s.ss := rfl
@[simp] theorem updChan_out (c : Nat) (f : Channel → Channel) (s : State) : (updChan c f s).out = s.out := rfl
@[simp] theorem updChan_pending (c : Nat) (f : Channel → Channel) (s : State) : (updChan c f s).pending = s.pending := rfl

/-! ### updBay -/

@[simp] theorem updBay_lc (b : Nat) (f : Bay → Bay) (s : State) : (updBay b f s).lc = s.lc := rfl
@[simp] theorem updBay_rc (b : Nat) (f : Bay → Bay) (s : State) : (updBay b f s).rc = s.rc := rfl
@[simp] theorem updBay_isc (b : Nat) (f : Bay → Bay) (s : State) : (updBay b f s).isc = { s.isc with bays := s.isc.bays.modify b f } := rfl
@[simp] theorem updBay_mpc (b : Nat) (f : Bay → Bay) (s : State) : (updBay b f s).mpc = s.mpc := rfl
@[simp] theorem updBay_ccu (b : Nat) (f : Bay → Bay) (s : State) : (updBay b f s).ccu = s.ccu := rfl
@[simp] theorem updBay_cu (b : Nat) (f : Bay → Bay) (s : State) : (updBay b f s).cu = s.cu := rfl
@[simp] theorem updBay_ss (b : Nat) (f : Bay → Bay) (s : State) : (updBay b f s).ss = s.ss := rfl
@[simp] theorem updBay_out (b : Nat) (f : Bay → Bay) (s : State) : (updBay b f s).out = s.out := rfl
@[simp] theorem updBay_pending (b : Nat) (f : Bay → Bay) (s : State) : (updBay b f s).pending = s.pending := rfl

/-! ### placeTagOp -/

@[simp] theorem placeTagOp_lc (op : TagOp) (s : State) : (placeTagOp op s).lc = s.lc := rfl
@[simp] theorem placeTagOp_rc (op : TagOp) (s : State) : (placeTagOp op s).rc = s.rc := rfl
@[simp] theorem placeTagOp_isc (op : TagOp) (s : State) : (placeTagOp op s).isc = { s.isc with tagQueue := s.isc.tagQueue ++ [op] } := rfl
@[simp] theorem placeTagOp_mpc (op : TagOp) (s : State) : (placeTagOp op s).mpc = s.mpc := rfl
@[simp] theorem placeTagOp_ccu (op : TagOp) (s : State) : (placeTagOp op s).ccu = s.ccu := rfl
@[simp] theorem placeTagOp_cu (op : TagOp) (s : State) : (placeTagOp op s).cu = s.cu := rfl
@[simp] theorem placeTagOp_ss (op : TagOp) (s : State) : (placeTagOp op s).ss = s.ss := rfl
@[simp] theorem placeTagOp_out (op : TagOp) (s : State) : (placeTagOp op s).out = s.out := rfl
@[simp] theorem placeTagOp_pending (op : TagOp) (s : State) : (placeTagOp op s).pending = s.pending := rfl

/-! ### setExec -/

@[simp] theorem setExec_lc (e : Exec) (s : State) : (setExec e s).lc = s.lc := rfl
@[simp] theorem setExec_rc (e : Exec) (s : State) : (setExec e s).rc = s.rc := rfl
@[simp] theorem setExec_isc (e : Exec) (s : State) : (setExec e s).isc = s.isc := rfl
@[simp] theorem setExec_mpc (e : Exec) (s : State) : (setExec e s).mpc = { s.mpc with exec := e } := rfl
@[simp] theorem setExec_ccu (e : Exec) (s : State) : (setExec e s).ccu = s.ccu := rfl
@[simp] theorem setExec_cu (e : Exec) (s : State) : (setExec e s).cu = s.cu := rfl
@[simp] theorem setExec_ss (e : Exec) (s : State) : (setExec e s).ss = s.ss := rfl
@[simp] theorem setExec_out (e : Exec) (s : State) : (setExec e s).out = s.out := rfl
@[simp] theorem setExec_pending (e : Exec) (s : State) : (setExec e s).pending = s.pending := rfl

/-! ### updCut -/

@[simp] theorem updCut_lc (p : Nat) (f : CutEntry → CutEntry) (s : State) : (updCut p f s).lc = s.lc := rfl
@[simp] theorem updCut_rc (p : Nat) (f : CutEntry → CutEntry) (s : State) : (updCut p f s).rc = s.rc := rfl
@[simp] theorem updCut_isc (p : Nat) (f : CutEntry → CutEntry) (s : State) : (updCut p f s).isc = s.isc := rfl
@[simp] theorem updCut_mpc (p : Nat) (f : CutEntry → CutEntry) (s : State) : (updCut p f s).mpc = { s.mpc with cuts := s.mpc.cuts.map (fun e => if e.position = p then f e else e) } := rfl
@[simp] theorem updCut_ccu (p : Nat) (f : CutEntry → CutEntry) (s : State) : (updCut p f s).ccu = s.ccu := rfl
@[simp] theorem updCut_cu (p : Nat) (f : CutEntry → CutEntry) (s : State) : (updCut p f s).cu = s.cu := rfl
@[simp] theorem updCut_ss (p : Nat) (f : CutEntry → CutEntry) (s : State) : (updCut p f s).ss = s.ss := rfl
@[simp] theorem updCut_out (p : Nat) (f : CutEntry → CutEntry) (s : State) : (updCut p f s).out = s.out := rfl
@[simp] theorem updCut_pending (p : Nat) (f : CutEntry → CutEntry) (s : State) : (updCut p f s).pending = s.pending := rfl

/-! ### updCheck -/

@[simp] theorem updCheck_lc (id : Nat) (f : Check → Check) (s : State) : (updCheck id f s).lc = s.lc := rfl
@[simp] theorem updCheck_rc (id : Nat) (f : Check → Check) (s : State) : (updCheck id f s).rc = s.rc := rfl
@[simp] theorem updCheck_isc (id : Nat) (f : Check → Check) (s : State) : (updCheck id f s).isc = s.isc := rfl
@[simp] theorem updCheck_mpc (id : Nat) (f : Check → Check) (s : State) : (updCheck id f s).mpc = s.mpc := rfl
@[simp] theorem updCheck_ccu (id : Nat) (f : Check → Check) (s : State) : (updCheck id f s).ccu = { s.ccu with checks := s.ccu.checks.modify id f } := rfl
@[simp] theorem updCheck_cu (id : Nat) (f : Check → Check) (s : State) : (updCheck id f s).cu = s.cu := rfl
@[simp] theorem updCheck_ss (id : Nat) (f : Check → Check) (s : State) : (updCheck id f s).ss = s.ss := rfl
@[simp] theorem updCheck_out (id : Nat) (f : Check → Check) (s : State) : (updCheck id f s).out = s.out := rfl
@[simp] theorem updCheck_pending (id : Nat) (f : Check → Check) (s : State) : (updCheck id f s).pending = s.pending := rfl

/-! ### updPrint -/

@[simp] theorem updPrint_lc (slot : Nat) (f : Account → Account) (s : State) : (updPrint slot f s).lc = s.lc := rfl
@[simp] theorem updPrint_rc (slot : Nat) (f : Account → Account) (s : State) : (updPrint slot f s).rc = s.rc := rfl
@[simp] theorem updPrint_isc (slot : Nat) (f : Account → Account) (s : State) : (updPrint slot f s).isc = s.isc := rfl
@[simp] theorem updPrint_mpc (slot : Nat) (f : Account → Account) (s : State) : (updPrint slot f s).mpc = s.mpc := rfl
@[simp] theorem updPrint_ccu (slot : Nat) (f : Account → Account) (s : State) : (updPrint slot f s).ccu = s.ccu := rfl
@[simp] theorem updPrint_cu (slot : Nat) (f : Account → Account) (s : State) : (updPrint slot f s).cu = { s.cu with printAccts := s.cu.printAccts.modify slot (fun o => o.map f) } := rfl
@[simp] theorem updPrint_ss (slot : Nat) (f : Account → Account) (s : State) : (updPrint slot f s).ss = s.ss := rfl
@[simp] theorem updPrint_out (slot : Nat) (f : Account → Account) (s : State) : (updPrint slot f s).out = s.out := rfl
@[simp] theorem updPrint_pending (slot : Nat) (f : Account → Account) (s : State) : (updPrint slot f s).pending = s.pending := rfl

/-! ### updHouse -/

@[simp] theorem updHouse_lc (f : Account → Account) (s : State) : (updHouse f s).lc = s.lc := rfl
@[simp] theorem updHouse_rc (f : Account → Account) (s : State) : (updHouse f s).rc = s.rc := rfl
@[simp] theorem updHouse_isc (f : Account → Account) (s : State) : (updHouse f s).isc = s.isc := rfl
@[simp] theorem updHouse_mpc (f : Account → Account) (s : State) : (updHouse f s).mpc = s.mpc := rfl
@[simp] theorem updHouse_ccu (f : Account → Account) (s : State) : (updHouse f s).ccu = s.ccu := rfl
@[simp] theorem updHouse_cu (f : Account → Account) (s : State) : (updHouse f s).cu = { s.cu with house := f s.cu.house } := rfl
@[simp] theorem updHouse_ss (f : Account → Account) (s : State) : (updHouse f s).ss = s.ss := rfl
@[simp] theorem updHouse_out (f : Account → Account) (s : State) : (updHouse f s).out = s.out := rfl
@[simp] theorem updHouse_pending (f : Account → Account) (s : State) : (updHouse f s).pending = s.pending := rfl

/-! ### markChanged -/

@[simp] theorem markChanged_lc (s : State) : (markChanged s).lc = s.lc := rfl
@[simp] theorem markChanged_rc (s : State) : (markChanged s).rc = s.rc := rfl
@[simp] theorem markChanged_isc (s : State) : (markChanged s).isc = s.isc := rfl
@[simp] theorem markChanged_mpc (s : State) : (markChanged s).mpc = s.mpc := rfl
@[simp] theorem markChanged_ccu (s : State) : (markChanged s).ccu = s.ccu := rfl
@[simp] theorem markChanged_cu (s : State) : (markChanged s).cu = s.cu := rfl
@[simp] theorem markChanged_ss (s : State) : (markChanged s).ss = { s.ss with changed := true } := rfl
@[simp] theorem markChanged_out (s : State) : (markChanged s).out = s.out := rfl
@[simp] theorem markChanged_pending (s : State) : (markChanged s).pending = s.pending := rfl

/-! ### The condition table's operations move LC alone -/

@[simp] theorem raise_rc (c : Cond) (sub : Option Nat) (s : State) : (raise c sub s).rc = s.rc := by unfold raise; split <;> rfl
@[simp] theorem raise_isc (c : Cond) (sub : Option Nat) (s : State) : (raise c sub s).isc = s.isc := by unfold raise; split <;> rfl
@[simp] theorem raise_mpc (c : Cond) (sub : Option Nat) (s : State) : (raise c sub s).mpc = s.mpc := by unfold raise; split <;> rfl
@[simp] theorem raise_ccu (c : Cond) (sub : Option Nat) (s : State) : (raise c sub s).ccu = s.ccu := by unfold raise; split <;> rfl
@[simp] theorem raise_cu (c : Cond) (sub : Option Nat) (s : State) : (raise c sub s).cu = s.cu := by unfold raise; split <;> rfl
@[simp] theorem raise_ss (c : Cond) (sub : Option Nat) (s : State) : (raise c sub s).ss = s.ss := by unfold raise; split <;> rfl
@[simp] theorem raise_out (c : Cond) (sub : Option Nat) (s : State) : (raise c sub s).out = s.out := by unfold raise; split <;> rfl
@[simp] theorem raise_pending (c : Cond) (sub : Option Nat) (s : State) : (raise c sub s).pending = s.pending := by unfold raise; split <;> rfl
@[simp] theorem endCause_rc (c : Cond) (sub : Option Nat) (s : State) : (endCause c sub s).rc = s.rc := rfl
@[simp] theorem endCause_isc (c : Cond) (sub : Option Nat) (s : State) : (endCause c sub s).isc = s.isc := rfl
@[simp] theorem endCause_mpc (c : Cond) (sub : Option Nat) (s : State) : (endCause c sub s).mpc = s.mpc := rfl
@[simp] theorem endCause_ccu (c : Cond) (sub : Option Nat) (s : State) : (endCause c sub s).ccu = s.ccu := rfl
@[simp] theorem endCause_cu (c : Cond) (sub : Option Nat) (s : State) : (endCause c sub s).cu = s.cu := rfl
@[simp] theorem endCause_ss (c : Cond) (sub : Option Nat) (s : State) : (endCause c sub s).ss = s.ss := rfl
@[simp] theorem endCause_out (c : Cond) (sub : Option Nat) (s : State) : (endCause c sub s).out = s.out := rfl
@[simp] theorem endCause_pending (c : Cond) (sub : Option Nat) (s : State) : (endCause c sub s).pending = s.pending := rfl
@[simp] theorem syncCauses_rc (s : State) : (syncCauses s).rc = s.rc := rfl
@[simp] theorem syncCauses_isc (s : State) : (syncCauses s).isc = s.isc := rfl
@[simp] theorem syncCauses_mpc (s : State) : (syncCauses s).mpc = s.mpc := rfl
@[simp] theorem syncCauses_ccu (s : State) : (syncCauses s).ccu = s.ccu := rfl
@[simp] theorem syncCauses_cu (s : State) : (syncCauses s).cu = s.cu := rfl
@[simp] theorem syncCauses_ss (s : State) : (syncCauses s).ss = s.ss := rfl
@[simp] theorem syncCauses_out (s : State) : (syncCauses s).out = s.out := rfl
@[simp] theorem syncCauses_pending (s : State) : (syncCauses s).pending = s.pending := rfl
@[simp] theorem readClass_rc (k : Nat) (s : State) : (readClass k s).rc = s.rc := rfl
@[simp] theorem readClass_isc (k : Nat) (s : State) : (readClass k s).isc = s.isc := rfl
@[simp] theorem readClass_mpc (k : Nat) (s : State) : (readClass k s).mpc = s.mpc := rfl
@[simp] theorem readClass_ccu (k : Nat) (s : State) : (readClass k s).ccu = s.ccu := rfl
@[simp] theorem readClass_cu (k : Nat) (s : State) : (readClass k s).cu = s.cu := rfl
@[simp] theorem readClass_ss (k : Nat) (s : State) : (readClass k s).ss = s.ss := rfl
@[simp] theorem readClass_out (k : Nat) (s : State) : (readClass k s).out = s.out := rfl
@[simp] theorem readClass_pending (k : Nat) (s : State) : (readClass k s).pending = s.pending := rfl

end Sys2Proof.Machine
end

