-- ==== Sys2Proof/Laws/Table.lean ====
section
/-! SUPPORT. The condition table keeps its form (R172 to R174): one lemma for each operation on it. -/

namespace Sys2Proof.Machine

/-- The order of the table: class by class, and no pair twice. -/
def CondOrder (a b : CondEntry) : Prop := a.cond.cls ≤ b.cond.cls ∧ ¬(a.cond = b.cond ∧ a.subject = b.subject)

theorem isFor_iff (e : CondEntry) (c : Cond) (sub : Option Nat) : e.isFor c sub = true ↔ e.cond = c ∧ e.subject = sub := by
  simp [CondEntry.isFor]

/-- A map that keeps condition, subject, and the marks' form keeps the table's form. -/
theorem TableForm.map {l : List CondEntry} (h : TableForm l) (f : CondEntry → CondEntry)
    (hc : ∀ e, (f e).cond = e.cond) (hs : ∀ e, (f e).subject = e.subject)
    (hm : ∀ e, e.occurrences ≤ 255 ∧ (e.cause = true → e.cond.standing = true) →
      (f e).occurrences ≤ 255 ∧ ((f e).cause = true → e.cond.standing = true)) : TableForm (l.map f) := by
  refine ⟨?_, ?_⟩
  · rw [List.pairwise_map]
    simpa [hc, hs] using h.1
  · intro e he
    obtain ⟨x, hx, rfl⟩ := List.mem_map.1 he
    have := hm x (h.2 x hx)
    rw [hc]
    exact this

theorem TableForm.sublist {l l' : List CondEntry} (h : TableForm l) (hl : List.Sublist l' l) : TableForm l' :=
  ⟨h.1.sublist hl, fun e he => h.2 e (hl.subset he)⟩

/-- R174: a new entry at the end of its class keeps the form. -/
theorem TableForm.insert {l : List CondEntry} (h : TableForm l) (c : Cond) (sub : Option Nat)
    (hn : ∀ x ∈ l, ¬(x.cond = c ∧ x.subject = sub)) : TableForm (insertCond ⟨c, sub, c.standing, 1⟩ l) := by
  unfold insertCond
  refine ⟨?_, ?_⟩
  · rw [List.pairwise_append, List.pairwise_cons]
    refine ⟨h.1.filter _, ⟨?_, h.1.filter _⟩, ?_⟩
    · intro x hx
      simp only [List.mem_filter, decide_eq_true_eq] at hx
      exact ⟨by simpa using hx.2.le, fun ⟨h1, h2⟩ => hn x hx.1 ⟨h1.symm, h2.symm⟩⟩
    · intro a ha b hb
      simp only [List.mem_filter, decide_eq_true_eq] at ha
      rcases List.mem_cons.1 hb with rfl | hb
      · exact ⟨ha.2, fun ⟨h1, h2⟩ => hn a ha.1 ⟨h1, h2⟩⟩
      · simp only [List.mem_filter, decide_eq_true_eq] at hb
        exact ⟨by omega, fun ⟨h1, _⟩ => by rw [h1] at ha; omega⟩
  · intro e he
    rcases List.mem_append.1 he with he | he
    · exact h.2 e (List.mem_filter.1 he).1
    · rcases List.mem_cons.1 he with rfl | he
      · exact ⟨by simp, fun h => h⟩
      · exact h.2 e (List.mem_filter.1 he).1

theorem raise_form (c : Cond) (sub : Option Nat) (s : State) (h : TableForm s.lc.conds) :
    TableForm (raise c sub s).lc.conds := by
  unfold raise
  split
  · refine h.map _ (fun e => ?_) (fun e => ?_) (fun e he => ?_)
    · split <;> rfl
    · split <;> rfl
    · split
      · refine ⟨by simp [CondEntry.again], ?_⟩
        simp only [CondEntry.again, Bool.or_eq_true]
        rintro (h | h)
        · exact he.2 h
        · exact h
      · exact he
  · rename_i hn
    refine h.insert c sub (fun x hx hp => hn ?_)
    exact List.any_eq_true.2 ⟨x, hx, (isFor_iff ..).2 hp⟩

theorem endCause_form (c : Cond) (sub : Option Nat) (s : State) (h : TableForm s.lc.conds) :
    TableForm (endCause c sub s).lc.conds := by
  refine h.map _ (fun e => ?_) (fun e => ?_) (fun e he => ?_)
  · split <;> rfl
  · split <;> rfl
  · split
    · exact ⟨he.1, by simp⟩
    · exact he

theorem syncCauses_form (s : State) (h : TableForm s.lc.conds) : TableForm (syncCauses s).lc.conds := by
  refine h.map _ (fun e => rfl) (fun e => rfl) (fun e he => ⟨he.1, ?_⟩)
  simp only [Bool.and_eq_true]
  exact fun h => he.2 h.1

/-- Each entry that a read leaves is an entry of the table, with its occurrences at 0 where it was reported. -/
theorem readTable_mem {k n : Nat} {l : List CondEntry} {e : CondEntry} (h : e ∈ readTable k n l) :
    ∃ x ∈ l, e = x ∨ e = { x with occurrences := 0 } := by
  induction l generalizing n with
  | nil => cases n <;> simp [readTable] at h
  | cons x t ih =>
    cases n with
    | zero => exact ⟨e, by simpa [readTable] using h, .inl rfl⟩
    | succ n =>
      have tail : ∀ m, e ∈ readTable k m t → ∃ y ∈ x :: t, e = y ∨ e = { y with occurrences := 0 } := fun m hm =>
        let ⟨y, hy, hye⟩ := ih hm
        ⟨y, List.mem_cons_of_mem _ hy, hye⟩
      simp only [readTable, CondEntry.afterRead] at h
      split at h
      · split at h
        · rename_i e' he'
          rcases List.mem_cons.1 h with rfl | h
          · split at he'
            · exact ⟨x, by simp, .inr (Option.some.inj he').symm⟩
            · cases he'
          · exact tail _ h
        · exact tail _ h
      · rcases List.mem_cons.1 h with rfl | h
        · exact ⟨e, by simp, .inl rfl⟩
        · exact tail _ h

theorem readTable_pairwise {k n : Nat} {l : List CondEntry} (h : l.Pairwise CondOrder) :
    (readTable k n l).Pairwise CondOrder := by
  induction l generalizing n with
  | nil => cases n <;> simp [readTable]
  | cons x t ih =>
    have hx := (List.pairwise_cons.1 h).1
    have ht := (List.pairwise_cons.1 h).2
    have first : ∀ (z : CondEntry) (m : Nat), z.cond = x.cond → z.subject = x.subject →
        (z :: readTable k m t).Pairwise CondOrder := by
      intro z m hc hs
      refine List.pairwise_cons.2 ⟨fun y hy => ?_, ih ht⟩
      obtain ⟨w, hw, hy | hy⟩ := readTable_mem hy
      all_goals
        have := hx w hw
        simpa [CondOrder, hc, hs, hy] using this
    cases n with
    | zero => simpa [readTable] using h
    | succ n =>
      simp only [readTable, CondEntry.afterRead]
      split
      · split
        · rename_i e' he'
          split at he'
          · cases he'; exact first _ _ rfl rfl
          · cases he'
        · exact ih ht
      · exact first _ _ rfl rfl

theorem readTable_form (k n : Nat) {l : List CondEntry} (h : TableForm l) : TableForm (readTable k n l) := by
  refine ⟨readTable_pairwise h.1, fun e he => ?_⟩
  obtain ⟨x, hx, rfl | rfl⟩ := readTable_mem he
  · exact h.2 _ hx
  · exact ⟨by simp, (h.2 _ hx).2⟩

end Sys2Proof.Machine
end

