-- ==== Sys2Proof/Laws/Reactions.lean ====
section
/-! SUPPORT. All that the part's reactions can do, said once: a property closed under the updates below holds after every reaction if it held before. Each lemma `hc.op` is the spec of one shared operation. -/

namespace Sys2Proof.Machine

/-- A refill, a commit or a grant on a channel record: settings, enable and floats stay, and the form is kept. -/
def ChanStep (x y : Channel) : Prop := y.setup = x.setup ∧ (ChanForm x → ChanForm y)

/-- An update of a queue entry: the queue tag stays, and the charges stay, go, or are computed now. -/
def EntryStep (s : State) (f : QEntry → QEntry) : Prop :=
  ∀ e, (f e).queueTag = e.queueTag ∧
    ((f e).charges = e.charges ∨ (f e).charges = none ∨ ∃ d, (f e).charges = some (chargesNow s d))

/-- A property that every update made by the reactions keeps. -/
structure ReactionClosed (P : State → Prop) : Prop where
  out : ∀ s l, P s → P { s with out := l }
  conds : ∀ s l b, (TableForm s.lc.conds → TableForm l) → P s → P { s with lc.conds := l, lc.noticeDue := b }
  rcFree : ∀ s j b t, P s → P { s with rc.jobs := j, rc.belowMark := b, rc.fireTimer := t }
  entry : ∀ s t f, EntryStep s f → P s → P (updEntry t f s)
  drop : ∀ s p, P s → P { s with rc.queue := s.rc.queue.filter p }
  chan : ∀ s c f, (∀ x, s.isc.chans[c]? = some x → ChanStep x (f x)) → P s → P (updChan c f s)
  bay : ∀ s b f, (∀ x, (f x).present = x.present) → P s → P (updBay b f s)
  pump : ∀ s p q t, (HoldForm s → HoldForm { s with isc.pump := p }) → P s →
    P { s with isc.pump := p, isc.pumpQueue := q, isc.tagQueue := t }
  mpcFree : ∀ s e w m b c t, (HoldForm s → HoldForm { s with mpc.exec := e, mpc.cutter := c }) → P s →
    P { s with mpc.exec := e, mpc.settle := w, mpc.moved := m, mpc.resetWindow := b, mpc.cutter := c, mpc.strokeTimer := t }
  cuts : ∀ s l, List.Sublist (l.map (fun e => e.position)) (s.mpc.cuts.map (fun e => e.position)) → P s →
    P { s with mpc.cuts := l }
  checks : ∀ s l, P s → P { s with ccu.checks := l }
  scan : ∀ s id n t, n ≤ ringFree s → P s → P { s with ccu.link := .scanning id 0 n t }
  drain : ∀ s t, P s → P { s with ccu.link := .draining t }
  ring : ∀ s k, P s → P { s with ccu.ring := s.ccu.ring.take k }
  prints : ∀ s l, P s → P { s with cu.printAccts := l }
  record : ∀ s r, recordsFull s = false → P s → P { s with cu.records := s.cu.records ++ [r] }

/-! ### The supply hold stays as it is -/

@[simp] theorem raise_hold (c : Cond) (sub : Option Nat) (s : State) : (raise c sub s).lc.hold = s.lc.hold := by
  unfold raise
  split <;> rfl

theorem held_raise (c : Cond) (sub : Option Nat) (s : State) : held (raise c sub s) = held s := by simp [held]

theorem held_raiseWrongInk (ch : Nat) (s : State) : held (raiseWrongInk ch s) = held s := by
  unfold raiseWrongInk
  generalize (mapBays (chanAt s ch).cfg).filter (wrongInk s ch) = l
  induction l generalizing s with
  | nil => rfl
  | cons b t ih => exact (ih _).trans (held_raise _ _ _)

/-- Outside a hold the form asks nothing. -/
theorem holdForm_of_not_held {s : State} (h : held s = false) : HoldForm s := by
  intro h'
  rw [h] at h'
  cases h'

/-- During a hold the executor stands at no stop. -/
theorem not_held_of_atStop {s : State} {a : Advance} {r : StopRef} (he : s.mpc.exec = .atStop a r) (h : HoldForm s) :
    held s = false := by
  by_contra hn
  have := (h (by simpa using hn)).2.2
  rw [he] at this
  cases this

theorem raiseSkipped_mpc (l : List CutOwner) (s : State) : (raiseSkipped l s).mpc = s.mpc := by
  have : ∀ (l : List Nat) (s : State), (l.foldl (fun s t => raise .cutSkipped (some t) s) s).mpc = s.mpc := by
    intro l
    induction l with
    | nil => intro s; rfl
    | cons a t ih => intro s; exact (ih _).trans (by simp)
  unfold raiseSkipped
  split
  · simp
  · exact this _ _

theorem skipCut_atStop {s : State} {a : Advance} {r : StopRef} (p : Nat) (he : s.mpc.exec = .atStop a r) :
    (skipCut p s).mpc.exec = .atStop a r := by
  unfold skipCut
  split
  · rw [raiseSkipped_mpc]
    unfold removeCut reviseSegment
    simp [he]
  · exact he

namespace ReactionClosed

variable {P : State → Prop} (hc : ReactionClosed P) {s : State}
include hc

/-! ### Named updates -/

theorem send (x : Sent) (h : P s) : P (send x s) := hc.out s _ h

theorem jobs (l : List (Option Job)) (h : P s) : P { s with rc.jobs := l } := hc.rcFree s l s.rc.belowMark s.rc.fireTimer h

theorem setJob (i : Nat) (j : Option Job) (h : P s) : P (setJob i j s) := hc.jobs _ h

theorem updJob (i : Nat) (f : Job → Job) (h : P s) : P (updJob i f s) := hc.jobs _ h

theorem placeTagOp (op : TagOp) (h : P s) : P (placeTagOp op s) := hc.pump s s.isc.pump s.isc.pumpQueue _ (fun hk => hk) h

theorem setPump (p : Pump) (hp : HoldForm s → HoldForm { s with isc.pump := p }) (h : P s) : P { s with isc.pump := p } :=
  hc.pump s p s.isc.pumpQueue s.isc.tagQueue hp h

/-- The pump goes to a state in which no draw runs. -/
theorem stopPump (p : Pump) (hp : pumpStill p = true) (h : P s) : P { s with isc.pump := p } :=
  hc.setPump p (fun hk hh => ⟨hp, (hk hh).2⟩) h

theorem setPumpQueue (q : List PumpEntry) (h : P s) : P { s with isc.pumpQueue := q } :=
  hc.pump s s.isc.pump q s.isc.tagQueue (fun hk => hk) h

theorem setExec (e : Exec) (he : HoldForm s → HoldForm (setExec e s)) (h : P s) : P (setExec e s) :=
  hc.mpcFree s e s.mpc.settle s.mpc.moved s.mpc.resetWindow s.mpc.cutter s.mpc.strokeTimer he h

/-- The executor goes to a state in which it stands still. -/
theorem stillExec (e : Exec) (he : execStill e = true) (h : P s) : P (Machine.setExec e s) :=
  hc.setExec e (fun hk hh => ⟨(hk hh).1, (hk hh).2.1, he⟩) h

/-- The executor moves on where the form shows that no hold is in effect. -/
theorem freeExec (e : Exec) (hh : HoldForm s → held s = false) (h : P s) : P (Machine.setExec e s) :=
  hc.setExec e (fun hk => holdForm_of_not_held (hh hk)) h

theorem updCut (p : Nat) (f : CutEntry → CutEntry) (hf : ∀ e, (f e).position = e.position) (h : P s) :
    P (updCut p f s) := by
  refine hc.cuts s _ ?_ h
  have : (s.mpc.cuts.map (fun e => if e.position = p then f e else e)).map (fun e => e.position)
      = s.mpc.cuts.map (fun e => e.position) := by
    rw [List.map_map]
    refine List.map_congr_left (fun e _ => ?_)
    simp only [Function.comp]
    split <;> simp [hf]
  rw [this]

theorem updCheck (i : Nat) (f : Check → Check) (h : P s) : P (updCheck i f s) := hc.checks s _ h

theorem updPrint (i : Nat) (f : Account → Account) (h : P s) : P (updPrint i f s) := hc.prints s _ h

omit hc in
theorem foldl {A : Type} (f : State → A → State) (hf : ∀ s a, P s → P (f s a)) (l : List A) (h : P s) :
    P (l.foldl f s) := by
  induction l generalizing s with
  | nil => exact h
  | cons a t ih => exact ih (hf _ _ h)

/-! ### The condition table -/

theorem raise (c : Cond) (sub : Option Nat) (h : P s) : P (raise c sub s) := by
  have hf := raise_form c sub s
  unfold Machine.raise at hf ⊢
  split
  · rename_i hi
    rw [if_pos hi] at hf
    exact hc.conds s _ s.lc.noticeDue hf h
  · rename_i hi
    rw [if_neg hi] at hf
    exact hc.conds s _ true hf h

theorem syncCauses (h : P s) : P (syncCauses s) := hc.conds s _ s.lc.noticeDue (syncCauses_form s) h

theorem roomRose (h : P s) : P (roomRose s) := by
  unfold Machine.roomRose
  split
  · exact hc.raise _ _ (hc.rcFree s s.rc.jobs false s.rc.fireTimer h)
  · exact h

/-! ### Accounts -/

theorem pushRecord (r : ClosedRecord) (hr : recordsFull s = false) (h : P s) : P (pushRecord r s) := by
  unfold Machine.pushRecord
  simp only
  split
  · exact hc.raise _ _ (hc.raise _ _ (hc.record s r hr h))
  · exact hc.raise _ _ (hc.record s r hr h)

theorem closeAccount (a : Account) (o : RecOutcome) (hr : recordsFull s = false) (h : P s) : P (closeAccount a o s) :=
  hc.pushRecord _ hr h

/-! ### Ink -/

theorem debitAndWrite (b moved : Nat) (h : P s) : P (debitAndWrite b moved s) := by
  unfold Machine.debitAndWrite
  split
  · exact hc.placeTagOp _ (hc.bay s _ _ (fun _ => rfl) h)
  · exact hc.bay s _ _ (fun _ => rfl) h

/-- An update of a channel record that writes neither its level nor its residue. -/
theorem chanPlain (c : Nat) (f : Channel → Channel) (hs : ∀ x, (f x).setup = x.setup)
    (hl : ∀ x, (f x).level = x.level) (hr : ∀ x, (f x).residue = x.residue) (h : P s) : P (updChan c f s) := by
  refine hc.chan s c f (fun x _ => ⟨hs x, fun hx => ?_⟩) h
  have : (f x).cfg = x.cfg := by
    have := congrArg (fun y => y.cfg) (hs x)
    simpa [Channel.setup] using this
  simpa [ChanForm, hl, hr, this] using hx

theorem endDrawFull (d : Draw) (h : P s) : P (endDrawFull d s) := by
  unfold Machine.endDrawFull
  refine hc.debitAndWrite _ _ (hc.stopPump _ rfl (hc.chan s _ _ (fun x _ => ⟨rfl, fun hx => ⟨?_, hx.2⟩⟩) h))
  rintro l ⟨⟩
  exact le_rfl

theorem startDraw (ch b : Nat) (hh : held s = false) (h : P s) : P (startDraw ch b s) := by
  unfold Machine.startDraw
  have h0 := hc.bay _ b (fun y => { y with state := .drawing }) (fun _ => rfl)
    (hc.chanPlain ch (fun c => { c with refill := .drawing b }) (fun _ => rfl) (fun _ => rfl) (fun _ => rfl) h)
  have h1 := hc.setPump (.running (newDraw s ch b)) (fun _ => holdForm_of_not_held (by simpa [held] using hh)) h0
  simp only
  split
  · exact hc.endDrawFull _ h1
  · exact h1

theorem serveChannel (ch : Nat) (hh : held s = false) (h : P s) : P (serveChannel ch s) := by
  have h1 : P (raiseWrongInk ch s) := foldl _ (fun _ _ h => hc.raise _ _ h) _ h
  unfold Machine.serveChannel
  simp only
  split
  · exact hc.raise _ _ (hc.chanPlain _ _ (fun _ => rfl) (fun _ => rfl) (fun _ => rfl) h1)
  · split
    · exact hc.raise _ _ (hc.chanPlain _ _ (fun _ => rfl) (fun _ => rfl) (fun _ => rfl) h1)
    · exact hc.startDraw _ _ ((held_raiseWrongInk ..).trans hh) h1

theorem unqueue (ch : Nat) (h : P s) : P (unqueue ch s) := hc.setPumpQueue _ h

theorem serveLoop (n : Nat) (h : P s) : P (serveLoop n s) := by
  induction n generalizing s with
  | zero => exact h
  | succ n ih =>
    unfold Machine.serveLoop
    split
    · rename_i hif
      split
      · exact h
      · exact ih (hc.serveChannel _ hif.2 (hc.unqueue _ h))
    · exact h

theorem pumpServe (h : P s) : P (pumpServe s) := hc.serveLoop _ h

theorem placeRequest (ch : Nat) (low : Bool) (h : P s) : P (placeRequest ch low s) := by
  unfold Machine.placeRequest
  simp only
  split
  · split
    · exact hc.pumpServe (hc.setPumpQueue _
        (hc.chanPlain ch (fun c => { c with refill := .queued }) (fun _ => rfl) (fun _ => rfl) (fun _ => rfl) h))
    · exact h
  · split
    · exact hc.setPumpQueue _ h
    · exact h
  · exact h

/-! ### The media path -/

theorem closeWindow (h : P s) : P (closeWindow s) := by
  unfold Machine.closeWindow
  split
  · exact hc.mpcFree s s.mpc.exec none _ false s.mpc.cutter s.mpc.strokeTimer (fun hk => hk) h
  · exact h

theorem startSegment (a : Advance) (hh : HoldForm s → held s = false) (h : P s) : P (startSegment a s) := by
  have h1 : ∀ e, P (Machine.setExec e s) := fun e => hc.freeExec e hh h
  unfold Machine.startSegment
  simp only
  split
  · exact h1 _
  · exact hc.closeWindow (h1 _)

theorem reviseSegment (h : P s) : P (reviseSegment s) := by
  unfold Machine.reviseSegment
  split
  · rename_i a g he
    simp only
    split
    · refine hc.setExec _ (fun hk hh => ⟨(hk hh).1, (hk hh).2.1, ?_⟩) h
      have := (hk hh).2.2
      rw [he] at this
      exact this
    · exact h
  · exact h

theorem removeCut (p : Nat) (h : P s) : P (removeCut p s) :=
  hc.reviseSegment (hc.cuts s _ (List.filter_sublist.map _) h)

/-! ### Checks -/

theorem abandonScan (id : Nat) (h : P s) : P (abandonScan id s) := by
  unfold Machine.abandonScan
  split
  · split
    · exact hc.drain s _ h
    · exact h
  · exact h

theorem writeVerdict (tag : Nat) (v : Verdict) (m : Bool) (h : P s) : P (writeVerdict tag v m s) := by
  unfold Machine.writeVerdict
  split
  · exact hc.updPrint _ _ (hc.updJob _ _ h)
  · exact h

theorem raiseClosed (tag : Nat) (v : Verdict) (h : P s) : P (raiseClosed tag v s) := by
  unfold Machine.raiseClosed
  simp only
  split
  · exact hc.raise _ _ (hc.raise _ _ h)
  · exact hc.raise _ _ h

theorem closeRecords (id : Nat) (r : Result) (m : Bool) (h : P s) : P (closeRecords id r m s) := by
  unfold Machine.closeRecords
  simp only
  split
  · exact hc.raiseClosed _ _ (hc.writeVerdict _ _ _ (hc.updCheck _ _ (hc.abandonScan _ h)))
  · exact hc.updCheck _ _ (hc.abandonScan _ h)

theorem releaseScan (n : Nat) (h : P s) : P (releaseScan n s) := by
  unfold Machine.releaseScan
  split
  · exact h
  · exact hc.ring s _ h

theorem stripStart (id : Nat) (h : P s) : P (stripStart id s) := hc.updCheck _ _ h

theorem stripComplete (id : Nat) (h : P s) : P (stripComplete id s) := by
  unfold Machine.stripComplete
  simp only
  split
  · split
    · exact hc.reviseSegment (hc.updCheck _ _ h)
    · exact hc.closeRecords _ _ _ (hc.updCheck _ _ h)
  · exact h

theorem noStrip (id : Nat) (h : P s) : P (noStrip id s) := by
  unfold Machine.noStrip
  simp only
  split
  · exact hc.closeRecords _ _ _ h
  · exact h

theorem raiseRingFull (id : Nat) (h : P s) : P (raiseRingFull id s) := by
  unfold Machine.raiseRingFull
  split
  · split
    · exact h
    · exact hc.raise _ _ h
  · exact h

theorem startScan (id : Nat) (hr : shortOfRing s id = false) (h : P s) : P (startScan id s) := by
  refine hc.send _ (hc.scan _ id _ _ ?_ (hc.updCheck id (fun c => { c with state := .measuring }) h))
  exact Nat.not_lt.1 (of_decide_eq_false hr)

theorem scanTest (id : Nat) (h : P s) : P (scanTest id s) := by
  unfold Machine.scanTest
  split
  · split
    · exact hc.raiseRingFull _ h
    · split
      · exact hc.startScan _ (by simp_all) h
      · exact h
  · exact h

theorem retestScan (h : P s) : P (retestScan s) := by
  unfold Machine.retestScan
  split
  · exact hc.scanTest _ h
  · exact h

/-! ### Jobs -/

theorem freeCheck (o : Option Nat) (h : P s) : P (freeCheck o s) := by
  unfold Machine.freeCheck
  split
  · exact hc.updCheck _ _ h
  · exact h

theorem closeJob (i : Nat) (o : JobOutcome) (h : P s) : P (closeJob i o s) := by
  unfold Machine.closeJob
  split
  · split
    · exact hc.updJob _ _ h
    · rename_i hr
      exact hc.setJob _ _ (hc.freeCheck _ (hc.prints _ _ (hc.closeAccount _ _ (by simpa using hr) h)))
  · exact h

theorem completeStrip (i : Nat) (ev : Bool) (j : Job) (h : P s) : P (completeStrip i ev j s) := by
  unfold Machine.completeStrip
  simp only
  split
  · split
    · exact hc.stripComplete _ (hc.updJob _ _ h)
    · exact hc.updJob _ _ h
  · exact hc.updJob _ _ h

theorem beginStrip (i : Nat) (ev : Bool) (j : Job) (h : P s) : P (beginStrip i ev j s) := by
  unfold Machine.beginStrip
  simp only
  split
  · split
    · exact hc.stripStart _ (hc.updJob _ _ h)
    · exact hc.updJob _ _ h
  · exact hc.updJob _ _ h

theorem stripEvents (i : Nat) (k : SwathKind) (h : P s) : P (stripEvents i k s) := by
  unfold Machine.stripEvents
  split
  · simp only
    split
    · split
      · exact hc.beginStrip _ _ _ h
      · exact h
    · split
      · exact hc.completeStrip _ _ _ h
      · exact h
  · exact h

theorem readyToEnd (i : Nat) (h : P s) : P (readyToEnd i s) := by
  unfold Machine.readyToEnd
  split
  · rename_i j _
    have h1 : P (match j.strip, j.checkId with
        | .inStrip, _ => Machine.completeStrip i true j s
        | .none, some id => Machine.noStrip id s
        | _, _ => s) := by
      split
      · exact hc.completeStrip _ _ _ h
      · exact hc.noStrip _ h
      · exact h
    simp only
    split
    · exact h1
    · exact hc.updJob _ _ h1
  · exact h

theorem endIfEmpty (tag : Nat) (h : P s) : P (endIfEmpty tag s) := by
  unfold Machine.endIfEmpty
  split
  · split
    · split
      · exact hc.readyToEnd _ h
      · exact h
    · exact h
  · exact h

theorem retire (e : QEntry) (h : P s) : P (retire e s) := hc.endIfEmpty _ (hc.roomRose (hc.drop s _ h))

theorem advanceEnded (a : Advance) (h : P s) : P (advanceEnded a s) := by
  unfold Machine.advanceEnded
  split
  · split
    · exact hc.retire _ h
    · exact h
  · split
    · split
      · exact hc.updJob _ _ h
      · exact h
    · exact h
  · exact h

/-! ### The executor and the cutter -/

theorem raiseSkipped (l : List CutOwner) (h : P s) : P (raiseSkipped l s) := by
  unfold Machine.raiseSkipped
  split
  · exact hc.raise _ _ h
  · exact foldl _ (fun _ _ h => hc.raise _ _ h) _ h

theorem skipCut (p : Nat) (h : P s) : P (skipCut p s) := by
  unfold Machine.skipCut
  split
  · exact hc.raiseSkipped _ (hc.removeCut _ h)
  · exact h

theorem guardLost (id : Nat) (h : P s) : P (guardLost id s) := by
  unfold Machine.guardLost
  split
  · exact hc.updPrint _ _ h
  · exact h

theorem guardTest (p : Nat) (h : P s) : P (guardTest p s) := by
  unfold Machine.guardTest
  split
  · split
    · split
      · exact hc.guardLost _ (hc.updCut _ _ (fun _ => rfl) h)
      · exact h
    · exact h
  · exact h

theorem startStroke (p : Nat) (hh : held s = false) (h : P s) : P (startStroke p s) :=
  hc.mpcFree _ s.mpc.exec s.mpc.settle s.mpc.moved s.mpc.resetWindow _ _ (fun _ => holdForm_of_not_held hh)
    (hc.updCut p (fun e => { e with state := .cutting }) (fun _ => rfl) h)

theorem strokeTry (p : Nat) (h : P s) : P (strokeTry p s) := by
  unfold Machine.strokeTry
  split
  · rename_i hif
    simp only [strokeCondition, Bool.and_eq_true, Bool.not_eq_true'] at hif
    exact hc.startStroke _ hif.2 h
  · exact h

theorem retestStroke (h : P s) : P (retestStroke s) := by
  unfold Machine.retestStroke
  split
  · exact hc.strokeTry _ h
  · exact h

theorem proceed (n : Nat) (a : Advance) (hh : HoldForm s → held s = false) (h : P s) : P (proceed n a s) := by
  induction n generalizing s with
  | zero => exact h
  | succ n ih =>
    unfold Machine.proceed
    split
    · exact hc.scanTest _ (hc.freeExec _ hh h)
    · split
      · exact ih (not_held_of_atStop (skipCut_atStop _ rfl)) (hc.skipCut _ (hc.freeExec _ hh h))
      · exact hc.strokeTry _ (hc.guardTest _ (hc.freeExec _ hh h))
    · split
      · exact hc.startSegment _ hh h
      · exact hc.advanceEnded _ (hc.stillExec _ rfl h)

theorem runOn (a : Advance) (hh : HoldForm s → held s = false) (h : P s) : P (runOn a s) := hc.proceed _ _ hh h

theorem resolveStop (h : P s) : P (resolveStop s) := by
  unfold Machine.resolveStop
  split
  · rename_i he
    split
    · exact h
    · exact hc.runOn _ (not_held_of_atStop he) h
  · split
    · exact h
    · exact hc.stillExec _ rfl h
  · exact h

theorem retestCut (h : P s) : P (retestCut s) := by
  unfold Machine.retestCut
  split
  · rename_i he
    split
    · split
      · split
        · exact hc.resolveStop (hc.skipCut _ h)
        · exact hc.strokeTry _ (hc.guardTest _ (hc.freeExec _ (not_held_of_atStop he) h))
      · exact h
    · exact h
  · exact h

theorem takeAdvance (o : Owner) (r : Requester) (d : Nat) (h : P s) : P (takeAdvance o r d s) := by
  unfold Machine.takeAdvance
  have h1 : P (if (newAdvance s o r d).clamped then Machine.raise .rollEnd (ownerTag s o) s else s) := by
    split
    · exact hc.raise _ _ h
    · exact h
  have hheld : held (if (newAdvance s o r d).clamped then Machine.raise .rollEnd (ownerTag s o) s else s) = held s := by
    split
    · exact held_raise _ _ _
    · rfl
  simp only
  split
  · exact hc.stillExec _ rfl h1
  · rename_i hn
    exact hc.runOn _ (fun _ => hheld.trans (by simpa using hn)) h1

theorem doneTest (i : Nat) (h : P s) : P (doneTest i s) := by
  unfold Machine.doneTest
  split
  · split
    · exact hc.closeJob _ _ h
    · exact h
  · exact h

theorem doneTestOf (o : Option Nat) (h : P s) : P (doneTestOf o s) := by
  unfold Machine.doneTestOf
  split
  · exact hc.doneTest _ h
  · exact h

theorem closeCheck (id : Nat) (r : Result) (n : Nat) (h : P s) : P (closeCheck id r n s) :=
  hc.retestScan (hc.doneTestOf _ (hc.releaseScan _ (hc.resolveStop (hc.reviseSegment (hc.closeRecords _ _ _ h)))))

theorem closeUnchecked (id : Nat) (h : P s) : P (closeUnchecked id s) := by
  unfold Machine.closeUnchecked
  split
  · exact hc.closeCheck _ _ _ h
  · exact h

/-! ### The reactions -/

omit hc in
theorem strike_position {tag : Nat} {o : Option Nat} {e e' : CutEntry} (h : CutEntry.strike tag o e = some e') :
    e'.position = e.position := by
  unfold CutEntry.strike at h
  split at h
  · split at h
    · split at h
      · cases h; rfl
      · cases h
    · cases h; rfl
  · cases h; rfl

omit hc in
theorem strike_sublist (tag : Nat) (o : Option Nat) (l : List CutEntry) :
    List.Sublist ((l.filterMap (CutEntry.strike tag o)).map (fun e => e.position)) (l.map (fun e => e.position)) := by
  induction l with
  | nil => simp
  | cons e t ih =>
    cases h : CutEntry.strike tag o e with
    | none => simpa [List.filterMap_cons, h] using ih.cons _
    | some e' => simpa [List.filterMap_cons, h, strike_position h] using ih

theorem strikeCuts (tag : Nat) (o : Option Nat) (h : P s) : P (strikeCuts tag o s) :=
  hc.resolveStop (hc.reviseSegment (hc.cuts s _ (strike_sublist ..) h))

theorem finishAborted (i : Nat) (h : P s) : P (finishAborted i s) := by
  unfold Machine.finishAborted
  split
  · split
    · refine hc.closeJob _ _ ?_
      unfold closeOwnCheck
      split
      · exact hc.closeUnchecked _ (hc.strikeCuts _ _ h)
      · exact hc.strikeCuts _ _ h
    · exact h
  · exact h

theorem decideFeed (i : Nat) (h : P s) : P (decideFeed i s) := by
  unfold Machine.decideFeed
  split
  · simp only
    split
    · exact hc.takeAdvance _ _ _ (hc.updJob _ _ h)
    · exact hc.updJob _ _ h
  · exact h

theorem tailFeed (h : P s) : P (tailFeed s) := by
  unfold Machine.tailFeed
  split
  · exact hc.decideFeed _ h
  · exact h

theorem pass (h : P s) : P (pass s) := by
  unfold Machine.pass
  exact hc.tailFeed (foldl _ (fun _ _ h => hc.doneTest _ h) _
    (foldl _ (fun _ _ h => hc.finishAborted _ h) _ (hc.resolveStop h)))

theorem react (n : Nat) (h : P s) : P (react n s) := by
  induction n generalizing s with
  | zero => exact h
  | succ n ih =>
    unfold Machine.react
    split
    · exact h
    · exact ih (hc.pass h)

theorem askInk (r : HoldReason) (e : QEntry) (h : P s) : P (askInk r e s) := by
  unfold Machine.askInk
  split
  · exact foldl _ (fun _ _ h => hc.placeRequest _ _ h) _ h
  · exact h

theorem recordHold (i : Nat) (j : Job) (e : QEntry) (r : HoldReason) (h : P s) : P (recordHold i j e r s) := by
  unfold Machine.recordHold
  refine hc.askInk _ _ ?_
  split
  · exact hc.updJob _ _ h
  · exact hc.raise _ _ (hc.updJob _ _ h)

omit hc in
theorem residue_small (raw gain residue : Nat) : chargeResidue raw gain residue < Config.chargeDivisor :=
  Nat.mod_lt _ (by decide)

theorem reserve (drops : List DropEntry) (h : P s) : P (reserve drops s) := by
  unfold Machine.reserve
  refine foldl _ (fun t c h => ?_) _ h
  refine hc.chan t c _ (fun x _ => ⟨rfl, fun hx => ⟨hx.1, ?_⟩⟩) h
  exact residue_small (rawVolume (dropCounts drops c) (chanAt s c).cfg) (gainAt s c) (chanAt s c).residue

theorem grant (i : Nat) (e : QEntry) (h : P s) : P (grant i e s) := by
  have h1 : P (Machine.updEntry e.queueTag
      (fun x => { x with state := .granted, charges := some (chargesNow s e.drops), revoked := some false }) s) :=
    hc.entry s _ _ (fun x => ⟨rfl, .inr (.inr ⟨e.drops, rfl⟩)⟩) h
  exact hc.send _ (hc.rcFree _ _ _ _ (hc.updJob _ _ (hc.reserve e.drops h1)))

theorem admission (n : Nat) (h : P s) : P (admission n s) := by
  induction n generalizing s with
  | zero => exact h
  | succ n ih =>
    unfold Machine.admission
    split
    · exact h
    · split
      · exact h
      · split
        · exact h
        · split
          · exact hc.grant _ _ h
          · simp only
            split
            · exact hc.recordHold _ _ _ _ h
            · exact ih (hc.recordHold _ _ _ _ h)

/-- The reactions and admission keep every property that their updates keep. -/
theorem settle (h : P s) : P (settle s) := hc.syncCauses (hc.admission _ (hc.react _ h))

end ReactionClosed

end Sys2Proof.Machine
end

