-- ==== Sys2Proof/Laws/Settle.lean ====
section
/-! SUPPORT. What the reactions leave alone (`settle_kept`), and when none is due (`settle_resting`): together, what follows a command (`follows_settle`). -/

namespace Sys2Proof.Machine

/-- An update of one element that a view does not see. -/
theorem map_modify_of_eq {A B : Type} (g : A → B) (f : A → A) (c : Nat) (l : List A)
    (h : ∀ x, l[c]? = some x → g (f x) = g x) : (l.modify c f).map g = l.map g := by
  apply List.ext_getElem?
  intro i
  simp only [List.getElem?_map, List.getElem?_modify]
  by_cases hi : c = i
  · subst hi
    cases hx : l[c]? with
    | none => simp
    | some x => simp [h x hx]
  · cases l[i]? <;> simp [hi]

theorem kept_closed (k : State) : ReactionClosed (fun s => kept s = k) where
  out _ _ h := h
  conds _ _ _ _ h := h
  rcFree _ _ _ _ h := h
  entry _ _ _ _ h := h
  drop _ _ h := h
  chan s c f hf h := by
    rw [← h]
    simp only [kept, updChan_lc, updChan_rc, updChan_isc, updChan_mpc, updChan_ccu, updChan_cu, updChan_ss,
      updChan_pending, map_modify_of_eq _ _ _ _ (fun x hx => (hf x hx).1)]
  bay s b f hf h := by
    rw [← h]
    simp only [kept, updBay_lc, updBay_rc, updBay_isc, updBay_mpc, updBay_ccu, updBay_cu, updBay_ss,
      updBay_pending, map_modify_of_eq Bay.setup f b s.isc.bays (fun x _ => by simp [Bay.setup, hf])]
  pump _ _ _ _ _ h := h
  mpcFree _ _ _ _ _ _ _ _ h := h
  cuts _ _ _ h := h
  checks _ _ h := h
  scan _ _ _ _ _ h := h
  drain _ _ h := h
  ring _ _ h := h
  prints _ _ h := h
  record _ _ _ h := h

/-- No reaction moves what `kept` shows. -/
theorem settle_kept (s : State) : kept (settle s) = kept s := (kept_closed (kept s)).settle rfl

/-! ### Nothing is due -/

theorem jobAt_cases (s : State) (i : Nat) : jobAt s i = none ∨ ∃ j, jobAt s i = some j := by
  cases jobAt s i <;> simp

/-- A job in the table stands in the slot where it was found. -/
theorem jobAt_of_mem {s : State} {o : Option Job} (h : o ∈ s.rc.jobs) : ∃ i, jobAt s i = o := by
  obtain ⟨i, hi, rfl⟩ := List.getElem_of_mem h
  exact ⟨i, by simp [jobAt, List.getD_eq_getElem?_getD, List.getElem?_eq_getElem hi]⟩

/-- What holds of every live job and of an empty slot holds of the whole table. -/
theorem any_jobs_false {s : State} (f : Option Job → Bool) (h : ∀ i j, jobAt s i = some j → f (some j) = false)
    (h0 : f none = false) : s.rc.jobs.any f = false := by
  rw [List.any_eq_false]
  intro o ho
  obtain ⟨i, hi⟩ := jobAt_of_mem ho
  cases o with
  | none => simp [h0]
  | some j => simp [h i j hi]

/-- R23 to R28, R92: no round of reactions is due where no slot's job asks for one. -/
theorem quiet_of_jobs {s : State} (hs : stopFree s = false)
    (ha : ∀ i j, jobAt s i = some j → abortReady s i = false ∧ isDone s i = false ∧ awaitsFeed s (some j) = false) :
    quiet s = true := by
  have h1 : ∀ i, abortReady s i = false ∧ isDone s i = false := by
    intro i
    rcases jobAt_cases s i with h | ⟨j, h⟩
    · simp [abortReady, isDone, h]
    · exact ⟨(ha i j h).1, (ha i j h).2.1⟩
  have h2 : feedSlot s = none := by
    unfold feedSlot
    split
    · rw [List.findIdx?_eq_none_iff]
      intro o ho
      simpa using List.any_eq_false.1 (any_jobs_false (awaitsFeed s) (fun i j hj => (ha i j hj).2.2) rfl) o ho
    · rfl
  simp [quiet, hs, h1, h2]

/-- R23 to R28: where every job is OPEN no reaction is due. -/
theorem quiet_of_open {s : State} (h : ∀ i j, jobAt s i = some j → j.state = .opened) (hs : stopFree s = false) :
    quiet s = true :=
  quiet_of_jobs hs (fun i j hj => by simp [abortReady, isDone, awaitsFeed, hj, h i j hj])

/-- R9: without a QUEUED entry at the head of the queue nothing is considered. -/
theorem considered_none {s : State} (h : ∀ e, s.rc.queue.head? = some e → e.state ≠ .queued) : considered s = none := by
  unfold considered
  split
  · rfl
  · rename_i e t hq
    rw [if_neg]
    rintro ⟨he, _⟩
    exact h e (by simp [hq]) he

/-- A state with every job OPEN, no QUEUED entry at the head of the queue and the executor at no released stop is at rest. -/
theorem resting_of_open {s : State} (h : ∀ i j, jobAt s i = some j → j.state = .opened)
    (hq : ∀ e, s.rc.queue.head? = some e → e.state ≠ .queued) (hs : stopFree s = false) : Resting s :=
  ⟨quiet_of_open h hs, by simp [considered_none hq]⟩

theorem react_quiet {s : State} (h : quiet s = true) (n : Nat) : react n s = s := by
  cases n with
  | zero => rfl
  | succ n => unfold react; rw [if_pos h]

/-- R11: a request for a channel that is not IDLE or QUEUED changes nothing, and an unmarked one for a QUEUED channel neither. -/
theorem placeRequest_none {s : State} {c : Nat} (h : (chanAt s c).refill ≠ .idle) : placeRequest c false s = s := by
  unfold placeRequest
  cases hr : (chanAt s c).refill with
  | idle => exact absurd hr h
  | _ => simp [hr]

theorem foldl_placeRequest_none {s : State} (l : List Nat) (h : ∀ c ∈ l, (chanAt s c).refill ≠ .idle) :
    l.foldl (fun t c => placeRequest c false t) s = s := by
  induction l with
  | nil => rfl
  | cons c t ih =>
    rw [List.foldl_cons, placeRequest_none (h c (by simp))]
    exact ih (fun d hd => h d (by simp [hd]))

/-- R11: a hold reason that asks for no refill. -/
theorem askInk_none {s : State} {r : HoldReason} {e : QEntry}
    (h : r.asksInk = true → ∀ c ∈ dropChannels e.drops, wantsInk s e c = true → (chanAt s c).refill ≠ .idle) :
    askInk r e s = s := by
  unfold askInk
  split
  · rename_i ha
    exact foldl_placeRequest_none _ (fun c hc => h ha c (List.mem_filter.1 hc).1 (List.mem_filter.1 hc).2)
  · rfl

/-- An update that leaves a slot's job as it is changes nothing. -/
theorem updJob_same {s : State} {slot : Nat} {j : Job} (f : Job → Job) (hj : jobAt s slot = some j) (hf : f j = j) :
    updJob slot f s = s := by
  have : s.rc.jobs.modify slot (fun o => o.map f) = s.rc.jobs := by
    apply List.ext_getElem?
    intro i
    rw [List.getElem?_modify]
    by_cases hi : slot = i
    · subst hi
      simp only [jobAt, List.getD_eq_getElem?_getD] at hj
      cases ho : s.rc.jobs[slot]? with
      | none => simp
      | some o => rw [ho] at hj; simp only [Option.getD_some] at hj; subst hj; simp [hf]
    · simp [hi]
  unfold updJob
  rw [this]

/-- R10, R11: a swath held again as it was. -/
theorem recordHold_same {s : State} {slot : Nat} {j : Job} {e : QEntry} {r : HoldReason} (hj : jobAt s slot = some j)
    (hr : j.hold = some r)
    (h : r.asksInk = true → ∀ c ∈ dropChannels e.drops, wantsInk s e c = true → (chanAt s c).refill ≠ .idle) :
    recordHold slot j e r s = s := by
  unfold recordHold
  simp only [if_pos hr]
  rw [updJob_same _ hj (by cases j; simp_all), askInk_none h]

/-- Where no reaction is due, a command's end clears the causes that ended and does nothing else. -/
theorem settle_resting {s : State} (h : Resting s) : settle s = syncCauses s := by
  have h2 : admission 11 s = s := by
    unfold admission
    cases hc : considered s with
    | none => rfl
    | some e =>
      obtain ⟨slot, j, r, h1, h2, h3, h4, h5⟩ := h.2 e hc
      simp only [h1, h2, h4, recordHold_same h2 h3 h5, if_true]
  unfold settle
  rw [react_quiet h.1, h2]

/-- R7: the mark is looked at as `roomed` says. -/
theorem roomRose_eq (s : State) : roomRose s = roomed s := by
  unfold roomRose roomed
  simp only [Bool.and_eq_true, decide_eq_true_eq]
  rfl

/-- The job in a slot after an update of one job. -/
theorem jobAt_modify {s y : State} (i n : Nat) (f : Job → Job) (h : y.rc.jobs = s.rc.jobs.modify i (fun o => o.map f)) :
    jobAt y n = if i = n then (jobAt s n).map f else jobAt s n := by
  simp only [jobAt, h, List.getD_eq_getElem?_getD, List.getElem?_modify]
  by_cases hin : i = n
  · subst hin; cases s.rc.jobs[i]? <;> simp
  · simp [hin]

/-- R23 to R28: nothing follows where every job but one is OPEN and that one is neither done, nor ready, nor due to feed. -/
theorem settle_one {s y : State} {i : Nat} {j : Job} {f : Job → Job} (hj : jobAt s i = some j)
    (hy : y.rc.jobs = s.rc.jobs.modify i (fun o => o.map f))
    (ho : ∀ n k, n ≠ i → jobAt s n = some k → k.state = .opened) (hs : stopFree y = false)
    (hq : ∀ e, y.rc.queue.head? = some e → e.state ≠ .queued)
    (hr : abortReady y i = false ∧ isDone y i = false ∧ awaitsFeed y (some (f j)) = false) : settle y = syncCauses y := by
  refine settle_resting ⟨quiet_of_jobs hs ?_, by simp [considered_none hq]⟩
  intro n k hk
  have hk' := hk
  rw [jobAt_modify i n f hy] at hk
  split at hk
  · rename_i hin; subst hin
    rw [hj] at hk; cases hk
    exact hr
  · rename_i hin
    simp [abortReady, isDone, awaitsFeed, hk', ho n k (fun h => hin h.symm) hk]

theorem follows_settle (s : State) : Follows s (settle s) := ⟨rfl, settle_kept s, settle_resting⟩

end Sys2Proof.Machine
end

