-- ==== Sys2Proof/Laws/Components.lean ====
section
/-! SUPPORT. A property that no component-wise change spoils: each component may be replaced by one that keeps the forms of Safety.lean. Every such property is closed under the reactions (`reactions`). -/

namespace Sys2Proof.Machine

/-- A change that keeps every form of Safety.lean. -/
structure FormStep (s t : State) : Prop where
  link : LinkForm s.lc → LinkForm t.lc
  table : TableForm s.lc.conds → TableForm t.lc.conds
  queue : QueueForm s.rc.queue → QueueForm t.rc.queue
  ink : InkForm s → InkForm t
  gain : GainForm s → GainForm t
  roll : RollForm s → RollForm t
  cut : CutForm s.mpc.cuts → CutForm t.mpc.cuts
  hold : HoldForm s → HoldForm t
  ring : RingForm s.ccu → RingForm t.ccu
  record : RecordForm s → RecordForm t

/-- A property that every change which keeps the forms keeps. -/
def StepClosed (P : State → Prop) : Prop := ∀ s t, FormStep s t → P s → P t

namespace StepClosed

variable {P : State → Prop} (hc : StepClosed P) {s : State}
include hc

/-! ### Changes of one component -/

theorem lc (s : State) (l : Lc) (h1 : LinkForm s.lc → LinkForm l) (h2 : TableForm s.lc.conds → TableForm l.conds)
    (h3 : HoldForm s → HoldForm { s with lc := l }) (h : P s) : P { s with lc := l } :=
  hc s _ ⟨h1, h2, fun k => k, fun k => k, fun k => k, fun k => k, fun k => k, h3, fun k => k, fun k => k⟩ h

theorem rc (s : State) (r : Rc) (h1 : QueueForm s.rc.queue → QueueForm r.queue)
    (h2 : InkForm s → InkForm { s with rc := r }) (h : P s) : P { s with rc := r } :=
  hc s _ ⟨fun k => k, fun k => k, h1, h2, fun k => k, fun k => k, fun k => k, fun k => k, fun k => k, fun k => k⟩ h

theorem isc (s : State) (i : Isc) (h1 : InkForm s → InkForm { s with isc := i })
    (h2 : GainForm s → GainForm { s with isc := i }) (h3 : HoldForm s → HoldForm { s with isc := i }) (h : P s) :
    P { s with isc := i } :=
  hc s _ ⟨fun k => k, fun k => k, fun k => k, h1, h2, fun k => k, fun k => k, h3, fun k => k, fun k => k⟩ h

theorem mpc (s : State) (m : Mpc) (h1 : RollForm s → RollForm { s with mpc := m })
    (h2 : CutForm s.mpc.cuts → CutForm m.cuts) (h3 : HoldForm s → HoldForm { s with mpc := m }) (h : P s) :
    P { s with mpc := m } :=
  hc s _ ⟨fun k => k, fun k => k, fun k => k, fun k => k, fun k => k, h1, h2, h3, fun k => k, fun k => k⟩ h

theorem ccu (s : State) (c : Ccu) (h1 : RingForm s.ccu → RingForm c) (h : P s) : P { s with ccu := c } :=
  hc s _ ⟨fun k => k, fun k => k, fun k => k, fun k => k, fun k => k, fun k => k, fun k => k, fun k => k, h1, fun k => k⟩ h

theorem cu (s : State) (c : Cu) (h1 : RecordForm s → RecordForm { s with cu := c }) (h : P s) : P { s with cu := c } :=
  hc s _ ⟨fun k => k, fun k => k, fun k => k, fun k => k, fun k => k, fun k => k, fun k => k, fun k => k, fun k => k, h1⟩ h

theorem ss (s : State) (x : Ss) (h1 : GainForm s → GainForm { s with ss := x }) (h : P s) : P { s with ss := x } :=
  hc s _ ⟨fun k => k, fun k => k, fun k => k, fun k => k, h1, fun k => k, fun k => k, fun k => k, fun k => k, fun k => k⟩ h

theorem out (s : State) (l : List Sent) (h : P s) : P { s with out := l } :=
  hc s _ ⟨fun k => k, fun k => k, fun k => k, fun k => k, fun k => k, fun k => k, fun k => k, fun k => k, fun k => k, fun k => k⟩ h

theorem pending (s : State) (l : List Instr) (h : P s) : P { s with pending := l } :=
  hc s _ ⟨fun k => k, fun k => k, fun k => k, fun k => k, fun k => k, fun k => k, fun k => k, fun k => k, fun k => k, fun k => k⟩ h

/-! ### Changes that touch no form -/

/-- A change that leaves every record with a form as it was, and keeps the form of a hold. -/
theorem freeMove {t : State} (h : P s) (hh : HoldForm s → HoldForm t)
    (e : t.lc.buffer = s.lc.buffer ∧ t.lc.busy = s.lc.busy ∧ t.lc.noticeSeq = s.lc.noticeSeq ∧ t.lc.conds = s.lc.conds
      ∧ t.rc.queue = s.rc.queue ∧ t.isc.chans = s.isc.chans ∧ t.isc.gains = s.isc.gains ∧ t.mpc.roll = s.mpc.roll
      ∧ t.mpc.cuts = s.mpc.cuts ∧ t.ccu.link = s.ccu.link ∧ t.ccu.ring = s.ccu.ring ∧ t.cu.records = s.cu.records
      ∧ t.ss.image = s.ss.image ∧ t.ss.store = s.ss.store) : P t := by
  obtain ⟨e1, e2, e3, e4, e5, e6, e7, e8, e9, e10, e11, e12, e13, e14⟩ := e
  refine hc s t ⟨?_, ?_, ?_, ?_, ?_, ?_, ?_, hh, ?_, ?_⟩ h
  · simp only [LinkForm, e1, e2, e3]
    exact fun k => k
  · rw [e4]
    exact fun k => k
  · rw [e5]
    exact fun k => k
  · simp only [InkForm, e5, e6]
    exact fun k => k
  · simp only [GainForm, e7, e13, e14]
    exact fun k => k
  · simp only [RollForm, e8]
    exact fun k => k
  · rw [e9]
    exact fun k => k
  · simp only [RingForm, e10, e11]
    exact fun k => k
  · simp only [RecordForm, e12]
    exact fun k => k

/-- A change that leaves every record with a form, the hold and the mechanisms as they were. -/
theorem free {t : State} (h : P s)
    (e : (t.lc.buffer = s.lc.buffer ∧ t.lc.busy = s.lc.busy ∧ t.lc.noticeSeq = s.lc.noticeSeq ∧ t.lc.conds = s.lc.conds
      ∧ t.rc.queue = s.rc.queue ∧ t.isc.chans = s.isc.chans ∧ t.isc.gains = s.isc.gains ∧ t.mpc.roll = s.mpc.roll
      ∧ t.mpc.cuts = s.mpc.cuts ∧ t.ccu.link = s.ccu.link ∧ t.ccu.ring = s.ccu.ring ∧ t.cu.records = s.cu.records
      ∧ t.ss.image = s.ss.image ∧ t.ss.store = s.ss.store)
      ∧ t.lc.hold = s.lc.hold ∧ t.isc.pump = s.isc.pump ∧ t.mpc.cutter = s.mpc.cutter ∧ t.mpc.exec = s.mpc.exec) : P t := by
  obtain ⟨e, m1, m2, m3, m4⟩ := e
  refine hc.freeMove h (fun hk hs => ?_) e
  rw [m2, m3, m4]
  exact hk (by simpa [held, m1] using hs)

/-- RC with the same queue. -/
theorem rcFree (r : Rc) (hq : r.queue = s.rc.queue) (h : P s) : P { s with rc := r } :=
  hc.free h (by and_intros <;> first | exact hq | rfl)

/-- CCU with the same link and ring. -/
theorem ccuFree (c : Ccu) (h1 : c.link = s.ccu.link) (h2 : c.ring = s.ccu.ring) (h : P s) : P { s with ccu := c } :=
  hc.free h (by and_intros <;> first | exact h1 | exact h2 | rfl)

/-- CU with the same closed records. -/
theorem cuFree (c : Cu) (h1 : c.records = s.cu.records) (h : P s) : P { s with cu := c } :=
  hc.free h (by and_intros <;> first | exact h1 | rfl)

/-! ### Changes of the records with a form -/

/-- A channel record rewritten so that its form is kept. -/
theorem chan (c : Nat) (f : Channel → Channel)
    (hf : ∀ x, s.isc.chans[c]? = some x → ChanForm x → ChanForm (f x)) (h : P s) : P (updChan c f s) := by
  refine hc.isc s _ (fun hk => ⟨?_, hk.2⟩) (fun hk => hk) (fun hk => hk) h
  intro y hy
  obtain ⟨i, hi⟩ := List.getElem?_of_mem hy
  rw [List.getElem?_modify] at hi
  by_cases hci : c = i
  · subst hci
    cases hx : s.isc.chans[c]? with
    | none => simp [hx] at hi
    | some x =>
      rw [hx] at hi
      simp only [if_true, Option.map_eq_map, Option.map_some, Option.some.injEq] at hi
      exact hi ▸ hf x hx (hk.1 x (List.mem_of_getElem? hx))
  · cases hx : s.isc.chans[i]? with
    | none => simp [hx] at hi
    | some x =>
      rw [hx] at hi
      simp only [hci, if_false, Option.map_eq_map, Option.map_some, Option.some.injEq] at hi
      exact hi ▸ hk.1 x (List.mem_of_getElem? hx)

omit hc in
theorem chargesNow_form (s : State) (d : List DropEntry) (hs : ∀ c ∈ s.isc.chans, ChanForm c) :
    ∀ r ∈ chargesNow s d, r.saved < Config.chargeDivisor := by
  intro r hr
  simp only [chargesNow, List.mem_map] at hr
  obtain ⟨c, _, rfl⟩ := hr
  simp only [chanAt, List.getD_eq_getElem?_getD]
  cases hx : s.isc.chans[c]? with
  | none => simp [Channel.afterReset]; decide
  | some x => exact (hs x (List.mem_of_getElem? hx)).2

theorem entry (t : Nat) (f : QEntry → QEntry) (hf : EntryStep s f) (h : P s) : P (updEntry t f s) := by
  refine hc.rc s _ (fun hk => ?_) (fun hk => ⟨hk.1, ?_⟩) h
  · refine ⟨by simpa using hk.1, ?_⟩
    have : (s.rc.queue.map (fun e => if e.queueTag = t then f e else e)).map (fun e => e.queueTag)
        = s.rc.queue.map (fun e => e.queueTag) := by
      rw [List.map_map]
      refine List.map_congr_left (fun e _ => ?_)
      simp only [Function.comp]
      split <;> simp [(hf e).1]
    rw [this]
    exact hk.2
  · intro e he
    obtain ⟨x, hx, rfl⟩ := List.mem_map.1 he
    split
    · intro l hl
      rcases (hf x).2 with h1 | h1 | ⟨d, h1⟩
      · exact hk.2 x hx l (h1 ▸ hl)
      · rw [h1] at hl; cases hl
      · rw [h1] at hl
        cases hl
        exact chargesNow_form s d hk.1
    · exact hk.2 x hx

theorem drop (p : QEntry → Bool) (h : P s) : P { s with rc.queue := s.rc.queue.filter p } :=
  hc.rc s _ (fun hk => ⟨(List.length_filter_le ..).trans hk.1, hk.2.sublist (List.filter_sublist.map _)⟩)
    (fun hk => ⟨hk.1, fun e he => hk.2 e (List.mem_filter.1 he).1⟩) h

theorem cuts (l : List CutEntry) (hl : CutForm s.mpc.cuts → CutForm l) (h : P s) : P { s with mpc.cuts := l } :=
  hc.mpc s _ (fun hk => hk) hl (fun hk => hk) h

omit hc in
theorem cutForm_sublist {l l' : List CutEntry} (h : CutForm l)
    (hl : List.Sublist (l'.map (fun e => e.position)) (l.map (fun e => e.position))) : CutForm l' :=
  ⟨by simpa using hl.length_le.trans (by simpa using h.1), h.2.sublist hl⟩

/-- Such a property is closed under the reactions. -/
theorem reactions : ReactionClosed P where
  out _ _ h := hc.out _ _ h
  conds s l b hl h := hc.lc s _ (fun hk => hk) hl (fun hk => hk) h
  rcFree s j b t h := hc.rcFree _ rfl h
  entry _ _ _ hf h := hc.entry _ _ hf h
  drop _ p h := hc.drop p h
  chan _ _ _ hf h := hc.chan _ _ (fun x hx => (hf x hx).2) h
  bay _ _ _ _ h := hc.free h (by and_intros <;> rfl)
  pump _ _ _ _ hh h := hc.freeMove h hh (by and_intros <;> rfl)
  mpcFree _ _ _ _ _ _ _ hh h := hc.freeMove h hh (by and_intros <;> rfl)
  cuts _ l hl h := hc.cuts l (fun hk => cutForm_sublist hk hl) h
  checks _ _ h := hc.ccuFree _ rfl rfl h
  scan s id n t hn h := hc.ccu s _ (fun hk => ⟨hk.1, Nat.zero_le _, by
    have := hk.1
    simp only [ringFree] at hn
    simp only
    omega⟩) h
  drain s t h := hc.ccu s _ (fun hk => ⟨hk.1, trivial⟩) h
  ring s k h := hc.ccu s _ (fun hk => by
    refine ⟨(List.length_take_le' _ _).trans hk.1, ?_⟩
    have hk := hk.2
    simp only at hk ⊢
    split
    · rename_i hl
      rw [hl] at hk
      have := List.length_take_le' k s.ccu.ring
      simp only at hk
      omega
    · trivial) h
  prints _ _ h := hc.cuFree _ rfl h
  record s r hr h := hc.cu s _ (fun _ => by
    simp only [recordsFull, decide_eq_false_iff_not] at hr
    simp only [RecordForm, List.length_append, List.length_singleton]
    omega) h

end StepClosed

end Sys2Proof.Machine
end

