-- ==== Sys2Proof/Laws/CommandOps.lean ====
section
/-! SUPPORT. The operations of the commands outside the reactions keep what the reactions keep: one lemma for each. -/

namespace Sys2Proof.Machine.StepClosed

variable {P : State → Prop} (hc : StepClosed P) {s : State}
include hc

/-! ### Requests -/

theorem begin (h : P s) : P (begin s) := hc.out s _ h

theorem markChanged (h : P s) : P (markChanged s) := hc.ss s _ (fun hk => ⟨hk.1, hk.2.1, hk.2.2⟩) h

theorem dropPlan (h : P s) : P (dropPlan s) := hc.free h (by and_intros <;> rfl)

theorem form (kind : Nat) (ft : Byte) (m : Bool) (t : Taken) (h : P t.state) : P (form kind ft m t) :=
  hc.free h (by and_intros <;> rfl)

theorem carryOut (kind : Nat) (ft : Byte) (f : State → Taken) (hf : ∀ s, P s → P (f s).state) (h : P s) :
    P (carryOut kind ft f s) := hc.form _ _ _ _ (hf _ (hc.dropPlan (hc.begin h)))

theorem carryKeep (kind : Nat) (ft : Byte) (f : State → Taken) (hf : ∀ s, P s → P (f s).state) (h : P s) :
    P (carryKeep kind ft f s) := hc.form _ _ _ _ (hf _ (hc.begin h))

theorem settled (t : Taken) (h : P t.state) : P t.settled.state := hc.reactions.settle h

/-! ### Ink -/

/-- A channel record rewritten without its settings, level or residue. -/
theorem chanPlain (c : Nat) (f : Channel → Channel) (hcfg : ∀ x, (f x).cfg = x.cfg) (hl : ∀ x, (f x).level = x.level)
    (hr : ∀ x, (f x).residue = x.residue) (h : P s) : P (updChan c f s) :=
  hc.chan c f (fun x _ hx => by simpa [ChanForm, hcfg, hl, hr] using hx) h

omit hc in
theorem spend_form (n : Nat) {c : Channel} (h : ChanForm c) : ChanForm (spend n c) := by
  unfold Machine.spend
  split
  · exact h
  · rename_i l hl
    refine ⟨?_, h.2⟩
    rintro _ ⟨⟩
    exact (Nat.sub_le _ _).trans (h.1 l hl)

omit hc in
theorem spend_cfg (n : Nat) (c : Channel) : (spend n c).cfg = c.cfg := by
  unfold Machine.spend
  split <;> rfl

theorem commitTrigger (ch : Nat) (h : P s) : P (commitTrigger s ch) := by
  unfold Machine.commitTrigger
  simp only
  split <;> split
  all_goals first
    | exact hc.reactions.placeRequest _ _ h
    | exact h

theorem commit (l : List ChargeRec) (h : P s) : P (commit l s) := by
  unfold Machine.commit
  refine ReactionClosed.foldl _ (fun _ _ h => hc.commitTrigger _ h) _
    (ReactionClosed.foldl _ (fun t r h => hc.chan _ _ (fun x _ hx => ?_) h) _ h)
  exact ⟨(spend_form r.charge hx).1, (spend_form r.charge hx).2⟩

/-- R37: a release writes back residues that an entry of the queue saved. -/
theorem release {e : QEntry} (he : e ∈ s.rc.queue) {l : List ChargeRec} (hl : ∀ r ∈ l, ∃ m, e.charges = some m ∧ r ∈ m)
    (h : P s) : P (release l s) := by
  unfold Machine.release
  induction l generalizing s with
  | nil => exact h
  | cons r t ih =>
    have h1 : P (Machine.updChan r.channel (fun c => { c with reserved := 0, residue := r.saved }) s) := by
      refine hc.isc s _ (fun hk => ⟨?_, hk.2⟩) (fun hk => hk) (fun hk => hk) h
      intro y hy
      obtain ⟨i, hi⟩ := List.getElem?_of_mem hy
      rw [List.getElem?_modify] at hi
      cases hx : s.isc.chans[i]? with
      | none => simp [hx] at hi
      | some x =>
        have hform := hk.1 x (List.mem_of_getElem? hx)
        rw [hx] at hi
        by_cases hci : r.channel = i
        · simp only [hci, if_true, Option.map_eq_map, Option.map_some, Option.some.injEq] at hi
          obtain ⟨m, hm, hrm⟩ := hl r (by simp)
          exact hi ▸ ⟨hform.1, hk.2 e he m hm r hrm⟩
        · simp only [hci, if_false, Option.map_eq_map, Option.map_some, Option.some.injEq] at hi
          exact hi ▸ hform
    exact ih (s := Machine.updChan r.channel (fun c => { c with reserved := 0, residue := r.saved }) s) he
      (fun r' hr' => hl r' (List.mem_cons_of_mem _ hr')) h1

theorem updHouse (f : Account → Account) (h : P s) : P (updHouse f s) := hc.cuFree _ rfl h

theorem updOwner (o : Owner) (f : Account → Account) (h : P s) : P (updOwner o f s) := by
  unfold Machine.updOwner
  split
  · exact hc.cuFree _ rfl h
  · exact hc.updHouse _ h

theorem forceCommit (ch : Nat) (n : Counts) (h : P s) : P (forceCommit ch n s) := by
  unfold Machine.forceCommit
  refine hc.updHouse _ (hc.chan _ _ (fun x _ hx => ?_) h)
  exact ⟨(spend_form _ hx).1, ReactionClosed.residue_small
    (rawVolume n (chanAt s ch).cfg) (gainAt s ch) (chanAt s ch).residue⟩

theorem cleanAll (l : List Counts) (h : P s) : P (cleanAll l s) := by
  unfold Machine.cleanAll
  exact ReactionClosed.foldl _ (fun _ _ h => hc.commitTrigger _ h) _
    (ReactionClosed.foldl _ (fun _ _ h => hc.forceCommit _ _ h) _ h)

theorem bays (l : List Bay) (h : P s) : P { s with isc.bays := l } := hc.free h (by and_intros <;> rfl)

theorem updBay (b : Nat) (f : Bay → Bay) (h : P s) : P (updBay b f s) := hc.free h (by and_intros <;> rfl)

theorem emptyBay (b : Nat) (h : P s) : P (emptyBay b s) := hc.reactions.raise _ _ (hc.updBay _ _ h)

/-- A channel record whose level rises within its room. -/
theorem raiseLevel (d : Draw) (moved : Nat) (r : Refill)
    (hm : moved ≤ (chanAt s d.channel).cfg.full - (chanAt s d.channel).level.getD 0) (h : P s) :
    P (Machine.updChan d.channel (fun c => { Machine.raiseLevel moved c with refill := r }) s) := by
  refine hc.chan _ _ (fun x hx hform => ⟨?_, hform.2⟩) h
  have hx' : chanAt s d.channel = x := by simp [chanAt, List.getD_eq_getElem?_getD, hx]
  rw [hx'] at hm
  intro l hl
  simp only [Machine.raiseLevel, Option.map_eq_some_iff] at hl
  obtain ⟨l0, h0, rfl⟩ := hl
  have := hform.1 l0 h0
  simp only [h0, Option.getD_some] at hm
  simp only [Machine.raiseLevel]
  omega

theorem endDrawExpiry (d : Draw) (h : P s) : P (endDrawExpiry d s) := by
  unfold Machine.endDrawExpiry
  exact hc.reactions.pumpServe (hc.reactions.raise _ _ (hc.reactions.stopPump _ rfl (hc.updBay _ _
    (hc.raiseLevel { d with elapsed := d.limit } _ _ ((Nat.min_le_right _ _).trans (Nat.min_le_right _ _)) h))))

theorem endDrawRemoval (d : Draw) (h : P s) : P (endDrawRemoval d s) := by
  unfold Machine.endDrawRemoval
  exact hc.reactions.pumpServe (hc.reactions.placeRequest _ _ (hc.reactions.raise _ _ (hc.emptyBay _
    (hc.reactions.stopPump _ rfl (hc.raiseLevel d _ _ (Nat.min_le_right _ _) h)))))

theorem endDrawSoft (d : Draw) (h : P s) : P (endDrawSoft d s) := by
  unfold Machine.endDrawSoft
  exact hc.reactions.debitAndWrite _ _ (hc.reactions.stopPump _ rfl
    (hc.raiseLevel d _ _ ((Nat.min_le_right _ _).trans (Nat.min_le_right _ _)) h))

theorem leaveDry (ch : Nat) (h : P s) : P (leaveDry ch s) :=
  hc.reactions.placeRequest _ _ (hc.chanPlain _ _ (fun _ => rfl) (fun _ => rfl) (fun _ => rfl) h)

theorem bayReady (b : Nat) (h : P s) : P (bayReady b s) := ReactionClosed.foldl _ (fun _ _ h => hc.leaveDry _ h) _ h

omit hc in
/-- A gain table stays in its range where every value written is in it. -/
theorem gainsIn_write {g : List Nat} (hg : GainsIn g) {l : List (Nat × Nat)}
    (hl : ∀ p ∈ l, Config.gainMin ≤ p.2 ∧ p.2 ≤ Config.gainMax) : GainsIn (l.foldl (fun g p => g.set p.1 p.2) g) := by
  induction l generalizing g with
  | nil => exact hg
  | cons p t ih =>
    refine ih (fun x hx => ?_) (fun q hq => hl q (List.mem_cons_of_mem _ hq))
    rcases List.mem_or_eq_of_mem_set hx with h | rfl
    · exact hg x h
    · exact hl p (by simp)

/-- R61: a gain write of values inside the range. -/
theorem gainWrite (l : List (Nat × Nat)) (hl : ∀ p ∈ l, Config.gainMin ≤ p.2 ∧ p.2 ≤ Config.gainMax) (h : P s) :
    P (gainWrite l s) := by
  unfold Machine.gainWrite
  exact hc.markChanged (hc.cuFree _ rfl (hc.isc s _ (fun hk => hk) (fun hk => ⟨gainsIn_write hk.1 hl, hk.2⟩)
    (fun hk => hk) h))

/-! ### Accounts -/

theorem openHouse (h : P s) : P (openHouse s) := hc.cuFree _ rfl h

theorem endCause (c : Cond) (sub : Option Nat) (h : P s) : P (endCause c sub s) :=
  hc.lc s _ (fun hk => hk) (endCause_form c sub s) (fun hk => hk) h

theorem readClass (k : Nat) (h : P s) : P (readClass k s) := hc.lc s _ (fun hk => hk) (readTable_form k _) (fun hk => hk) h

theorem setCutLost (o : CutOwner) (h : P s) : P (setCutLost o s) := by
  unfold Machine.setCutLost
  split
  · exact hc.updHouse _ h
  · split
    · exact hc.cuFree _ rfl h
    · exact h

/-! ### The grant's end -/

theorem advanceSwath (i : Nat) (e : QEntry) (h : P s) : P (advanceSwath i e s) := by
  have h1 := hc.entry e.queueTag (fun e => { e with state := .advancing }) (fun _ => ⟨rfl, .inl rfl⟩) h
  unfold Machine.advanceSwath
  simp only
  split
  · exact hc.reactions.retire _ h1
  · exact hc.reactions.takeAdvance _ _ _ h1

theorem endGrant (b : Bool) (e : QEntry) (h : P s) : P (endGrant b e s) := by
  have h2 := hc.commit (e.charges.getD []) (hc.entry e.queueTag (fun e => { e with state := .fired })
    (fun _ => ⟨rfl, .inl rfl⟩) (hc.rcFree { s.rc with fireTimer := none } rfl h))
  unfold Machine.endGrant
  simp only
  split
  · refine hc.advanceSwath _ _ (hc.reactions.stripEvents _ _ ?_)
    split
    · exact hc.reactions.raise _ _ (hc.reactions.updJob _ _ (hc.reactions.updPrint _ _ h2))
    · exact hc.reactions.updJob _ _ (hc.reactions.updPrint _ _ h2)
  · exact h2

theorem breakGrant (h : P s) : P (breakGrant s) := by
  unfold Machine.breakGrant
  split
  · exact hc.endGrant _ _ h
  · exact h

end Sys2Proof.Machine.StepClosed
end

