-- ==== Sys2Proof/Laws/Commands.lean ====
section
/-! SUPPORT. Every command keeps what its operations keep: one lemma for each request's taking and each event, and `step_closed` for the step. -/

namespace Sys2Proof.Machine

/-! ### RESUME, in the terms of the reactions -/

/-- The reactions do not end a hold, nor begin one. -/
theorem held_closed : ReactionClosed (fun s => held s = false) where
  out _ _ h := h
  conds _ _ _ _ h := h
  rcFree _ _ _ _ h := h
  entry _ _ _ _ h := h
  drop _ _ h := h
  chan _ _ _ _ h := h
  bay _ _ _ _ h := h
  pump _ _ _ _ _ h := h
  mpcFree _ _ _ _ _ _ _ _ h := h
  cuts _ _ _ h := h
  checks _ _ h := h
  scan _ _ _ _ _ h := h
  drain _ _ h := h
  ring _ _ h := h
  prints _ _ h := h
  record _ _ _ h := h

namespace ReactionClosed

variable {P : State → Prop} (hc : ReactionClosed P) {s : State}
include hc

theorem resumePump (hh : held s = false) (h : P s) : P (resumePump s) := by
  unfold Machine.resumePump
  split
  · rename_i d _
    have h1 := hc.setPump (.running d) (fun _ => holdForm_of_not_held (by simpa [held] using hh)) h
    simp only
    split
    · exact hc.pumpServe (hc.endDrawFull _ h1)
    · exact h1
  · exact hc.pumpServe h

theorem uncut (h : P s) : P (uncut s) := by
  refine hc.cuts s _ ?_ h
  have : (s.mpc.cuts.map (fun e => if e.state = .cutting then { e with state := .due } else e)).map (fun e => e.position)
      = s.mpc.cuts.map (fun e => e.position) := by
    rw [List.map_map]
    refine List.map_congr_left (fun e _ => ?_)
    simp only [Function.comp]
    split <;> rfl
  rw [this]

theorem resumeCutter (hh : held s = false) (h : P s) : P (resumeCutter s) := by
  have set : ∀ (t : State) (c : Cutter), held t = false → P t → P { t with mpc.cutter := c } := fun t c ht hp =>
    hc.mpcFree t t.mpc.exec t.mpc.settle t.mpc.moved t.mpc.resetWindow c t.mpc.strokeTimer
      (fun _ => holdForm_of_not_held (by simpa [held] using ht)) hp
  unfold Machine.resumeCutter
  split
  · rename_i mid _
    cases mid
    · simp only [Bool.false_eq_true, if_false]
      split
      · exact set _ _ hh h
      · exact hc.raise _ _ (set _ _ hh h)
    · simp only [if_true]
      split
      · exact set (Machine.uncut s) _ hh (hc.uncut h)
      · exact hc.raise _ _ (set (Machine.uncut s) _ hh (hc.uncut h))
  · exact h

theorem resumeExec (hh : held s = false) (h : P s) : P (resumeExec s) := by
  unfold Machine.resumeExec
  split
  · exact hc.runOn _ (fun _ => hh) h
  · exact h

end ReactionClosed

/-- No hold is in effect while RESUME brings the mechanisms back. -/
theorem held_resumed (s : State) (h : held s = false) : held (resumeCutter (resumePump s)) = false :=
  held_closed.resumeCutter (held_closed.resumePump h h) (held_closed.resumePump h h)

namespace StepClosed

variable {P : State → Prop} (hc : StepClosed P) {s : State}
include hc

/-! ### Requests of LC -/

theorem takeRead (k : Nat) (h : P s) : P (takeRead k s).state := hc.readClass _ h

theorem endHold (h : P s) : P (endHold s) := by
  have h0 : P { s with lc.hold := .none } := hc.freeMove h (fun _ => holdForm_of_not_held rfl) (by and_intros <;> rfl)
  exact hc.reactions.send _ (hc.reactions.resumeExec (held_resumed _ rfl)
    (hc.reactions.resumeCutter (held_closed.resumePump rfl rfl) (hc.reactions.resumePump rfl h0)))

theorem takeResume (h : P s) : P (takeResume s).state := by
  unfold Machine.takeResume
  split
  · exact hc.settled _ (hc.endHold h)
  · exact h

/-! ### Requests of RC -/

theorem openJob (i : Nat) (c : Option Nat) (tag media : Nat) (p : Policy) (set flags : Nat) (h : P s) :
    P (openJob i c tag media p set flags s) := by
  unfold Machine.openJob
  refine hc.cuFree _ rfl ?_
  split
  · exact hc.reactions.updCheck _ _ (hc.reactions.setJob _ _ h)
  · exact hc.reactions.setJob _ _ h

theorem takeJobOpen (tag media policy set flags : Nat) (h : P s) : P (takeJobOpen tag media policy set flags s).state := by
  unfold Machine.takeJobOpen
  split
  · exact h
  · split
    · exact h
    · split
      · exact h
      · split
        · exact h
        · split
          · exact h
          · split
            · exact hc.openJob _ none _ _ _ _ _ h
            · split
              · exact h
              · exact hc.openJob _ (some _) _ _ _ _ _ h

omit hc in
/-- R4: the tag assigned is not in use: at most 65 of the 256 values are. -/
theorem nextTag_fresh {s : State} (hq : s.rc.queue.length ≤ Config.queueSize) :
    ∀ e ∈ s.rc.queue, e.queueTag ≠ nextTag s := by
  have hfind : ∃ t, ((List.range 256).map (fun i => (s.rc.tagCounter + i) % 256)).find? (fun t => !tagTaken s t) = some t := by
    by_contra hno
    have hall : ∀ i < 256, tagTaken s ((s.rc.tagCounter + i) % 256) = true := by
      intro i hi
      by_contra hi'
      apply hno
      cases hf : ((List.range 256).map (fun i => (s.rc.tagCounter + i) % 256)).find? (fun t => !tagTaken s t) with
      | some t => exact ⟨t, rfl⟩
      | none =>
        rw [List.find?_eq_none] at hf
        exact absurd (hf ((s.rc.tagCounter + i) % 256)
          (List.mem_map.2 ⟨i, List.mem_range.2 hi, rfl⟩)) (by simpa using hi')
    have hsub : (Finset.range 256) ⊆
        (s.rc.queue.map (fun e => e.queueTag)).toFinset ∪ s.rc.stale.toList.toFinset := by
      intro t ht
      have ht' : t < 256 := Finset.mem_range.1 ht
      have := hall ((t + 256 - s.rc.tagCounter % 256) % 256) (Nat.mod_lt _ (by decide))
      rw [show (s.rc.tagCounter + (t + 256 - s.rc.tagCounter % 256) % 256) % 256 = t by omega] at this
      simp only [tagTaken, Bool.or_eq_true, List.any_eq_true, beq_iff_eq] at this
      rcases this with ⟨e, he, rfl⟩ | h
      · simp only [Finset.mem_union, List.mem_toFinset, List.mem_map]
        exact .inl ⟨e, he, rfl⟩
      · simp [h]
    have hcard := Finset.card_le_card hsub
    have h1 := Finset.card_union_le (s.rc.queue.map (fun e => e.queueTag)).toFinset s.rc.stale.toList.toFinset
    have h2 := List.toFinset_card_le (s.rc.queue.map (fun e => e.queueTag))
    have h3 := List.toFinset_card_le s.rc.stale.toList
    have h4 : s.rc.stale.toList.length ≤ 1 := by cases s.rc.stale <;> simp
    have h5 : Config.queueSize = 64 := rfl
    simp only [List.length_map, Finset.card_range] at *
    omega
  obtain ⟨t, ht⟩ := hfind
  have hnext : nextTag s = t := by simp [nextTag, ht]
  have hfree := List.find?_some ht
  rw [hnext]
  intro e he heq
  simp only [tagTaken, Bool.not_eq_true', Bool.or_eq_false_iff, List.any_eq_false] at hfree
  exact hfree.1 e he (by simpa using heq)

theorem putSwath (i : Nat) (d : Descriptor) (k : SwathKind) (hq : s.rc.queue.length < Config.queueSize) (h : P s) :
    P (putSwath i d k s) := by
  have h1 : P { s with rc.queue := s.rc.queue ++ [newEntry d k (nextTag s)], rc.tagCounter := (nextTag s + 1) % 256 } := by
    refine hc.rc s _ (fun hk => ⟨?_, ?_⟩) (fun hk => ⟨hk.1, ?_⟩) h
    · simp only [List.length_append, List.length_singleton]
      omega
    · simp only [List.map_append, List.map_cons, List.map_nil]
      refine hk.2.append (by simp) ?_
      intro t ht ht'
      simp only [List.mem_singleton] at ht'
      obtain ⟨e, he, rfl⟩ := List.mem_map.1 ht
      exact nextTag_fresh hk.1 e he ht'
    · intro e he
      rcases List.mem_append.1 he with he | he
      · exact hk.2 e he
      · rw [List.mem_singleton.1 he]
        intro l hl
        cases hl
  unfold Machine.putSwath Machine.markBelow
  simp only
  split
  · exact hc.rcFree _ rfl (hc.reactions.updJob _ _ h1)
  · exact hc.reactions.updJob _ _ h1

theorem takeSwathPut (d : Descriptor) (h : P s) : P (takeSwathPut d s).state := by
  unfold Machine.takeSwathPut
  split
  · exact h
  · split
    · exact h
    · split
      · exact h
      · split
        · exact h
        · rename_i hq
          split
          · exact h
          · split
            · exact h
            · split
              · exact h
              · exact hc.settled _ (hc.putSwath _ _ _ (by omega) h)

theorem takeJobEnd (tag : Nat) (h : P s) : P (takeJobEnd tag s).state := by
  unfold Machine.takeJobEnd
  split
  · exact h
  · split
    · exact h
    · split
      · exact h
      · exact hc.settled _ (hc.reactions.endIfEmpty _ (hc.reactions.updJob _ _ h))

theorem abortJob (i tag : Nat) (h : P s) : P (abortJob i tag s) := by
  have h1 : P (withdraw i tag s) := by
    unfold withdraw
    simp only
    split
    · exact hc.reactions.updJob _ _ (hc.drop _ h)
    · exact hc.reactions.roomRose (hc.reactions.updJob _ _ (hc.drop _ h))
  unfold Machine.abortJob
  refine hc.reactions.updJob _ _ ?_
  unfold revokeGrant
  split
  · split
    · exact hc.reactions.send _ (hc.entry _ _ (fun _ => ⟨rfl, .inl rfl⟩) h1)
    · exact h1
  · exact h1

theorem takeJobAbort (tag : Nat) (h : P s) : P (takeJobAbort tag s).state := by
  unfold Machine.takeJobAbort
  split
  · exact h
  · split
    · exact h
    · split
      · exact h
      · exact hc.reactions.updJob _ _ h
      · exact hc.settled _ (hc.abortJob _ _ h)

theorem takeQueueMark (v : Nat) (h : P s) : P (takeQueueMark v s).state := by
  unfold Machine.takeQueueMark
  split
  · exact h
  · split
    · exact h
    · exact hc.markChanged (hc.rcFree _ rfl h)

/-! ### Requests of ISC -/

theorem takeChanSet (c : Nat) (cfg : ChanCfg) (h : P s) : P (takeChanSet c cfg s).state := by
  unfold Machine.takeChanSet
  split
  · exact h
  · split
    · exact h
    · split
      · exact h
      · split
        · exact h
        · refine hc.settled _ (hc.markChanged (hc.chan _ _ (fun x _ hx => ?_) h))
          unfold Channel.configure
          split
          · refine ⟨fun l hl => ?_, hx.2⟩
            cases hl
            exact Nat.min_le_right _ _
          · rename_i hl
            exact ⟨fun l hl' => (by rw [hl] at hl'; cases hl'), hx.2⟩

theorem takeChanOn (c : Nat) (h : P s) : P (takeChanOn c s).state := by
  unfold Machine.takeChanOn
  split
  · exact h
  · split
    · exact h
    · refine hc.settled _ ?_
      show P (enable c s)
      unfold enable
      split
      · exact h
      · exact hc.markChanged (hc.chanPlain _ _ (fun _ => rfl) (fun _ => rfl) (fun _ => rfl) h)

theorem takeChanOff (c : Nat) (h : P s) : P (takeChanOff c s).state := by
  unfold Machine.takeChanOff
  split
  · exact h
  · split
    · exact h
    · split
      · exact h
      · split
        · exact h
        · refine hc.settled _ ?_
          show P (disable c s)
          unfold disable
          split
          · exact hc.markChanged (hc.reactions.unqueue _
              (hc.chanPlain _ _ (fun _ => rfl) (fun _ => rfl) (fun _ => rfl) h))
          · exact h

theorem takeChanGet (c : Nat) (h : P s) : P (takeChanGet c s).state := by
  unfold Machine.takeChanGet
  split
  · exact h
  · exact hc.chanPlain _ _ (fun _ => rfl) (fun _ => rfl) (fun _ => rfl) h

theorem askRefill (c : Nat) (h : P s) : P (askRefill c s) := by
  unfold Machine.askRefill
  split
  · exact hc.reactions.placeRequest _ _ h
  · exact hc.leaveDry _ h
  · exact h

theorem takeRefillAsk (c : Nat) (h : P s) : P (takeRefillAsk c s).state := by
  unfold Machine.takeRefillAsk
  split
  · exact h
  · split
    · exact h
    · split
      · exact h
      · split
        · exact h
        · exact hc.settled _ (hc.askRefill _ h)

theorem takePumpSet (p m : Nat) (h : P s) : P (takePumpSet p m s).state := by
  unfold Machine.takePumpSet
  split
  · exact h
  · split
    · exact h
    · split
      · exact h
      · exact hc.markChanged (hc.free h (by and_intros <;> rfl))

theorem takeBayClear (b : Nat) (h : P s) : P (takeBayClear b s).state := by
  unfold Machine.takeBayClear
  split
  · exact h
  · split
    · exact hc.endCause _ _ (hc.reactions.placeTagOp _ (hc.updBay _ _ h))
    · exact h

theorem takeGainSet (c v : Nat) (h : P s) : P (takeGainSet c v s).state := by
  unfold Machine.takeGainSet
  split
  · exact h
  · split
    · exact h
    · refine hc.settled _ (hc.gainWrite _ (fun p hp => ?_) h)
      rw [List.mem_singleton.1 hp]
      simp only [clampGain, Config.gainMin, Config.gainMax]
      omega

/-! ### Requests of MPC -/

theorem roll (r : Roll) (hr : r.pos ≤ r.length) (h : P s) : P { s with mpc.roll := some r } :=
  hc.mpc s _ (fun _ r' hr' => by cases hr'; exact hr) (fun hk => hk) (fun hk => hk) h

theorem noRoll (h : P s) : P { s with mpc.roll := none } := 
  hc.mpc s _ (fun _ _ hr => nomatch hr) (fun hk => hk) (fun hk => hk) h

theorem takeRollLoad (media width length : Nat) (h : P s) : P (takeRollLoad media width length s).state := by
  unfold Machine.takeRollLoad
  split
  · exact h
  · split
    · exact h
    · exact hc.settled _ (hc.mpc s _ (fun _ r' hr' => by cases hr'; exact Nat.zero_le _)
        (fun hk => hk) (fun hk => hk) h)

theorem unloadRoll (h : P s) : P (unloadRoll s) := by
  have h1 : P (loseCuts s) := by
    unfold loseCuts
    simp only
    refine ReactionClosed.foldl (fun t i => Machine.doneTest i t) (fun _ i h => hc.reactions.doneTest i h) _ ?_
    refine ReactionClosed.foldl (fun t o => Machine.setCutLost o t) (fun _ o h => hc.setCutLost o h) _ ?_
    exact hc.cuts [] (fun _ => ⟨Nat.zero_le _, List.Pairwise.nil⟩) h
  unfold Machine.unloadRoll
  simp only
  refine hc.noRoll (ReactionClosed.foldl _ (fun t id h => ?_) _ h1)
  split
  · exact hc.reactions.closeUnchecked _ h
  · exact h

theorem takeRollUnload (h : P s) : P (takeRollUnload s).state := by
  unfold Machine.takeRollUnload
  split
  · exact h
  · split
    · exact h
    · exact hc.settled _ (hc.unloadRoll h)

theorem takeFeed (d : Nat) (h : P s) : P (takeFeed d s).state := by
  unfold Machine.takeFeed
  split
  · exact h
  · split
    · exact h
    · split
      · exact h
      · split
        · exact h
        · exact hc.settled _ (hc.reactions.takeAdvance _ _ _ h)

theorem takeFeedRetry (h : P s) : P (takeFeedRetry s).state := by
  unfold Machine.takeFeedRetry
  split
  · exact h
  · rename_i hn
    split
    · exact hc.settled _ (hc.reactions.runOn _ (fun _ => by simpa using hn) h)
    · exact h

theorem takeSheetFrom (p : Nat) (h : P s) : P (takeSheetFrom p s).state := by
  unfold Machine.takeSheetFrom
  split
  · exact hc.dropPlan h
  · exact hc.free h (by and_intros <;> rfl)

theorem takeSheetTo (p : Nat) (h : P s) : P (takeSheetTo p s).state := by
  unfold Machine.takeSheetTo
  split
  · split
    · exact hc.dropPlan h
    · exact hc.free h (by and_intros <;> rfl)
  · exact hc.dropPlan h

omit hc in
theorem mem_insertCut {e x : CutEntry} {l : List CutEntry} (h : x ∈ insertCut e l) : x = e ∨ x ∈ l := by
  induction l with
  | nil => simpa [insertCut] using h
  | cons y t ih =>
    simp only [insertCut] at h
    split at h
    · simpa using h
    · rcases List.mem_cons.1 h with rfl | h
      · simp
      · rcases ih h with h | h <;> simp [h]

omit hc in
theorem insertCut_length (e : CutEntry) (l : List CutEntry) : (insertCut e l).length = l.length + 1 := by
  induction l with
  | nil => rfl
  | cons x t ih =>
    simp only [insertCut]
    split <;> simp [ih]

omit hc in
theorem insertCut_sorted {e : CutEntry} {l : List CutEntry} (h : (l.map (fun e => e.position)).Pairwise (· < ·))
    (hn : ∀ x ∈ l, x.position ≠ e.position) : ((insertCut e l).map (fun e => e.position)).Pairwise (· < ·) := by
  induction l with
  | nil => simp [insertCut]
  | cons x t ih =>
    simp only [List.map_cons, List.pairwise_cons] at h
    simp only [insertCut]
    split
    · rename_i hlt
      simp only [List.map_cons, List.pairwise_cons]
      refine ⟨?_, h⟩
      intro q hq
      rcases List.mem_cons.1 hq with rfl | hq
      · exact hlt
      · exact hlt.trans (h.1 q hq)
    · rename_i hge
      have hx := hn x (by simp)
      simp only [List.map_cons, List.pairwise_cons]
      refine ⟨?_, ih h.2 (fun y hy => hn y (List.mem_cons_of_mem _ hy))⟩
      intro q hq
      obtain ⟨y, hy, rfl⟩ := List.mem_map.1 hq
      rcases mem_insertCut hy with rfl | hy
      · omega
      · exact h.1 _ (List.mem_map.2 ⟨y, hy, rfl⟩)

/-- The room a cut still takes in the list: none where its position has an entry. -/
theorem placeCut (p : Nat) (o : CutOwner) (k : CutKind) (g : Option Nat)
    (hroom : (cutAt s p).isNone = true → s.mpc.cuts.length < Config.cutSize) (h : P s) : P (placeCut p o k g s) := by
  unfold Machine.placeCut
  split
  · exact hc.reactions.updCut _ _ (fun _ => rfl) h
  · rename_i hn
    refine hc.cuts _ (fun hk => ⟨?_, insertCut_sorted hk.2 ?_⟩) h
    · have := hroom (by simp [hn])
      rw [insertCut_length]
      omega
    · intro x hx hp
      have := List.find?_eq_none.1 hn x hx
      simp [hp] at this

omit hc in
theorem placeCut_length (p : Nat) (o : CutOwner) (k : CutKind) (g : Option Nat) (s : State) :
    (Machine.placeCut p o k g s).mpc.cuts.length = s.mpc.cuts.length + (cutAt s p).isNone.toNat := by
  unfold Machine.placeCut
  split
  · rename_i hs
    simp [hs]
  · rename_i hs
    simp [hs, insertCut_length]

omit hc in
theorem cutAt_placeCut (p q : Nat) (o : CutOwner) (k : CutKind) (g : Option Nat) (s : State)
    (h : (cutAt (Machine.placeCut p o k g s) q).isNone = true) : (cutAt s q).isNone = true := by
  cases hq : cutAt s q with
  | none => rfl
  | some e =>
    exfalso
    have he := List.find?_some hq
    have hm := List.mem_of_find?_eq_some hq
    have : ∃ e' ∈ (Machine.placeCut p o k g s).mpc.cuts, e'.position = q := by
      unfold Machine.placeCut
      split
      · refine ⟨_, List.mem_map.2 ⟨e, hm, rfl⟩, ?_⟩
        split <;> simpa [CutEntry.merge] using he
      · refine ⟨e, ?_, by simpa using he⟩
        show e ∈ insertCut _ s.mpc.cuts
        clear hq he h
        generalize s.mpc.cuts = l at hm ⊢
        induction l with
        | nil => simp at hm
        | cons x t ih =>
          simp only [insertCut]
          split
          · exact List.mem_cons_of_mem _ hm
          · rcases List.mem_cons.1 hm with rfl | hm
            · simp
            · exact List.mem_cons_of_mem _ (ih hm)
    obtain ⟨e', he', hp⟩ := this
    have := List.find?_eq_none.1 (Option.isNone_iff_eq_none.1 h) e' he'
    simp [hp] at this

theorem commitSheet (p q : Nat) (o : CutOwner) (k l : CutKind) (g : Bool) (h : P s) :
    P (commitSheet p q o k l g s).state := by
  unfold Machine.commitSheet
  simp only
  split
  · exact h
  · split
    · exact h
    · split
      · exact h
      · split
        · exact h
        · split
          · exact h
          · split
            · exact h
            · split
              · exact h
              · split
                · exact h
                · rename_i hroom
                  simp only [not_or, Nat.not_lt, cutsFree, newCuts] at hroom
                  have hr := hroom.2.2
                  have hlen : Config.cutSize = 32 := rfl
                  have key : P (Machine.placeCut q o l (if g then jobCheck (ownerJob s o) else none)
                      (Machine.placeCut p o k none s)) := by
                    refine hc.placeCut _ _ _ _ (fun hn => ?_) (hc.placeCut _ _ _ _ (fun hn => ?_) h)
                    · have hq := cutAt_placeCut _ _ _ _ _ _ hn
                      rw [placeCut_length]
                      rw [hq] at hr
                      simp only [Bool.toNat_true] at hr
                      omega
                    · rw [hn] at hr
                      simp only [Bool.toNat_true] at hr
                      omega
                  exact hc.reactions.reviseSegment key

theorem takeSheetCommit (a b c d e : Nat) (h : P s) : P (takeSheetCommit a b c d e s).state := by
  unfold Machine.takeSheetCommit
  split
  · split
    · exact hc.commitSheet _ _ _ _ _ _ (hc.dropPlan h)
    · exact hc.dropPlan h
  · exact hc.dropPlan h

theorem takeCutCancel (p : Nat) (h : P s) : P (takeCutCancel p s).state := by
  unfold Machine.takeCutCancel
  split
  · exact h
  · split
    · exact h
    · split
      · exact h
      · split
        · exact h
        · exact hc.settled _ (hc.reactions.resolveStop (hc.reactions.removeCut _ h))

theorem takeCutterClear (h : P s) : P (takeCutterClear s).state := by
  unfold Machine.takeCutterClear
  split
  · exact h
  · rename_i hn
    split
    · exact h
    · split
      · exact h
      · exact hc.settled _ (hc.reactions.retestCut
          (hc.freeMove h (fun _ => holdForm_of_not_held (by simpa [held] using hn)) (by and_intros <;> rfl)))

theorem takeGeometrySet (a b : Nat) (h : P s) : P (takeGeometrySet a b s).state := by
  unfold Machine.takeGeometrySet
  split
  · exact h
  · split
    · exact h
    · split
      · exact h
      · exact hc.markChanged (hc.free h (by and_intros <;> rfl))

/-! ### Requests of CCU -/

theorem takePatchsetLoad (a b : Nat) (l : List Byte) (h : P s) : P (takePatchsetLoad a b l s).state := by
  unfold Machine.takePatchsetLoad
  split
  · exact h
  · split
    · exact h
    · split
      · exact h
      · split
        · exact h
        · split
          · exact hc.markChanged (hc.ccuFree _ rfl rfl h)
          · split
            · exact h
            · exact hc.markChanged (hc.ccuFree _ rfl rfl h)

theorem takeRingRetain (n : Nat) (h : P s) : P (takeRingRetain n s).state := by
  unfold Machine.takeRingRetain
  split
  · exact hc.ccuFree _ rfl rfl h
  · split
    · exact hc.ccuFree _ rfl rfl h
    · exact h

theorem takeRingRelease (n : Nat) (h : P s) : P (takeRingRelease n s).state := by
  unfold Machine.takeRingRelease
  refine hc.settled _ (hc.reactions.retestScan (hc.ccu s _ (fun hk => ⟨?_, ?_⟩) h))
  · exact by simpa using (Nat.sub_le _ _).trans hk.1
  · have := hk.2
    simp only at this ⊢
    split
    · rename_i hl
      rw [hl] at this
      simp only [List.length_drop] at this ⊢
      omega
    · trivial

theorem takeCheckSet (p : CheckParams) (h : P s) : P (takeCheckSet p s).state := by
  unfold Machine.takeCheckSet
  split
  · exact h
  · split
    · exact h
    · split
      · exact h
      · exact hc.markChanged (hc.ccuFree _ rfl rfl h)

omit hc in
theorem takeCheckGet (i : Nat) (h : P s) : P (takeCheckGet i s).state := by
  unfold Machine.takeCheckGet
  split <;> exact h

/-! ### Requests of CU and SS -/

theorem takeQuoteOpen (a b c d : Nat) (h : P s) : P (takeQuoteOpen a b c d s).state := by
  unfold Machine.takeQuoteOpen
  split
  · exact h
  · split
    · exact h
    · split
      · exact h
      · exact hc.cuFree _ rfl h

theorem takeQuoteSwath (t : Nat) (d : Descriptor) (h : P s) : P (takeQuoteSwath t d s).state := by
  unfold Machine.takeQuoteSwath
  split
  · exact h
  · split
    · exact h
    · split
      · exact h
      · split
        · exact h
        · exact hc.cuFree _ rfl h

theorem takeQuoteClose (t : Nat) (h : P s) : P (takeQuoteClose t s).state := by
  unfold Machine.takeQuoteClose
  split
  · exact h
  · split
    · exact h
    · split
      · exact h
      · rename_i hr
        exact hc.cuFree _ rfl (hc.reactions.closeAccount _ _ (by simpa using hr) h)

theorem takeHouseClose (h : P s) : P (takeHouseClose s).state := by
  unfold Machine.takeHouseClose
  split
  · exact h
  · rename_i hr
    exact hc.openHouse (hc.reactions.closeAccount _ _ (by simpa using hr) h)

theorem takePriceStage (a b c : Nat) (h : P s) : P (takePriceStage a b c s).state := by
  unfold Machine.takePriceStage
  split
  · exact h
  · split
    · exact h
    · exact hc.cuFree _ rfl h

theorem takePriceCommit (h : P s) : P (takePriceCommit s).state := by
  unfold Machine.takePriceCommit
  split
  · exact h
  · exact hc.markChanged (hc.cuFree _ rfl h)

omit hc in
theorem takePriceGet (n : Nat) (h : P s) : P (takePriceGet n s).state := by
  unfold Machine.takePriceGet
  split
  · exact h
  · split <;> exact h

omit hc in
theorem takeTagAccount (t : Nat) (h : P s) : P (takeTagAccount t s).state := by
  unfold Machine.takeTagAccount
  split
  · split <;> exact h
  · split
    · split <;> exact h
    · exact h

omit hc in
theorem takeAccountGet (a b : Nat) (h : P s) : P (takeAccountGet a b s).state := by
  unfold Machine.takeAccountGet
  split
  · exact h
  · split
    · split
      · exact h
      · exact takeTagAccount _ h
    · exact h

theorem closeClosing (i : Nat) (h : P s) : P (closeClosing i s) := by
  unfold Machine.closeClosing
  split
  · split
    · exact hc.reactions.closeJob _ _ h
    · exact h
  · exact h

theorem takeRecordTake (h : P s) : P (takeRecordTake s).state := by
  unfold Machine.takeRecordTake
  split
  · exact h
  · rename_i r t hr
    have h1 : P { s with cu.records := t } := hc.cu s _ (fun hk => ?_) h
    · refine hc.settled _ ?_
      simp only [accept]
      exact ReactionClosed.foldl _ (fun _ i h => hc.closeClosing i h) _ h1
    simp only [RecordForm, hr, List.length_cons] at hk ⊢
    omega

theorem takeStoreSave (h : P s) : P (takeStoreSave s).state := by
  unfold Machine.takeStoreSave
  split
  · exact h
  · refine hc.ss s _ (fun hk => ⟨hk.1, ?_, ?_⟩) h
    · intro p hp; cases hp
    · rintro p n ⟨⟩; exact hk.1

theorem doStoreSaveEnd (h : P s) : P (doStoreSaveEnd s) := by
  unfold Machine.doStoreSaveEnd
  split
  · rename_i p n hs
    refine hc.ss (Machine.begin s) _ (fun hk => ⟨hk.1, ?_, ?_⟩) (hc.begin h)
    · rintro q ⟨⟩; exact hk.2.2 p n hs
    · intro q m hq; cases hq
  · exact hc.begin h

end StepClosed

end Sys2Proof.Machine
end

