-- ==== Sys2Proof/Laws/Events.lean ====
section
/-! SUPPORT. The events, the link, the resets and the tick keep what their operations keep; `exec_closed` and `step_closed` say it of every command and every step. -/

namespace Sys2Proof.Machine.StepClosed

variable {P : State → Prop} (hc : StepClosed P) {s : State}
include hc

/-! ### The head link -/

theorem onReport (ok : Bool) (tag : Nat) (f : QEntry → State → State)
    (hf : ∀ e s, e ∈ s.rc.queue → P s → P (f e s)) (h : P s) : P (onReport ok tag f s) := by
  unfold Machine.onReport
  split
  · split
    · rename_i e he
      refine hc.reactions.settle (hf e _ ?_ (hc.begin h))
      simp only [reported] at he
      split at he
      · rename_i e' he'
        split at he
        · cases he
          exact List.mem_of_find?_eq_some he'
        · cases he
      · cases he
    · unfold clearStale
      split
      · exact hc.free (hc.begin h) (by and_intros <;> rfl)
      · exact hc.begin h
  · exact hc.begin h

theorem unfired (e : QEntry) (he : e ∈ s.rc.queue) (h : P s) : P (unfired e s) := by
  have h1 : P (Machine.release (e.charges.getD []) { s with rc.fireTimer := none }) := by
    have h0 : P { s with rc.fireTimer := none } := hc.free h (by and_intros <;> rfl)
    refine hc.release (s := { s with rc.fireTimer := none }) (e := e) he (fun r hr => ?_) h0
    cases hch : e.charges with
    | none => simp [hch] at hr
    | some m => exact ⟨m, rfl, by simpa [hch] using hr⟩
  unfold Machine.unfired
  simp only
  split
  · unfold withdrawEntry
    simp only
    split
    · exact hc.reactions.roomRose (hc.reactions.updJob _ _ (hc.drop _ h1))
    · exact hc.reactions.roomRose (hc.drop _ h1)
  · have h2 : P (requeue e (Machine.release (e.charges.getD []) { s with rc.fireTimer := none })) :=
      hc.entry _ _ (fun _ => ⟨rfl, .inr (.inl rfl)⟩) h1
    exact hc.reactions.send _ (hc.free h2 (by and_intros <;> rfl))

theorem doHeadFault (ok : Bool) (h : P s) : P (doHeadFault ok s) := by
  unfold Machine.doHeadFault
  split
  · exact hc.reactions.settle (hc.breakGrant (hc.reactions.raise _ _ (hc.free (hc.begin h) (by and_intros <;> rfl))))
  · exact hc.begin h

theorem doFireTimeout (h : P s) : P (doFireTimeout s) := by
  unfold Machine.doFireTimeout
  split
  · exact hc.reactions.settle (hc.reactions.send _ (hc.reactions.raise _ _ (hc.free (hc.breakGrant (hc.begin h)) (by and_intros <;> rfl))))
  · exact hc.begin h

theorem doCleaned (ok : Bool) (l : List Counts) (h : P s) : P (doCleaned ok l s) := by
  unfold Machine.doCleaned
  split
  · exact hc.reactions.settle (hc.cleanAll _ (hc.begin h))
  · exact hc.begin h

/-! ### The media path -/

omit hc in
/-- During a hold no segment is driven, settles or is paused. -/
theorem not_held_of_moving {a : Advance} {g : Segment} (he : s.mpc.exec = .moving a g) (h1 : g.phase ≠ .stalling)
    (h2 : g.phase ≠ .holding) (h : HoldForm s) : held s = false := by
  by_contra hn
  have := (h (by simpa using hn)).2.2
  rw [he] at this
  simp [execStill, h1, h2] at this

omit hc in
theorem not_held_of_driven (hd : feedDriven s = true) (h : HoldForm s) : held s = false := by
  unfold feedDriven at hd
  split at hd
  · rename_i he
    have hd := beq_iff_eq.1 hd
    exact not_held_of_moving he (by simp [hd]) (by simp [hd]) h
  · cases hd

omit hc in
/-- During a hold the cutter strokes not, nor stands ready. -/
theorem not_held_of_cutter (hd : cutterStill s.mpc.cutter = false) (h : HoldForm s) : held s = false := by
  by_contra hn
  have := (h (by simpa using hn)).2.1
  rw [hd] at this
  cases this

theorem stopFeed (p : SegPhase) (hh : HoldForm s → held s = false) (h : P s) : P (stopFeed p s) := by
  unfold Machine.stopFeed
  split
  · exact hc.freeMove h (fun hk => holdForm_of_not_held (by simpa [held] using hh hk)) (by and_intros <;> rfl)
  · exact h

theorem stopFeedStill (p : SegPhase) (hp : (p == .stalling || p == .holding) = true) (h : P s) : P (Machine.stopFeed p s) := by
  unfold Machine.stopFeed
  split
  · exact hc.freeMove h (fun hk hh => ⟨(hk hh).1, (hk hh).2.1, hp⟩) (by and_intros <;> rfl)
  · exact h

theorem markReached (h : P s) : P (markReached s) := by
  unfold Machine.markReached
  simp only
  refine hc.free (hc.cuts (s.mpc.cuts.map (fun e =>
      if e.state = .planned ∧ cutStop s e ≤ pos s then { e with state := .due } else e))
    (fun hk => cutForm_sublist hk ?_) h) (by and_intros <;> rfl)
  have hp : (s.mpc.cuts.map (fun e =>
      if e.state = .planned ∧ cutStop s e ≤ pos s then { e with state := .due } else e)).map (fun e => e.position)
      = s.mpc.cuts.map (fun e => e.position) := by
    rw [List.map_map]
    refine List.map_congr_left (fun e _ => ?_)
    simp only [Function.comp]
    split <;> rfl
  rw [hp]

theorem encode (f : Bool) (h : P s) : P (encode f s) := by
  have hs : P (strayStep s) := hc.free h (by and_intros <;> rfl)
  unfold Machine.encode
  split
  · rename_i r hr
    split
    · unfold forwardStep
      split
      · have h1 : P (Machine.markReached
            { s with mpc.roll := some { r with pos := r.pos + 1 }, mpc.moved := s.mpc.moved + 1 }) := by
          refine hc.markReached (hc.mpc s _ (fun _ r' hr' => ?_) (fun hk => hk) (fun hk => hk) h)
          cases hr'
          simp only
          omega
        unfold stopAtSegmentEnd
        split
        · rename_i he
          split
          · rename_i hg
            exact hc.stopFeed _ (not_held_of_moving he (by simp [hg.1]) (by simp [hg.1])) h1
          · exact h1
        · exact h1
      · exact h
    · exact hs
  · exact hs

theorem handCharge (h : P s) : P (handCharge s) := by
  have h1 : P { s with mpc.moved := 0, mpc.resetWindow := false } := hc.free h (by and_intros <;> rfl)
  unfold Machine.handCharge
  simp only
  split
  · split
    · exact h1
    · exact hc.updOwner _ _ h1
  · exact h1

theorem afterWindow (h : P s) : P (afterWindow s) := by
  unfold Machine.afterWindow
  split
  · rename_i he
    split
    · rename_i hg
      exact hc.reactions.runOn _ (not_held_of_moving he (by simp [hg]) (by simp [hg])) h
    · exact hc.reactions.raise _ _ (hc.reactions.stillExec _ rfl h)
    · split
      · exact hc.reactions.stillExec _ rfl h
      · rename_i hn
        exact hc.reactions.runOn _ (fun _ => by simpa using hn) h
    · exact h
  · exact h

theorem doSettleWindowEnd (h : P s) : P (doSettleWindowEnd s) := by
  unfold Machine.doSettleWindowEnd
  split
  · exact hc.reactions.settle (hc.afterWindow (hc.handCharge (hc.free (hc.begin h) (by and_intros <;> rfl))))
  · exact hc.begin h

theorem doFeedLimitExpiry (h : P s) : P (doFeedLimitExpiry s) := by
  refine hc.reactions.settle ?_
  unfold stall
  split
  · rename_i he
    split
    · rename_i hg
      exact hc.stopFeedStill _ rfl (hc.reactions.freeExec _ (not_held_of_moving he (by simp [hg]) (by simp [hg]))
        (hc.begin h))
    · exact hc.begin h
  · exact hc.begin h

theorem chargeCut (h : P s) : P (chargeCut s) := by
  unfold Machine.chargeCut
  split
  · exact hc.updOwner _ _ h
  · exact h

theorem homeChanged (a : Bool) (h : P s) : P (homeChanged a s) := by
  have h1 : P { s with mpc.home := a } := hc.free h (by and_intros <;> rfl)
  have move : ∀ c : Cutter, cutterStill s.mpc.cutter = false → P { s with mpc.home := a, mpc.cutter := c } := fun c hs =>
    hc.freeMove h (fun hk => holdForm_of_not_held (by simpa [held] using not_held_of_cutter hs hk)) (by and_intros <;> rfl)
  unfold Machine.homeChanged
  simp only
  split
  · rename_i hr
    split
    · exact h1
    · exact hc.reactions.raise _ _ (move .jammed (by rw [hr]; rfl))
  · rename_i hr
    have hs : cutterStill s.mpc.cutter = false := by rw [hr]; rfl
    split
    · split
      · unfold strokeDone
        simp only
        have h2 : P { s with mpc.home := a, mpc.cutter := .ready, mpc.strokeTimer := none } :=
          hc.free (move .ready hs) (by and_intros <;> rfl)
        split
        · exact hc.reactions.resolveStop (hc.chargeCut (hc.reactions.removeCut _ h2))
        · exact h2
      · exact h1
    · exact move _ hs
  · exact h1

theorem doHomeChange (a : Bool) (h : P s) : P (doHomeChange a s) := by
  unfold Machine.doHomeChange
  split
  · exact hc.begin h
  · exact hc.reactions.settle (hc.homeChanged _ (hc.begin h))

theorem doStrokeTimeout (h : P s) : P (doStrokeTimeout s) := by
  unfold Machine.doStrokeTimeout
  split
  · exact hc.reactions.settle (hc.reactions.raise _ _ (hc.freeMove (hc.reactions.uncut (hc.begin h))
      (fun hk hh => ⟨(hk hh).1, rfl, (hk hh).2.2⟩) (by and_intros <;> rfl)))
  · exact hc.begin h

/-- LC with another cover state. -/
theorem setCover (c : Cover) (h : P s) : P { s with lc.cover := c } := hc.free h (by and_intros <;> rfl)

theorem doCoverOpen (h : P s) : P (doCoverOpen s) := by
  unfold Machine.doCoverOpen
  split
  · exact hc.begin h
  · refine hc.reactions.settle ?_
    unfold pauseFeed
    have h1 := hc.reactions.raise .coverChanged none (hc.setCover .opened (hc.begin h))
    split
    · rename_i hd
      exact hc.stopFeed _ (not_held_of_driven hd) h1
    · exact h1

theorem doCoverClose (h : P s) : P (doCoverClose s) := by
  unfold Machine.doCoverClose
  split
  · exact hc.reactions.raise _ _ (hc.setCover _ (hc.begin h))
  · exact hc.begin h

theorem endPause (h : P s) : P (endPause s) := by
  unfold Machine.endPause
  split
  · rename_i he
    split
    · rename_i hg
      have hh := not_held_of_moving (s := s) he (by simp [hg]) (by simp [hg])
      split
      · exact hc.reactions.closeWindow (hc.reactions.freeExec _ hh h)
      · split
        · exact hc.reactions.freeExec _ hh h
        · exact hc.reactions.runOn _ hh h
    · exact h
  · exact h

theorem doCoverSettleExpiry (h : P s) : P (doCoverSettleExpiry s) := by
  unfold Machine.doCoverSettleExpiry
  split
  · exact hc.reactions.settle (hc.reactions.retestStroke (hc.endPause (hc.setCover _ (hc.begin h))))
  · exact hc.begin h

omit hc in
/-- The pump as a hold begins. -/
theorem pumpStopped (s : State) : ∃ p, pumpStill p = true ∧ Machine.suspendPump s = { s with isc.pump := p } := by
  unfold Machine.suspendPump
  split
  · exact ⟨_, rfl, rfl⟩
  · rename_i hn
    refine ⟨s.isc.pump, ?_, rfl⟩
    cases hp : s.isc.pump
    case running d => exact absurd hp (hn d)
    all_goals rfl

omit hc in
/-- The executor as a hold begins. -/
theorem execStopped (s : State) :
    ∃ e w, execStill e = true ∧ holdExec s = { s with mpc.exec := e, mpc.settle := w } := by
  unfold holdExec
  split
  · rename_i a g he
    unfold holdMoving Machine.stopFeed
    rw [he]
    split
    · exact ⟨_, _, rfl, rfl⟩
    · exact ⟨_, _, rfl, rfl⟩
    · rename_i hg
      exact ⟨s.mpc.exec, s.mpc.settle, by simp [he, execStill, hg], rfl⟩
    · split <;> exact ⟨_, _, rfl, rfl⟩
    · rename_i hg
      exact ⟨s.mpc.exec, s.mpc.settle, by simp [he, execStill, hg], rfl⟩
  · exact ⟨_, _, rfl, rfl⟩
  · rename_i h1 h2
    refine ⟨s.mpc.exec, s.mpc.settle, ?_, rfl⟩
    cases he : s.mpc.exec
    case moving a g => exact absurd he (h1 a g)
    case atStop a r => exact absurd he (h2 a r)
    all_goals rfl

omit hc in
/-- The cutter as a hold begins. -/
theorem cutterStopped (s : State) :
    ∃ c t, cutterStill c = true ∧ holdCutter s = { s with mpc.cutter := c, mpc.strokeTimer := t } := by
  unfold holdCutter
  split
  · exact ⟨_, _, rfl, rfl⟩
  · exact ⟨_, _, rfl, rfl⟩
  · rename_i h1 h2
    refine ⟨s.mpc.cutter, s.mpc.strokeTimer, ?_, rfl⟩
    cases hp : s.mpc.cutter
    case ready => exact absurd hp h1
    case stroke l => exact absurd hp (h2 l)
    all_goals rfl

theorem beginHold (h : P s) : P (beginHold s) := by
  have hr := hc.reactions.raise .supplyHold none h
  have hcomm : raise .supplyHold none { s with lc.hold := .down, rc.head := .notReady }
      = { raise .supplyHold none s with lc.hold := .down, rc.head := .notReady } := by
    unfold raise
    split <;> rfl
  unfold Machine.beginHold
  rw [hcomm]
  refine hc.breakGrant ?_
  generalize raise .supplyHold none s = r at hr
  obtain ⟨p, p1, hp⟩ := pumpStopped { r with lc.hold := .down, rc.head := .notReady }
  obtain ⟨e, w, e1, he⟩ := execStopped { r with lc.hold := .down, rc.head := .notReady, isc.pump := p }
  obtain ⟨c, t, c1, hct⟩ := cutterStopped
    { r with lc.hold := .down, rc.head := .notReady, isc.pump := p, mpc.exec := e, mpc.settle := w }
  rw [hp, he, hct]
  exact hc.freeMove hr (fun _ _ => ⟨p1, c1, e1⟩) (by and_intros <;> rfl)

theorem doSupplyOkDeassert (h : P s) : P (doSupplyOkDeassert s) := by
  unfold Machine.doSupplyOkDeassert
  split
  · exact hc.reactions.settle (hc.beginHold (hc.begin h))
  · rename_i hu
    exact hc.freeMove (hc.begin h) (fun hk _ => hk (by simp [held, hu])) (by and_intros <;> rfl)
  · exact hc.begin h

theorem doSupplyOkAssert (h : P s) : P (doSupplyOkAssert s) := by
  unfold Machine.doSupplyOkAssert
  split
  · rename_i hu
    exact hc.freeMove (hc.begin h) (fun hk _ => hk (by simp [held, hu])) (by and_intros <;> rfl)
  · exact hc.begin h

/-! ### Ink -/

theorem doLowFloatAssert (c : Fin 10) (h : P s) : P (doLowFloatAssert c s) := by
  unfold Machine.doLowFloatAssert
  split
  · exact hc.begin h
  · refine hc.reactions.settle (hc.reactions.placeRequest _ _ (hc.chan _ _ (fun x _ hx => ?_) (hc.begin h)))
    unfold Channel.lowCorrect
    split
    · rename_i l hl
      split
      · rename_i hlt
        refine ⟨?_, hx.2⟩
        rintro _ ⟨⟩
        exact hlt.le.trans (hx.1 l hl)
      · exact hx
    · exact hx

theorem doFullFloatAssert (c : Fin 10) (h : P s) : P (doFullFloatAssert c s) := by
  unfold Machine.doFullFloatAssert
  split
  · exact hc.begin h
  · refine hc.reactions.settle ?_
    have h1 := hc.chanPlain c (fun c => { c with fullFloat := true }) (fun _ => rfl) (fun _ => rfl) (fun _ => rfl)
      (hc.begin h)
    unfold fullAsserts
    simp only
    split
    · exact hc.reactions.pumpServe (hc.reactions.endDrawFull _ h1)
    · refine hc.chan _ _ (fun x _ hx => ?_) h1
      unfold Channel.fullCorrect
      split <;>
      · refine ⟨?_, hx.2⟩
        rintro _ ⟨⟩
        exact le_rfl

theorem doDrawLimitExpiry (h : P s) : P (doDrawLimitExpiry s) := by
  unfold Machine.doDrawLimitExpiry
  split
  · exact hc.reactions.settle (hc.endDrawExpiry _ (hc.begin h))
  · exact hc.begin h

theorem abandonTagOp (b : Nat) (h : P s) : P (abandonTagOp b s) := hc.free h (by and_intros <;> rfl)

theorem bayRemoved (b : Nat) (h : P s) : P (bayRemoved b s) := by
  unfold Machine.bayRemoved
  split
  · exact hc.emptyBay _ (hc.abandonTagOp _ h)
  · exact hc.reactions.raise _ _ (hc.emptyBay _ (hc.abandonTagOp _ h))
  · split
    · exact hc.endDrawRemoval _ h
    · exact hc.emptyBay _ h
  · exact hc.emptyBay _ h

theorem doBayPresenceDeassert (b : Fin 16) (h : P s) : P (doBayPresenceDeassert b s) := by
  unfold Machine.doBayPresenceDeassert
  split
  · exact hc.reactions.settle (hc.bayRemoved _ (hc.begin h))
  · exact hc.begin h

theorem doBayPresenceAssert (b : Fin 16) (h : P s) : P (doBayPresenceAssert b s) := by
  unfold Machine.doBayPresenceAssert
  split
  · exact hc.begin h
  · exact hc.reactions.raise _ _ (hc.reactions.placeTagOp _ (hc.updBay _ _ (hc.begin h)))

theorem doTagOpStart (h : P s) : P (doTagOpStart s) := by
  unfold Machine.doTagOpStart
  split
  · exact hc.reactions.send _ (hc.free (hc.begin h) (by and_intros <;> rfl))
  · exact hc.begin h

theorem bayResult (b r : Nat) (h : P s) : P (bayResult b r s) := by
  unfold Machine.bayResult
  split
  · exact hc.bayReady _ (hc.updBay _ _ h)
  · exact hc.updBay _ _ h

theorem bayFaults (b : Nat) (k : Bool) (h : P s) : P (bayFaults b k s) := hc.reactions.raise _ _ (hc.updBay _ _ h)

theorem freeBus (h : P s) : P (freeBus s) := hc.free h (by and_intros <;> rfl)

theorem doTagReadComplete (a b c : Nat) (d : Half) (h : P s) : P (doTagReadComplete a b c d s) := by
  unfold Machine.doTagReadComplete
  split
  · refine hc.reactions.settle ?_
    unfold readResult
    split
    · exact hc.bayResult _ _ (hc.updBay _ _ (hc.freeBus (hc.begin h)))
    · exact hc.bayFaults _ _ (hc.freeBus (hc.begin h))
  · exact hc.begin h

theorem doTagWriteComplete (h : P s) : P (doTagWriteComplete s) := by
  unfold Machine.doTagWriteComplete
  split
  · exact hc.reactions.settle (hc.bayResult _ _ (hc.freeBus (hc.begin h)))
  · exact hc.begin h

theorem doTagOpTimeout (h : P s) : P (doTagOpTimeout s) := by
  unfold Machine.doTagOpTimeout
  split
  · exact hc.reactions.settle (hc.bayFaults _ _ (hc.freeBus (hc.begin h)))
  · exact hc.reactions.settle (hc.bayFaults _ _ (hc.freeBus (hc.begin h)))
  · exact hc.begin h

/-! ### The sensor and the checks -/

theorem doReading (ok : Bool) (i : Nat) (l a b : Int) (g : Bool) (h : P s) : P (doReading ok i l a b g s) := by
  unfold Machine.doReading
  split
  · rename_i id w n t hl
    split
    · rename_i hw
      refine hc.ccu (Machine.begin s) _ (fun hk => ?_) (hc.begin h)
      have h2 := hk.2
      simp only [begin_ccu, hl] at h2
      refine ⟨?_, ?_⟩
      · simp only [List.length_append, List.length_singleton]
        omega
      · simp only [List.length_append, List.length_singleton]
        omega
    · exact hc.begin h
  · exact hc.begin h

theorem idleLink (h : P s) : P (idleLink s) := hc.ccu s _ (fun hk => ⟨hk.1, trivial⟩) h

omit hc in
theorem gainPairs_range (s : State) (r : Result)
    (hr : ∀ l, r.corrections = some l → ∀ c ∈ l, Config.gainMin ≤ (gainAt s c.channel : Int) + c.applied ∧
      (gainAt s c.channel : Int) + c.applied ≤ Config.gainMax) :
    ∀ p ∈ gainPairs s r, Config.gainMin ≤ p.2 ∧ p.2 ≤ Config.gainMax := by
  intro p hp
  simp only [gainPairs, List.mem_map, List.mem_filter] at hp
  obtain ⟨c, ⟨hcm, _⟩, rfl⟩ := hp
  cases hl : r.corrections with
  | none => simp [hl] at hcm
  | some l =>
    have := hr l hl c (by simpa [hl] using hcm)
    simp only
    omega

omit hc in
theorem corrections_range (s : State) (ds : List Diff) :
    ∀ c ∈ corrections s ds, Config.gainMin ≤ (gainAt s c.channel : Int) + c.applied ∧
      (gainAt s c.channel : Int) + c.applied ≤ Config.gainMax := by
  intro c hcm
  simp only [corrections, List.mem_map] at hcm
  obtain ⟨ch, _, rfl⟩ := hcm
  simp only [correction, clampInt, Config.gainMin, Config.gainMax]
  omega

theorem applyCorrections (r : Result)
    (hr : ∀ l, r.corrections = some l → ∀ c ∈ l, Config.gainMin ≤ (gainAt s c.channel : Int) + c.applied ∧
      (gainAt s c.channel : Int) + c.applied ≤ Config.gainMax) (h : P s) : P (applyCorrections r s) := by
  have hp := gainPairs_range s r hr
  unfold Machine.applyCorrections
  split
  · exact h
  · rename_i p t he
    exact hc.gainWrite _ (he ▸ hp) h

omit hc in
theorem evaluate_corrections {s : State} {p : PatchSet} {pol : Option Policy} {l : List RingEntry} {cs : List Correction}
    (h : (evaluate s p pol l).corrections = some cs) : ∃ ds, cs = corrections s ds := by
  unfold evaluate at h
  simp only at h
  split at h
  · cases h
  · simp only at h
    split at h
    · exact ⟨_, (Option.some.inj h).symm⟩
    · cases h

theorem endScan (id w : Nat) (h : P s) : P (endScan id w s) := by
  unfold Machine.endScan
  refine hc.reactions.closeCheck _ _ _ (hc.applyCorrections _ (fun l hl => ?_) (hc.idleLink h))
  have : ∃ ds, l = corrections s ds := by
    unfold fullResult at hl
    split at hl
    · exact evaluate_corrections hl
    · cases hl
  obtain ⟨ds, rfl⟩ := this
  exact corrections_range s ds

theorem endDrain (h : P s) : P (endDrain s) := hc.reactions.retestScan (hc.idleLink h)

theorem failScan (id w : Nat) (h : P s) : P (failScan id w s) := hc.reactions.closeCheck _ _ _ (hc.idleLink h)

theorem doScanEnd (ok : Bool) (h : P s) : P (doScanEnd ok s) := by
  unfold Machine.doScanEnd
  split
  · split
    · exact hc.reactions.settle (hc.endScan _ _ (hc.begin h))
    · exact hc.reactions.settle (hc.endDrain (hc.begin h))
    · exact hc.begin h
  · exact hc.begin h

theorem doSensorReady (ok : Bool) (h : P s) : P (doSensorReady ok s) := by
  unfold Machine.doSensorReady
  split
  · exact hc.reactions.settle (hc.reactions.retestScan (hc.free (hc.begin h) (by and_intros <;> rfl)))
  · exact hc.begin h

theorem faultSensor (h : P s) : P (faultSensor s) := hc.reactions.raise _ _ (hc.free h (by and_intros <;> rfl))

theorem doSensorFault (ok : Bool) (h : P s) : P (doSensorFault ok s) := by
  unfold Machine.doSensorFault
  split
  · split
    · exact hc.reactions.settle (hc.failScan _ _ (hc.faultSensor (hc.begin h)))
    · exact hc.reactions.settle (hc.endDrain (hc.faultSensor (hc.begin h)))
    · exact hc.reactions.settle (hc.faultSensor (hc.begin h))
  · exact hc.begin h

theorem doScanTimeout (h : P s) : P (doScanTimeout s) := by
  unfold Machine.doScanTimeout
  split
  · exact hc.reactions.settle (hc.failScan _ _ (hc.begin h))
  · exact hc.reactions.settle (hc.endDrain (hc.begin h))
  · exact hc.begin h

theorem doDryTimerExpiry (c : Fin 4) (h : P s) : P (doDryTimerExpiry c s) := by
  unfold Machine.doDryTimerExpiry
  split
  · exact hc.reactions.settle (hc.reactions.scanTest _ (hc.reactions.updCheck _ _ (hc.begin h)))
  · exact hc.begin h

theorem doLimitTimerExpiry (c : Fin 4) (h : P s) : P (doLimitTimerExpiry c s) := by
  unfold Machine.doLimitTimerExpiry
  split
  · exact hc.reactions.settle (hc.reactions.closeUnchecked _ (hc.begin h))
  · exact hc.begin h

/-! ### The host link -/

theorem bufferFrame (f : Frame) (h : P s) : P (bufferFrame f s) := by
  unfold Machine.bufferFrame
  split
  · refine hc.lc s _ (fun hk => ⟨?_, hk.2⟩) (fun hk => hk) (fun hk => hk) h
    simp only [List.length_append, List.length_singleton]
    omega
  · split
    · refine hc.lc s _ (fun hk => ⟨hk.1, ?_, hk.2.2⟩) (fun hk => hk) (fun hk => hk) h
      simp only [List.length_append, List.length_singleton]
      omega
    · exact h

theorem receive (r : List Frame × List Byte) (h : P s) : P (receive r s) :=
  ReactionClosed.foldl (fun t f => Machine.bufferFrame f t) (fun _ f h => hc.bufferFrame f h) _
    (hc.free h (by and_intros <;> rfl))

theorem doHostFrameReceived (f : Frame) (h : P s) : P (doHostFrameReceived f s) := by
  unfold Machine.doHostFrameReceived
  split
  · exact hc.bufferFrame _ (hc.begin h)
  · exact hc.begin h

theorem doHostByteReceived (b : Byte) (ok : Bool) (h : P s) : P (doHostByteReceived b ok s) := by
  unfold Machine.doHostByteReceived
  split
  · split <;> exact hc.receive _ (hc.begin h)
  · exact hc.begin h

/-- A request's own rule, as LC dispatches it. -/
theorem runRequest (i : Instr) (h : P s) : P (runRequest i s) := by
  unfold Machine.runRequest
  split
  · exact hc.carryOut _ _ _ (fun _ h => h) h
  · exact hc.carryKeep _ _ _ (fun _ h => h) h
  · exact hc.carryOut _ _ _ (fun _ h => hc.free h (by and_intros <;> rfl)) h
  · exact hc.carryKeep _ _ _ (fun _ h => hc.takeRead _ h) h
  · exact hc.carryKeep _ _ _ (fun _ h => hc.takeRead _ h) h
  · exact hc.carryKeep _ _ _ (fun _ h => hc.takeRead _ h) h
  · exact hc.carryKeep _ _ _ (fun _ h => hc.takeRead _ h) h
  · exact hc.carryOut _ _ _ (fun _ h => hc.takeResume h) h
  · exact hc.carryOut _ _ _ (fun _ h => hc.takeJobOpen _ _ _ _ _ h) h
  · exact hc.carryOut _ _ _ (fun _ h => hc.takeSwathPut _ h) h
  · exact hc.carryOut _ _ _ (fun _ h => hc.takeJobEnd _ h) h
  · exact hc.carryOut _ _ _ (fun _ h => hc.takeJobAbort _ h) h
  · exact hc.carryOut _ _ _ (fun _ h => hc.takeQueueMark _ h) h
  · exact hc.carryOut _ _ _ (fun _ h => hc.takeChanSet _ _ h) h
  · exact hc.carryOut _ _ _ (fun _ h => hc.takeChanOn _ h) h
  · exact hc.carryOut _ _ _ (fun _ h => hc.takeChanOff _ h) h
  · exact hc.carryOut _ _ _ (fun _ h => hc.takeChanGet _ h) h
  · exact hc.carryOut _ _ _ (fun _ h => hc.takeRefillAsk _ h) h
  · exact hc.carryOut _ _ _ (fun _ h => hc.takePumpSet _ _ h) h
  · exact hc.carryOut _ _ _ (fun _ h => hc.takeBayClear _ h) h
  · exact hc.carryOut _ _ _ (fun _ h => hc.takeRollLoad _ _ _ h) h
  · exact hc.carryOut _ _ _ (fun _ h => hc.takeRollUnload h) h
  · exact hc.carryOut _ _ _ (fun _ h => hc.takeFeed _ h) h
  · exact hc.carryOut _ _ _ (fun _ h => hc.takeFeedRetry h) h
  · exact hc.carryKeep _ _ _ (fun _ h => hc.takeSheetFrom _ h) h
  · exact hc.carryKeep _ _ _ (fun _ h => hc.takeSheetTo _ h) h
  · exact hc.carryKeep _ _ _ (fun _ h => hc.takeSheetCommit _ _ _ _ _ h) h
  · exact hc.carryOut _ _ _ (fun _ h => hc.takeCutCancel _ h) h
  · exact hc.carryOut _ _ _ (fun _ h => hc.takeCutterClear h) h
  · exact hc.carryOut _ _ _ (fun _ h => hc.takeGeometrySet _ _ h) h
  · exact hc.carryOut _ _ _ (fun _ h => hc.takePatchsetLoad _ _ _ h) h
  · exact hc.carryOut _ _ _ (fun _ h => hc.takeGainSet _ _ h) h
  · exact hc.carryOut _ _ _ (fun _ h => hc.takeRingRetain _ h) h
  · exact hc.carryOut _ _ _ (fun _ h => h) h
  · exact hc.carryOut _ _ _ (fun _ h => hc.takeRingRelease _ h) h
  · exact hc.carryOut _ _ _ (fun _ h => hc.takeCheckSet _ h) h
  · exact hc.carryOut _ _ _ (fun _ h => takeCheckGet _ h) h
  · exact hc.carryOut _ _ _ (fun _ h => hc.takeQuoteOpen _ _ _ _ h) h
  · exact hc.carryOut _ _ _ (fun _ h => hc.takeQuoteSwath _ _ h) h
  · exact hc.carryOut _ _ _ (fun _ h => hc.takeQuoteClose _ h) h
  · exact hc.carryOut _ _ _ (fun _ h => hc.takeHouseClose h) h
  · exact hc.carryOut _ _ _ (fun _ h => hc.takePriceStage _ _ _ h) h
  · exact hc.carryOut _ _ _ (fun _ h => hc.takePriceCommit h) h
  · exact hc.carryOut _ _ _ (fun _ h => takePriceGet _ h) h
  · exact hc.carryOut _ _ _ (fun _ h => takeAccountGet _ _ h) h
  · exact hc.carryOut _ _ _ (fun _ h => hc.takeRecordTake h) h
  · exact hc.carryOut _ _ _ (fun _ h => hc.takeStoreSave h) h
  · exact hc.begin h

theorem doFrameDispatch (h : P s) : P (doFrameDispatch s) := by
  unfold Machine.doFrameDispatch
  split
  · rename_i f t hb
    split
    · have h1 : P { Machine.begin s with lc.buffer := t } := by
        refine hc.lc (Machine.begin s) _ (fun hk => ⟨?_, hk.2⟩) (fun hk => hk) (fun hk => hk) (hc.begin h)
        have := hk.1
        simp only [begin_lc, hb, List.length_cons] at this ⊢
        omega
      unfold handleFrame
      split
      · exact hc.form _ _ _ _ h1
      · exact hc.form _ _ _ _ h1
      · exact hc.runRequest _ h1
    · exact hc.begin h
  · exact hc.begin h

theorem startFrame (f : TxFrame) (h : P s) : P (startFrame f s) :=
  hc.reactions.send _ (hc.free h (by and_intros <;> rfl))

theorem sendReply (h : P s) : P (sendReply s) := by
  unfold Machine.sendReply
  split
  · rename_i r t hb
    refine hc.startFrame _ (hc.lc s _ (fun hk => ⟨hk.1, ?_, hk.2.2⟩) (fun hk => hk) (fun hk => hk) h)
    have := hk.2.1
    simp only [hb, List.length_cons] at this ⊢
    omega
  · split
    · exact hc.startFrame _ (hc.free h (by and_intros <;> rfl))
    · exact h

theorem doTransmitFrameStart (h : P s) : P (doTransmitFrameStart s) := by
  unfold Machine.doTransmitFrameStart
  split
  · unfold nextFrame
    split
    · split
      · exact hc.sendReply (hc.free (hc.begin h) (by and_intros <;> rfl))
      · refine hc.startFrame _ (hc.lc (Machine.begin s) _ (fun hk => ⟨hk.1, hk.2.1, ?_⟩) (fun hk => hk)
          (fun hk => hk) (hc.begin h))
        exact Nat.mod_lt _ (by decide)
    · exact hc.sendReply (hc.begin h)
  · exact hc.begin h

theorem doFrameSendEnd (h : P s) : P (doFrameSendEnd s) := by
  unfold Machine.doFrameSendEnd
  split
  · exact hc.free (hc.begin h) (by and_intros <;> rfl)
  · exact hc.begin h

/-! ### Resets -/

omit hc in
theorem factory_gains : GainsIn factory.gains := by
  intro x hx
  have : x = 4096 := List.eq_of_mem_replicate hx
  subst this
  decide

theorem poweredOn (p : Pins) (h : P s) : P (poweredOn p s) := by
  have h1 := hc.rc s (Rc.afterReset factory) (fun _ => ⟨by decide, by decide⟩)
    (fun hk => ⟨hk.1, fun e he => by cases he⟩) h
  have h2 := hc.lc _ (resetLc p) (fun _ => ⟨by simp [resetLc, Lc.afterReset], by simp [resetLc, Lc.afterReset],
      by simp [resetLc, Lc.afterReset]⟩) (fun _ => ⟨by simp [resetLc, Lc.afterReset], by simp [resetLc, Lc.afterReset]⟩)
    (fun _ => holdForm_of_not_held rfl) h1
  have h3 := hc.isc _ (resetIsc p) (fun hk => ⟨?_, hk.2⟩) (fun hk => ⟨factory_gains, hk.2⟩)
    (fun _ => holdForm_of_not_held rfl) h2
  · have h4 := hc.mpc _ (resetMpc p) (fun _ r hr => by simp [resetMpc, Mpc.afterReset] at hr)
      (fun _ => ⟨by simp [resetMpc, Mpc.afterReset], by simp [resetMpc, Mpc.afterReset]⟩)
      (fun _ => holdForm_of_not_held rfl) h3
    have h5 := hc.ccu _ (Ccu.afterReset factory) (fun _ => ⟨by simp [Ccu.afterReset], trivial⟩) h4
    have h6 := hc.cu _ (Cu.afterReset factory) (fun _ => by simp [RecordForm, Cu.afterReset]) h5
    have h7 := hc.ss _ { image := s.ss.image, store := .defaulted, changed := false, loading := some 0 }
      (by intro hk; exact ⟨hk.1, hk.2.1, fun _ _ hs => nomatch hs⟩) h6
    exact hc.out _ [.askState] h7
  · intro c hcm
    simp only [resetIsc, Isc.afterReset, List.mem_mapIdx, List.length_map] at hcm
    obtain ⟨i, hi, rfl⟩ := hcm
    simp only [readFloats, List.getElem_map, Channel.afterReset]
    exact ⟨fun l hl => (nomatch hl), (by decide : 0 < Config.chargeDivisor)⟩

theorem doPowerOnReset (p : Pins) (h : P s) : P (doPowerOnReset p s) := by
  unfold Machine.doPowerOnReset
  split
  · exact hc.poweredOn p h
  · exact hc.beginHold (hc.poweredOn p h)

omit hc in
theorem zipWith_load_form {l : List (ChanCfg × Bool)} {cs : List Channel} (h : ∀ c ∈ cs, ChanForm c) :
    ∀ c ∈ List.zipWith Channel.load l cs, ChanForm c := by
  induction l generalizing cs with
  | nil => simp
  | cons p t ih =>
    cases cs with
    | nil => simp
    | cons x u =>
      intro c hcm
      rcases List.mem_cons.1 hcm with rfl | hcm
      · refine ⟨?_, (h x (by simp)).2⟩
        intro l hl
        simp only [Channel.load, Option.map_eq_some_iff] at hl
        obtain ⟨_, _, rfl⟩ := hl
        exact Nat.min_le_right _ _
      · exact ih (fun c hc => h c (List.mem_cons_of_mem _ hc)) c hcm

omit hc in
theorem loaded_gains (h : GainForm s) : GainsIn (loadedSettings s).gains := by
  unfold loadedSettings
  split
  · rename_i p hp
    exact h.2.1 p hp
  · exact factory_gains

theorem applySettings (h : P s) : P (applySettings (loadedSettings s) s) := by
  have h1 := hc.isc s { s.isc with chans := List.zipWith Channel.load (loadedSettings s).chans s.isc.chans
                                   gains := (loadedSettings s).gains, gainGen := (loadedSettings s).gainGen
                                   pumpPeriod := (loadedSettings s).pumpPeriod, spentMark := (loadedSettings s).spentMark }
    (fun hk => ⟨zipWith_load_form hk.1, hk.2⟩) (fun hk => ⟨loaded_gains hk, hk.2⟩) (fun hk => hk) h
  exact hc.free h1 (by and_intros <;> rfl)

theorem loadDone (st : StoreState) (hst : st = .valid ∨ st = .defaulted) (h : P s) : P (loadDone st s) := by
  have h1 := hc.ss s { s.ss with store := st, changed := false, loading := none }
    (fun hk => ⟨hk.1, hk.2.1, fun p n hp => by rcases hst with rfl | rfl <;> cases hp⟩) h
  exact hc.free h1 (by and_intros <;> rfl)

theorem doStoreLoadEnd (h : P s) : P (doStoreLoadEnd s) := by
  unfold Machine.doStoreLoadEnd
  split
  · unfold endLoad
    simp only
    split
    · exact hc.loadDone _ (.inl rfl) (hc.applySettings (hc.begin h))
    · exact hc.reactions.raise _ _ (hc.loadDone _ (.inr rfl) (hc.applySettings (hc.begin h)))
  · exact hc.begin h

theorem dropGrant (h : P s) : P (dropGrant s) := by
  unfold Machine.dropGrant
  split
  · rename_i e he
    have h0 : P { s with rc.fireTimer := none, rc.stale := some e.queueTag } := hc.free h (by and_intros <;> rfl)
    refine hc.reactions.send _ (hc.release (s := { s with rc.fireTimer := none, rc.stale := some e.queueTag }) (e := e)
      (List.mem_of_find?_eq_some he) (fun r hr => ?_) h0)
    cases hch : e.charges with
    | none => simp [hch] at hr
    | some m => exact ⟨m, rfl, by simpa [hch] using hr⟩
  · exact h

omit hc in
/-- R122: the cutter of a hold stays as it stands, its mid-stroke mark cleared. -/
theorem softCutter_still {c : Cutter} {b : Bool} (h : cutterStill c = true) : cutterStill (softCutter c b) = true := by
  cases c <;> first | exact h | rfl | cases h

theorem doSoftResetAct (h : P s) : P (doSoftResetAct s) := by
  have hrc : ∀ t, P t → P (softRc t) := fun t h =>
    hc.rc _ _ (fun _ => ⟨Nat.zero_le _, List.nodup_nil⟩) (fun hk => ⟨hk.1, fun e he => nomatch he⟩) (hc.dropGrant h)
  have hisc : ∀ t, P t → P (softIsc t) := by
    intro t h
    have h1 : P (match t.isc.pump.draw with
        | some d => Machine.endDrawSoft d t
        | none => t) := by
      split
      · exact hc.endDrawSoft _ h
      · exact h
    unfold softIsc
    refine hc.isc _ _ (fun hk => ⟨?_, hk.2⟩) (fun hk => hk) (fun hk => hk) h1
    intro c hcm
    obtain ⟨x, hx, rfl⟩ := List.mem_map.1 hcm
    unfold Channel.unqueued
    split
    · exact hk.1 x hx
    · exact hk.1 x hx
  have hmpc : ∀ t, P t → P (softMpc t) := fun t h =>
    hc.mpc _ _ (fun hk => hk) (fun _ => ⟨Nat.zero_le _, List.Pairwise.nil⟩)
      (fun hk hh => ⟨(hk hh).1, softCutter_still (hk hh).2.1, rfl⟩) h
  have hccu : ∀ t, P t → P (softCcu t) := fun t h =>
    hc.ccu _ _ (fun _ => ⟨Nat.zero_le _, by unfold softLink; cases t.ccu.link <;> trivial⟩) h
  have hcu : ∀ t, P t → P (softCu t) := fun t h => hc.openHouse (hc.cu _ _ (fun _ => Nat.zero_le _) h)
  have hlc : ∀ t, P t → P (softLc t) := fun t h =>
    hc.lc _ _ (fun hk => hk) (fun _ => ⟨List.Pairwise.nil, fun e he => nomatch he⟩) (fun hk => hk) h
  unfold Machine.doSoftResetAct
  split
  · exact hlc _ (hcu _ (hccu _ (hmpc _ (hisc _ (hrc _ (hc.begin h))))))
  · exact hc.begin h

/-! ### Every command, and the step -/

/-- Every command answers a next state, and keeps every such property. -/
theorem exec_closed (i : Instr) (h : P s) : ∃ t, exec i s = .next t ∧ P t := by
  cases i with
  | powerOnReset p => exact ⟨_, rfl, hc.doPowerOnReset p h⟩
  | storeLoadEnd => exact ⟨_, rfl, hc.doStoreLoadEnd h⟩
  | hostFrameReceived f => exact ⟨_, rfl, hc.doHostFrameReceived f h⟩
  | rxGapTimeout => exact ⟨_, rfl, hc.receive _ (hc.begin h)⟩
  | frameDispatch => exact ⟨_, rfl, hc.doFrameDispatch h⟩
  | transmitFrameStart => exact ⟨_, rfl, hc.doTransmitFrameStart h⟩
  | frameSendEnd => exact ⟨_, rfl, hc.doFrameSendEnd h⟩
  | softResetAct => exact ⟨_, rfl, hc.doSoftResetAct h⟩
  | storeSaveEnd => exact ⟨_, rfl, hc.doStoreSaveEnd h⟩
  | fired ok tag => exact ⟨_, rfl, hc.onReport _ _ _ (fun _ _ _ h => hc.endGrant _ _ h) h⟩
  | broken ok tag => exact ⟨_, rfl, hc.onReport _ _ _ (fun _ _ _ h => hc.endGrant _ _ h) h⟩
  | notFired ok tag => exact ⟨_, rfl, hc.onReport _ _ _ (fun _ _ he h => hc.unfired _ he h) h⟩
  | headReady ok =>
    refine ⟨_, rfl, ?_⟩
    unfold doHeadReady
    split
    · exact hc.reactions.settle (hc.free (hc.begin h) (by and_intros <;> rfl))
    · exact hc.begin h
  | headFault ok => exact ⟨_, rfl, hc.doHeadFault ok h⟩
  | cleaned ok l => exact ⟨_, rfl, hc.doCleaned ok l h⟩
  | fireTimeout => exact ⟨_, rfl, hc.doFireTimeout h⟩
  | encoderStep f => exact ⟨_, rfl, hc.encode f (hc.begin h)⟩
  | settleWindowEnd => exact ⟨_, rfl, hc.doSettleWindowEnd h⟩
  | feedLimitExpiry => exact ⟨_, rfl, hc.doFeedLimitExpiry h⟩
  | homeChange a => exact ⟨_, rfl, hc.doHomeChange a h⟩
  | strokeTimeout => exact ⟨_, rfl, hc.doStrokeTimeout h⟩
  | coverOpen => exact ⟨_, rfl, hc.doCoverOpen h⟩
  | coverClose => exact ⟨_, rfl, hc.doCoverClose h⟩
  | coverSettleExpiry => exact ⟨_, rfl, hc.doCoverSettleExpiry h⟩
  | supplyOkDeassert => exact ⟨_, rfl, hc.doSupplyOkDeassert h⟩
  | supplyOkAssert => exact ⟨_, rfl, hc.doSupplyOkAssert h⟩
  | lowFloatAssert c => exact ⟨_, rfl, hc.doLowFloatAssert c h⟩
  | lowFloatDeassert c => exact ⟨_, rfl, hc.chanPlain _ _ (fun _ => rfl) (fun _ => rfl) (fun _ => rfl) (hc.begin h)⟩
  | fullFloatAssert c => exact ⟨_, rfl, hc.doFullFloatAssert c h⟩
  | fullFloatDeassert c => exact ⟨_, rfl, hc.chanPlain _ _ (fun _ => rfl) (fun _ => rfl) (fun _ => rfl) (hc.begin h)⟩
  | drawLimitExpiry => exact ⟨_, rfl, hc.doDrawLimitExpiry h⟩
  | bayPresenceAssert b => exact ⟨_, rfl, hc.doBayPresenceAssert b h⟩
  | bayPresenceDeassert b => exact ⟨_, rfl, hc.doBayPresenceDeassert b h⟩
  | tagOpStart => exact ⟨_, rfl, hc.doTagOpStart h⟩
  | tagReadComplete a b c d => exact ⟨_, rfl, hc.doTagReadComplete a b c d h⟩
  | tagWriteComplete => exact ⟨_, rfl, hc.doTagWriteComplete h⟩
  | tagOpTimeout => exact ⟨_, rfl, hc.doTagOpTimeout h⟩
  | reading ok i l a b g => exact ⟨_, rfl, hc.doReading ok i l a b g h⟩
  | scanEnd ok => exact ⟨_, rfl, hc.doScanEnd ok h⟩
  | sensorReady ok => exact ⟨_, rfl, hc.doSensorReady ok h⟩
  | sensorFault ok => exact ⟨_, rfl, hc.doSensorFault ok h⟩
  | scanTimeout => exact ⟨_, rfl, hc.doScanTimeout h⟩
  | dryTimerExpiry c => exact ⟨_, rfl, hc.doDryTimerExpiry c h⟩
  | limitTimerExpiry c => exact ⟨_, rfl, hc.doLimitTimerExpiry c h⟩
  | hostByteReceived b ok => exact ⟨_, rfl, hc.doHostByteReceived b ok h⟩
  | hello ft => exact ⟨_, rfl, hc.runRequest (.hello ft) h⟩
  | status ft => exact ⟨_, rfl, hc.runRequest (.status ft) h⟩
  | resetSoft ft => exact ⟨_, rfl, hc.runRequest (.resetSoft ft) h⟩
  | readFaults ft => exact ⟨_, rfl, hc.runRequest (.readFaults ft) h⟩
  | readHolds ft => exact ⟨_, rfl, hc.runRequest (.readHolds ft) h⟩
  | readProgress ft => exact ⟨_, rfl, hc.runRequest (.readProgress ft) h⟩
  | readChanges ft => exact ⟨_, rfl, hc.runRequest (.readChanges ft) h⟩
  | resume ft => exact ⟨_, rfl, hc.runRequest (.resume ft) h⟩
  | jobOpen ft a b c d e => exact ⟨_, rfl, hc.runRequest (.jobOpen ft a b c d e) h⟩
  | swathPut ft d => exact ⟨_, rfl, hc.runRequest (.swathPut ft d) h⟩
  | jobEnd ft t => exact ⟨_, rfl, hc.runRequest (.jobEnd ft t) h⟩
  | jobAbort ft t => exact ⟨_, rfl, hc.runRequest (.jobAbort ft t) h⟩
  | queueMark ft v => exact ⟨_, rfl, hc.runRequest (.queueMark ft v) h⟩
  | chanSet ft c cfg => exact ⟨_, rfl, hc.runRequest (.chanSet ft c cfg) h⟩
  | chanOn ft c => exact ⟨_, rfl, hc.runRequest (.chanOn ft c) h⟩
  | chanOff ft c => exact ⟨_, rfl, hc.runRequest (.chanOff ft c) h⟩
  | chanGet ft c => exact ⟨_, rfl, hc.runRequest (.chanGet ft c) h⟩
  | refillAsk ft c => exact ⟨_, rfl, hc.runRequest (.refillAsk ft c) h⟩
  | pumpSet ft p m => exact ⟨_, rfl, hc.runRequest (.pumpSet ft p m) h⟩
  | bayClear ft b => exact ⟨_, rfl, hc.runRequest (.bayClear ft b) h⟩
  | rollLoad ft m w l => exact ⟨_, rfl, hc.runRequest (.rollLoad ft m w l) h⟩
  | rollUnload ft => exact ⟨_, rfl, hc.runRequest (.rollUnload ft) h⟩
  | feed ft d => exact ⟨_, rfl, hc.runRequest (.feed ft d) h⟩
  | feedRetry ft => exact ⟨_, rfl, hc.runRequest (.feedRetry ft) h⟩
  | sheetFrom ft p => exact ⟨_, rfl, hc.runRequest (.sheetFrom ft p) h⟩
  | sheetTo ft p => exact ⟨_, rfl, hc.runRequest (.sheetTo ft p) h⟩
  | sheetCommit ft a b c d e => exact ⟨_, rfl, hc.runRequest (.sheetCommit ft a b c d e) h⟩
  | cutCancel ft p => exact ⟨_, rfl, hc.runRequest (.cutCancel ft p) h⟩
  | cutterClear ft => exact ⟨_, rfl, hc.runRequest (.cutterClear ft) h⟩
  | geometrySet ft a b => exact ⟨_, rfl, hc.runRequest (.geometrySet ft a b) h⟩
  | patchsetLoad ft a b l => exact ⟨_, rfl, hc.runRequest (.patchsetLoad ft a b l) h⟩
  | gainSet ft c v => exact ⟨_, rfl, hc.runRequest (.gainSet ft c v) h⟩
  | ringRetain ft n => exact ⟨_, rfl, hc.runRequest (.ringRetain ft n) h⟩
  | ringRead ft a b => exact ⟨_, rfl, hc.runRequest (.ringRead ft a b) h⟩
  | ringRelease ft n => exact ⟨_, rfl, hc.runRequest (.ringRelease ft n) h⟩
  | checkSet ft p => exact ⟨_, rfl, hc.runRequest (.checkSet ft p) h⟩
  | checkGet ft i => exact ⟨_, rfl, hc.runRequest (.checkGet ft i) h⟩
  | quoteOpen ft a b c d => exact ⟨_, rfl, hc.runRequest (.quoteOpen ft a b c d) h⟩
  | quoteSwath ft t d => exact ⟨_, rfl, hc.runRequest (.quoteSwath ft t d) h⟩
  | quoteClose ft t => exact ⟨_, rfl, hc.runRequest (.quoteClose ft t) h⟩
  | houseClose ft => exact ⟨_, rfl, hc.runRequest (.houseClose ft) h⟩
  | priceStage ft a b c => exact ⟨_, rfl, hc.runRequest (.priceStage ft a b c) h⟩
  | priceCommit ft => exact ⟨_, rfl, hc.runRequest (.priceCommit ft) h⟩
  | priceGet ft n => exact ⟨_, rfl, hc.runRequest (.priceGet ft n) h⟩
  | accountGet ft a b => exact ⟨_, rfl, hc.runRequest (.accountGet ft a b) h⟩
  | recordTake ft => exact ⟨_, rfl, hc.runRequest (.recordTake ft) h⟩
  | storeSave ft => exact ⟨_, rfl, hc.runRequest (.storeSave ft) h⟩

theorem enqueue (i : Instr) (h : P s) : P (enqueue i s) := hc.pending s _ h

end Sys2Proof.Machine.StepClosed
end

