-- ==== Sys2Proof/Laws/PerInstr.lean ====
section
/-! SUPPORT. The family of lemmas with one lemma for each constructor of `Instr`: the kind byte of the frame that spells a command (R198). -/

namespace Sys2Proof.Laws.Frame

/-- R198: a command that has a frame has an assigned request kind, 0x01 to 0x2F. -/
def Statement (i : Instr) : Prop := ∀ f, encodeRequest i = some f → 1 ≤ f.kind.toNat ∧ f.kind.toNat ≤ 0x2F

theorem powerOnReset (pins : Pins) : Statement (.powerOnReset pins) := nofun

theorem storeLoadEnd : Statement .storeLoadEnd := nofun

theorem hostFrameReceived (f : Frame) : Statement (.hostFrameReceived f) := nofun

theorem rxGapTimeout : Statement .rxGapTimeout := nofun

theorem frameDispatch : Statement .frameDispatch := nofun

theorem transmitFrameStart : Statement .transmitFrameStart := nofun

theorem frameSendEnd : Statement .frameSendEnd := nofun

theorem softResetAct : Statement .softResetAct := nofun

theorem hello (ft : Byte) : Statement (.hello ft) := fun _ h => by cases h; dsimp only; decide

theorem status (ft : Byte) : Statement (.status ft) := fun _ h => by cases h; dsimp only; decide

theorem resetSoft (ft : Byte) : Statement (.resetSoft ft) := fun _ h => by cases h; dsimp only; decide

theorem readFaults (ft : Byte) : Statement (.readFaults ft) := fun _ h => by cases h; dsimp only; decide

theorem readHolds (ft : Byte) : Statement (.readHolds ft) := fun _ h => by cases h; dsimp only; decide

theorem readProgress (ft : Byte) : Statement (.readProgress ft) := fun _ h => by cases h; dsimp only; decide

theorem readChanges (ft : Byte) : Statement (.readChanges ft) := fun _ h => by cases h; dsimp only; decide

theorem resume (ft : Byte) : Statement (.resume ft) := fun _ h => by cases h; dsimp only; decide

theorem jobOpen (ft : Byte) (tag media policy setId flags : Nat) : Statement (.jobOpen ft tag media policy setId flags) := fun _ h => by cases h; dsimp only; decide

theorem swathPut (ft : Byte) (d : Descriptor) : Statement (.swathPut ft d) := fun _ h => by cases h; dsimp only; decide

theorem jobEnd (ft : Byte) (tag : Nat) : Statement (.jobEnd ft tag) := fun _ h => by cases h; dsimp only; decide

theorem jobAbort (ft : Byte) (tag : Nat) : Statement (.jobAbort ft tag) := fun _ h => by cases h; dsimp only; decide

theorem queueMark (ft : Byte) (value : Nat) : Statement (.queueMark ft value) := fun _ h => by cases h; dsimp only; decide

theorem chanSet (ft : Byte) (channel : Nat) (cfg : ChanCfg) : Statement (.chanSet ft channel cfg) := fun _ h => by cases h; dsimp only; decide

theorem chanOn (ft : Byte) (channel : Nat) : Statement (.chanOn ft channel) := fun _ h => by cases h; dsimp only; decide

theorem chanOff (ft : Byte) (channel : Nat) : Statement (.chanOff ft channel) := fun _ h => by cases h; dsimp only; decide

theorem chanGet (ft : Byte) (channel : Nat) : Statement (.chanGet ft channel) := fun _ h => by cases h; dsimp only; decide

theorem refillAsk (ft : Byte) (channel : Nat) : Statement (.refillAsk ft channel) := fun _ h => by cases h; dsimp only; decide

theorem pumpSet (ft : Byte) (period spent : Nat) : Statement (.pumpSet ft period spent) := fun _ h => by cases h; dsimp only; decide

theorem bayClear (ft : Byte) (bay : Nat) : Statement (.bayClear ft bay) := fun _ h => by cases h; dsimp only; decide

theorem rollLoad (ft : Byte) (media width length : Nat) : Statement (.rollLoad ft media width length) := fun _ h => by cases h; dsimp only; decide

theorem rollUnload (ft : Byte) : Statement (.rollUnload ft) := fun _ h => by cases h; dsimp only; decide

theorem feed (ft : Byte) (distance : Nat) : Statement (.feed ft distance) := fun _ h => by cases h; dsimp only; decide

theorem feedRetry (ft : Byte) : Statement (.feedRetry ft) := fun _ h => by cases h; dsimp only; decide

theorem sheetFrom (ft : Byte) (position : Nat) : Statement (.sheetFrom ft position) := fun _ h => by cases h; dsimp only; decide

theorem sheetTo (ft : Byte) (position : Nat) : Statement (.sheetTo ft position) := fun _ h => by cases h; dsimp only; decide

theorem sheetCommit (ft : Byte) (selector tag lead trail guard : Nat) : Statement (.sheetCommit ft selector tag lead trail guard) := fun _ h => by cases h; dsimp only; decide

theorem cutCancel (ft : Byte) (position : Nat) : Statement (.cutCancel ft position) := fun _ h => by cases h; dsimp only; decide

theorem cutterClear (ft : Byte) : Statement (.cutterClear ft) := fun _ h => by cases h; dsimp only; decide

theorem geometrySet (ft : Byte) (sensor cutter : Nat) : Statement (.geometrySet ft sensor cutter) := fun _ h => by cases h; dsimp only; decide

theorem patchsetLoad (ft : Byte) (setId count : Nat) (body : List Byte) : Statement (.patchsetLoad ft setId count body) := fun _ h => by cases h; dsimp only; decide

theorem gainSet (ft : Byte) (channel value : Nat) : Statement (.gainSet ft channel value) := fun _ h => by cases h; dsimp only; decide

theorem ringRetain (ft : Byte) (setting : Nat) : Statement (.ringRetain ft setting) := fun _ h => by cases h; dsimp only; decide

theorem ringRead (ft : Byte) (offset count : Nat) : Statement (.ringRead ft offset count) := fun _ h => by cases h; dsimp only; decide

theorem ringRelease (ft : Byte) (n : Nat) : Statement (.ringRelease ft n) := fun _ h => by cases h; dsimp only; decide

theorem checkSet (ft : Byte) (params : CheckParams) : Statement (.checkSet ft params) := fun _ h => by cases h; dsimp only; decide

theorem checkGet (ft : Byte) (check : Nat) : Statement (.checkGet ft check) := fun _ h => by cases h; dsimp only; decide

theorem quoteOpen (ft : Byte) (tag media width cuts : Nat) : Statement (.quoteOpen ft tag media width cuts) := fun _ h => by cases h; dsimp only; decide

theorem quoteSwath (ft : Byte) (tag : Nat) (d : Descriptor) : Statement (.quoteSwath ft tag d) := fun _ h => by cases h; dsimp only; decide

theorem quoteClose (ft : Byte) (tag : Nat) : Statement (.quoteClose ft tag) := fun _ h => by cases h; dsimp only; decide

theorem houseClose (ft : Byte) : Statement (.houseClose ft) := fun _ h => by cases h; dsimp only; decide

theorem priceStage (ft : Byte) (selector index value : Nat) : Statement (.priceStage ft selector index value) := fun _ h => by cases h; dsimp only; decide

theorem priceCommit (ft : Byte) : Statement (.priceCommit ft) := fun _ h => by cases h; dsimp only; decide

theorem priceGet (ft : Byte) (selector : Nat) : Statement (.priceGet ft selector) := fun _ h => by cases h; dsimp only; decide

theorem accountGet (ft : Byte) (selector tag : Nat) : Statement (.accountGet ft selector tag) := fun _ h => by cases h; dsimp only; decide

theorem recordTake (ft : Byte) : Statement (.recordTake ft) := fun _ h => by cases h; dsimp only; decide

theorem storeSave (ft : Byte) : Statement (.storeSave ft) := fun _ h => by cases h; dsimp only; decide

theorem storeSaveEnd : Statement .storeSaveEnd := nofun

theorem fired (crcOk : Bool) (tag : Nat) : Statement (.fired crcOk tag) := nofun

theorem broken (crcOk : Bool) (tag : Nat) : Statement (.broken crcOk tag) := nofun

theorem notFired (crcOk : Bool) (tag : Nat) : Statement (.notFired crcOk tag) := nofun

theorem headReady (crcOk : Bool) : Statement (.headReady crcOk) := nofun

theorem headFault (crcOk : Bool) : Statement (.headFault crcOk) := nofun

theorem cleaned (crcOk : Bool) (counts : List Counts) : Statement (.cleaned crcOk counts) := nofun

theorem fireTimeout : Statement .fireTimeout := nofun

theorem encoderStep (forward : Bool) : Statement (.encoderStep forward) := nofun

theorem settleWindowEnd : Statement .settleWindowEnd := nofun

theorem feedLimitExpiry : Statement .feedLimitExpiry := nofun

theorem homeChange (asserted : Bool) : Statement (.homeChange asserted) := nofun

theorem strokeTimeout : Statement .strokeTimeout := nofun

theorem coverOpen : Statement .coverOpen := nofun

theorem coverClose : Statement .coverClose := nofun

theorem coverSettleExpiry : Statement .coverSettleExpiry := nofun

theorem supplyOkDeassert : Statement .supplyOkDeassert := nofun

theorem supplyOkAssert : Statement .supplyOkAssert := nofun

theorem lowFloatAssert (ch : Fin 10) : Statement (.lowFloatAssert ch) := nofun

theorem lowFloatDeassert (ch : Fin 10) : Statement (.lowFloatDeassert ch) := nofun

theorem fullFloatAssert (ch : Fin 10) : Statement (.fullFloatAssert ch) := nofun

theorem fullFloatDeassert (ch : Fin 10) : Statement (.fullFloatDeassert ch) := nofun

theorem drawLimitExpiry : Statement .drawLimitExpiry := nofun

theorem bayPresenceAssert (bay : Fin 16) : Statement (.bayPresenceAssert bay) := nofun

theorem bayPresenceDeassert (bay : Fin 16) : Statement (.bayPresenceDeassert bay) := nofun

theorem tagOpStart : Statement .tagOpStart := nofun

theorem tagReadComplete (inkId capacity remaining : Nat) (check : Half) : Statement (.tagReadComplete inkId capacity remaining check) := nofun

theorem tagWriteComplete : Statement .tagWriteComplete := nofun

theorem tagOpTimeout : Statement .tagOpTimeout := nofun

theorem reading (crcOk : Bool) (index : Nat) (l a b : Int) (good : Bool) : Statement (.reading crcOk index l a b good) := nofun

theorem scanEnd (crcOk : Bool) : Statement (.scanEnd crcOk) := nofun

theorem sensorReady (crcOk : Bool) : Statement (.sensorReady crcOk) := nofun

theorem sensorFault (crcOk : Bool) : Statement (.sensorFault crcOk) := nofun

theorem scanTimeout : Statement .scanTimeout := nofun

theorem dryTimerExpiry (check : Fin 4) : Statement (.dryTimerExpiry check) := nofun

theorem limitTimerExpiry (check : Fin 4) : Statement (.limitTimerExpiry check) := nofun

theorem hostByteReceived (byte : Byte) (stopOk : Bool) : Statement (.hostByteReceived byte stopOk) := nofun

end Sys2Proof.Laws.Frame
end

