-- ==== Sys2Proof/Laws/Requests.lean ====
section
/-! SUPPORT. What the taking of every request has in common (R189 step 3, R191): it forms no reply itself and leaves the sheet plan alone, and a refusal changes nothing. -/

namespace Sys2Proof.Machine

/-- What a request's rule gives on `x`: the formed replies and the plan stay, its rule sets no mark, and a refusal leaves `x` as it was. -/
structure Taken.Plain (x : State) (t : Taken) : Prop where
  formed : t.state.lc.formed = x.lc.formed
  plan : t.state.mpc.plan = x.mpc.plan
  mark : t.mark = false
  refused : t.code ≠ .ok → t = refuse t.code x

theorem plan_closed (l : List Reply) (p : Plan) : ReactionClosed (fun s => s.lc.formed = l ∧ s.mpc.plan = p) where
  out _ _ h := h
  conds _ _ _ _ h := h
  rcFree _ _ _ _ h := h
  entry _ _ _ _ h := h
  drop _ _ h := h
  chan _ _ _ _ h := h
  bay _ _ _ _ h := h
  pump _ _ _ _ _ h := h
  mpcFree _ _ _ _ _ _ _ _ h := h
  cuts _ _ _ h := h
  checks _ _ h := h
  scan _ _ _ _ _ h := h
  drain _ _ h := h
  ring _ _ h := h
  prints _ _ h := h
  record _ _ _ h := h

/-! ### The reply of a request -/

theorem planHeld_eq (s : State) : planHeld s = planMark s := by
  unfold planHeld planMark
  cases s.mpc.plan <;> rfl

/-- A request that interrupts a plan is taken on the cleared state, and its reply carries the mark. -/
theorem carryOut_eq (kind : Nat) (ft : Byte) (f : State → Taken) (s : State) :
    carryOut kind ft f s = form kind ft (planMark s) (f (cleared s)) := by
  rw [← planHeld_eq]
  rfl

/-- The reply of an accepted request. -/
theorem form_accept (kind : Nat) (ft : Byte) (m : Bool) (b : Body) (x : State) :
    form kind ft m (accept b x) = answer kind ft .ok m b x := by
  simp [form, accept, answer]

/-- The reply of an accepted request after which the reactions follow. -/
theorem form_settled (kind : Nat) (ft : Byte) (m : Bool) (b : Body) (x : State) :
    form kind ft m (accept b x).settled = answer kind ft .ok m b (settle x) := by
  simp [form, accept, answer, Taken.settled]

/-- The reply of a refused request. -/
theorem form_refuse (kind : Nat) (ft : Byte) (m : Bool) (c : Code) (x : State) :
    form kind ft m (refuse c x) = answer kind ft c m .none x := by
  simp [form, refuse, answer]

namespace Taken.Plain

theorem refuse (c : Code) (x : State) : Plain x (refuse c x) := ⟨rfl, rfl, rfl, fun _ => rfl⟩

theorem accept (b : Body) {x y : State} (h : y.lc.formed = x.lc.formed ∧ y.mpc.plan = x.mpc.plan) :
    Plain x (accept b y) := ⟨h.1, h.2, rfl, fun h => absurd rfl h⟩

theorem settled {x : State} {t : Taken} (hc : t.code = .ok) (h : Plain x t) : Plain x t.settled := by
  have := (plan_closed x.lc.formed x.mpc.plan).settle ⟨h.formed, h.plan⟩
  exact ⟨this.1, this.2, h.mark, fun h => absurd hc h⟩

theorem accepted (b : Body) {x y : State} (h : y.lc.formed = x.lc.formed ∧ y.mpc.plan = x.mpc.plan) :
    Plain x (Machine.accept b y).settled := settled rfl (accept b h)

variable (s : State)

theorem takeResume : Plain s (takeResume s) := by
  unfold Machine.takeResume
  split
  · refine accepted _ ?_
    have hc := plan_closed s.lc.formed s.mpc.plan
    exact hc.send _ (hc.resumeExec (held_resumed _ rfl)
      (hc.resumeCutter (held_closed.resumePump rfl rfl) (hc.resumePump rfl ⟨rfl, rfl⟩)))
  · exact refuse _ _

theorem takeJobOpen (tag media policy set flags : Nat) : Plain s (takeJobOpen tag media policy set flags s) := by
  have hop : ∀ i c p, (openJob i c tag media p set flags s).lc.formed = s.lc.formed ∧
      (openJob i c tag media p set flags s).mpc.plan = s.mpc.plan := fun i c p => by
    unfold Machine.openJob
    cases c <;> exact ⟨rfl, rfl⟩
  unfold Machine.takeJobOpen
  repeat' split
  all_goals first
    | exact refuse _ _
    | exact accept _ (hop _ _ _)

theorem takeSwathPut (d : Descriptor) : Plain s (takeSwathPut d s) := by
  unfold Machine.takeSwathPut
  repeat' split
  all_goals first
    | exact refuse _ _
    | skip
  refine accepted _ ?_
  unfold putSwath markBelow
  simp only
  split <;> exact ⟨rfl, rfl⟩

theorem takeJobEnd (tag : Nat) : Plain s (takeJobEnd tag s) := by
  unfold Machine.takeJobEnd
  repeat' split
  all_goals first
    | exact refuse _ _
    | skip
  exact accepted _ ((plan_closed s.lc.formed s.mpc.plan).endIfEmpty _ ⟨rfl, rfl⟩)

theorem takeJobAbort (tag : Nat) : Plain s (takeJobAbort tag s) := by
  have hc := plan_closed s.lc.formed s.mpc.plan
  unfold Machine.takeJobAbort
  repeat' split
  all_goals first
    | exact refuse _ _
    | exact accept _ ⟨rfl, rfl⟩
    | skip
  have h1 : ∀ slot, (withdraw slot tag s).lc.formed = s.lc.formed ∧ (withdraw slot tag s).mpc.plan = s.mpc.plan := by
    intro slot
    unfold withdraw
    simp only
    split
    · exact ⟨rfl, rfl⟩
    · exact hc.roomRose ⟨rfl, rfl⟩
  refine accepted _ ?_
  unfold abortJob revokeGrant
  split
  · split
    · exact h1 _
    · exact h1 _
  · exact h1 _

theorem takeQueueMark (v : Nat) : Plain s (takeQueueMark v s) := by
  unfold Machine.takeQueueMark
  repeat' split
  all_goals first
    | exact refuse _ _
    | exact accept _ ⟨rfl, rfl⟩

theorem takeChanSet (c : Nat) (cfg : ChanCfg) : Plain s (takeChanSet c cfg s) := by
  unfold Machine.takeChanSet
  repeat' split
  all_goals first
    | exact refuse _ _
    | exact accepted _ ⟨rfl, rfl⟩

theorem takeChanOn (c : Nat) : Plain s (takeChanOn c s) := by
  unfold Machine.takeChanOn
  repeat' split
  all_goals first
    | exact refuse _ _
    | skip
  refine accepted _ ?_
  unfold enable
  split <;> exact ⟨rfl, rfl⟩

theorem takeChanOff (c : Nat) : Plain s (takeChanOff c s) := by
  unfold Machine.takeChanOff
  repeat' split
  all_goals first
    | exact refuse _ _
    | skip
  refine accepted _ ?_
  unfold disable
  split <;> exact ⟨rfl, rfl⟩

theorem takeChanGet (c : Nat) : Plain s (takeChanGet c s) := by
  unfold Machine.takeChanGet
  repeat' split
  all_goals first
    | exact refuse _ _
    | exact accept _ ⟨rfl, rfl⟩

theorem takeRefillAsk (c : Nat) : Plain s (takeRefillAsk c s) := by
  have hc := plan_closed s.lc.formed s.mpc.plan
  unfold Machine.takeRefillAsk
  repeat' split
  all_goals first
    | exact refuse _ _
    | skip
  refine accepted _ ?_
  unfold askRefill
  split
  · exact hc.placeRequest _ _ ⟨rfl, rfl⟩
  · exact hc.placeRequest _ _ ⟨rfl, rfl⟩
  · exact ⟨rfl, rfl⟩

theorem takePumpSet (p m : Nat) : Plain s (takePumpSet p m s) := by
  unfold Machine.takePumpSet
  repeat' split
  all_goals first
    | exact refuse _ _
    | exact accept _ ⟨rfl, rfl⟩

theorem takeBayClear (b : Nat) : Plain s (takeBayClear b s) := by
  unfold Machine.takeBayClear
  repeat' split
  all_goals first
    | exact refuse _ _
    | exact accept _ ⟨rfl, rfl⟩

theorem takeGainSet (c v : Nat) : Plain s (takeGainSet c v s) := by
  unfold Machine.takeGainSet
  repeat' split
  all_goals first
    | exact refuse _ _
    | exact accepted _ ⟨rfl, rfl⟩

theorem takeRollLoad (media width length : Nat) : Plain s (takeRollLoad media width length s) := by
  unfold Machine.takeRollLoad
  repeat' split
  all_goals first
    | exact refuse _ _
    | exact accepted _ ⟨rfl, rfl⟩

theorem setCutLost_plain (o : CutOwner) (t : State) :
    (setCutLost o t).lc.formed = t.lc.formed ∧ (setCutLost o t).mpc.plan = t.mpc.plan := by
  unfold setCutLost
  split
  · exact ⟨rfl, rfl⟩
  · split <;> exact ⟨rfl, rfl⟩

theorem unloadRoll_plain : (unloadRoll s).lc.formed = s.lc.formed ∧ (unloadRoll s).mpc.plan = s.mpc.plan := by
  have hc := plan_closed s.lc.formed s.mpc.plan
  have h1 : ∀ (l : List CutOwner) (t : State), (t.lc.formed = s.lc.formed ∧ t.mpc.plan = s.mpc.plan) →
      ((l.foldl (fun t o => setCutLost o t) t).lc.formed = s.lc.formed
        ∧ (l.foldl (fun t o => setCutLost o t) t).mpc.plan = s.mpc.plan) := by
    intro l
    induction l with
    | nil => exact fun _ h => h
    | cons o l ih =>
      intro t h
      exact ih _ ⟨(setCutLost_plain o t).1.trans h.1, (setCutLost_plain o t).2.trans h.2⟩
  have h2 : (loseCuts s).lc.formed = s.lc.formed ∧ (loseCuts s).mpc.plan = s.mpc.plan := by
    unfold loseCuts
    simp only
    exact ReactionClosed.foldl (P := fun t => t.lc.formed = s.lc.formed ∧ t.mpc.plan = s.mpc.plan)
      (fun t i => doneTest i t) (fun _ i h => hc.doneTest i h) _ (h1 _ _ ⟨rfl, rfl⟩)
  unfold unloadRoll
  simp only
  refine ReactionClosed.foldl (P := fun t => t.lc.formed = s.lc.formed ∧ t.mpc.plan = s.mpc.plan)
    (fun t id => if leavesWithRoll (checkAt t id) then closeUnchecked id t else t) (fun t id h => ?_) _ h2
  split
  · exact hc.closeUnchecked _ h
  · exact h

theorem takeRollUnload : Plain s (takeRollUnload s) := by
  unfold Machine.takeRollUnload
  split
  · exact refuse _ _
  · split
    · exact refuse _ _
    · exact accepted _ (unloadRoll_plain s)

theorem takeFeed (d : Nat) : Plain s (takeFeed d s) := by
  unfold Machine.takeFeed
  repeat' split
  all_goals first
    | exact refuse _ _
    | exact accepted _ ((plan_closed s.lc.formed s.mpc.plan).takeAdvance _ _ _ ⟨rfl, rfl⟩)

theorem takeFeedRetry : Plain s (takeFeedRetry s) := by
  unfold Machine.takeFeedRetry
  split
  · exact refuse _ _
  · rename_i hn
    split
    · exact accepted _ ((plan_closed s.lc.formed s.mpc.plan).runOn _ (fun _ => by simpa using hn) ⟨rfl, rfl⟩)
    · exact refuse _ _

theorem takeCutCancel (p : Nat) : Plain s (takeCutCancel p s) := by
  have hc := plan_closed s.lc.formed s.mpc.plan
  unfold Machine.takeCutCancel
  repeat' split
  all_goals first
    | exact refuse _ _
    | exact accepted _ (hc.resolveStop (hc.removeCut _ ⟨rfl, rfl⟩))

theorem takeCutterClear : Plain s (takeCutterClear s) := by
  unfold Machine.takeCutterClear
  repeat' split
  all_goals first
    | exact refuse _ _
    | exact accepted _ ((plan_closed s.lc.formed s.mpc.plan).retestCut (s := { s with mpc.cutter := .ready }) ⟨rfl, rfl⟩)

theorem takeGeometrySet (a b : Nat) : Plain s (takeGeometrySet a b s) := by
  unfold Machine.takeGeometrySet
  repeat' split
  all_goals first
    | exact refuse _ _
    | exact accept _ ⟨rfl, rfl⟩

theorem takePatchsetLoad (a b : Nat) (l : List Byte) : Plain s (takePatchsetLoad a b l s) := by
  unfold Machine.takePatchsetLoad
  repeat' split
  all_goals first
    | exact refuse _ _
    | exact accept _ ⟨rfl, rfl⟩

theorem takeRingRetain (n : Nat) : Plain s (takeRingRetain n s) := by
  unfold Machine.takeRingRetain
  repeat' split
  all_goals first
    | exact refuse _ _
    | exact accept _ ⟨rfl, rfl⟩

theorem takeRingRead (a b : Nat) : Plain s (takeRingRead a b s) := accept _ ⟨rfl, rfl⟩

theorem takeRingRelease (n : Nat) : Plain s (takeRingRelease n s) :=
  accepted _ ((plan_closed s.lc.formed s.mpc.plan).retestScan
    (s := { s with ccu.ring := s.ccu.ring.drop (releasable n s) }) ⟨rfl, rfl⟩)

theorem takeCheckSet (p : CheckParams) : Plain s (takeCheckSet p s) := by
  unfold Machine.takeCheckSet
  repeat' split
  all_goals first
    | exact refuse _ _
    | exact accept _ ⟨rfl, rfl⟩

theorem takeCheckGet (i : Nat) : Plain s (takeCheckGet i s) := by
  unfold Machine.takeCheckGet
  split
  · exact refuse _ _
  · exact accept _ ⟨rfl, rfl⟩

theorem takeQuoteOpen (a b c d : Nat) : Plain s (takeQuoteOpen a b c d s) := by
  unfold Machine.takeQuoteOpen
  repeat' split
  all_goals first
    | exact refuse _ _
    | exact accept _ ⟨rfl, rfl⟩

theorem takeQuoteSwath (t : Nat) (d : Descriptor) : Plain s (takeQuoteSwath t d s) := by
  unfold Machine.takeQuoteSwath
  repeat' split
  all_goals first
    | exact refuse _ _
    | exact accept _ ⟨rfl, rfl⟩

theorem takeQuoteClose (t : Nat) : Plain s (takeQuoteClose t s) := by
  unfold Machine.takeQuoteClose
  repeat' split
  all_goals first
    | exact refuse _ _
    | skip
  rename_i hr
  refine accept _ ?_
  exact (plan_closed s.lc.formed s.mpc.plan).closeAccount _ _ (by simpa using hr) ⟨rfl, rfl⟩

theorem takeHouseClose : Plain s (takeHouseClose s) := by
  unfold Machine.takeHouseClose
  split
  · exact refuse _ _
  · rename_i hr
    exact accept _ ((plan_closed s.lc.formed s.mpc.plan).closeAccount _ _ (by simpa using hr) ⟨rfl, rfl⟩)

theorem takePriceStage (a b c : Nat) : Plain s (takePriceStage a b c s) := by
  unfold Machine.takePriceStage
  repeat' split
  all_goals first
    | exact refuse _ _
    | exact accept _ ⟨rfl, rfl⟩

theorem takePriceCommit : Plain s (takePriceCommit s) := by
  unfold Machine.takePriceCommit
  split
  · exact refuse _ _
  · exact accept _ ⟨rfl, rfl⟩

theorem takePriceGet (n : Nat) : Plain s (takePriceGet n s) := by
  unfold Machine.takePriceGet
  repeat' split
  all_goals first
    | exact refuse _ _
    | exact accept _ ⟨rfl, rfl⟩

theorem takeAccountGet (a b : Nat) : Plain s (takeAccountGet a b s) := by
  unfold Machine.takeAccountGet takeTagAccount
  repeat' split
  all_goals first
    | exact refuse _ _
    | exact accept _ ⟨rfl, rfl⟩

theorem takeRecordTake : Plain s (takeRecordTake s) := by
  have hc := plan_closed s.lc.formed s.mpc.plan
  unfold Machine.takeRecordTake
  split
  · exact refuse _ _
  · rename_i r t hr
    refine accepted _ (ReactionClosed.foldl (P := fun t => t.lc.formed = s.lc.formed ∧ t.mpc.plan = s.mpc.plan)
      (fun x i => closeClosing i x) (fun x i h => ?_) _ ⟨rfl, rfl⟩)
    unfold closeClosing
    split
    · split
      · exact hc.closeJob _ _ h
      · exact h
    · exact h

theorem takeStoreSave : Plain s (takeStoreSave s) := by
  unfold Machine.takeStoreSave
  split
  · exact refuse _ _
  · exact accept _ ⟨rfl, rfl⟩

end Taken.Plain

end Sys2Proof.Machine
end

