-- ==== Sys2Proof/Laws/Tick.lean ====
section
/-! SUPPORT. One millisecond, and the whole step, keep every property that component-wise changes keep (`step_closed`). -/

namespace Sys2Proof.Machine.StepClosed

variable {P : State → Prop} (hc : StepClosed P) {s : State}
include hc

theorem tickLoad (h : P s) : P (tickLoad s) := by
  unfold Machine.tickLoad
  split
  · rename_i n _
    have h1 : P { s with ss.loading := some (n + 1) } := hc.free h (by and_intros <;> rfl)
    simp only
    split
    · exact hc.enqueue _ h1
    · exact h1
  · exact h

theorem tickGap (h : P s) : P (tickGap s) := by
  unfold Machine.tickGap
  split
  · exact h
  · have h1 : P { s with lc.rxGap := s.lc.rxGap + 1 } := hc.free h (by and_intros <;> rfl)
    simp only
    split
    · exact hc.enqueue _ h1
    · exact h1

theorem tickTag (h : P s) : P (tickTag s) := by
  unfold Machine.tickTag
  split
  · rename_i r _
    have h1 : P { s with isc.tagBus := some { r with elapsed := r.elapsed + 1 } } := hc.free h (by and_intros <;> rfl)
    simp only
    split
    · exact hc.enqueue _ h1
    · exact h1
  · exact h

theorem tickDraw (h : P s) : P (tickDraw s) := by
  unfold Machine.tickDraw
  split
  · rename_i d hp
    have h1 : P { s with isc.pump := .running { d with elapsed := d.elapsed + 1 } } :=
      hc.reactions.setPump _ (fun hk hh => absurd (hk hh).1 (by simp [hp, pumpStill])) h
    simp only
    split
    · exact hc.enqueue _ h1
    · exact h1
  · exact h

theorem tickFire (h : P s) : P (tickFire s) := by
  have h1 : P { s with rc.fireTimer := countDown s.rc.fireTimer } := hc.free h (by and_intros <;> rfl)
  unfold Machine.tickFire
  simp only
  split
  · exact hc.enqueue _ h1
  · exact h1

theorem tickCover (h : P s) : P (tickCover s) := by
  unfold Machine.tickCover
  split
  · simp only
    split
    · exact hc.enqueue _ (hc.setCover _ h)
    · exact hc.setCover _ h
  · exact h

theorem tickSettle (h : P s) : P (tickSettle s) := by
  have h1 : P { s with mpc.settle := countDown s.mpc.settle } := hc.free h (by and_intros <;> rfl)
  unfold Machine.tickSettle
  simp only
  split
  · exact hc.enqueue _ h1
  · exact h1

theorem tickFeed (h : P s) : P (tickFeed s) := by
  unfold Machine.tickFeed
  split
  · rename_i a g he
    split
    · rename_i hg
      have h1 : P (setExec (.moving a { g with run := g.run + 1 }) s) :=
        hc.reactions.freeExec _ (not_held_of_moving he (by simp [hg]) (by simp [hg])) h
      simp only
      split
      · exact hc.enqueue _ h1
      · exact h1
    · exact h
  · exact h

theorem tickStroke (h : P s) : P (tickStroke s) := by
  have h1 : P { s with mpc.strokeTimer := countDown s.mpc.strokeTimer } := hc.free h (by and_intros <;> rfl)
  unfold Machine.tickStroke
  simp only
  split
  · exact hc.enqueue _ h1
  · exact h1

theorem tickScan (h : P s) : P (tickScan s) := by
  have h1 : P { s with ccu.link := s.ccu.link.tick } := by
    refine hc.ccu s _ (fun hk => ⟨hk.1, ?_⟩) h
    have hk := hk.2
    simp only at hk ⊢
    cases hl : s.ccu.link with
    | idle => trivial
    | scanning c w n t => rw [hl] at hk; exact hk
    | draining t => trivial
  unfold Machine.tickScan
  simp only
  split
  · exact hc.enqueue _ h1
  · exact h1

theorem tickCheck (id : Fin 4) (h : P s) : P (tickCheck id s) := by
  have h1 := hc.reactions.updCheck id (fun c => { c with dry := countDown c.dry, limit := countDown c.limit }) h
  unfold Machine.tickCheck
  simp only
  split
  · split
    · exact hc.enqueue _ (hc.enqueue _ h1)
    · exact hc.enqueue _ h1
  · split
    · exact hc.enqueue _ h1
    · exact h1

theorem tickSave (h : P s) : P (tickSave s) := by
  unfold Machine.tickSave
  split
  · rename_i p n hs
    have h1 : P { s with ss.store := .saving p (n + 1) } :=
      hc.ss s _ (fun hk => ⟨hk.1, hk.2.1, by rintro q m ⟨⟩; exact hk.2.2 p n hs⟩) h
    simp only
    split
    · exact hc.enqueue _ h1
    · exact h1
  · exact h

theorem tick (h : P s) : P (tick s) := by
  unfold Machine.tick
  exact hc.tickSave (hc.tickCheck 3 (hc.tickCheck 2 (hc.tickCheck 1 (hc.tickCheck 0 (hc.tickScan (hc.tickStroke
    (hc.tickFeed (hc.tickSettle (hc.tickCover (hc.tickFire (hc.tickDraw (hc.tickTag (hc.tickGap
      (hc.tickLoad h))))))))))))))

/-- Every step answers a next state, and keeps every property that component-wise changes keep. -/
theorem step_closed (h : P s) : ∃ t, step s = .next t ∧ P t := by
  unfold step
  split
  · exact hc.exec_closed _ (hc.pending s _ h)
  · split
    · exact hc.exec_closed _ h
    · exact ⟨_, rfl, hc.tick (hc.begin h)⟩

end Sys2Proof.Machine.StepClosed
end

