-- ==== Sys2Proof/Laws/Updates.lean ====
section
/-! SUPPORT. What the operations over one record do to the state that the statements write out: updates at an index, a raised condition beside another update, the pump and the executor in their plain cases, refill requests and what they leave of the ink channels, the scan start test, the records of a closing check and the done test, and admission where every job is OPEN or its head entry is held. -/

set_option linter.unusedSimpArgs false

namespace Sys2Proof.Machine

/-- An update of a list at one place depends only on what it does to the element there. -/
theorem modify_at {A : Type} (l : List A) (i : Nat) (d : A) (f g : A → A) (h : f (l.getD i d) = g (l.getD i d)) :
    l.modify i f = l.modify i g := by
  apply List.ext_getElem?
  intro n
  simp only [List.getElem?_modify]
  by_cases hn : i = n
  · subst hn
    cases hx : l[i]? with
    | none => rfl
    | some x => simp [List.getD_eq_getElem?_getD, hx] at h; simp [h]
  · simp [hn]

theorem chanAt_upd (s : State) (c : Nat) (f : Channel → Channel) (h : c < s.isc.chans.length) : chanAt (updChan c f s) c = f (chanAt s c) := by
  simp [chanAt, updChan, List.getD_eq_getElem?_getD, List.getElem?_modify, List.getElem?_eq_getElem h]

theorem bayAt_upd (s : State) (c : Nat) (f : Bay → Bay) (h : c < s.isc.bays.length) : bayAt (updBay c f s) c = f (bayAt s c) := by
  simp [bayAt, updBay, List.getD_eq_getElem?_getD, List.getElem?_modify, List.getElem?_eq_getElem h]

/-- R68: a bay that no DRY channel maps serves no channel when it turns READY. -/
theorem bayReady_none (b : Nat) (s : State) (h : ∀ c, c < 10 → (chanAt s c).refill = .dry → (chanAt s c).cfg.bayMap.getLsbD b = false) :
    bayReady b s = s := by
  unfold bayReady
  have : (List.range Config.channels).filter (fun c => (chanAt s c).refill == .dry && mapsBay (chanAt s c).cfg b) = [] := by
    rw [List.filter_eq_nil_iff]
    intro c hc
    have hc : c < 10 := by simpa [Config.channels] using hc
    simp only [Bool.and_eq_true, beq_iff_eq, not_and, mapsBay]
    intro hd
    simp [h c hc hd]
  rw [this]; rfl

theorem bay_modify (s : State) (b : Nat) (f g : Bay → Bay) (h : f (bayAt s b) = g (bayAt s b)) : s.isc.bays.modify b f = s.isc.bays.modify b g :=
  modify_at _ _ _ _ _ h
theorem chan_modify (s : State) (b : Nat) (f g : Channel → Channel) (h : f (chanAt s b) = g (chanAt s b)) : s.isc.chans.modify b f = s.isc.chans.modify b g :=
  modify_at _ _ _ _ _ h

/-- R70: a busy pump serves nothing. -/
theorem pumpServe_busy (s : State) (h : s.isc.pump ≠ .free) : pumpServe s = s := by
  unfold pumpServe
  cases s.isc.pumpQueue.length with
  | zero => rfl
  | succ n => simp [serveLoop, h]

/-- R62: in a supply hold the pump serves nothing. -/
theorem pumpServe_held (s : State) (h : held s = true) : pumpServe s = s := by
  unfold pumpServe
  cases s.isc.pumpQueue.length with
  | zero => rfl
  | succ n => simp [serveLoop, h]

/-- R70: with no channel queued the pump serves nothing. -/
theorem pumpServe_nil (s : State) (hq : s.isc.pumpQueue = []) : pumpServe s = s := by
  simp [pumpServe, hq, serveLoop]

/-- R69, R70: a FREE pump serves the one channel that is queued. -/
theorem pumpServe_one (s : State) (e : PumpEntry) (hp : s.isc.pump = .free) (hh : held s = false) (hq : s.isc.pumpQueue = [e]) :
    pumpServe s = serveChannel e.channel { s with isc.pumpQueue := [] } := by
  unfold pumpServe
  rw [hq]
  have hv : pumpView s = [e] := by unfold pumpView; rw [hq]; cases hm : e.marked <;> simp [hm]
  have hu : unqueue e.channel s = { s with isc.pumpQueue := [] } := by unfold unqueue; rw [hq]; simp
  simp only [List.length_cons, List.length_nil, serveLoop, hp, hh, hv, and_self, if_true, hu]

theorem modify_twice (l : List Channel) (c : Nat) (r r' : Refill) :
    (l.modify c (fun y => { y with refill := r })).modify c (fun y => { y with refill := r' }) = l.modify c (fun y => { y with refill := r' }) := by
  rw [List.modify_modify_eq]; rfl


/-- R174: a raised condition moves the condition table alone. -/
theorem raise_comm_isc (c : Cond) (sub : Option Nat) (s : State) (x : Isc) : raise c sub { s with isc := x } = { raise c sub s with isc := x } := by
  unfold raise; dsimp only; split <;> rfl
theorem raise_comm_rc (c : Cond) (sub : Option Nat) (s : State) (x : Rc) : raise c sub { s with rc := x } = { raise c sub s with rc := x } := by
  unfold raise; dsimp only; split <;> rfl
theorem raise_comm_mpc (c : Cond) (sub : Option Nat) (s : State) (x : Mpc) : raise c sub { s with mpc := x } = { raise c sub s with mpc := x } := by
  unfold raise; dsimp only; split <;> rfl
theorem raise_comm_ccu (c : Cond) (sub : Option Nat) (s : State) (x : Ccu) : raise c sub { s with ccu := x } = { raise c sub s with ccu := x } := by
  unfold raise; dsimp only; split <;> rfl
theorem raise_comm_cu (c : Cond) (sub : Option Nat) (s : State) (x : Cu) : raise c sub { s with cu := x } = { raise c sub s with cu := x } := by
  unfold raise; dsimp only; split <;> rfl
theorem raise_comm_out (c : Cond) (sub : Option Nat) (s : State) (x : List Sent) : raise c sub { s with out := x } = { raise c sub s with out := x } := by
  unfold raise; dsimp only; split <;> rfl

theorem raise_comm_im (c : Cond) (sub : Option Nat) (s : State) (x : Isc) (y : Mpc) : raise c sub { s with isc := x, mpc := y } = { raise c sub s with isc := x, mpc := y } := by
  unfold raise; dsimp only; split <;> rfl

/-- The state that `settle` makes of x follows from x. -/
theorem follows_iff {x t : State} (h : t = settle x) : Follows x t := by rw [h]; exact follows_settle x

theorem mem_insertStop (x y : Stop) (l : List Stop) : y ∈ insertStop x l ↔ y = x ∨ y ∈ l := by
  induction l with
  | nil => simp [insertStop]
  | cons z t ih =>
    unfold insertStop
    split
    · simp
    · simp only [List.mem_cons, ih]; tauto

theorem mem_foldr_insertStop (y : Stop) (l m : List Stop) : y ∈ l.foldr insertStop m ↔ y ∈ l ∨ y ∈ m := by
  induction l with
  | nil => simp
  | cons z t ih => simp only [List.foldr_cons, mem_insertStop, ih, List.mem_cons]; tauto

/-- R90: a cut stop is in the list just where its entry stands. -/
theorem inStopList_cut (s : State) (p : Nat) : inStopList s (.cut p) = s.mpc.cuts.any (fun e => e.position == p) := by
  rw [Bool.eq_iff_iff]
  unfold inStopList stopList
  simp only [List.any_eq_true, mem_foldr_insertStop, List.mem_map]
  constructor
  · rintro ⟨y, h | ⟨e, he, rfl⟩, hy⟩
    · exfalso
      unfold measStops at h
      simp only [List.mem_filterMap, List.mem_range] at h
      obtain ⟨id, _, h⟩ := h
      split at h
      · cases hs : (checkAt s id).stop with
        | none => simp [hs] at h
        | some q => simp [hs] at h; subst h; simp at hy
      · cases h
    · exact ⟨e, he, by simpa using hy⟩
  · rintro ⟨e, he, h⟩
    exact ⟨_, .inr ⟨e, he, rfl⟩, by simpa using h⟩

/-- R90: the measurement stop of a check that is free or CLOSED is not in the list. -/
theorem inStopList_closed {s : State} {id : Nat} (h : (checkAt s id).live = false) : inStopList s (.meas id) = false := by
  unfold inStopList stopList
  rw [List.any_eq_false]
  intro y hy hr
  rw [mem_foldr_insertStop] at hy
  rcases hy with hy | hy
  · unfold measStops at hy
    obtain ⟨i, _, hi⟩ := List.mem_filterMap.1 hy
    simp only at hi
    split at hi
    · rename_i hl
      obtain ⟨q, _, rfl⟩ := Option.map_eq_some_iff.1 hi
      simp only [beq_iff_eq, StopRef.meas.injEq] at hr
      subst hr; rw [h] at hl; cases hl
    · cases hi
  · obtain ⟨e, _, rfl⟩ := List.mem_map.1 hy
    simp at hr

/-- R91: with no reached stop and the target ahead the executor starts a segment. -/
theorem runOn_start (a : Advance) (s : State) (h1 : firstReached s = none) (h2 : pos s < a.target) : runOn a s = startSegment a s := by
  unfold runOn proceed
  simp only [h1, if_pos h2]

/-- R91: the segment that starts with no settle window open. -/
theorem start_eq (a : Advance) (s : State) (h : s.mpc.settle = none) : startSegment a s = { s with mpc.exec := .moving a ⟨segmentEnd s a.target, feedLimit (pos s) (segmentEnd s a.target), 0, if unsettled s then .paused else .driving⟩ } := by
  unfold startSegment closeWindow setExec
  simp only [h]; simp

theorem stopList_congr {y s : State} (h1 : y.mpc.cuts = s.mpc.cuts) (h2 : y.mpc.cOff = s.mpc.cOff) (h3 : y.ccu.checks = s.ccu.checks) : stopList y = stopList s := by
  unfold stopList measStops checkAt cutStop; rw [h1, h2, h3]

theorem firstReached_congr {y s : State} (h1 : y.mpc.cuts = s.mpc.cuts) (h2 : y.mpc.cOff = s.mpc.cOff) (h3 : y.ccu.checks = s.ccu.checks) : firstReached y = firstReached s := by
  unfold firstReached; rw [stopList_congr h1 h2 h3]; unfold isReached checkAt cutAt; rw [h3, h1]

/-- R91, R96: the executor goes on with a segment to the nearer of the target and the next stop. -/
theorem runOn_moves {y s : State} {r : Roll} {a : Advance} (h1 : y.mpc.cuts = s.mpc.cuts) (h2 : y.mpc.cOff = s.mpc.cOff) (h3 : y.ccu.checks = s.ccu.checks)
    (hr : y.mpc.roll = some r) (hf : firstReached s = none) (ht : r.pos < a.target) (hs : y.mpc.settle = none) :
    let stop := match (stopList s).find? (fun x => decide (r.pos < x.pos)) with
      | some x => min a.target x.pos
      | none => a.target
    runOn a y = { y with mpc.exec := .moving a ⟨stop, 1000 + 2 * (stop - r.pos), 0, if y.lc.cover = .settled then .driving else .paused⟩ } := by
  intro stop
  have hp : pos y = r.pos := by simp [pos, hr]
  rw [runOn_start a y (by rw [firstReached_congr h1 h2 h3]; exact hf) (by rw [hp]; exact ht), start_eq a y hs]
  have h4 : segmentEnd y a.target = stop := by unfold segmentEnd; rw [stopList_congr h1 h2 h3, hp]; all_goals rfl
  have hph : (if unsettled y then SegPhase.paused else .driving) = (if y.lc.cover = .settled then .driving else .paused) := by
    unfold unsettled; by_cases h : y.lc.cover = .settled <;> simp [h]
  rw [h4, hp, hph]; rfl

/-- R93: only a MOVING executor gets a new segment end. -/
theorem reviseSegment_still (s : State) (h : ∀ b g, s.mpc.exec ≠ .moving b g) : reviseSegment s = s := by
  unfold reviseSegment
  split
  · rename_i a g hh; exact absurd hh (h a g)
  · rfl

theorem check_modify (s : State) (b : Nat) (f g : Check → Check) (h : f (checkAt s b) = g (checkAt s b)) : s.ccu.checks.modify b f = s.ccu.checks.modify b g :=
  modify_at _ _ _ _ _ h
theorem job_modify (s : State) (b : Nat) (f g : Option Job → Option Job) (h : f (jobAt s b) = g (jobAt s b)) : s.rc.jobs.modify b f = s.rc.jobs.modify b g :=
  modify_at _ _ _ _ _ h
theorem print_modify (s : State) (b : Nat) (f g : Option Account → Option Account) (h : f (printAt s b) = g (printAt s b)) : s.cu.printAccts.modify b f = s.cu.printAccts.modify b g :=
  modify_at _ _ _ _ _ h
theorem checkAt_upd (s : State) (c : Nat) (f : Check → Check) (h : c < s.ccu.checks.length) : checkAt (updCheck c f s) c = f (checkAt s c) := by
  simp [checkAt, updCheck, List.getD_eq_getElem?_getD, List.getElem?_modify, List.getElem?_eq_getElem h]
/-! ### The scan start test, a closing check and the done test -/

/-- R136: all that the scan start test does for an ARMED check at whose stop the executor stands. -/
theorem scanTest_eq {z : State} {id tag : Nat} (h1 : (checkAt z id).state = .armed) (h2 : standsAt z id = true)
    (h3 : (checkAt z id).job = some tag) : scanTest id z = scanTested id tag z := by
  unfold scanTest
  rw [if_pos ⟨h1, h2⟩]
  simp only [scanTested, show shortOfRing z id = decide (64 - z.ccu.ring.length < checkCount z (checkAt z id)) from rfl, decide_eq_true_eq]
  by_cases hn : 64 - z.ccu.ring.length < checkCount z (checkAt z id)
  · rw [if_pos hn, if_pos hn]; unfold raiseRingFull; rw [h3]
  · rw [if_neg hn, if_neg hn]
    by_cases hs : z.ccu.sensor = .ready ∧ z.ccu.link = .idle
    · rw [if_pos hs, if_pos hs]; unfold startScan send updCheck; cases z.mpc.roll <;> rfl
    · rw [if_neg hs, if_neg hs]

/-- R136: only an ARMED check has its scan start test. -/
theorem scanTest_idle {z : State} {id : Nat} (h : (checkAt z id).state ≠ .armed) : scanTest id z = z := by
  unfold scanTest; rw [if_neg (fun q => h q.1)]

theorem standsAt_held {s : State} {id : Nat} (h : heldStop s = some id) : standsAt s id = true := by
  unfold heldStop at h; unfold standsAt
  split at h <;> simp_all

/-- R136: the scan start test taken again, the executor at no stop of an ARMED check. -/
theorem retestScan_idle {z : State} (h : ∀ id, heldStop z = some id → (checkAt z id).state ≠ .armed) : retestScan z = z := by
  unfold retestScan
  split
  · rename_i id he; exact scanTest_idle (h id he)
  · rfl

/-- R136: the scan start test taken again, the executor at the stop of an ARMED check. -/
theorem retestScan_eq {z : State} {id tag : Nat} (h : heldStop z = some id) (h1 : (checkAt z id).state = .armed)
    (h3 : (checkAt z id).job = some tag) : retestScan z = scanTested id tag z := by
  unfold retestScan; rw [h]; exact scanTest_eq h1 (standsAt_held h) h3

/-- R133 steps 1 to 5 for a check whose scan does not run. -/
theorem closeRecords_eq {s : State} {id slot tag : Nat} {m : Bool} {r : Result} {acct : Account}
    (h1 : (checkAt s id).job = some tag) (h2 : slotOf s tag = some slot) (h3 : printAt s slot = some acct)
    (h4 : ∀ w k t, s.ccu.link ≠ .scanning id w k t) :
    closeRecords id r m s = raiseClosed tag r.verdict { s with
      rc.jobs := s.rc.jobs.modify slot (fun o => o.map (fun j => { j with verdict := some r.verdict }))
      cu.printAccts := s.cu.printAccts.modify slot (fun _ => some { acct with
        verdict := some r.verdict, flags.unchecked := acct.flags.unchecked || r.verdict == .unchecked
        flags.missed := acct.flags.missed || m })
      ccu.checks := s.ccu.checks.modify id (Check.close r) } := by
  have ha : abandonScan id s = s := by
    unfold abandonScan; split
    · rename_i b d e f hh; rw [if_neg]; rintro rfl; exact absurd hh (h4 d e f)
    · rfl
  unfold closeRecords
  rw [ha, h1]
  simp only
  unfold writeVerdict
  rw [show slotOf (updCheck id (Check.close r) s) tag = some slot from h2]
  simp only
  congr 1
  unfold updPrint
  simp only
  rw [show (updJob slot (fun j => { j with verdict := some r.verdict }) (updCheck id (Check.close r) s)).cu.printAccts = s.cu.printAccts from rfl,
    print_modify s slot _ (fun _ => some { acct with
        verdict := some r.verdict, flags.unchecked := acct.flags.unchecked || r.verdict == .unchecked
        flags.missed := acct.flags.missed || m }) (by rw [h3]; rfl)]
  rfl

/-- R25: a job that is not WAITING is not done. -/
theorem doneTest_idle {z : State} {slot : Nat} (h : isDone z slot = false) : doneTest slot z = z := by
  unfold doneTest; simp [h]

/-- R25, R26: the done test of a done job closes it. -/
theorem doneTest_eq {z : State} {slot : Nat} {j : Job} (h : isDone z slot = true) (hj : jobAt z slot = some j) :
    doneTest slot z = closeJob slot (doneOutcome j) z := by
  unfold doneTest; simp [h, hj]

/-- R38: a channel above its refill mark, not IDLE or not enabled asks for no refill. -/
theorem commitTrigger_none (s : State) (c : Nat) (h : (chanAt s c).enabled = false ∨ (chanAt s c).refill ≠ .idle ∨ ∃ v, (chanAt s c).level = some v ∧ (chanAt s c).cfg.refillMark + (chanAt s c).reserved ≤ v) :
    commitTrigger s c = s := by
  unfold commitTrigger
  dsimp only
  rcases h with h | h | ⟨v, hv, hle⟩
  · simp [h]
  · rw [placeRequest_none h, ite_self]
  · simp only [hv]
    rw [show decide (v < (chanAt s c).cfg.refillMark + (chanAt s c).reserved) = false from decide_eq_false (by omega)]
    simp

theorem foldl_trigger (l : List ChargeRec) (s : State) (h : ∀ r ∈ l, (chanAt s r.channel).enabled = false ∨ (chanAt s r.channel).refill ≠ .idle ∨ ∃ v, (chanAt s r.channel).level = some v ∧ (chanAt s r.channel).cfg.refillMark + (chanAt s r.channel).reserved ≤ v) :
    l.foldl (fun t r => commitTrigger t r.channel) s = s := by
  induction l with
  | nil => rfl
  | cons c t ih =>
    rw [List.foldl_cons, commitTrigger_none s c.channel (h c (by simp))]
    exact ih (fun d hd => h d (by simp [hd]))

/-- A fold of channel updates is a fold over the channel list. -/
theorem foldl_chans {A : Type} (l : List A) (n : A → Nat) (f : A → Channel → Channel) : ∀ s : State,
    l.foldl (fun t r => updChan (n r) (f r) t) s = { s with isc.chans := l.foldl (fun cs r => cs.modify (n r) (f r)) s.isc.chans } := by
  induction l with
  | nil => intro s; rfl
  | cons a t ih => intro s; rw [List.foldl_cons, ih]; rfl

/-- An update of the entry with a queue tag that no other entry has. -/
theorem map_tag (e : QEntry) (q : List QEntry) (f : QEntry → QEntry) (h : ∀ x ∈ q, x.queueTag ≠ e.queueTag) :
    (e :: q).map (fun x => if x.queueTag = e.queueTag then f x else x) = f e :: q := by
  rw [List.map_cons, if_pos rfl]
  congr 1
  conv_rhs => rw [← List.map_id q]
  apply List.map_congr_left
  intro x hx; rw [if_neg (h x hx)]; rfl

/-- R38: a charge taken from a level, with its reservation ended. -/
theorem spend_eq (n : Nat) (c : Channel) : { spend n c with reserved := 0 } = { c with level := c.level.map (fun v => v - n), drift := c.drift || c.level.any (fun v => v < n), reserved := 0 } := by
  unfold spend
  cases hv : c.level with
  | none => simp [hv]
  | some v => simp

theorem granted_head {s : State} {e : QEntry} {q : List QEntry} (h : s.rc.queue = e :: q) (he : e.state = .granted) : grantedEntry s = some e := by
  unfold grantedEntry; rw [h]; simp [he]
theorem findIdx_congr {A : Type} (p : A → Bool) : ∀ l m : List A, l.map p = m.map p → l.findIdx? p = m.findIdx? p := by
  intro l
  induction l with
  | nil => intro m h; cases m <;> simp_all
  | cons a t ih =>
    intro m h
    cases m with
    | nil => simp at h
    | cons b u =>
      simp only [List.map_cons, List.cons.injEq] at h
      simp only [List.findIdx?_cons, h.1, ih u h.2]

/-- An update that keeps the job tag keeps every slot. -/
theorem slotOf_modify {s y : State} (tag slot : Nat) (f : Job → Job) (hf : ∀ k, (f k).tag = k.tag) (h : y.rc.jobs = s.rc.jobs.modify slot (fun o => o.map f)) :
    slotOf y tag = slotOf s tag := by
  unfold slotOf; rw [h]
  apply findIdx_congr
  apply map_modify_of_eq
  intro o _
  cases o with
  | none => rfl
  | some k => simp [hasTag, hf]

/-- R9: the QUEUED head entry is considered, with every job OPEN and the media path idle. -/
theorem considered_open {s : State} {e : QEntry} {q : List QEntry} (hq : s.rc.queue = e :: q) (he : e.state = .queued) (hg : ∀ x ∈ q, x.state ≠ .granted)
    (hp : pathIdle s = true) (h : ∀ i j, jobAt s i = some j → j.state = .opened) : considered s = some e := by
  unfold considered
  rw [hq]
  simp only
  rw [if_pos]
  refine ⟨he, ?_, hp, any_jobs_false _ (fun i j hj => by simp [isFeeding, h i j hj]) rfl, any_jobs_false _ (fun i j hj => by simp [awaitsFeed, h i j hj]) rfl⟩
  unfold grantedEntry
  rw [hq, List.find?_cons]
  simp only [he]
  rw [Option.isNone_iff_eq_none, show (EntryState.queued == EntryState.granted) = false from rfl]
  simp only
  rw [List.find?_eq_none]
  intro x hx; simpa using hg x hx

/-- R10, R11: the head swath held, where the refill requests of the hold fill no reservoir at once. -/
theorem settle_held {s : State} {e : QEntry} {q : List QEntry} {slot : Nat} {j : Job} {r : HoldReason} (hq : s.rc.queue = e :: q) (he : e.state = .queued) (hg : ∀ x ∈ q, x.state ≠ .granted)
    (hp : pathIdle s = true) (h : ∀ i j, jobAt s i = some j → j.state = .opened) (hs : stopFree s = false)
    (hslot : slotOf s e.job = some slot) (hj : jobAt s slot = some j) (hr : holdReason s j e = some r)
    (hl : levels (recordHold slot j e r s) = levels s) : settle s = syncCauses (recordHold slot j e r s) := by
  unfold settle
  rw [react_quiet (quiet_of_open h hs)]
  congr 1
  unfold admission
  rw [considered_open hq he hg hp h]
  simp only [hslot, hj, hr]
  rw [if_pos hl]

/-- R11: the hold without its refill requests. -/
theorem held_isc (slot : Nat) (j : Job) (r : HoldReason) (s : State) :
    (let x := updJob slot (fun j => { j with hold := some r }) s
      if j.hold = some r then x else raise .jobHeld (some j.tag) x).isc = s.isc := by
  dsimp only
  split
  · rfl
  · rw [raise_isc]; rfl

/-- R10, R11: the head swath held for a reason from which no refill request follows. -/
theorem settle_hold {s : State} {e : QEntry} {q : List QEntry} {slot : Nat} {j : Job} {r : HoldReason} (hq : s.rc.queue = e :: q) (he : e.state = .queued) (hg : ∀ x ∈ q, x.state ≠ .granted)
    (hp : pathIdle s = true) (h : ∀ i j, jobAt s i = some j → j.state = .opened) (hs : stopFree s = false)
    (hslot : slotOf s e.job = some slot) (hj : jobAt s slot = some j) (hr : holdReason s j e = some r)
    (hask : r.asksInk = true → ∀ c ∈ dropChannels e.drops, (chanAt s c).enabled = true → (chanAt s c).refill ≠ .idle) :
    settle s = syncCauses (let x := updJob slot (fun j => { j with hold := some r }) s
      if j.hold = some r then x else raise .jobHeld (some j.tag) x) := by
  have hy := held_isc slot j r s
  have hrec : recordHold slot j e r s = (let x := updJob slot (fun j => { j with hold := some r }) s
      if j.hold = some r then x else raise .jobHeld (some j.tag) x) := by
    refine askInk_none (fun ha c hc hw => ?_)
    unfold wantsInk chanAt at hw
    rw [hy] at hw
    unfold chanAt
    rw [hy]
    simp only [Bool.and_eq_true] at hw
    exact hask ha c hc hw.1
  rw [settle_held hq he hg hp h hs hslot hj hr (by rw [hrec]; unfold levels; rw [hy]), hrec]

theorem chanAt_modify_ne (s : State) (c d : Nat) (f : Channel → Channel) (h : c ≠ d) : chanAt (updChan c f s) d = chanAt s d := by
  simp [chanAt, updChan, List.getD_eq_getElem?_getD, List.getElem?_modify, h]

/-- R11, R65: requests of enabled channels while the pump is busy: each IDLE one is QUEUED. -/
theorem foldl_placeRequest_busy (l : List Nat) : ∀ s : State, s.isc.pump ≠ .free → l.Nodup → (∀ c ∈ l, (chanAt s c).enabled = true) →
    l.foldl (fun t c => placeRequest c false t) s = { s with
      isc.chans := (l.filter (fun c => (chanAt s c).refill == .idle)).foldl (fun cs c => cs.modify c (fun x => { x with refill := .queued })) s.isc.chans
      isc.pumpQueue := s.isc.pumpQueue ++ (l.filter (fun c => (chanAt s c).refill == .idle)).map (fun c => ⟨c, (chanAt s c).lowFloat⟩) } := by
  induction l with
  | nil => intro s _ _ _; simp
  | cons a t ih =>
    intro s hp hn he
    have hn' := List.nodup_cons.1 hn
    rw [List.foldl_cons]
    by_cases hr : (chanAt s a).refill = .idle
    · have h1 : placeRequest a false s = { updChan a (fun c => { c with refill := .queued }) s with
          isc.pumpQueue := s.isc.pumpQueue ++ [⟨a, (chanAt s a).lowFloat⟩] } := by
        unfold placeRequest
        simp only [hr, he a (by simp), if_true, Bool.false_or]
        exact pumpServe_busy _ hp
      have hc : ∀ c ∈ t, chanAt (placeRequest a false s) c = chanAt s c := by
        intro c hc
        rw [h1]
        exact chanAt_modify_ne s a c _ (by rintro rfl; exact hn'.1 hc)
      rw [ih _ (by rw [h1]; exact hp) hn'.2 (fun c h => by rw [hc c h]; exact he c (by simp [h]))]
      rw [List.filter_congr (fun c h => by rw [hc c h])]
      rw [List.map_congr_left (g := fun c => (⟨c, (chanAt s c).lowFloat⟩ : PumpEntry)) (fun c h => by rw [hc c (List.mem_filter.1 h).1])]
      rw [h1, List.filter_cons, if_pos (by simp [hr])]
      simp [updChan]
    · rw [placeRequest_none hr, ih s hp hn'.2 (fun c h => he c (by simp [h])), List.filter_cons, if_neg (by simp [hr])]

theorem enabled_lt {s : State} {c : Nat} (h : (chanAt s c).enabled = true) : c < s.isc.chans.length := by
  by_contra hl
  unfold chanAt at h
  rw [List.getD_eq_default _ _ (by omega)] at h
  cases h

/-- R68: channels that leave DRY while the pump is busy: each is QUEUED. -/
theorem foldl_leaveDry_busy (l : List Nat) : ∀ s : State, s.isc.pump ≠ .free → l.Nodup → (∀ c ∈ l, (chanAt s c).enabled = true) →
    l.foldl (fun t c => leaveDry c t) s = { s with
      isc.chans := l.foldl (fun cs c => cs.modify c (fun x => { x with refill := .queued })) s.isc.chans
      isc.pumpQueue := s.isc.pumpQueue ++ l.map (fun c => ⟨c, (chanAt s c).lowFloat⟩) } := by
  induction l with
  | nil => intro s _ _ _; simp
  | cons a t ih =>
    intro s hp hn he
    have hn' := List.nodup_cons.1 hn
    have hca := chanAt_upd s a (fun x => { x with refill := .idle }) (enabled_lt (he a (by simp)))
    have h1 : leaveDry a s = { updChan a (fun c => { c with refill := .queued }) s with
        isc.pumpQueue := s.isc.pumpQueue ++ [⟨a, (chanAt s a).lowFloat⟩] } := by
      unfold leaveDry placeRequest
      simp only [hca, he a (by simp), if_true, Bool.false_or]
      rw [pumpServe_busy]
      case h => exact hp
      simp only [updChan, List.modify_modify_eq]
      rfl
    have hc : ∀ c ∈ t, chanAt (leaveDry a s) c = chanAt s c := by
      intro c hc
      rw [h1]
      exact chanAt_modify_ne s a c _ (by rintro rfl; exact hn'.1 hc)
    rw [List.foldl_cons, ih _ (by rw [h1]; exact hp) hn'.2 (fun c h => by rw [hc c h]; exact he c (by simp [h]))]
    rw [List.map_congr_left (g := fun c => (⟨c, (chanAt s c).lowFloat⟩ : PumpEntry)) (fun c h => by rw [hc c h])]
    rw [h1]
    simp [updChan]

/-- R72: WRONG_INK reaches the condition table alone. -/
theorem raiseWrongInk_isc (ch : Nat) (s : State) : (raiseWrongInk ch s).isc = s.isc := by
  unfold raiseWrongInk
  generalize (mapBays (chanAt s ch).cfg).filter (wrongInk s ch) = l
  induction l generalizing s with
  | nil => rfl
  | cons a t ih => rw [List.foldl_cons, ih, raise_isc]

/-- R70: a serve puts nothing into the pump queue. -/
theorem serveChannel_queue (ch : Nat) (s : State) : (serveChannel ch s).isc.pumpQueue = s.isc.pumpQueue := by
  unfold serveChannel
  dsimp only
  split
  · rw [raise_isc]; simp only [updChan, raiseWrongInk_isc]
  · split
    · rw [raise_isc]; simp only [updChan, raiseWrongInk_isc]
    · unfold startDraw
      dsimp only
      split
      · unfold endDrawFull debitAndWrite
        dsimp only
        split <;> simp only [updChan, updBay, placeTagOp, raiseWrongInk_isc]
      · simp only [updChan, updBay, raiseWrongInk_isc]

/-- R65, R69, R70: with the pump FREE and nothing queued, a request of an enabled IDLE channel is served at once. -/
theorem placeRequest_serves {c : Nat} {s : State} (hr : (chanAt s c).refill = .idle) (he : (chanAt s c).enabled = true)
    (hp : s.isc.pump = .free) (hh : held s = false) (hq : s.isc.pumpQueue = []) :
    placeRequest c false s = serveChannel c (updChan c (fun x => { x with refill := .queued }) s) := by
  unfold placeRequest
  simp only [hr, he, if_true]
  rw [pumpServe_one (e := ⟨c, false || (chanAt s c).lowFloat⟩)]
  case hp => exact hp
  case hh => exact hh
  case hq => simp [updChan, hq]
  congr 1
  unfold updChan
  dsimp only
  rw [← hq]

/-! ### A refill request reaches ISC and the condition table alone -/

/-- The state differs at most in ISC and the condition table. -/
def InkOnly (s t : State) : Prop :=
  t = { s with isc := t.isc, lc.conds := t.lc.conds, lc.noticeDue := t.lc.noticeDue }

theorem InkOnly.refl (s : State) : InkOnly s s := rfl

theorem InkOnly.trans {s t u : State} (h : InkOnly s t) (g : InkOnly t u) : InkOnly s u := by
  unfold InkOnly at *
  rw [g, h]

theorem InkOnly.rc {s t : State} (h : InkOnly s t) : t.rc = s.rc := by rw [h]

theorem InkOnly.isc {s : State} (x : Isc) : InkOnly s { s with isc := x } := rfl

theorem InkOnly.raise (c : Cond) (sub : Option Nat) (s : State) : InkOnly s (raise c sub s) := by
  unfold Machine.raise
  split <;> rfl

theorem InkOnly.foldl {A : Type} (f : State → A → State) (hf : ∀ s a, InkOnly s (f s a)) (l : List A) (s : State) :
    InkOnly s (l.foldl f s) := by
  induction l generalizing s with
  | nil => exact InkOnly.refl s
  | cons a t ih => exact (hf s a).trans (ih _)

theorem InkOnly.debitAndWrite (b moved : Nat) (s : State) : InkOnly s (debitAndWrite b moved s) := by
  unfold Machine.debitAndWrite
  split <;> rfl

theorem InkOnly.endDrawFull (d : Draw) (s : State) : InkOnly s (endDrawFull d s) :=
  (InkOnly.isc _).trans (InkOnly.debitAndWrite _ _ _)

theorem InkOnly.serveChannel (ch : Nat) (s : State) : InkOnly s (serveChannel ch s) := by
  have h1 : InkOnly s (raiseWrongInk ch s) := InkOnly.foldl _ (fun s _ => InkOnly.raise _ _ s) _ s
  unfold Machine.serveChannel
  dsimp only
  split
  · exact h1.trans ((InkOnly.isc _).trans (InkOnly.raise _ _ _))
  · split
    · exact h1.trans ((InkOnly.isc _).trans (InkOnly.raise _ _ _))
    · refine h1.trans ?_
      unfold startDraw
      dsimp only
      split
      · exact (InkOnly.isc _).trans (InkOnly.endDrawFull _ _)
      · exact InkOnly.isc _

theorem InkOnly.pumpServe (s : State) : InkOnly s (pumpServe s) := by
  have : ∀ n s, InkOnly s (serveLoop n s) := by
    intro n
    induction n with
    | zero => exact InkOnly.refl
    | succ n ih =>
      intro s
      unfold serveLoop
      split
      · split
        · exact InkOnly.refl s
        · exact ((InkOnly.isc _).trans (InkOnly.serveChannel _ _)).trans (ih _)
      · exact InkOnly.refl s
  exact this _ s

theorem InkOnly.placeRequest (ch : Nat) (low : Bool) (s : State) : InkOnly s (placeRequest ch low s) := by
  unfold Machine.placeRequest
  dsimp only
  split
  · split
    · exact (InkOnly.isc _).trans (InkOnly.pumpServe _)
    · exact InkOnly.refl s
  · split
    · exact InkOnly.isc _
    · exact InkOnly.refl s
  · exact InkOnly.refl s

/-- R11: a recorded hold leaves the swath queue alone. -/
theorem recordHold_queue (slot : Nat) (j : Job) (e : QEntry) (r : HoldReason) (s : State) :
    (recordHold slot j e r s).rc.queue = s.rc.queue := by
  have h : ∀ x : State, (askInk r e x).rc = x.rc := by
    intro x
    unfold askInk
    split
    · exact (InkOnly.foldl _ (fun s c => InkOnly.placeRequest c false s) _ x).rc
    · rfl
  unfold recordHold
  dsimp only
  rw [h]
  split
  · rfl
  · rw [raise_rc]; rfl

/-- R9, R12: the head swath that is considered stands QUEUED at the head. -/
theorem considered_head {s : State} {e : QEntry} (h : considered s = some e) : ∃ l, s.rc.queue = e :: l ∧ e.state = .queued := by
  unfold considered at h
  split at h
  · cases h
  · rename_i x t hq
    split at h
    · rename_i hx
      cases h
      exact ⟨t, hq, hx.1⟩
    · cases h

/-- R9 to R12: admission leaves the queue as it is but for a QUEUED head that it grants. -/
theorem admission_queue (n : Nat) {s : State} (hn : (s.rc.queue.map (fun e => e.queueTag)).Nodup) :
    (admission n s).rc.queue = s.rc.queue ∨
    ∃ e l c, s.rc.queue = e :: l ∧ e.state = .queued ∧
      (admission n s).rc.queue = { e with state := .granted, charges := some c, revoked := some false } :: l := by
  induction n generalizing s with
  | zero => exact .inl rfl
  | succ n ih =>
    unfold admission
    cases hc : considered s with
    | none => exact .inl rfl
    | some e =>
      obtain ⟨l, hq, he⟩ := considered_head hc
      simp only
      cases slotOf s e.job with
      | none => exact .inl rfl
      | some slot =>
        simp only
        cases jobAt s slot with
        | none => exact .inl rfl
        | some j =>
          simp only
          cases holdReason s j e with
          | none =>
            refine .inr ⟨e, l, chargesNow s e.drops, hq, he, ?_⟩
            rw [hq, List.map_cons, List.nodup_cons] at hn
            have hr : ∀ x : State, (reserve e.drops x).rc = x.rc := by
              intro x
              unfold reserve
              rw [foldl_chans _ (fun c => c)]
            unfold grant
            dsimp only [send, updJob]
            rw [hr]
            show s.rc.queue.map _ = _
            rw [hq, map_tag e l _ (fun x hx hxe => hn.1 (List.mem_map.2 ⟨x, hx, hxe⟩))]
          | some r =>
            simp only
            have hrec := recordHold_queue slot j e r s
            split
            · exact .inl hrec
            · have := ih (s := recordHold slot j e r s) (by rw [hrec]; exact hn)
              rw [hrec] at this
              exact this

end Sys2Proof.Machine
end

