-- ==== Sys2Proof/Tests/Witnesses.lean ====
section
/-! SUPPORT. For each statement with hypotheses, a concrete state and operands that meet all of them together, clause by clause, at boundary values of their ranges. -/

namespace Sys2Proof.Tests

open Sys2Proof.Machine

/-! ### Small states -/

/-- A property of every live job, read off the job table. -/
theorem jobs_all {s : State} {p : Job → Prop} (h : ∀ o ∈ s.rc.jobs, ∀ j, o = some j → p j) :
    ∀ i j, jobAt s i = some j → p j := by
  intro i j hj
  unfold jobAt at hj
  rw [List.getD_eq_getElem?_getD] at hj
  cases hx : s.rc.jobs[i]? with
  | none => rw [hx] at hj; cases hj
  | some o => rw [hx] at hj; exact h o (List.mem_of_getElem? hx) j hj

/-- A live job: tag 7, media type 3, no check, no swath yet. -/
def job : Job := newJob 7 3 .none 0 none 0

/-- A print account as JOB_OPEN leaves it. -/
def account : Account := Account.opened .print (some 7) 3 0

/-- A channel that is on, with a level of 8,000,000 nl. -/
def full : Channel := { Channel.afterReset (factoryChan 3, true) with level := some 8000000 }

/-- A queue entry of the job: 1,000 LARGE drops on channel 3. -/
def entry : QEntry :=
  { job := 7, number := 1, kind := .image, advance := 0, drops := [⟨3, 2, 1000⟩], queueTag := 40, state := .queued,
    charges := none, revoked := none }

/-- The entry with its grant in flight. -/
def granted : QEntry := { entry with state := .granted, charges := some [⟨3, 7, 500⟩], revoked := some false }

/-- A roll of 10 m, 2 m of it printed. -/
def roll : Roll := ⟨3, 6000, 100000, 20000⟩

/-- The reset state with the job in slot 2, the roll loaded and channel 3 on. -/
def printing (j : Job) (q : List QEntry) : State :=
  { State.reset with
    rc.jobs := [none, none, some j, none, none, none, none, none]
    rc.queue := q
    rc.head := .ready
    isc.chans := State.reset.isc.chans.set 3 full
    mpc.roll := some roll
    cu.printAccts := [none, none, some account, none, none, none, none, none] }

/-- A job at work, with two cut entries ahead. -/
def work : State :=
  { printing job [granted, { entry with queueTag := 41 }] with
    mpc.cuts := [⟨20000, [.job 7], .sheet, none, .planned⟩, ⟨30000, [.job 7, .house], .sheet, none, .planned⟩]
    pending := [.fired true 40] }

theorem jobs_printing {j : Job} {q : List QEntry} {p : Job → Prop} (h : p j) :
    ∀ i k, jobAt (printing j q) i = some k → p k := by
  apply jobs_all
  intro o ho k hk
  subst hk
  simp only [printing, List.mem_cons, List.not_mem_nil, or_false, Option.some.injEq, reduceCtorEq, false_or] at ho
  rw [ho]; exact h

/-! ### The step -/

theorem witness_EmptyQueueTakesOwnStepOrTicks :
    let s := { State.reset with lc.noticeDue := false }
    (s.pending = [] ∧ s.lc.softReset = .none ∧ s.lc.formed = [] ∧ s.lc.buffer = [] ∧ s.lc.line = none ∧ s.lc.busy = []
      ∧ s.lc.noticeDue = false ∧ s.isc.tagQueue = []) ∧
    (let t := { s with isc.tagQueue := [.read 15] }
     t.pending = [] ∧ t.isc.tagBus = none ∧ t.isc.tagQueue ≠ []) ∧
    (let t := { s with lc.buffer := [⟨1, 9, []⟩] }
     t.pending = [] ∧ t.lc.softReset = .none ∧ t.lc.formed = [] ∧ t.lc.buffer ≠ []) ∧
    (let t := { s with lc.formed := [busyReply ⟨1, 9, []⟩] }
     t.pending = [] ∧ t.lc.softReset ≠ .due ∧ t.lc.formed ≠ [] ∧ t.lc.line = none) ∧
    (let t := { s with lc.softReset := .due }
     t.pending = [] ∧ t.lc.softReset = .due) ∧
    (State.reset.pending = [] ∧ State.reset.lc.line = none ∧ State.reset.lc.noticeDue = true ∧ State.reset.lc.busy = []
      ∧ State.reset.lc.formed = []) ∧
    (let t := { s with lc.busy := [busyReply ⟨1, 9, []⟩] }
     t.pending = [] ∧ t.lc.line = none ∧ t.lc.busy ≠ [] ∧ t.lc.noticeDue = false ∧ t.lc.formed = []) ∧
    (let r := busyReply ⟨1, 9, []⟩
     let t := { s with lc.line := some (.reply r), lc.busy := [r], isc.tagBus := some ⟨.read 15, 3⟩, isc.tagQueue := [.read 0] }
     t.pending = [] ∧ t.lc.softReset ≠ .due ∧ t.lc.buffer = [] ∧ t.lc.line ≠ none ∧ t.isc.tagBus ≠ none) := by
  decide +kernel

/-! ### What every step keeps -/

theorem witness_FormsKept :
    (∃ t, step work = .next t) ∧ GainForm work ∧ InkForm work ∧ QueueForm work.rc.queue ∧ CutForm work.mpc.cuts
      ∧ LinkForm work.lc ∧ TableForm work.lc.conds ∧ RollForm work ∧ RingForm work.ccu ∧ RecordForm work := by
  refine ⟨⟨_, rfl⟩, ⟨by unfold GainsIn; decide, nofun, nofun⟩, ⟨?_, ?_⟩, by unfold QueueForm; decide, by unfold CutForm; decide,
    by unfold LinkForm; decide, by unfold TableForm; decide, ?_, ⟨by decide, trivial⟩, by unfold RecordForm; decide⟩
  · intro c hc
    have h : (work.isc.chans.all fun c => c.level.all (fun l => decide (l ≤ c.cfg.full)) && decide (c.residue < 65536000)) = true := by
      decide +kernel
    have := List.all_eq_true.1 h c hc
    rw [Bool.and_eq_true] at this
    refine ⟨fun l hl => ?_, of_decide_eq_true this.2⟩
    rw [hl] at this; exact of_decide_eq_true this.1
  · intro e he l hl r hr
    have h : (work.rc.queue.all fun e => e.charges.all (fun l => l.all (fun r => decide (r.saved < 65536000)))) = true := by
      decide +kernel
    have := List.all_eq_true.1 h e he
    rw [hl] at this
    exact of_decide_eq_true (List.all_eq_true.1 this r hr)
  · intro r hr; cases hr; decide

theorem witness_RollPosition :
    let s := { State.reset with mpc.roll := some roll, mpc.settle := some 40, pending := [.encoderStep true] }
    RollForm s ∧ s.mpc.roll = some roll ∧ ∃ t, step s = .next t ∧ t.mpc.roll = some { roll with pos := 20001 } :=
  ⟨by intro r hr; cases hr; decide, rfl, _, rfl, rfl⟩

theorem witness_NoMechanismRunsDuringHold :
    let s := { State.reset with
      lc.hold := .up
      isc.pump := .suspended ⟨3, 0, 0, true, 700, 60000⟩
      mpc.exec := .off ⟨.house, .feed, 30000, false⟩ none
      mpc.cutter := .off true
      mpc.roll := some roll
      pending := [.encoderStep true] }
    held s = true ∧ HoldForm s ∧ ∃ t, step s = .next t :=
  ⟨rfl, fun _ => ⟨rfl, rfl, rfl⟩, _, rfl⟩

/-! ### Requests and their frames -/

theorem witness_DecodeOfEncodedRequest :
    let i := Instr.ringRead 255 63 255
    let f : Frame := ⟨0x22, 255, [63, 255]⟩
    i.wellFormed = true ∧ encodeRequest i = some f := by
  decide

theorem witness_EncodeOfDecodedFrame :
    let f : Frame := ⟨0x0B, 0, [255]⟩
    decodeRequest f = .request (.jobEnd 0 255) ∧ f.payload.length ≤ Config.payloadMax := by
  decide

theorem witness_ReceivedBytesSpellTheirFrame :
    let f : Frame := ⟨0x17, 3, [1, 0, 0, 0]⟩
    let s := { State.reset with
      lc.buffer := List.replicate 4 f, lc.busy := List.replicate 8 ⟨0x97, 3, .linkBusy, false, .none⟩ }
    f.payload.length ≤ Config.payloadMax ∧
      (State.reset.lc.started = true ∧ State.reset.lc.rx = [] ∧ State.reset.lc.rxGap = 0 ∧ State.reset.lc.buffer.length < 4) ∧
      (s.lc.started = true ∧ s.lc.rx = [] ∧ s.lc.rxGap = 0 ∧ 4 ≤ s.lc.buffer.length ∧ 8 ≤ s.lc.busy.length
        ∧ 0x7E#8 ∉ (frameBytes f.kind f.tag f.payload).drop 1) := by
  decide +kernel

theorem witness_RequestFormsOneReply :
    let s := { State.reset with mpc.plan := .to 0 500 }
    encodeRequest (.chanGet 4 10) = some ⟨0x11, 4, [10]⟩ ∧
      exec (.chanGet 4 10) s = .next { s with mpc.plan := .empty, lc.formed := [⟨0x91, 4, .range, true, .none⟩] } :=
  ⟨rfl, rfl⟩

theorem witness_RequestInterruptsSheetPlan :
    let s := { State.reset with mpc.plan := .from 2000000 }
    (isRequest (.status 1) = true ∧ actsOnPlan (.status 1) = false ∧ keepsPlan (.status 1) = true
      ∧ ∃ t, exec (.status 1) s = .next t) ∧
    (isRequest (.hello 1) = true ∧ actsOnPlan (.hello 1) = false ∧ keepsPlan (.hello 1) = false
      ∧ ∃ t, exec (.hello 1) s = .next t) :=
  ⟨⟨rfl, rfl, rfl, _, rfl⟩, rfl, rfl, rfl, _, rfl⟩

/-! ### Resets and the store load -/

theorem witness_PowerOnResetSetsEveryBlock :
    let p : Pins := ⟨3, true, true, false, 0x200#10, 1, 0x8000#16⟩
    p.supplyOk = true ∧ { p with supplyOk := false }.supplyOk = false := by
  decide

theorem witness_StoreLoadEndTakesTheImage :
    let s := { State.reset with ss.loading := some 50 }
    let p := { factory with queueMark := 64 }
    let t := { s with ss.image := .good p }
    (s.ss.loading = some 50 ∧ s.ss.image = .bad ∧ factory.chans.length = s.isc.chans.length) ∧
    (t.ss.loading = some 50 ∧ t.ss.image = .good p ∧ t.ss.image ≠ .bad ∧ p.chans.length = t.isc.chans.length) := by
  decide +kernel

theorem witness_SoftReset :
    let s := { printing job [granted] with lc.softReset := .due }
    let d : Draw := ⟨9, 15, 100, false, 700, 60000⟩
    let g : TagData := ⟨9, 1000000, 1000000⟩
    let t := { State.reset with
      lc.softReset := .due, isc.pump := .suspended d, isc.bays := State.reset.isc.bays.set 15 ⟨.drawing, some g, false, true⟩ }
    (s.lc.softReset = .due ∧ grantedEntry s = some granted ∧ s.isc.pump = .free) ∧
    (State.reset.isc.pump = .free ∧ grantedEntry State.reset = none) ∧
    (t.lc.softReset = .due ∧ t.isc.pump.draw = some d ∧ d.channel < t.isc.chans.length ∧ d.bay < t.isc.bays.length
      ∧ (bayAt t d.bay).tag = some g) ∧
    (let u := { s with isc.pump := .running d, isc.bays := s.isc.bays.set 15 ⟨.drawing, some g, false, true⟩ }
     u.lc.softReset = .due ∧ grantedEntry u = some granted ∧ granted.charges = some [⟨3, 7, 500⟩] ∧ u.isc.pump.draw = some d
      ∧ (bayAt u d.bay).tag = some g) := by
  decide +kernel

/-! ### The host link -/

theorem witness_ReceivedFrame :
    let f : Frame := ⟨1, 0, []⟩
    let s := fun n k => { State.reset with
      lc.buffer := List.replicate n f, lc.busy := List.replicate k (busyReply f) }
    ((s 3 8).lc.started = true ∧ (s 3 8).lc.buffer.length < 4) ∧
    ((s 4 7).lc.started = true ∧ 4 ≤ (s 4 7).lc.buffer.length ∧ (s 4 7).lc.busy.length < 8) ∧
    ((s 4 8).lc.started = true ∧ 4 ≤ (s 4 8).lc.buffer.length ∧ 8 ≤ (s 4 8).lc.busy.length) ∧
    { State.reset with lc.started := false }.lc.started = false := by
  decide +kernel

theorem witness_ReceiverHunts :
    let s := fun l => { State.reset with lc.rx := 0x7E#8 :: l }
    (State.reset.lc.started = true ∧ State.reset.lc.rx = [] ∧ 0xFF#8 ≠ 0x7E#8) ∧
    ((s []).lc.started = true ∧ 0x7E#8 ∉ ([] : List Byte) ∧ ([] : List Byte).length < 2) ∧
    (let l : List Byte := [1, 0, 8, 1, 5, 0]
     (s l).lc.rx = 0x7E#8 :: l ∧ 0x7E#8 ∉ l ∧ l.length < fieldAt 0 2 l + 6) ∧
    { State.reset with lc.started := false }.lc.started = false := by
  decide +kernel

theorem witness_DispatchTakesTheOldestFrame :
    let s := fun f => { State.reset with lc.buffer := [f] }
    let f : Frame := ⟨0x30, 1, []⟩
    let g : Frame := ⟨0x2F, 1, [0]⟩
    let h : Frame := ⟨0x2F, 1, []⟩
    ((s f).lc.formed = [] ∧ (s f).lc.softReset = .none ∧ (s f).lc.buffer = [f] ∧ decodeRequest f = .unknown) ∧
    (decodeRequest ⟨0, 1, []⟩ = .unknown ∧ decodeRequest g = .malformed ∧ decodeRequest h = .request (.storeSave 1)) := by
  decide +kernel

theorem witness_Transmitter :
    let e : CondEntry := ⟨.bayChanged, some 15, false, 1⟩
    let r := busyReply ⟨1, 9, []⟩
    let s := { State.reset with lc.conds := [e] }
    let t := { State.reset with lc.conds := [], lc.formed := [r] }
    let u := { State.reset with lc.line := some (.reply ⟨0x83, 1, .ok, false, .none⟩) }
    (s.lc.line = none ∧ s.lc.noticeDue = true ∧ s.lc.conds = [e]) ∧
    (t.lc.line = none ∧ (t.lc.noticeDue = false ∨ t.lc.conds = []) ∧ t.lc.busy = [] ∧ t.lc.formed = [r]) ∧
    { t with lc.busy := [r] }.lc.busy = [r] ∧
    u.lc.line = some (.reply ⟨0x83, 1, .ok, false, .none⟩) := by
  decide +kernel

theorem witness_ClassReads :
    let k : Nat × Instr := (4, .readChanges 1)
    let s := fun n => { State.reset with
      lc.conds := (List.range n).map (fun b => (⟨.bayChanged, some b, false, 1⟩ : CondEntry)) }
    k ∈ [(1, Instr.readFaults 1), (2, Instr.readHolds 1), (3, Instr.readProgress 1), (4, Instr.readChanges 1)] ∧
    ((s 200).lc.conds.filter (fun e => e.cond.cls == 4)).length ≤ 200 ∧
    ¬ ((s 201).lc.conds.filter (fun e => e.cond.cls == 4)).length ≤ 200 := by
  decide +kernel

theorem witness_ResumeEndsTheHold :
    let s := { State.reset with
      lc.hold := .up, isc.pump := .suspended ⟨9, 0, 0, true, 0, 60000⟩, mpc.cutter := .off true, mpc.home := false
      mpc.exec := .off ⟨.house, .feed, 1, false⟩ none }
    State.reset.lc.hold ≠ .up ∧ { State.reset with lc.hold := .down }.lc.hold ≠ .up ∧ s.lc.hold = .up
      ∧ s.isc.pumpQueue = [] ∧ ∀ d, s.isc.pump = .suspended d → (chanAt s d.channel).fullFloat = false := by
  refine ⟨by decide, by decide, rfl, rfl, ?_⟩
  intro d h; cases h; decide +kernel

/-! ### Jobs and swaths -/

/-- A patch set of one density patch of channel 3. -/
def patches : PatchSet := ⟨600, 1, 2000, [⟨10000, -12800, 12799, some 3⟩]⟩

theorem witness_JobOpen :
    let s := { printing job [] with
      rc.jobs := (List.replicate 7 (some job)).concat none
      ccu.sets := [none, none, none, some patches]
      ccu.checks := (List.replicate 3 (Check.allocated 7 .verify 3)).concat Check.blank }
    (1 ≤ 255 ∧ 255 ≤ 255 ∧ 15 ≤ 15 ∧ slotOf s 255 = none ∧ quoteSlotOf s 255 = none
      ∧ s.rc.jobs.findIdx? (fun o => o.isNone) = some 7) ∧
    (((2, Policy.adjust) ∈ [(1, Policy.verify), (2, Policy.adjust)]) ∧ (setAt s 3).isSome = true
      ∧ s.ccu.checks.findIdx? (fun c => c.state == .free) = some 3) ∧
    (slotOf s 1 = none ∧ quoteSlotOf s 1 = none) := by
  decide +kernel

theorem witness_SwathPut :
    let s := { printing { job with put := .strip } (List.replicate 63 entry) with rc.stale := some 0 }
    let d : Descriptor := ⟨7, 65535, 1, 3000, [⟨3, 2, 1000⟩]⟩
    slotOf s d.jobTag = some 2 ∧ jobAt s 2 = some { job with put := .strip } ∧ job.state = .opened ∧ s.rc.queue.length < 64
      ∧ swathKind d = some .strip ∧ d.advance ≤ 3000 ∧ oversize s d.drops = false ∧ PutPhase.strip ≠ .after := by
  decide +kernel

theorem witness_SwathPut_queue :
    let s := printing job [granted, { entry with queueTag := 41 }]
    let d : Descriptor := ⟨7, 65535, 0, 0, [⟨3, 2, 1000⟩]⟩
    (slotOf s d.jobTag = some 2 ∧ jobAt s 2 = some job ∧ job.state = .opened ∧ s.rc.queue.length < 64
      ∧ swathKind d = some .image ∧ oversize s d.drops = false ∧ stopFree s = false
      ∧ (s.rc.queue.map (fun e => e.queueTag)).Nodup) ∧
    (∀ n l, jobAt s n = some l → l.state = .opened) :=
  ⟨by decide +kernel, jobs_printing (p := fun k => k.state = .opened) rfl⟩

theorem witness_JobEndAndJobAbort :
    let s := fun j => printing j []
    let t := printing job [entry]
    (slotOf t 7 = some 2 ∧ jobAt t 2 = some job ∧ job.state = .opened ∧ hasEntry t 7 = true) ∧
    (slotOf (s job) 7 = some 2 ∧ jobAt (s job) 2 = some job ∧ hasEntry (s job) 7 = false ∧ job.checkId = none
      ∧ job.tailFeed = false ∧ job.strip ≠ .inStrip ∧ job.state ≠ .aborting ∧ job.state ≠ .closing) ∧
    (let j := { job with state := JobState.closing }
     slotOf (s j) 7 = some 2 ∧ jobAt (s j) 2 = some j ∧ j.state = .closing ∧ j.state ≠ .opened) := by
  decide +kernel

/-- Where nothing follows: a GRANTED head and a QUEUED swath behind it, whose withdrawal brings 63 free entries to a mark of 63; a cut of the job's own; a tail feed running. -/
theorem witness_JobEndAndJobAbort_still :
    let late := { entry with queueTag := 41 }
    let s := { printing job [granted, late] with
      rc.belowMark := true, rc.queueMark := 63, mpc.cuts := [⟨20000, [.job 7], .sheet, none, .planned⟩] }
    let mine : QEntry → Bool := fun e => e.job == 7 && e.state == .queued
    let a : Advance := ⟨.print 2, .tailFeed, 23000, false⟩
    let g : Segment := ⟨23000, 7000, 0, .driving⟩
    let f := { printing { job with state := .feeding } [] with mpc.exec := .moving a g }
    (slotOf s 7 = some 2 ∧ jobAt s 2 = some job ∧ hasEntry s 7 = true ∧ stopFree s = false
      ∧ (∀ e, s.rc.queue.head? = some e → e.state ≠ .queued) ∧ ∃ e ∈ s.mpc.cuts, CutOwner.job 7 ∈ e.owners) ∧
    (s.rc.queue.filter mine = [late] ∧ s.rc.queue.filter (fun e => !mine e) = [granted] ∧ granted.job = 7
      ∧ s.rc.belowMark = true ∧ s.rc.queueMark ≤ 64 - 1) ∧
    (slotOf f 7 = some 2 ∧ f.rc.queue = [] ∧ stopFree f = false ∧ f.mpc.exec = .moving a g ∧ a.requester = .tailFeed
      ∧ a.owner = .print 2) ∧
    (∀ n k, n ≠ 2 → jobAt s n = some k → k.state = .opened) ∧ (∀ n k, n ≠ 2 → jobAt f n = some k → k.state = .opened) := by
  refine ⟨⟨by decide +kernel, by decide +kernel, by decide +kernel, by decide +kernel, ?_, by decide +kernel⟩, by decide +kernel,
    by decide +kernel, ?_, ?_⟩
  · intro e h; cases h; decide
  · intro n k _ hk
    exact jobs_printing (p := fun k => k.state = .opened) (j := job) (q := [granted, { entry with queueTag := 41 }]) rfl n k hk
  · intro n k hn hk
    rcases n with _ | _ | _ | _ | _ | _ | _ | _ | n <;> first | exact absurd rfl hn | cases hk

/-! ### Settings -/

theorem witness_SettingRequests :
    let s := { State.reset with mpc.roll := none }
    let p : CheckParams := ⟨List.replicate 10 255, 256, 24, 600, 3600⟩
    saving s = false ∧ s.mpc.roll = none ∧
    (p.sens.length = 10 ∧ (∀ n ∈ p.sens, n ≤ 255) ∧ p.maxStep ≤ 256 ∧ p.maxInvalid ≤ 24 ∧ p.dryTime ≤ 600 ∧ 60 ≤ p.limit
      ∧ p.limit ≤ 3600 ∧ 60 ≤ { p with limit := 60 }.limit) ∧
    (500 ≤ 500 ∧ 500 < 501 ∧ 5999 < 6000 ∧ 6000 ≤ 6000) ∧
    setNamed s 3 = false ∧
    (let l := leBytes 2 600 ++ leBytes 2 1 ++ leBytes 2 2000 ++ leBytes 2 10000 ++ leBytes 2 52736 ++ leBytes 2 12799 ++ [255]
     l.length = 6 + 7 * 1 ∧ setOk (readSet 1 l) = true) ∧
    (let l := leBytes 2 0 ++ leBytes 2 2000 ++ leBytes 2 1 ++ List.replicate (7 * 24) 0
     l.length = 6 + 7 * 24 ∧ setOk (readSet 24 l) = true) := by
  decide +kernel

theorem witness_ChannelRequests :
    let s := printing job [entry]
    let cfg := { factoryChan 9 with volS := 1, volM := 4095, full := 5000000, floor := 2500000, refillMark := 2500000,
                                    lowVol := 5000000, flow := 2000, duty := 255, bayMap := 0xFFFF#32 }
    (saving s = false ∧ (chanAt s 9).enabled = false ∧ cfgOk cfg = true) ∧
    ((chanAt s 3).enabled = true ∧ grantNames s 3 = false ∧ (chanAt s 3).refill = .idle
      ∧ ∀ b, (chanAt s 3).refill ≠ .drawing b) := by
  refine ⟨by decide +kernel, by decide +kernel, by decide +kernel, by decide +kernel, ?_⟩
  intro b
  rw [show (chanAt (printing job [entry]) 3).refill = .idle from by decide +kernel]
  exact nofun

/-! ### Costing -/

/-- A quote account that has taken one swath. -/
def quote : Account :=
  { Account.opened .quote (some 9) 3 0 with
    fired := 1, quoteMedia := some 3, quoteWidth := some 6000, quoteResidue := some (List.replicate 10 65535999) }

theorem witness_Pricing : account.ink.length = 10 ∧ factoryPrices.ink.length = 10 := by decide

theorem witness_PriceRequests :
    let s := { State.reset with ss.store := .saving factory 399 }
    saving State.reset = false ∧ saving s = true ∧ 9 ≤ 9 ∧ 15 ≤ 15 ∧ 9999999 ≤ 9999999 ∧
    (4 < 5 ∨ 5 = 0 ∧ 9 < 0 ∨ 5 = 1 ∧ 15 < 0 ∨ 9999999 < 0) ∧
    (4 < 0 ∨ 0 = 0 ∧ 9 < 10 ∨ 0 = 1 ∧ 15 < 10 ∨ 9999999 < 0) ∧
    (4 < 1 ∨ 1 = 0 ∧ 9 < 16 ∨ 1 = 1 ∧ 15 < 16 ∨ 9999999 < 0) ∧
    (4 < 2 ∨ 2 = 0 ∧ 9 < 0 ∨ 2 = 1 ∧ 15 < 0 ∨ 9999999 < 10000000) := by
  decide +kernel

theorem witness_Quotes :
    let s := { State.reset with cu.quotes := [some quote, some quote, some quote, none] }
    let d : Descriptor := ⟨0, 0, 0, 3000, [⟨9, 0, 268435455⟩]⟩
    (slotOf s 255 = none ∧ quoteSlotOf s 255 = none ∧ s.cu.quotes.findIdx? (fun o => o.isNone) = some 3
      ∧ 1000 ≤ 20000 ∧ 65535 ≤ 65535) ∧
    (quoteSlotOf s 9 = some 0 ∧ quoteAt s 0 = some quote ∧ swathKind d = some .image ∧ d.advance ≤ 3000
      ∧ quote.quoteMedia = some 3 ∧ quote.quoteWidth = some 6000 ∧ quote.quoteResidue = some (List.replicate 10 65535999)
      ∧ quote.ink.length = 10 ∧ (List.replicate 10 65535999).length = 10) ∧
    (3 ∈ dropChannels [⟨3, 0, 1⟩] ∧ 9 ∈ dropChannels d.drops ∧ 8 ∉ dropChannels d.drops) ∧
    (let e : MediaEntry := ⟨3, 0, 0⟩
     quote.media = [e] ∧ e.media = 3) := by
  decide +kernel

/-- A closed record. -/
def closedRecord : ClosedRecord := makeRecord account (.job .completed) factoryPrices

theorem witness_Closes :
    let s := fun n => { State.reset with
      cu.quotes := [some quote, none, none, none], cu.records := List.replicate n closedRecord }
    (quoteSlotOf (s 15) 8 = none) ∧
    (quoteSlotOf (s 15) 9 = some 0 ∧ quoteAt (s 15) 0 = some quote ∧ (s 15).cu.records.length < 16) ∧
    (quoteSlotOf (s 16) 9 = some 0 ∧ quoteAt (s 16) 0 = some quote ∧ 16 ≤ (s 16).cu.records.length) := by
  decide +kernel

theorem witness_RecordTake :
    let j := { job with state := JobState.closing, outcome := some .aborted }
    let l := List.replicate 15 closedRecord
    let s := { printing j [] with cu.records := closedRecord :: l }
    let t := { printing job [] with cu.records := [closedRecord] }
    State.reset.cu.records = [] ∧
    (t.cu.records = [closedRecord] ∧ ∀ i k, jobAt t i = some k → k.state ≠ .closing) ∧
    (s.cu.records = closedRecord :: l ∧ l.length = 15 ∧ jobAt s 2 = some j ∧ j.state = .closing ∧ j.outcome = some .aborted
      ∧ j.checkId = none ∧ printAt s 2 = some account ∧ s.rc.jobs.length = 8
      ∧ ∀ n k, n ≠ 2 → jobAt s n = some k → k.state ≠ .closing) := by
  refine ⟨rfl, ⟨rfl, ?_⟩, rfl, rfl, rfl, rfl, rfl, rfl, rfl, rfl, ?_⟩
  · exact jobs_printing (p := fun k => k.state ≠ .closing) (q := []) (j := job) nofun
  · intro n k hn hk
    rcases n with _ | _ | _ | _ | _ | _ | _ | _ | n <;> first | exact absurd rfl hn | cases hk

theorem witness_StoreSave :
    let s := { State.reset with ss.store := .saving factory 400 }
    saving s = true ∧ saving State.reset = false ∧ s.ss.store = .saving factory 400 := by
  decide +kernel

theorem witness_RecordReads :
    let s := { printing job [] with cu.quotes := [none, none, none, some quote] }
    (7 ≠ 0 ∧ slotOf s 7 = some 2 ∧ jobAt s 2 = some job ∧ printAt s 2 = some account) ∧
    (9 ≠ 0 ∧ slotOf s 9 = none ∧ quoteSlotOf s 9 = some 3 ∧ quoteAt s 3 = some quote) ∧
    (255 ≠ 0 ∧ slotOf s 255 = none ∧ quoteSlotOf s 255 = none) := by
  decide +kernel

theorem witness_RingRequests :
    heldStop State.reset = none ∧
    (let s := { State.reset with
       ccu.link := .scanning 3 2 24 9000, ccu.ring := List.replicate 40 ⟨3, 0, 0, 0, 0, false⟩ }
     heldStop s = none) := by
  decide +kernel

/-! ### The media path -/

theorem witness_RollLoadAndUnload :
    let s := { printing job [] with mpc.cuts := [⟨20000, [.job 7, .house], .sheet, none, .due⟩] }
    let t := { s with mpc.exec := .stalled ⟨.house, .feed, 30000, false⟩ }
    (15 ≤ 15 ∧ 1000 ≤ 1000 ∧ 20000 ≤ 20000 ∧ 1 ≤ 1 ∧ 2000000 ≤ 2000000 ∧ State.reset.mpc.roll = none) ∧
    (15 < 16 ∨ 5000 < 1000 ∨ 20000 < 5000 ∨ 7 = 0 ∨ 2000000 < 7) ∧
    (15 < 15 ∨ 999 < 1000 ∨ 20000 < 999 ∨ 7 = 0 ∨ 2000000 < 7) ∧
    (15 < 15 ∨ 5000 < 1000 ∨ 20000 < 20001 ∨ 7 = 0 ∨ 2000000 < 2000001) ∧
    (t.mpc.roll ≠ none ∧ (t.mpc.exec ≠ .idle ∨ grantedEntry t ≠ none)) ∧
    (s.mpc.roll ≠ none ∧ s.mpc.exec = .idle ∧ grantedEntry s = none
      ∧ ∀ id, id < 4 → (checkAt s id).state ≠ .drying ∧ (checkAt s id).state ≠ .armed
        ∧ ¬((checkAt s id).state = .waitingStrip ∧ (checkAt s id).stripStart ≠ none)) ∧
    (∀ i j, jobAt s i = some j → j.state ≠ .waiting) := by
  refine ⟨by decide, by decide, by decide, by decide, by decide +kernel, by decide +kernel, ?_⟩
  exact jobs_printing (p := fun k => k.state ≠ .waiting) (q := []) (j := job) nofun

theorem witness_FeedAndRetry :
    let s := { printing job [] with mpc.cuts := [⟨20000, [.house], .sheet, none, .planned⟩] }
    let a : Advance := ⟨.house, .feed, 20001, false⟩
    let t := { s with mpc.exec := .stalled a }
    let u := printing job [granted]
    (s.mpc.roll = some roll ∧ s.lc.hold = .none ∧ firstReached s = none ∧ s.mpc.settle = none ∧ s.mpc.exec = .idle
      ∧ grantedEntry s = none ∧ roll.pos < roll.length) ∧
    (t.mpc.roll = some roll ∧ t.lc.hold = .none ∧ firstReached t = none ∧ t.mpc.settle = none ∧ t.mpc.exec = .stalled a
      ∧ roll.pos < a.target) ∧
    (u.mpc.roll = some roll ∧ firstReached u = none ∧ (u.mpc.exec ≠ .idle ∨ grantedEntry u ≠ none)) ∧
    (∀ a, s.mpc.exec ≠ .stalled a) := by
  exact ⟨by decide +kernel, by decide +kernel, by decide +kernel, nofun⟩

/-! ### The sheet plan and the cutter -/

theorem witness_SheetCommit :
    let s := { printing job [] with mpc.plan := .to 16801 17301 }
    let late := { printing job [] with mpc.plan := .to 16800 17300 }
    let e : CutEntry := ⟨17301, [.house], .trim, none, .planned⟩
    let t := { s with mpc.cuts := [e] }
    let j := { job with checkId := some 3 }
    let u := { printing j [] with mpc.plan := .to 16801 17301 }
    (∀ p q, State.reset.mpc.plan ≠ .to p q) ∧
    (late.mpc.plan = .to 16800 17300 ∧ late.mpc.roll = some roll ∧ 16800 + 500 ≤ 17300
      ∧ 16800 + late.mpc.cOff ≤ roll.pos) ∧
    (s.mpc.plan = .to 16801 17301 ∧ s.mpc.roll = some roll ∧ roll.pos < 16801 + s.mpc.cOff
      ∧ (0, CutKind.sheet) ∈ [(0, CutKind.sheet), (1, CutKind.trim)] ∧ (1, CutKind.trim) ∈ [(0, CutKind.sheet), (1, CutKind.trim)]
      ∧ jobOf s 7 = some job ∧ job.state ≠ .aborting ∧ job.state ≠ .closing ∧ cutAt s 16801 = none ∧ cutAt s 17301 = none
      ∧ (cutAt s 16801).isNone.toNat + (cutAt s 17301).isNone.toNat ≤ 32 - s.mpc.cuts.length) ∧
    (jobOf u 7 = some j ∧ j.state ≠ .aborting ∧ j.state ≠ .closing ∧ 255 ≠ 0 ∧ some 3 = j.checkId ∧ j.checkId ≠ none) ∧
    (cutAt t 17301 = some e ∧ (e.owners.length < 2 ∨ e.owners.contains (.job 7) = true) ∧ e.guard = none
      ∧ (cutAt t 16801).isNone.toNat + (cutAt t 17301).isNone.toNat ≤ 32 - t.mpc.cuts.length) ∧
    (∀ a g, s.mpc.exec ≠ .moving a g) := by
  exact ⟨nofun, by decide +kernel, by decide +kernel, by decide +kernel, by decide +kernel, nofun⟩

/-- A cut entry at its stop. -/
def due : CutEntry := ⟨16800, [.job 7], .sheet, none, .due⟩

/-- The executor of an advance that stands at the cut stop of `due`. -/
def atCut : Exec := .atStop ⟨.print 2, .swath, 23000, false⟩ (.cut 16800)

theorem witness_CutCancelAndCutterClear :
    let s := { printing job [] with mpc.cuts := [due], mpc.cutter := .jammed }
    let c := { due with state := CutState.cutting }
    let t := { s with mpc.exec := atCut }
    (cutAt { s with mpc.cuts := [c] } 16800 = some c ∧ 16800 ≤ 2000000 ∧ c.state = .cutting) ∧
    (cutAt { s with mpc.cutter := .ready } 16800 = some due ∧ due.state = .due ∧ Cutter.ready ≠ .jammed) ∧
    (cutAt s 16800 = some due ∧ s.mpc.exec = .idle ∧ due.state = .due ∧ s.mpc.cutter = .jammed) ∧
    cutAt s 16801 = none ∧
    { s with lc.hold := .up }.lc.hold ≠ .none ∧
    (s.lc.hold = .none ∧ ({ s with mpc.home := false }.mpc.cutter ≠ .jammed ∨ { s with mpc.home := false }.mpc.home = false)) ∧
    (s.lc.hold = .none ∧ s.mpc.cutter = .jammed ∧ s.mpc.home = true ∧ ∀ a p, s.mpc.exec ≠ .atStop a (.cut p)) ∧
    (t.lc.hold = .none ∧ t.mpc.cutter = .jammed ∧ t.mpc.home = true ∧ t.mpc.exec = atCut ∧ cutAt t 16800 = some due
      ∧ due.state = .due ∧ due.guard = none ∧ t.lc.cover = .settled
      ∧ ∀ c ∈ t.ccu.checks, c.state ≠ .free → c.state ≠ .closed → ∀ b, c.stripStart = some b → b ≤ 16800 →
          ∃ z, c.stripEnd = some z ∧ z ≤ 16800) := by
  refine ⟨by decide +kernel, by decide +kernel, by decide +kernel, by decide +kernel, by decide +kernel, by decide +kernel,
    ⟨rfl, rfl, rfl, nofun⟩, rfl, rfl, rfl, rfl, by decide +kernel, rfl, rfl, rfl, ?_⟩
  intro c hc hf
  exact absurd (List.eq_of_mem_replicate hc ▸ rfl : c.state = .free) hf

/-! ### Ink -/

/-- A cartridge of ink 9 above the spent mark by one nanolitre. -/
def tag : TagData := ⟨9, 5000000, 1000001⟩

/-- Channel 9 on, with bays 0 and 15 in its map. -/
def mapped : Channel := Channel.afterReset ({ factoryChan 9 with bayMap := 0x8001#32 }, true)

/-- The reset state with `mapped` as channel 9, and cartridges in its two bays. -/
def inked (c : Channel) (b : Bay) : State :=
  { State.reset with
    isc.chans := State.reset.isc.chans.set 9 c
    isc.bays := (State.reset.isc.bays.set 0 ⟨.ready, some ⟨9, 5000000, 1000000⟩, false, true⟩).set 15 b }

/-- R72: a bay is usable for channel 9. -/
def usable (s : State) (b : Nat) : Bool :=
  (chanAt s 9).cfg.bayMap.getLsbD b && (bayAt s b).state == .ready
    && (bayAt s b).tag.any (fun g => g.inkId == (chanAt s 9).cfg.inkId && decide (s.isc.spentMark < g.remaining))

theorem witness_RefillAsk :
    let s := inked mapped ⟨.ready, some tag, false, true⟩
    let t := inked { mapped with cfg.bayMap := 0x7FFE#32 } ⟨.ready, some tag, false, true⟩
    let u := { s with isc.chans := s.isc.chans.set 0 { mapped with cfg.bayMap := 0x8000#32 } }
    let v := inked { mapped with fullFloat := true } ⟨.ready, some tag, false, true⟩
    let w := inked { mapped with refill := .dry } ⟨.ready, some { tag with inkId := 8 }, false, true⟩
    (9 < s.isc.chans.length ∧ { s with lc.hold := .down }.lc.hold ≠ .none ∧ (chanAt State.reset 9).enabled = false) ∧
    ((chanAt (inked { mapped with refill := .queued } Bay.afterReset) 9).refill = .queued) ∧
    (s.lc.hold = .none ∧ (chanAt s 9).enabled = true ∧ (chanAt s 9).refill = .idle
      ∧ { s with isc.pump := .suspended ⟨3, 1, 0, true, 0, 60000⟩ }.isc.pump ≠ .free) ∧
    (t.isc.pump = .free ∧ t.isc.pumpQueue = [] ∧ ∀ b, b < 16 → usable t b = false) ∧
    (w.isc.pump = .free ∧ w.isc.pumpQueue = [] ∧ (chanAt w 9).refill = .dry ∧ (∀ b, b < 16 → usable w b = false)
      ∧ (bayAt w 15).tag.any (fun g => g.inkId != (chanAt w 9).cfg.inkId) = true) ∧
    (s.isc.pump = .free ∧ s.isc.pumpQueue = [] ∧ usable s 15 = true ∧ (∀ d, d < 15 → usable s d = false)
      ∧ (bayAt s 15).tag = some tag ∧ (chanAt s 9).fullFloat = false) ∧
    (v.isc.pump = .free ∧ v.isc.pumpQueue = [] ∧ usable v 15 = true ∧ (chanAt v 9).fullFloat = true) ∧
    (∀ k, k < 10 → k ≠ 9 → (chanAt s k).enabled = true → (chanAt s k).cfg.bayMap.getLsbD 15 = false) ∧
    (∃ k, k < 10 ∧ k ≠ 9 ∧ (chanAt u k).enabled = true ∧ (chanAt u k).cfg.bayMap.getLsbD 15 = true) := by
  exact ⟨by decide +kernel, by decide +kernel, by decide +kernel, by decide +kernel, by decide +kernel, by decide +kernel,
    by decide +kernel, by decide +kernel, 0, by decide +kernel⟩

theorem witness_Bays :
    let s := fun x => inked mapped ⟨x, some tag, false, true⟩
    (bayAt State.reset 0).present = false ∧ (bayAt (s .reading) 15).present = true
      ∧ (bayAt (s .reading) 15).state = .reading ∧ (bayAt (s .writing) 15).state = .writing
      ∧ (bayAt (s .spent) 15).state = .spent ∧ (bayAt (s .suspect) 15).state = .suspect
      ∧ ¬(((bayAt (s .ready) 15).state = .suspect ∨ (bayAt (s .ready) 15).state = .tagFault)
          ∧ (bayAt (s .ready) 15).present = true)
      ∧ 15 < 16 := by
  decide +kernel

theorem witness_Floats :
    let s := inked mapped Bay.afterReset
    let t := inked { mapped with lowFloat := true, fullFloat := true } Bay.afterReset
    (9 < s.isc.chans.length ∧ (chanAt s 9).lowFloat = false ∧ (chanAt s 9).enabled = true ∧ (chanAt s 9).refill = .idle
      ∧ { s with isc.pump := .suspended ⟨3, 1, 0, true, 0, 60000⟩ }.isc.pump ≠ .free) ∧
    ((chanAt t 9).lowFloat = true ∧ (chanAt t 9).fullFloat = true) ∧
    (chanAt (inked { mapped with refill := .queued } Bay.afterReset) 9).refill = .queued ∧
    ((chanAt (inked { mapped with refill := .dry } Bay.afterReset) 9).refill = .dry) ∧
    ((chanAt s 9).fullFloat = false ∧
      ∀ d, s.isc.pump = .running d ∨ s.isc.pump = .suspended d → d.channel ≠ 9) := by
  refine ⟨by decide +kernel, by decide +kernel, by decide +kernel, by decide +kernel, by decide +kernel, ?_⟩
  rintro d (h | h) <;> cases h

theorem witness_DrawEndings :
    let d : Draw := ⟨9, 15, 0, true, 60000, 60000⟩
    let s := { inked { mapped with refill := .drawing 15 } ⟨.drawing, some tag, false, true⟩ with isc.pump := .running d }
    let t := { s with isc.pump := .suspended d, lc.hold := .up }
    (s.isc.pump = .running d ∧ d.channel = 9 ∧ d.bay = 15 ∧ 9 < s.isc.chans.length ∧ 15 < s.isc.bays.length
      ∧ (bayAt s 15).tag = some tag ∧ s.isc.pumpQueue = [] ∧ (chanAt s 9).fullFloat = false) ∧
    (t.isc.pump = .suspended d ∧ t.lc.hold ≠ .none ∧ (bayAt t 15).state = .drawing ∧ (bayAt t 15).present = true
      ∧ (chanAt t 9).enabled = true ∧ (bayAt t 15).tag = some tag ∧ t.isc.pumpQueue = []) ∧
    (let u := { inked { mapped with cfg.bayMap := 0x8000#32, refill := .drawing 15 } ⟨.drawing, some tag, false, true⟩ with
       isc.pump := .running d }
     u.isc.pump = .running d ∧ u.lc.hold = .none ∧ (bayAt u 15).state = .drawing ∧ (bayAt u 15).present = true
      ∧ (chanAt u 9).enabled = true ∧ (bayAt u 15).tag = some tag ∧ u.isc.pumpQueue = []
      ∧ ∀ m, m < 16 → m ≠ 15 → (chanAt u 9).cfg.bayMap.getLsbD m = true → (bayAt u m).state ≠ .ready) ∧
    (∀ d, State.reset.isc.pump ≠ .running d) := by
  exact ⟨by decide +kernel, by decide +kernel, by decide +kernel, nofun⟩

theorem witness_TagBus :
    let s := { inked mapped ⟨.writing, some tag, false, true⟩ with isc.tagBus := some ⟨.write 15 tag, 249⟩ }
    let t := { inked { mapped with refill := .dry } ⟨.reading, none, false, true⟩ with
      isc.tagBus := some ⟨.read 15, 0⟩, isc.pump := .suspended ⟨3, 1, 0, true, 0, 60000⟩ }
    let u := { State.reset with isc.tagQueue := [.read 0] }
    let dry := fun x : State => (List.range 10).filter (fun c => (chanAt x c).refill == .dry && (chanAt x c).cfg.bayMap.getLsbD 15)
    (u.isc.tagBus = none ∧ u.isc.tagQueue = [.read 0]) ∧
    (s.isc.tagBus = some ⟨.write 15 tag, 249⟩ ∧ (bayAt s 15).tag = some tag ∧ 15 < s.isc.bays.length ∧ dry s = []
      ∧ s.isc.spentMark < tag.remaining) ∧
    (t.isc.tagBus = some ⟨.read 15, 0⟩ ∧ 15 < t.isc.bays.length ∧ dry t = [9] ∧ t.isc.pump ≠ .free
      ∧ ∀ c ∈ dry t, (chanAt t c).enabled = true) ∧
    (let g : TagData := ⟨9, 1, 1⟩
     tagCheck g = crc16 (leBytes 1 g.inkId ++ leBytes 4 g.capacity ++ leBytes 4 g.remaining) ∧ 1 ≤ g.capacity
      ∧ g.remaining ≤ g.capacity ∧ g.remaining ≤ s.isc.spentMark) := by
  decide +kernel

/-! ### The head -/

theorem witness_FiredAndBroken :
    let q := [{ entry with queueTag := 41 }]
    let far := { granted with advance := 3000 }
    let s := fun e => printing job (e :: q)
    let chans := fun e => [(⟨3, 7, 500⟩ : ChargeRec)].foldl (fun cs r => cs.modify r.channel (fun c =>
      { c with level := c.level.map (fun v => v - r.charge)
               drift := c.drift || c.level.any (fun v => v < r.charge), reserved := 0 })) (s e).isc.chans
    ((s granted).rc.queue = granted :: q ∧ granted.state = .granted ∧ granted.charges = some [⟨3, 7, 500⟩]
      ∧ (∀ x ∈ q, x.queueTag ≠ granted.queueTag) ∧ slotOf (s granted) granted.job = some 2 ∧ jobAt (s granted) 2 = some job
      ∧ printAt (s granted) 2 = some account ∧ granted.advance = 0 ∧ job.state ≠ .ending
      ∧ granted.kind ≠ .strip ∧ job.strip ≠ .inStrip) ∧
    (let x := { s granted with rc.belowMark := true, rc.queueMark := 63 }
     x.rc.queue = granted :: q ∧ x.rc.belowMark = true ∧ x.rc.queueMark ≤ 64 - q.length) ∧
    ((s far).rc.queue = far :: q ∧ far.state = .granted ∧ far.advance ≠ 0 ∧ slotOf (s far) far.job = some 2) ∧
    (let c := chanAt { s granted with isc.chans := chans granted } 3
     ∃ v, c.level = some v ∧ c.cfg.refillMark + c.reserved ≤ v) := by
  exact ⟨by decide +kernel, by decide +kernel, by decide +kernel, 7999993, by decide +kernel⟩

theorem witness_HeadReports :
    let s := printing job [granted, { entry with queueTag := 41 }]
    let e := { granted with revoked := some true }
    let t := { printing job [e] with rc.belowMark := true, rc.queueMark := 64 }
    (grantedEntry State.reset = none) ∧
    (∀ x, grantedEntry s = some x → x.queueTag ≠ 41) ∧
    (t.rc.queue = [e] ∧ e.state = .granted ∧ e.charges = some [⟨3, 7, 500⟩] ∧ slotOf t 7 = some 2 ∧ jobAt t 2 = some job
      ∧ e.revoked = some true ∧ t.rc.belowMark = true ∧ t.rc.queueMark ≤ 64 - 0) ∧
    (s.rc.queue = granted :: [{ entry with queueTag := 41 }] ∧ granted.revoked ≠ some true ∧ s.lc.hold = .none
      ∧ s.lc.cover = .settled ∧ s.mpc.exec = .idle ∧ (∀ left, s.mpc.cutter ≠ .stroke left)
      ∧ (∀ c ∈ s.ccu.checks, c.state ≠ .measuring) ∧ (∀ i k, jobAt s i = some k → k.state = .opened)) := by
  refine ⟨by decide +kernel, ?_, by decide +kernel, rfl, nofun, rfl, rfl, rfl, nofun, by decide +kernel, ?_⟩
  · intro x h; cases h; decide
  · exact jobs_printing (p := fun k => k.state = .opened) rfl

/-- What HEAD_READY asks of the state so that the QUEUED head swath is considered. -/
def Considered (s : State) : Prop :=
  s.rc.queue = [entry] ∧ slotOf s 7 = some 2 ∧ jobAt s 2 = some job ∧ (∀ i k, jobAt s i = some k → k.state = .opened)
    ∧ (∀ a g, s.mpc.exec ≠ .moving a g) ∧ (∀ a r, s.mpc.exec ≠ .atStop a r)
    ∧ (∀ a r, s.mpc.exec = .off a (some r) → inStopList s r = true) ∧ (∀ left, s.mpc.cutter ≠ .stroke left)
    ∧ ∀ c ∈ s.ccu.checks, c.state ≠ .measuring

theorem witness_HeadReady :
    let s := printing job [entry]
    let chan := fun c => { s with isc.chans := s.isc.chans.set 3 c }
    let charge := (1000 * 112 * 4096 + 0) / 65536000
    (Considered s ∧ dropChannels entry.drops = [3] ∧ dropCounts entry.drops 3 = ⟨0, 0, 1000⟩ ∧ gainAt s 3 = 4096) ∧
    (s.lc.hold = .none ∧ s.lc.cover = .settled ∧ s.mpc.cutter = .ready ∧ s.mpc.exec = .idle ∧ s.mpc.roll = some roll
      ∧ roll.media = job.media ∧ ¬ roll.length - roll.pos < entry.advance) ∧
    (Considered { s with mpc.roll := none } ∧ { s with mpc.roll := none }.mpc.roll = none) ∧
    (Considered (chan { full with enabled := false }) ∧ (chanAt (chan { full with enabled := false }) 3).enabled = false) ∧
    (Considered (chan { full with level := none, refill := .dry }) ∧ (chanAt (chan { full with level := none, refill := .dry }) 3).level = none
      ∧ (chanAt (chan { full with level := none, refill := .dry }) 3).refill ≠ .idle) ∧
    (Considered (chan { full with cfg.floor := 15000000, level := some 15000000 }) ∧
      (chanAt (chan { full with cfg.floor := 15000000, level := some 15000000 }) 3).cfg.full - 15000000 < charge) ∧
    (Considered (chan { full with level := some (2000000 + charge - 1), refill := .queued })
      ∧ (chanAt (chan { full with level := some (2000000 + charge - 1), refill := .queued }) 3).refill ≠ .idle
      ∧ 2000000 + charge - 1 < (chanAt s 3).cfg.floor + charge) ∧
    (let x := { chan { full with level := none } with isc.pump := .suspended ⟨9, 1, 0, true, 0, 60000⟩ }
     Considered x ∧ (chanAt x 3).enabled = true ∧ (chanAt x 3).level = none ∧ (chanAt x 3).refill = .idle ∧ x.isc.pump ≠ .free) ∧
    (let x := { chan { full with level := some 2000000 } with isc.pump := .suspended ⟨9, 1, 0, true, 0, 60000⟩ }
     Considered x ∧ (chanAt x 3).enabled = true ∧ (chanAt x 3).refill = .idle ∧ 2000000 < (chanAt x 3).cfg.floor + charge
      ∧ x.isc.pump ≠ .free) ∧
    (charge ≤ (chanAt s 3).cfg.full - (chanAt s 3).cfg.floor ∧ ¬ 8000000 < (chanAt s 3).cfg.floor + charge) := by
  have key : ∀ x : State, x.rc = (printing job [entry]).rc → x.mpc.exec = .idle → x.mpc.cutter = .ready →
      x.ccu = State.reset.ccu → Considered x := by
    intro x h1 h2 h3 h4
    have hj : ∀ i, jobAt x i = jobAt (printing job [entry]) i := fun i => by unfold jobAt; rw [h1]
    refine ⟨by rw [h1]; rfl, ?_, by rw [hj]; rfl, fun i k hk => ?_, ?_, ?_, ?_, ?_, ?_⟩
    · unfold slotOf; rw [h1]; decide +kernel
    · rw [hj] at hk; exact jobs_printing (p := fun k => k.state = .opened) rfl i k hk
    · rw [h2]; nofun
    · rw [h2]; nofun
    · rw [h2]; nofun
    · rw [h3]; nofun
    · rw [h4]; decide
  refine ⟨⟨key _ rfl rfl rfl rfl, by decide +kernel⟩, by decide +kernel, ⟨key _ rfl rfl rfl rfl, rfl⟩,
    ⟨key _ rfl rfl rfl rfl, by decide +kernel⟩, ⟨key _ rfl rfl rfl rfl, by decide +kernel⟩,
    ⟨key _ rfl rfl rfl rfl, by decide +kernel⟩, ⟨key _ rfl rfl rfl rfl, by decide +kernel⟩,
    ⟨key _ rfl rfl rfl rfl, by decide +kernel⟩, ⟨key _ rfl rfl rfl rfl, by decide +kernel⟩, by decide +kernel⟩

theorem witness_CleanedBooks :
    let s := printing job []
    let counts : List Counts := [⟨0, 0, 0⟩, ⟨0, 0, 0⟩, ⟨0, 0, 0⟩, ⟨268435455, 0, 0⟩, ⟨0, 0, 0⟩, ⟨0, 0, 0⟩, ⟨0, 0, 0⟩, ⟨0, 0, 0⟩, ⟨0, 0, 0⟩, ⟨0, 0, 1⟩]
    let charge := fun c => (let n := counts.getD c ⟨0, 0, 0⟩
      let cfg := (chanAt s c).cfg
      ((n.small * cfg.volS + n.medium * cfg.volM + n.large * cfg.volL) * gainAt s c + (chanAt s c).residue) / 65536000)
    s.isc.chans.length = 10 ∧ s.cu.house.ink.length = 10 ∧ counts.getD 3 ⟨0, 0, 0⟩ ≠ ⟨0, 0, 0⟩ ∧
    (∀ c, c < 10 → counts.getD c ⟨0, 0, 0⟩ ≠ ⟨0, 0, 0⟩ → (chanAt s c).enabled = false ∨ (chanAt s c).refill ≠ .idle ∨
      ∃ v, (chanAt s c).level = some v ∧ (chanAt s c).cfg.refillMark + (chanAt s c).reserved ≤ v - charge c) := by
  refine ⟨by decide +kernel, by decide +kernel, by decide +kernel, ?_⟩
  intro c hc hne
  by_cases h3 : c = 3
  · subst h3; exact .inr (.inr ⟨8000000, by decide +kernel⟩)
  · have : ∀ c, c < 10 → c ≠ 3 → (chanAt (printing job []) c).enabled = false := by decide +kernel
    exact .inl (this c hc h3)

/-! ### The encoder, the executor and the cutter -/

/-- An advance in hand, its segment in a phase. -/
def run (x : SegPhase) (target : Nat) : Exec := .moving ⟨.print 2, .swath, target, false⟩ ⟨20010, 1020, 1019, x⟩

theorem witness_EncoderStep :
    let s := { printing job [] with mpc.settle := some 1 }
    let t := { printing job [] with mpc.exec := run .driving 23000 }
    let u := { s with mpc.roll := some { roll with pos := 100000 } }
    (s.mpc.roll = some roll ∧ s.mpc.settle ≠ none ∧ roll.pos < roll.length) ∧
    (t.mpc.roll = some roll ∧ ∃ a g, t.mpc.exec = .moving a g ∧ g.phase = .driving) ∧
    (u.mpc.settle ≠ none ∧ 100000 ≤ 100000) ∧
    (State.reset.mpc.roll = none ∧ (printing job []).mpc.settle = none) :=
  ⟨⟨rfl, nofun, by decide⟩, ⟨rfl, _, _, rfl, rfl⟩, ⟨nofun, by decide⟩, rfl, rfl⟩

theorem witness_SettleWindowAndFeedLimit :
    let s := fun x target => { printing job [{ granted with state := EntryState.advancing }] with
      mpc.exec := run x target, mpc.settle := some 1, mpc.moved := 100 }
    let t := { s .settling 23000 with mpc.cuts := [due] }
    let c := { Check.allocated 7 .verify 3 with state := .drying, stop := some 20000, reached := true }
    let u := { s .settling 23000 with ccu.checks := [c, Check.blank, Check.blank, Check.blank] }
    let v := { u with mpc.cuts := [{ due with guard := some 0 }] }
    ((s .driving 23000).mpc.settle = some 1 ∧ (s .driving 23000).mpc.roll = some roll
      ∧ (s .driving 23000).mpc.exec = run .driving 23000 ∧ State.reset.mpc.settle = none) ∧
    ({ s .holding 23000 with lc.hold := .down }.lc.hold ≠ .none) ∧
    (firstReached (s .settling 20001) = none ∧ roll.pos < 20001) ∧
    (firstReached (s .settling 20000) = none ∧ 20000 ≤ roll.pos
      ∧ slotOf (s .settling 20000) 7 = some 2 ∧ jobAt (s .settling 20000) 2 = some job ∧ job.state ≠ .ending) ∧
    (firstReached u = some (.meas 0) ∧ (checkAt u 0).state ≠ .armed) ∧
    (firstReached t = some (.cut 16800) ∧ cutAt t 16800 = some due ∧ due.state = .due ∧ due.guard = none
      ∧ t.mpc.cutter = .ready ∧ t.lc.cover = .settled ∧ t.lc.hold = .none
      ∧ { t with mpc.cutter := .jammed }.mpc.cutter ≠ .ready) ∧
    (∀ c ∈ t.ccu.checks, c.state = .free) ∧
    (cutAt v 16800 = some { due with guard := some 0 } ∧ (checkAt v 0).state ≠ .free ∧ (checkAt v 0).state ≠ .closed
      ∧ (checkAt v 0).stop = some 20000 ∧ 20000 ≤ 16800 + v.mpc.cOff ∧ c.stripStart = none) ∧
    firstReached { v with ccu.checks := [{ c with reached := false }, Check.blank, Check.blank, Check.blank] } = some (.cut 16800) := by
  decide +kernel

/-- A cut inside an open strip, and a guard that is met or dropped. -/
theorem witness_SettleWindow_cuts :
    let c := { Check.allocated 7 .verify 3 with stripStart := some 16800, limit := some 1 }
    let s := fun c e target => { printing job [] with
      mpc.exec := run .settling target, mpc.settle := some 1, mpc.cuts := [e], ccu.checks := [c, Check.blank, Check.blank, Check.blank] }
    let g := { due with guard := some 0 }
    let k := { c with state := CheckState.closed, limit := none }
    let b := { c with stripStart := some 16000, stripEnd := some 16800 }
    let d := { b with state := CheckState.drying, stop := some 20001 }
    (firstReached (s c due 23000) = some (.cut 16800) ∧ cutAt (s c due 23000) 16800 = some due ∧ due.state = .due ∧ c ∈ (s c due 23000).ccu.checks
      ∧ c.state ≠ .free ∧ c.state ≠ .closed ∧ c.stripStart = some 16800 ∧ c.stripEnd = none
      ∧ firstReached { s c due 23000 with mpc.cuts := [] } = none ∧ roll.pos < 23000 ∧ 20000 ≤ roll.pos) ∧
    ((checkAt (s k g 23000) 0).state = .closed ∧ firstReached (s k g 23000) = some (.cut 16800)
      ∧ cutAt (s k g 23000) 16800 = some g ∧ ∀ x ∈ (s k g 23000).ccu.checks, x.state = .free ∨ x.state = .closed) ∧
    ((checkAt (s b g 23000) 0).stop = none ∧ (checkAt (s b g 23000) 0).job = some 7 ∧ slotOf (s b g 23000) 7 = some 2
      ∧ firstReached (s b g 23000) = some (.cut 16800) ∧ 16800 ≤ 16800) ∧
    ((checkAt (s d g 23000) 0).stop = some 20001 ∧ 16800 + (s d g 23000).mpc.cOff < 20001
      ∧ firstReached (s d g 23000) = some (.cut 16800)) ∧
    ((s d g 23000).mpc.cutter = .ready ∧ (s d g 23000).lc.cover = .settled ∧ (s d g 23000).lc.hold = .none
      ∧ { s d g 23000 with lc.cover := .opened }.lc.cover ≠ .settled) ∧
    (let a := { d with state := CheckState.armed, stop := some 20000, reached := true }
     firstReached (s a { due with state := CutState.planned } 23000) = some (.meas 0)
      ∧ (checkAt (s a { due with state := CutState.planned } 23000) 0).state = .armed ∧ a.job = some 7) := by
  decide +kernel

/-- The end of a tail feed, of a house feed, and the window that a soft reset left open. -/
theorem witness_SettleWindow_ends :
    let j := { job with state := JobState.feeding }
    let a : Advance := ⟨.print 2, .tailFeed, 20000, false⟩
    let g : Segment := ⟨20000, 1000, 400, .settling⟩
    let s := { printing j [] with mpc.exec := .moving a g, mpc.settle := some 1, mpc.moved := 100 }
    let t := { s with mpc.cuts := [⟨20000, [.job 7], .sheet, none, .planned⟩] }
    let h := { s with mpc.exec := .moving ⟨.house, .feed, 20000, false⟩ g }
    let x := { printing job [] with mpc.settle := some 100, mpc.moved := 3, mpc.resetWindow := true }
    let y := { x with mpc.exec := run .paused 23000 }
    (t.mpc.settle = some 1 ∧ t.mpc.roll = some roll ∧ t.mpc.exec = .moving a g ∧ firstReached t = none ∧ a.target ≤ roll.pos
      ∧ a.requester = .tailFeed ∧ a.owner = .print 2 ∧ jobAt t 2 = some j ∧ j.state = .feeding
      ∧ ∃ e ∈ t.mpc.cuts, CutOwner.job j.tag ∈ e.owners) ∧
    (h.mpc.settle = some 1 ∧ firstReached h = none) ∧
    (x.mpc.settle = some 100 ∧ ∀ a g, x.mpc.exec ≠ .moving a g) ∧
    (y.mpc.settle = some 100 ∧ y.mpc.roll = some roll ∧ y.mpc.exec = run .paused 23000 ∧ y.mpc.resetWindow = true) ∧
    (∀ i k, i ≠ 2 → jobAt t i = some k → k.state = .opened) ∧ (∀ e, t.rc.queue.head? = some e → e.state ≠ .queued) := by
  refine ⟨by decide +kernel, by decide +kernel, ⟨rfl, nofun⟩, by decide +kernel, ?_, nofun⟩
  intro i k hi hk
  rcases i with _ | _ | _ | _ | _ | _ | _ | _ | i <;> first | exact absurd rfl hi | cases hk

theorem witness_HomeAndStroke :
    let s := fun x h => { printing job [] with
      mpc.cutter := x, mpc.home := h, mpc.exec := atCut, mpc.strokeTimer := some 1
      mpc.cuts := [{ due with state := CutState.cutting }] }
    ((s .ready true).mpc.home = true ∧ (s .ready true).mpc.cutter = .ready) ∧
    ((s (.off true) false).mpc.home ≠ true ∧ (s .jammed true).mpc.home ≠ false) ∧
    ((s (.stroke false) true).mpc.home = true ∧ (s (.stroke false) true).mpc.cutter = .stroke false) ∧
    ((s (.stroke false) false).mpc.home = false) ∧
    (let t := s (.stroke true) false
     t.mpc.home = false ∧ t.mpc.cutter = .stroke true ∧ t.mpc.exec = .atStop ⟨.print 2, .swath, 23000, false⟩ (.cut 16800)
      ∧ t.mpc.cuts.find? (fun e => e.state == .cutting) = some { due with state := CutState.cutting }) := by
  decide +kernel

theorem witness_CoverPauses :
    let s := fun c e k => { printing job [] with lc.cover := c, mpc.exec := e, mpc.settle := k, mpc.cuts := [due] }
    ((s .settled .idle none).lc.cover ≠ .opened ∧ (s (.settling 1) .idle none).lc.cover ≠ .opened
      ∧ (s .opened .idle none).lc.cover = .opened) ∧
    ((s (.settling 1) (run .driving 23000) none).lc.cover ≠ .opened
      ∧ (s (.settling 1) (run .driving 23000) none).mpc.exec = run .driving 23000) ∧
    ((s (.settling 2000) (run .paused 23000) none).lc.cover = .settling 2000 ∧ roll.pos < 20010) ∧
    (let t := { s (.settling 1) (run .paused 23000) (some 60) with mpc.resetWindow := true, mpc.moved := 2 }
     t.mpc.exec = run .paused 23000 ∧ t.mpc.roll = some roll ∧ t.mpc.settle.isSome = true ∧ t.mpc.resetWindow = true) ∧
    (let t := { s (.settling 1) (run .paused 20011) (some 100) with mpc.roll := some { roll with pos := 20010 } }
     t.mpc.settle ≠ none ∧ 20010 ≤ 20010) ∧
    (let t := { s (.settling 1) (run .paused 20011) none with mpc.roll := some { roll with pos := 20010 }, mpc.cuts := [] }
     t.mpc.settle = none ∧ firstReached t = none ∧ 20010 < 20011) ∧
    (let t := s (.settling 1) atCut none
     t.mpc.exec = atCut ∧ cutAt t 16800 = some due ∧ due.state = .due ∧ due.guard = none ∧ t.mpc.cutter = .ready
      ∧ t.lc.hold = .none) ∧
    (let t := { s (.settling 1) atCut none with mpc.cutter := .jammed }
     cutAt t 16800 = some due ∧ (due.state ≠ .due ∨ t.mpc.cutter ≠ .ready)) := by
  decide +kernel

theorem witness_SupplyHold :
    let s := { printing job [granted] with mpc.exec := .atStop ⟨.print 2, .swath, 23000, false⟩ (.cut 16800) }
    ({ s with lc.hold := .up }.lc.hold = .up ∧ { s with lc.hold := .down }.lc.hold = .down) ∧
    (s.lc.hold = .none ∧ grantedEntry s = some granted) ∧
    (State.reset.lc.hold = .none ∧ grantedEntry State.reset = none) := by
  decide +kernel

/-! ### Colour checks and the end of a job -/

/-- The reset state with check 3 in a state, the patch set in place 3, and a link state. -/
def checking (c : Check) (l : Link) (n : Nat) : State :=
  { printing { job with policy := .verify, setId := some 3, checkId := some 3 } [] with
    ccu := { State.reset.ccu with
      sets := [none, none, none, some patches]
      checks := [Check.blank, Check.blank, Check.blank, c]
      link := l
      ring := List.replicate n ⟨3, 0, 0, 0, 0, false⟩ } }

theorem witness_SensorRecords :
    let c := { Check.allocated 7 .verify 3 with state := .measuring, stop := some 20000, reached := true }
    let a := { c with state := .armed }
    let s := checking c (.scanning 3 1 1 1) 64
    let t := checking c (.scanning 3 0 1 1) 63
    let u := checking c (.draining 1) 0
    let v := { checking a .idle 63 with mpc.exec := .atStop ⟨.print 2, .swath, 23000, false⟩ (.meas 3) }
    (s.ccu.link = .scanning 3 1 1 1 ∧ 1 ≤ 1 ∧ checkSetOf s (checkAt s 3) = some patches) ∧
    (t.ccu.link = .scanning 3 0 1 1 ∧ 0 < 1) ∧
    (u.ccu.link = .draining 1 ∧ heldStop u = none) ∧
    (let w := { v with ccu.link := .draining 1 }
     w.ccu.link = .draining 1 ∧ heldStop w = some 3 ∧ (checkAt w 3).state = .armed ∧ (checkAt w 3).job = some 7
      ∧ heldStop { w with ccu.ring := List.replicate 64 ⟨3, 0, 0, 0, 0, false⟩ } = some 3) ∧
    (let w := { checking c .idle 0 with mpc.exec := .atStop ⟨.print 2, .swath, 23000, false⟩ (.meas 3) }
     heldStop w = some 3 ∧ (checkAt w 3).state ≠ .armed) ∧
    -- RING_RELEASE with a stop held for ring room
    (let w := { v with ccu.ring := List.replicate 64 ⟨3, 0, 0, 0, 0, false⟩ }
     heldStop w = some 3 ∧ (checkAt w 3).state = .armed ∧ (checkAt w 3).job = some 7 ∧ 64 - w.ccu.ring.length < checkCount w a) ∧
    (State.reset.ccu.link = .idle ∧ heldStop State.reset = none) ∧
    (heldStop v = some 3 ∧ checkAt v 3 = a ∧ a.state = .armed ∧ a.setId = some 3 ∧ v.mpc.roll = some roll
      ∧ 3 < v.ccu.checks.length ∧ v.ccu.link = .idle ∧ checkCount v a ≤ 64 - v.ccu.ring.length) := by
  decide +kernel

theorem witness_Evaluation :
    (3072 ≤ 3072 ∧ 3072 ≤ 5120 ∧ [(-32768 : Int)] ≠ []) ∧ 4294967295 < 4294967296 ∧
    (diffsFrom [⟨3, 0, 10000, 0, 0, false⟩] 0 patches.patches = []) ∧
    (let ds := diffsFrom [⟨3, 0, 10000, 0, 0, true⟩] 0 patches.patches
     ds ≠ [] ∧ patches.patches.length - ds.length ≤ factoryParams.maxInvalid) ∧
    (let two := { patches with patches := patches.patches ++ patches.patches }
     let ds := diffsFrom [⟨3, 0, 10000, 0, 0, true⟩, ⟨3, 1, 0, 0, 0, false⟩] 0 two.patches
     ds ≠ [] ∧ 0 < two.patches.length - ds.length) ∧
    (let r := { Result.unchecked with corrections := some [⟨2, 0, true⟩, ⟨3, -64, false⟩] }
     (r.corrections.getD []).filter (fun c => decide (c.applied ≠ 0)) ≠ []
      ∧ (Result.unchecked.corrections.getD []).filter (fun c => decide (c.applied ≠ 0)) = []) := by
  decide +kernel

theorem witness_ChecksOpenArmAndClose :
    let j := { job with policy := .verify, setId := some 3, checkId := some 3 }
    let w := Check.allocated 7 .verify 3
    let s := checking w .idle 0
    let t := checking { w with stripStart := some 20000, limit := some 1 } .idle 0
    let k := { j with strip := StripPhase.inStrip }
    let u := { t with rc.jobs := [none, none, some k, none, none, none, none, none] }
    let d := checking { w with state := .drying, stop := some 22400, dry := some 1, limit := some 1 } .idle 0
    (jobAt s 2 = some j ∧ j.checkId = some 3 ∧ j.state ≠ .aborting ∧ j.strip = .none ∧ (checkAt s 3).state = .waitingStrip
      ∧ (checkAt s 3).stripStart = none ∧ 3 < s.ccu.checks.length) ∧
    (jobAt u 2 = some k ∧ k.checkId = some 3 ∧ k.strip = .inStrip ∧ (checkAt u 3).state = .waitingStrip
      ∧ (checkAt u 3).stripStart = some 20000 ∧ checkSetOf u (checkAt u 3) = some patches
      ∧ 20000 < 20000 + patches.rowOffset + u.mpc.sOff ∧ u.mpc.exec = .idle) ∧
    (let m := { u with ccu.checks := u.ccu.checks.set 3 { w with stripStart := some 17600, limit := some 1 } }
     jobAt m 2 = some k ∧ (checkAt m 3).job = some 7 ∧ slotOf m 7 = some 2 ∧ (checkAt m 3).state = .waitingStrip
      ∧ (checkAt m 3).stripStart = some 17600 ∧ checkSetOf m (checkAt m 3) = some patches
      ∧ 17600 + patches.rowOffset + m.mpc.sOff ≤ 20000 ∧ m.ccu.link = .idle) ∧
    (j.state = .opened ∧ hasEntry s 7 = false ∧ j.tailFeed = false) ∧
    ((checkAt s 3).job = some 7 ∧ slotOf s 7 = some 2 ∧ heldStop s = none ∧ s.mpc.exec = .idle ∧ stopFree s = false
      ∧ s.ccu.link = .idle) ∧
    ((checkAt s 3).state ≠ .drying ∧ (checkAt s 3).limit = none) ∧
    ((checkAt d 3).state = .drying ∧ standsAt d 3 = false ∧ (checkAt d 3).state ≠ .free ∧ (checkAt d 3).state ≠ .closed
      ∧ (checkAt d 3).limit ≠ none) := by
  decide +kernel

/-- A check that closes: its job WAITING, no cut left, with and without room for the record; at no stop, OFF or AT_STOP at its own. -/
theorem witness_CheckCloses :
    let w := Check.allocated 7 .verify 3
    let v := { job with policy := .verify, setId := some 3, checkId := some 3, state := JobState.waiting }
    let z := { checking { w with state := .armed, stop := some 20000, reached := true, limit := some 1 } .idle 0 with
      rc.jobs := [none, none, some v, none, none, none, none, none] }
    let x := { z with mpc.exec := .atStop ⟨.house, .feed, 20000, false⟩ (.meas 3) }
    let e := z.ccu.checks.modify 3 (Check.close ⟨.fail, some 9, some 9, some 1, none⟩)
    let d := { checking { w with state := .drying, stop := some 20000, dry := some 1, limit := some 1 } .idle 0 with
      mpc.exec := .atStop ⟨.house, .feed, 30000, false⟩ (.meas 3) }
    (jobAt z 2 = some v ∧ v.checkId = some 3 ∧ printAt z 2 = some account ∧ (checkAt z 3).job = some 7 ∧ slotOf z 7 = some 2
      ∧ z.ccu.link = .idle ∧ heldStop z = none ∧ z.mpc.exec = .idle ∧ stopFree z = false) ∧
    (v.state = .waiting ∧ z.mpc.cuts.length = 0 ∧ z.cu.records.length < 16
      ∧ ¬ { z with cu.records := List.replicate 16 closedRecord }.cu.records.length < 16) ∧
    (x.mpc.roll = some roll ∧ x.mpc.settle = none ∧ 20000 ≤ roll.pos ∧ roll.pos < 23000
      ∧ firstReached { x with ccu.checks := e } = none) ∧
    ({ z with mpc.exec := .off ⟨.house, .feed, 23000, false⟩ (some (.meas 3)) }.mpc.exec
      = .off ⟨.house, .feed, 23000, false⟩ (some (.meas 3))) ∧
    ((checkAt d 3).state = .drying ∧ standsAt d 3 = true ∧ (checkAt d 3).job = some 7) := by
  decide +kernel

theorem witness_EndedAndAborted :
    let s := fun j q => { printing j q with cu.records := List.replicate 15 closedRecord }
    let b := { job with state := JobState.aborting }
    let e := { granted with revoked := some true }
    let r := { s b [e] with rc.belowMark := true, rc.queueMark := 64 }
    let f := { job with tailFeed := true }
    let t := { s f [] with mpc.cuts := [⟨20000, [.job 7], .sheet, none, .planned⟩] }
    (slotOf (s job []) 7 = some 2 ∧ jobAt (s job []) 2 = some job ∧ printAt (s job []) 2 = some account ∧ job.checkId = none
      ∧ (s job []).rc.jobs.length = 8 ∧ (s job []).cu.records.length < 16 ∧ stopFree (s job []) = false
      ∧ (∀ c ∈ (s job []).mpc.cuts, .job 7 ∉ c.owners) ∧ job.state = .opened ∧ hasEntry (s job []) 7 = false
      ∧ job.tailFeed = false ∧ (s job []).rc.queue = [] ∧ (s job []).mpc.exec = .idle) ∧
    (∀ i k, i ≠ 2 → jobAt (s job []) i = some k → k.state = .opened) ∧
    (jobAt (s b [e]) 2 = some b ∧ b.state = .aborting ∧ (s b [e]).rc.queue = [e] ∧ e.state = .granted ∧ e.job = 7
      ∧ e.revoked = some true ∧ e.charges = some [⟨3, 7, 500⟩] ∧ (s b [e]).mpc.exec = .idle
      ∧ r.rc.queue = [e] ∧ r.rc.belowMark = true ∧ r.rc.queueMark ≤ 64 - 0) ∧
    (jobAt t 2 = some f ∧ f.state = .opened ∧ hasEntry t 7 = false ∧ f.tailFeed = true ∧ f.strip ≠ .inStrip
      ∧ t.mpc.exec = .idle ∧ grantedEntry t = none ∧ t.lc.hold = .none ∧ t.mpc.roll = some roll ∧ firstReached t = none
      ∧ t.mpc.settle = none ∧ roll.pos < min roll.length
          (((t.mpc.cuts.filter (fun e => e.owners.contains (.job 7))).map (fun e => e.position + t.mpc.cOff)).foldl max 0)) := by
  refine ⟨by decide +kernel, ?_, by decide +kernel, by decide +kernel⟩
  intro i k hi hk
  exact jobs_printing (p := fun k => k.state = .opened) (j := job) (q := []) rfl i k hk

end Sys2Proof.Tests
end

