-- ==== Sys2Proof/Tests/Slice0.lean ====
section
/-! SUPPORT. Tests whose expected results are the manual's worked figures, or worked out by hand from its tables. Each is one command, or one operation, on a small state. -/

namespace Sys2Proof.Tests

open Sys2Proof.Machine

/-- The state after a command. -/
def after (i : Instr) (s : State) : State :=
  match exec i s with
  | .next t => t
  | _ => s

/-! ### WellFormed: an ill-formed term for each check -/

theorem test_wellFormed_refuses_requests :
    ([.hostFrameReceived ⟨1, 0, List.replicate 1021 0⟩, .jobOpen 0 256 0 0 0 0, .jobOpen 0 1 256 0 0 0,
      .jobOpen 0 1 0 256 0 0, .jobOpen 0 1 0 0 256 0, .jobOpen 0 1 0 0 0 256, .swathPut 0 ⟨256, 0, 0, 0, []⟩,
      .swathPut 0 ⟨0, 65536, 0, 0, []⟩, .swathPut 0 ⟨0, 0, 256, 0, []⟩, .swathPut 0 ⟨0, 0, 0, 65536, []⟩,
      .swathPut 0 ⟨0, 0, 0, 0, [⟨256, 0, 0⟩]⟩, .swathPut 0 ⟨0, 0, 0, 0, [⟨0, 256, 0⟩]⟩,
      .swathPut 0 ⟨0, 0, 0, 0, [⟨0, 0, 4294967296⟩]⟩, .swathPut 0 ⟨0, 0, 0, 0, List.replicate 31 ⟨0, 0, 0⟩⟩,
      .jobEnd 0 256, .jobAbort 0 256, .queueMark 0 256, .chanSet 0 256 (factoryChan 0),
      .chanSet 0 0 { factoryChan 0 with inkId := 256 }, .chanSet 0 0 { factoryChan 0 with volS := 65536 },
      .chanSet 0 0 { factoryChan 0 with full := 4294967296 }, .chanSet 0 0 { factoryChan 0 with duty := 256 },
      .chanOn 0 256, .chanOff 0 256, .chanGet 0 256, .refillAsk 0 256, .pumpSet 0 256 0, .pumpSet 0 0 4294967296,
      .bayClear 0 256, .rollLoad 0 256 0 0, .rollLoad 0 0 65536 0, .rollLoad 0 0 0 4294967296] : List Instr).all
      (fun i => !i.wellFormed) = true := by
  decide +kernel

theorem test_wellFormed_refuses_the_rest :
    ([.feed 0 4294967296, .sheetFrom 0 4294967296, .sheetTo 0 4294967296, .cutCancel 0 4294967296,
      .sheetCommit 0 256 0 0 0 0, .sheetCommit 0 0 256 0 0 0, .sheetCommit 0 0 0 256 0 0, .sheetCommit 0 0 0 0 256 0,
      .sheetCommit 0 0 0 0 0 256, .geometrySet 0 65536 0, .geometrySet 0 0 65536, .patchsetLoad 0 256 0 [],
      .patchsetLoad 0 0 256 [], .patchsetLoad 0 0 0 (List.replicate 1019 0), .gainSet 0 256 0, .gainSet 0 0 65536,
      .ringRetain 0 256, .ringRead 0 256 0, .ringRead 0 0 256, .ringRelease 0 256,
      .checkSet 0 { factoryParams with sens := [] }, .checkSet 0 { factoryParams with sens := List.replicate 10 256 },
      .checkSet 0 { factoryParams with maxStep := 65536 }, .checkSet 0 { factoryParams with maxInvalid := 256 },
      .checkGet 0 256, .quoteOpen 0 256 0 0 0, .quoteOpen 0 0 0 65536 0, .quoteSwath 0 256 ⟨0, 0, 0, 0, []⟩,
      .quoteClose 0 256, .priceStage 0 256 0 0, .priceStage 0 0 256 0, .priceStage 0 0 0 4294967296, .priceGet 0 256,
      .accountGet 0 256 0, .accountGet 0 0 256, .fired true 256, .broken true 256, .notFired true 256,
      .cleaned true [], .cleaned true (List.replicate 10 ⟨268435456, 0, 0⟩), .tagReadComplete 256 0 0 0,
      .tagReadComplete 0 4294967296 0 0, .tagReadComplete 0 0 4294967296 0] : List Instr).all
      (fun i => !i.wellFormed) = true := by
  decide +kernel

/-! ### Frames of R198, written out byte by byte -/

theorem test_decode_jobOpen :
    decodeRequest ⟨0x09, 0x21, [0x05, 0x03, 0x01, 0x02, 0x03]⟩ = .request (.jobOpen 0x21 5 3 1 2 3) := by decide

theorem test_decode_swathPut :
    decodeRequest ⟨0x0A, 0x23, [0x05, 0x07, 0x00, 0x01, 0xF4, 0x01, 0x01, 0x02, 0x01, 0x40, 0x42, 0x0F, 0x00]⟩
      = .request (.swathPut 0x23 ⟨5, 7, 1, 500, [⟨2, 1, 1000000⟩]⟩) := by decide

theorem test_decode_chanSet :
    decodeRequest ⟨0x0E, 1, [2, 7, 0x30, 0, 0, 0, 24, 0, 56, 0, 112, 0, 0xC0, 0xE1, 0xE4, 0, 0x80, 0x84, 0x1E, 0, 0x80, 0x8D,
      0x5B, 0, 0xC0, 0xC6, 0x2D, 0, 0x90, 0x01, 128]⟩
      = .request (.chanSet 1 2 { inkId := 7, bayMap := 0x30, volS := 24, volM := 56, volL := 112, full := 15000000,
                                 floor := 2000000, refillMark := 6000000, lowVol := 3000000, flow := 400, duty := 128 }) := by
  decide

theorem test_decode_rollLoad :
    decodeRequest ⟨0x15, 0x22, [0x03, 0x70, 0x17, 0xA0, 0x86, 0x01, 0x00]⟩ = .request (.rollLoad 0x22 3 6000 100000) := by
  decide

theorem test_decode_sheetCommit :
    decodeRequest ⟨0x1B, 2, [0x00, 0x14, 0x00, 0x01, 0x01]⟩ = .request (.sheetCommit 2 0 20 0 1 1) := by decide

theorem test_decode_checkSet :
    decodeRequest ⟨0x24, 3, [40, 40, 40, 40, 40, 40, 40, 40, 40, 40, 64, 0, 2, 120, 0, 0x84, 0x03]⟩
      = .request (.checkSet 3 factoryParams) := by decide

theorem test_decode_priceStage :
    decodeRequest ⟨0x2A, 0x24, [0x01, 0x0F, 0x10, 0x27, 0x00, 0x00]⟩ = .request (.priceStage 0x24 1 15 10000) := by decide

theorem test_decode_refuses :
    decodeRequest ⟨0x00, 0, []⟩ = .unknown ∧ decodeRequest ⟨0x30, 0, []⟩ = .unknown ∧ decodeRequest ⟨0x01, 0, [0]⟩ = .malformed
      ∧ decodeRequest ⟨0x0A, 0, [5, 7, 0, 1, 0, 0, 31] ++ List.replicate 186 0⟩ = .malformed := by decide +kernel

/-- R188: with the buffer and the busy-reply list full, a FEED frame is dropped as one whose CRC had failed, and the start byte inside it begins a partial frame (R187); the CRC 0xA4C5 is worked by hand. -/
theorem test_fullLink_searchesAgain :
    let s := { State.reset with
      lc.buffer := List.replicate 4 ⟨0x01, 0, []⟩, lc.busy := List.replicate 8 ⟨0x81, 0, .linkBusy, false, .none⟩
      lc.rx := [0x7E, 4, 0, 0x17, 9, 0x7E, 0, 0, 0, 0xC5] }
    (after (.hostByteReceived 0xA4 true) s).lc = { s.lc with rx := [0x7E, 0, 0, 0, 0xC5, 0xA4] }
      ∧ (after (.hostByteReceived 0xA4 true) { s with lc.busy := [] }).lc.rx = [] := by
  decide +kernel

/-! ### Arithmetic (the worked figures of spec/02, spec/04, spec/07 and spec/08) -/

/-- The published check value of the CRC that R186 gives (initial value 0xFFFF, not reflected, no final XOR), over the digits 1 to 9. -/
theorem test_crc16 : crc16 [0x31, 0x32, 0x33, 0x34, 0x35, 0x36, 0x37, 0x38, 0x39] = 0x29B1 := by decide +kernel

/-- Spec/02 section 2.2. -/
theorem test_charge : chargeNl 51280000 4301 12345678 = 3365 ∧ chargeResidue 51280000 4301 12345678 = 38985678 := by decide

/-- Spec/02 section 2.7. -/
theorem test_oversizeBound : oversizeBound 170000000000 = 13281251 := by decide

/-- Spec/04 sections 4.4 and 4.7. -/
theorem test_drawLimit :
    drawLimit (factoryChan 8) 12000000 = 32000 ∧ drawLimit (factoryChan 3) 5989635 = 60000 := by decide +kernel

/-- Spec/07 section 7.11. -/
theorem test_isqrt : [18500, 14900, 7300, 1800].map isqrt = [136, 122, 85, 42] := by decide

/-- Spec/07 section 7.11. -/
theorem test_corrections :
    correction factoryParams 3080 1 [-40] = ⟨1, -8, true⟩ ∧ correction factoryParams 4096 5 [120, 80] = ⟨5, 40, false⟩ := by
  decide

/-- Spec/11 section 11.1: the priced record of job 20. -/
theorem test_pricing :
    let a := { Account.opened .print (some 20) 2 300 with
      ink := [0, 0, 0, 4528, 0, 0, 0, 0, 0, 0], media := [⟨2, 5200, 58115200⟩], cuts := 2, strips := 1 }
    let t := { factoryPrices with ink := [0, 0, 0, 520, 0, 0, 0, 0, 0, 0], media := [0, 0, 6800], cut := 150, strip := 1200,
                                  handling := 2500 }
    priceAccount a t = ⟨⟨2, 3952, 300, 1200, 2500, 7954⟩, false⟩ := by
  decide +kernel

/-- Spec/10 section 10.5: 60 + 5a + 13m bytes. -/
theorem test_recordBytes :
    (makeRecord { account with ink := [0, 0, 0, 4528, 0, 0, 0, 0, 0, 7] } (.job .completed) factoryPrices).bytes.length = 83 := by
  decide +kernel

/-! ### Jobs, swaths and the head (spec/01 section 1.9, spec/11 section 11.2) -/

theorem test_jobOpen_slot : (after (.jobOpen 1 8 2 0 0 2) (printing job [])).rc.jobs.take 1 = [some (newJob 8 2 .none 0 none 2)] := by
  decide +kernel

theorem test_swathPut_tag :
    let t := after (.swathPut 1 ⟨7, 0, 0, 240, [⟨3, 0, 1000⟩]⟩) { printing job [] with rc.tagCounter := 255, rc.stale := some 255 }
    t.rc.queue.map (fun e => e.queueTag) = [0] ∧ t.rc.tagCounter = 1 := by
  decide +kernel

theorem test_grant :
    let t := after (.headReady true) { printing job [{ entry with drops := [⟨3, 0, 1000⟩] }] with
      isc.chans := State.reset.isc.chans.set 3 { full with residue := 32768000 } }
    (chanAt t 3).reserved = 2 ∧ (chanAt t 3).residue = 0 ∧ t.rc.fireTimer = some 30000 ∧ t.out = [.grant 40 1 .image] := by
  decide +kernel

theorem test_fired_commits :
    let t := after (.fired true 40) { printing job [{ granted with charges := some [⟨3, 3365, 0⟩] }] with
      isc.chans := State.reset.isc.chans.set 3 { full with level := some 15000000, reserved := 3365 } }
    (chanAt t 3).level = some 14996635 ∧ (chanAt t 3).reserved = 0 ∧ (printAt t 2).map (fun a => a.ink.getD 3 0) = some 3365 := by
  decide +kernel

theorem test_broken_raises :
    (after (.broken true 40) (printing job [granted])).lc.conds = [⟨.storeDefaulted, none, false, 1⟩, ⟨.swathBroken, some 7, false, 1⟩] := by
  decide +kernel

theorem test_notFired_restores :
    let t := after (.notFired true 40) { printing job [granted] with
      isc.chans := State.reset.isc.chans.set 3 { full with reserved := 7, residue := 9 } }
    (chanAt t 3).reserved = 0 ∧ (chanAt t 3).residue = 500 ∧ t.rc.head = .notReady ∧ t.rc.queue.map (fun e => e.state) = [.queued] := by
  decide +kernel

theorem test_fireTimeout : (after .fireTimeout (printing job [granted])).rc.head = .fault := by decide +kernel

theorem test_jobAbort_withdraws :
    let t := after (.jobAbort 1 7) (printing job [granted, { entry with queueTag := 41 }, { entry with queueTag := 42 }])
    t.out = [.revoke 40] ∧ t.rc.queue.length = 1 ∧ (jobAt t 2).map (fun j => (j.state, j.withdrawn)) = some (.aborting, 2) := by
  decide +kernel

/-- Spec/02 section 2.9: a cleaning that clamps the level at 0. -/
theorem test_cleaned_clamps :
    let cfg := { factoryChan 2 with volL := 200 }
    let s := { State.reset with
      isc.chans := State.reset.isc.chans.set 2 { full with cfg := cfg, level := some 2004000, reserved := 3000 } }
    let t := after (.cleaned true ((List.replicate 10 ⟨0, 0, 0⟩).set 2 ⟨0, 0, 168000000⟩)) s
    (chanAt t 2).level = some 0 ∧ (chanAt t 2).reserved = 3000 ∧ (chanAt t 2).drift = true ∧ t.cu.house.ink.getD 2 0 = 2100000 := by
  decide +kernel

/-! ### Ink (spec/03 section 3.9, spec/04 sections 4.7 and 4.8) -/

theorem test_lowFloat_lowers :
    let s := { State.reset with
      isc.chans := State.reset.isc.chans.set 2 { full with cfg := { factoryChan 2 with bayMap := 0x30 }, level := some 4200000 } }
    let c := chanAt (after (.lowFloatAssert 2) s) 2
    c.level = some 3000000 ∧ c.drift = true ∧ c.refill = .dry := by
  decide +kernel

theorem test_fullFloat_debits :
    let s := { State.reset with
      isc.chans := State.reset.isc.chans.set 3 { full with level := some 5982905, refill := .drawing 7 }
      isc.bays := State.reset.isc.bays.set 7 ⟨.drawing, some ⟨3, 700000000, 412500000⟩, false, true⟩
      isc.pump := .running ⟨3, 7, 5989635, false, 22600, 60000⟩ }
    let t := after (.fullFloatAssert 3) s
    (chanAt t 3).level = some 15000000 ∧ t.isc.pump = .free
      ∧ bayAt t 7 = ⟨.writing, some ⟨3, 700000000, 403482905⟩, false, true⟩ := by
  decide +kernel

theorem test_drawLimit_expiry :
    let s := { State.reset with
      isc.chans := State.reset.isc.chans.set 8 { full with level := some 12000000, refill := .drawing 11 }
      isc.bays := State.reset.isc.bays.set 11 ⟨.drawing, some ⟨8, 700000000, 2400000⟩, false, true⟩
      isc.pump := .running ⟨8, 11, 12000000, false, 31999, 32000⟩ }
    let t := after .drawLimitExpiry s
    (chanAt t 8).level = some 14400000 ∧ (chanAt t 8).refill = .fault .refillTimeout
      ∧ (bayAt t 11).tag = some ⟨8, 700000000, 0⟩ ∧ (bayAt t 11).state = .suspect := by
  decide +kernel

/-- Spec/04 section 4.9: the serving order. -/
theorem test_servingOrder :
    let s := { State.reset with isc.pumpQueue := [⟨5, false⟩, ⟨1, false⟩, ⟨7, true⟩, ⟨2, true⟩] }
    pumpView s = [⟨7, true⟩, ⟨2, true⟩, ⟨5, false⟩, ⟨1, false⟩] := by
  decide +kernel

theorem test_tagRead :
    let s := { State.reset with
      isc.bays := State.reset.isc.bays.set 5 ⟨.reading, none, false, true⟩, isc.tagBus := some ⟨.read 5, 3⟩ }
    let g : TagData := ⟨2, 700000000, 412500000⟩
    (bayAt (after (.tagReadComplete 2 700000000 412500000 (tagCheck g)) s) 5).state = .ready
      ∧ (bayAt (after (.tagReadComplete 2 700000000 412500000 (tagCheck g + 1)) s) 5).state = .tagFault := by
  decide +kernel

theorem test_gainSet_clamps : (after (.gainSet 1 9 65535) State.reset).isc.gains.getD 9 0 = 5120 := by decide +kernel

/-! ### The media path (spec/05 section 5.11, spec/06 section 6.7) -/

theorem test_feed_clamped :
    let s := { State.reset with mpc.roll := some ⟨2, 6100, 1992000, 1990000⟩ }
    (after (.feed 1 3000) s).mpc.exec = .moving ⟨.house, .feed, 1992000, true⟩ ⟨1992000, 5000, 0, .driving⟩ := by
  decide +kernel

theorem test_feedRetry :
    let s := { State.reset with
      mpc.roll := some ⟨2, 6100, 1992000, 1991200⟩, mpc.exec := .stalled ⟨.house, .feed, 1992000, true⟩ }
    (after (.feedRetry 1) s).mpc.exec = .moving ⟨.house, .feed, 1992000, true⟩ ⟨1992000, 2600, 0, .driving⟩ := by
  decide +kernel

/-- R87: a paused start inside a soft reset's window leaves the window counting; the step still moves P. -/
theorem test_feed_in_resetWindow :
    let s := { printing job [] with lc.cover := .settling 100, mpc.settle := some 100, mpc.resetWindow := true }
    let u := after (.encoderStep true) (after (.feed 1 3000) s)
    u.mpc.roll.map (·.pos) = s.mpc.roll.map (·.pos + 1) ∧ u.mpc.stray = 0 := by
  decide +kernel

/-- R133 steps 5 and 8: at ROLL_UNLOAD the first job's record is made before the second job's check closes. -/
theorem test_rollUnload_order :
    let c := { Check.allocated 7 .verify 3 with state := CheckState.drying, dry := some 1, limit := some 1 }
    let j := { job with state := JobState.waiting, policy := .verify, checkId := some 0 }
    let s := { printing job [] with
      rc.jobs := [some j, some { j with tag := 8, checkId := some 1 }, none, none, none, none, none, none]
      cu.printAccts := [some account, some account, none, none, none, none, none, none]
      ccu.checks := [c, { c with job := some 8 }, Check.blank, Check.blank] }
    (after (.rollUnload 1) s).lc.conds.map (fun e => (e.cond, e.subject))
      = [(.storeDefaulted, none), (.checkClosed, some 7), (.recordReady, none), (.checkClosed, some 8)] := by
  decide +kernel

/-- R149: the house account is one of the accounts that STATUS lists as open. -/
theorem test_status_house : openAccounts State.reset = [⟨.house, none, none⟩] := by
  decide +kernel

theorem test_sheetCommit_merges :
    let a : CutEntry := ⟨33000, [.job 4], .sheet, some 2, .planned⟩
    let s := { printing job [] with mpc.plan := .to 33000 45500, mpc.cuts := [a] }
    (after (.sheetCommit 1 0 7 1 0 0) s).mpc.cuts
      = [{ a with owners := [.job 4, .job 7] }, ⟨45500, [.job 7], .sheet, none, .planned⟩] := by
  decide +kernel

theorem test_sheetCommit_late :
    let s := { printing job [] with mpc.plan := .to 15000 16000 }
    (after (.sheetCommit 1 0 7 0 0 0) s).lc.formed = [⟨0x9B, 1, .late, false, .none⟩] := by
  decide +kernel

theorem test_cutterClear_home : (after (.cutterClear 1) { State.reset with mpc.cutter := .jammed }).mpc.cutter = .ready := by
  decide +kernel

/-! ### Colour checks and the ring (spec/07 section 7.12) -/

theorem test_ringRelease_clamps :
    let s := { State.reset with ccu.ring := List.replicate 40 ⟨0, 0, 0, 0, 0, true⟩ }
    (after (.ringRelease 1 100) s).lc.formed = [⟨0xA3, 1, .ok, false, .ringReleased 40 0⟩] := by
  decide +kernel

/-! ### The link and its conditions (spec/09 section 9.6, spec/10 section 10.8) -/

theorem test_notice_order :
    let s := { State.reset with
      lc.conds := [⟨.cutterJam, none, true, 1⟩, ⟨.bayChanged, some 3, false, 1⟩], lc.noticeDue := true, lc.noticeSeq := 90 }
    (after .transmitFrameStart s).lc.line
      = some (.notice ⟨0xFF#8, 91, 1, [1, 0, 0, 1], [(.cutterJam, none)], false⟩) := by
  decide +kernel

theorem test_readFaults_keeps :
    let s := { State.reset with lc.conds := [⟨.cutterJam, none, true, 1⟩, ⟨.jobHeld, some 7, true, 1⟩], lc.noticeDue := false }
    let t := after (.readFaults 1) s
    t.lc.conds = [⟨.cutterJam, none, true, 0⟩, ⟨.jobHeld, some 7, true, 1⟩] ∧ t.lc.noticeDue = false := by
  decide +kernel

theorem test_readFaults_removes :
    let s := { State.reset with lc.conds := [⟨.cutterJam, none, false, 0⟩, ⟨.jobHeld, some 7, false, 1⟩], lc.noticeDue := false }
    let t := after (.readFaults 1) s
    t.lc.conds = [⟨.jobHeld, some 7, false, 1⟩] ∧ t.lc.noticeDue = true := by
  decide +kernel

theorem test_linkBusy :
    let f : Frame := ⟨0x02, 9, []⟩
    let t := after (.hostFrameReceived f) { State.reset with lc.buffer := [f, f, f, f] }
    t.lc.buffer.length = 4 ∧ t.lc.busy = [⟨0x82, 9, .linkBusy, false, .none⟩] := by
  decide +kernel

theorem test_storeSave_snapshot :
    (after (.storeSave 1) { State.reset with rc.queueMark := 5 }).ss.store = .saving { factory with queueMark := 5 } 0 := by
  decide +kernel

theorem test_step_takes_the_front :
    (match step { State.reset with pending := [.coverOpen, .coverClose] } with
      | .next t => decide (t.pending = [.coverClose] ∧ t.lc.cover = .opened)
      | _ => false) = true := by
  decide +kernel

end Sys2Proof.Tests
end

section
/-! The forms that every step keeps (O3, O5). -/

namespace Sys2Proof.Machine

/-- A property that every change of form keeps is kept from any state on: what held of `s` in one of its forms holds of the state after the step. -/
theorem StepClosed.holds_after {P : State → Prop} (hc : StepClosed P) {s t : State} (hst : step s = .next t) (h : P s) : P t := by
  obtain ⟨t', ht', hP⟩ := hc.step_closed h
  rw [hst] at ht'
  cases ht'
  exact hP

end Sys2Proof.Machine

open Sys2Proof Sys2Proof.Machine

/-- Settles O3: each form is a property that every change of form keeps. -/
theorem gainsLevelsAndResiduesStayInRange : Obligations.GainsLevelsAndResiduesStayInRange := by
  intro s t hst
  have gain : StepClosed (fun x => GainForm s → GainForm x) := fun _ _ hf h hs => hf.gain (h hs)
  have ink : StepClosed (fun x => InkForm s → InkForm x) := fun _ _ hf h hs => hf.ink (h hs)
  exact ⟨gain.holds_after hst id, ink.holds_after hst id⟩

/-- Settles O5, in the same way. -/
theorem queueTagsStayDistinctAndCutsAscending : Obligations.QueueTagsStayDistinctAndCutsAscending := by
  intro s t hst
  have queue : StepClosed (fun x => QueueForm s.rc.queue → QueueForm x.rc.queue) := fun _ _ hf h hs => hf.queue (h hs)
  have cut : StepClosed (fun x => CutForm s.mpc.cuts → CutForm x.mpc.cuts) := fun _ _ hf h hs => hf.cut (h hs)
  exact ⟨queue.holds_after hst id, cut.holds_after hst id⟩

end

section
/-! Power-on and the soft reset (O15, O17). -/

namespace Sys2Proof.Machine

/-- R180, R185: the state after a power-on that finds SUPPLY_OK deasserted. -/
def poweredOnHeld (p : Pins) (s : State) : State :=
  raise .supplyHold none { poweredOn p s with
    lc := { resetLc p with hold := .down }
    mpc := { resetMpc p with cutter := if p.home then .off false else .jammed } }

/-- The hold that the reset begins finds no draw, no advance and no grant: it reaches LC, the head and the cutter alone. -/
theorem beginHold_poweredOn (p : Pins) (s : State) : beginHold (poweredOn p s) = poweredOnHeld p s := by
  cases hh : p.home <;> simp [beginHold, poweredOnHeld, poweredOn, hh, resetMpc] <;> rfl

theorem exec_powerOnReset (p : Pins) (s : State) :
    exec (.powerOnReset p) s = .next (if p.supplyOk then poweredOn p s else poweredOnHeld p s) := by
  rw [← beginHold_poweredOn]; rfl

theorem resetIsc_chans (p : Pins) : (resetIsc p).chans = (List.range 10).map (fun c =>
    { cfg := factoryChan c, enabled := false, level := none, reserved := 0, residue := 0, drift := false, refill := .idle,
      lowFloat := p.low.getLsbD c, fullFloat := p.full.getLsbD c }) := rfl

theorem resetIsc_bays (p : Pins) : (resetIsc p).bays = (List.range 16).map (fun b =>
    { state := if p.present.getLsbD b then .reading else .empty, tag := none, drift := false,
      present := p.present.getLsbD b }) := by
  have h : ∀ b, readPresence p b Bay.afterReset =
      ⟨if p.present.getLsbD b then .reading else .empty, none, false, p.present.getLsbD b⟩ := by
    intro b; unfold readPresence; cases p.present.getLsbD b <;> rfl
  simp only [← h]
  rfl

/-- R37: what the end of a grant without a fire leaves of the channels: each reservation released, each saved residue back. -/
def releasedChans (l : List ChargeRec) (cs : List Channel) : List Channel :=
  l.foldl (fun cs r => cs.modify r.channel (fun c => { c with reserved := 0, residue := r.saved })) cs

theorem release_eq (l : List ChargeRec) (s : State) : release l s = { s with isc.chans := releasedChans l s.isc.chans } :=
  foldl_chans l (fun r => r.channel) (fun r c => { c with reserved := 0, residue := r.saved }) s

/-- R37: a release moves neither settings nor levels. -/
theorem releasedChans_view {A : Type} (g : Channel → A) (hg : ∀ (c : Channel) (n m : Nat), g { c with reserved := n, residue := m } = g c)
    (l : List ChargeRec) (cs : List Channel) : (releasedChans l cs).map g = cs.map g := by
  unfold releasedChans
  induction l generalizing cs with
  | nil => rfl
  | cons r t ih => rw [List.foldl_cons, ih]; exact map_modify_of_eq g _ _ _ (fun c _ => hg c 0 r.saved)

/-- R30, R37: the channels once a grant in flight is dropped. -/
def freedChans (s : State) : List Channel :=
  match grantedEntry s with
  | some e => releasedChans (e.charges.getD []) s.isc.chans
  | none => s.isc.chans

theorem freedChans_view {A : Type} (g : Channel → A) (hg : ∀ (c : Channel) (n m : Nat), g { c with reserved := n, residue := m } = g c)
    (s : State) : (freedChans s).map g = s.isc.chans.map g := by
  unfold freedChans
  split
  · exact releasedChans_view g hg _ _
  · rfl

/-- R30: RC at the soft reset, with the channels that the dropped grant frees. -/
theorem softRc_eq (s : State) : softRc s = { s with
    rc := { s.rc with
      jobs := List.replicate 8 none, queue := [], belowMark := false
      fireTimer := if (grantedEntry s).isSome then none else s.rc.fireTimer
      stale := match grantedEntry s with
        | some e => some e.queueTag
        | none => s.rc.stale }
    isc.chans := freedChans s
    out := match grantedEntry s with
      | some e => s.out ++ [.revoke e.queueTag]
      | none => s.out } := by
  unfold softRc dropGrant freedChans
  cases grantedEntry s with
  | none => rfl
  | some e => simp only [release_eq]; rfl

/-- R30, R37: the level and the settings of a channel as the end of a draw finds them after the grant was dropped. -/
theorem chanAt_softRc (s : State) (c : Nat) :
    (chanAt (softRc s) c).cfg = (chanAt s c).cfg ∧ (chanAt (softRc s) c).level = (chanAt s c).level := by
  have hv : ∀ {A : Type} (g : Channel → A), (∀ (c : Channel) (n m : Nat), g { c with reserved := n, residue := m } = g c) →
      g (chanAt (softRc s) c) = g (chanAt s c) := by
    intro A g hg
    have := congrArg (fun l => l.getD c (g (Channel.afterReset (factoryChan c, false)))) (freedChans_view g hg s)
    rw [softRc_eq]
    simpa only [List.getD_eq_getElem?_getD, List.getElem?_map, Option.getD_map, chanAt] using this
  exact ⟨hv (fun x => x.cfg) (fun _ _ _ => rfl), hv (fun x => x.level) (fun _ _ _ => rfl)⟩

/-- R57: a debit within what the tag holds sets no DRIFT. -/
theorem debitAndWrite_eq {b moved : Nat} {s : State} {g : TagData} (hg : (bayAt s b).tag = some g) (hm : moved ≤ g.remaining) :
    debitAndWrite b moved s = { s with
      isc.bays := s.isc.bays.modify b (fun y => { y with state := .writing, tag := some (g.debit moved) })
      isc.tagQueue := s.isc.tagQueue ++ [.write b (g.debit moved)] } := by
  unfold debitAndWrite
  rw [hg]
  simp only [placeTagOp, updBay]
  rw [bay_modify s b _ (fun y => { y with state := .writing, tag := some (g.debit moved) }) ?_]
  simp [Nat.not_lt.2 hm]

/-- R83: a draw ended by the soft reset: its volume goes to a known level, and its bay's tag is written. -/
theorem endDrawSoft_eq {d : Draw} {s : State} {g : TagData} (hg : (bayAt s d.bay).tag = some g) :
    endDrawSoft d s = { s with isc := { s.isc with
      chans := s.isc.chans.modify d.channel (fun c => { c with level := c.level.map (· + movedCapped s d), refill := .idle })
      bays := s.isc.bays.modify d.bay (fun y => { y with state := .writing, tag := some (g.debit (movedCapped s d)) })
      pump := .free, tagQueue := s.isc.tagQueue ++ [.write d.bay (g.debit (movedCapped s d))] } } := by
  have hm : movedCapped s d ≤ g.remaining := by
    simp only [movedCapped, hg]
    exact (Nat.min_le_right _ _).trans (Nat.min_le_left _ _)
  unfold endDrawSoft
  exact debitAndWrite_eq hg hm

/-- R64, R83: the draw leaves the pump FREE, and ISC alone is moved. -/
theorem softIsc_eq (s : State) : ∃ i : Isc, softIsc s = { s with isc := i } ∧ i.pump = .free ∧ i.pumpQueue = [] ∧
    i.gains = s.isc.gains ∧ i.gainGen = s.isc.gainGen ∧ i.pumpPeriod = s.isc.pumpPeriod ∧ i.spentMark = s.isc.spentMark ∧ i.tagBus = s.isc.tagBus := by
  unfold softIsc
  cases hd : s.isc.pump with
  | free => exact ⟨_, rfl, hd, rfl, rfl, rfl, rfl, rfl, rfl⟩
  | running d => 
    simp only [Pump.draw, endDrawSoft, debitAndWrite]
    split <;> exact ⟨_, rfl, rfl, rfl, rfl, rfl, rfl, rfl, rfl⟩
  | suspended d =>
    simp only [Pump.draw, endDrawSoft, debitAndWrite]
    split <;> exact ⟨_, rfl, rfl, rfl, rfl, rfl, rfl, rfl, rfl⟩


/-- R64: with no draw in flight the soft reset empties the pump queue and makes each QUEUED channel IDLE. -/
theorem softIsc_free {s : State} (hd : s.isc.pump.draw = none) :
    (softIsc s).isc = { s.isc with chans := s.isc.chans.map Channel.unqueued, pumpQueue := [] } := by
  unfold softIsc
  rw [hd]

/-- R64, R83: a draw whose bay holds a tag, ended by the soft reset. -/
theorem softIsc_draw {s : State} {d : Draw} {g : TagData} (hd : s.isc.pump.draw = some d) (hg : (bayAt s d.bay).tag = some g) :
    (softIsc s).isc = { s.isc with
      chans := (s.isc.chans.modify d.channel (fun c => { c with level := c.level.map (· + movedCapped s d), refill := .idle })).map
        Channel.unqueued
      bays := s.isc.bays.modify d.bay (fun y => { y with state := .writing, tag := some (g.debit (movedCapped s d)) })
      pump := .free, pumpQueue := [], tagQueue := s.isc.tagQueue ++ [.write d.bay (g.debit (movedCapped s d))] } := by
  unfold softIsc
  rw [hd]
  simp only [endDrawSoft_eq hg]

/-- R83: the volume that the ended draw moved is what it was before the grant was dropped. -/
theorem movedCapped_softRc {s : State} {d : Draw} {g : TagData} (hg : (bayAt s d.bay).tag = some g) :
    movedCapped (softRc s) d = min ((chanAt s d.channel).cfg.flow * d.elapsed)
      (min g.remaining ((chanAt s d.channel).cfg.full - (chanAt s d.channel).level.getD 0)) := by
  have hb : bayAt (softRc s) d.bay = bayAt s d.bay := by rw [softRc_eq]; rfl
  obtain ⟨hc, hl⟩ := chanAt_softRc s d.channel
  simp only [movedCapped, hb, hc, hl, hg]

/-- R194: the blocks after ISC's own rule keep what ISC became. -/
theorem softReset_isc (s : State) : (softReset s).isc = (softIsc (softRc s)).isc := rfl

end Sys2Proof.Machine

open Sys2Proof Sys2Proof.Machine

/-- Settles O15, by the level that SUPPLY_OK is found at. -/
theorem powerOnResetSetsEveryBlock : Obligations.PowerOnResetSetsEveryBlock := by
  intro p s
  refine ⟨_, exec_powerOnReset p s, ?_⟩
  cases p.supplyOk with
  | true =>
    refine ⟨rfl, resetIsc_chans p, resetIsc_bays p, ?_⟩
    repeat refine ⟨rfl, ?_⟩
    exact ⟨fun _ => ⟨rfl, rfl, rfl, rfl⟩, nofun⟩
  | false =>
    refine ⟨rfl, resetIsc_chans p, resetIsc_bays p, ?_⟩
    repeat refine ⟨rfl, ?_⟩
    exact ⟨nofun, fun _ => ⟨rfl, rfl, rfl, rfl⟩⟩

/-- Settles O17, block by block. -/
theorem softResetDropsTheWorkAndKeepsTheRest : Obligations.SoftResetDropsTheWorkAndKeepsTheRest := by
  intro s hs
  have hx : exec .softResetAct s = .next (softReset (begin s)) := congrArg Host.Outcome.next (if_pos hs)
  have hrc := softRc_eq (begin s)
  obtain ⟨i, hi, hp, hq, hk⟩ := softIsc_eq (softRc (begin s))
  rw [hrc] at hk
  obtain ⟨hgains, hgen, hperiod, hspent, hbus⟩ := hk
  have ht : (softReset (begin s)).isc = i := by rw [softReset_isc, hi]
  refine ⟨_, hx, ?_⟩
  rw [ht]
  unfold softReset
  rw [hi, hrc]
  refine ⟨rfl, rfl, hp, hq, hgains, hgen, hperiod, hspent, hbus, ⟨?_, ?_⟩, ?_, ?_, ?_, rfl, rfl, ?_⟩
  · intro hf
    have hd : s.isc.pump.draw = none := by rw [hf]; rfl
    rw [← ht, softReset_isc, softIsc_free (by rw [hrc]; exact hd), hrc]
    rfl
  · intro d g hd hg x moved left
    have hm : movedCapped (softRc (begin s)) d = moved := movedCapped_softRc hg
    rw [← ht, softReset_isc, softIsc_draw (d := d) (g := g) (by rw [hrc]; exact hd) (by rw [hrc]; exact hg), hm, hrc]
    rfl
  · show { s.mpc with
      exec := .idle, settle := if feedDriven s then some Config.settleTime else s.mpc.settle, resetWindow := windowOpen s
      cuts := [], plan := .empty, strokeTimer := none, cutter := softCutter s.mpc.cutter s.mpc.home } = _
    cases s.mpc.cutter <;> rfl
  · show { s.ccu with checks := List.replicate 4 Check.blank, ring := [], retain := false, link := softLink s.ccu.link } = _
    cases s.ccu.link <;> rfl
  · show { s.cu with
      printAccts := List.replicate 8 none, quotes := List.replicate 4 none, records := []
      house := Account.opened .house none (houseMedia s) i.gainGen } = _
    rw [hgen]; rfl
  · show (match grantedEntry s with
      | some e => [] ++ [Sent.revoke e.queueTag]
      | none => []) = _
    cases grantedEntry s <;> rfl

end

section
/-! Requests that are answered without a reaction of the part (O25, O28). -/

namespace Sys2Proof.Machine

/-! ### Requests: from the tests a request passes to its reply -/

/-- The end of an accepted request that moves the part no further. -/
theorem carryOut_of_accept {kind : Nat} {ft : Byte} {f : State → Taken} {s x : State} {b : Body}
    (h : f (cleared s) = accept b x) : carryOut kind ft f s = answer kind ft .ok (planMark s) b x := by
  rw [carryOut_eq, h, form_accept]

/-- The end of an accepted request after which the part reacts. -/
theorem carryOut_of_settled {kind : Nat} {ft : Byte} {f : State → Taken} {s x : State} {b : Body}
    (h : f (cleared s) = (accept b x).settled) : carryOut kind ft f s = answer kind ft .ok (planMark s) b (settle x) := by
  rw [carryOut_eq, h, form_settled]

/-- The end of a refused request (R191). -/
theorem carryOut_of_refuse {kind : Nat} {ft : Byte} {f : State → Taken} {s : State} {c : Code}
    (h : f (cleared s) = refuse c (cleared s)) : carryOut kind ft f s = answer kind ft c (planMark s) .none (cleared s) := by
  rw [carryOut_eq, h, form_refuse]

/-! ### Settings (R8, R71, R86, R124, R125) -/

theorem takeQueueMark_ok {v : Nat} {s : State} (h1 : 1 ≤ v) (h2 : v ≤ 64) (hs : saving s = false) :
    takeQueueMark v s = accept (.free (queueFree s)) (setMark v s) := by
  unfold takeQueueMark
  rw [if_neg (by omega), if_neg (by simp [hs])]

theorem takePumpSet_ok {period spent : Nat} {s : State} (h1 : 1 ≤ period) (h2 : period ≤ 255) (h3 : spent ≤ 5000000)
    (hs : saving s = false) :
    takePumpSet period spent s
      = accept (.pumpStored period spent) (markChanged { s with isc.pumpPeriod := period, isc.spentMark := spent }) := by
  unfold takePumpSet
  rw [if_neg (by omega), if_neg (by simp only [Config.spentMax]; omega), if_neg (by simp [hs])]

theorem takeGeometrySet_ok {a b : Nat} {s : State} (h1 : 500 ≤ a) (h2 : a < b) (h3 : b ≤ 6000) (hs : saving s = false)
    (hr : s.mpc.roll = none) :
    takeGeometrySet a b s = accept .none (markChanged { s with mpc.sOff := a, mpc.cOff := b }) := by
  unfold takeGeometrySet
  rw [if_neg (by omega), if_neg (by simp [hs]), if_neg (by simp [hr])]

theorem takeCheckSet_ok {p : CheckParams} {s : State} (h1 : p.sens.length = 10) (h2 : paramsOk p = true) (hs : saving s = false) :
    takeCheckSet p s = accept (.params p) (markChanged { s with ccu.params := p }) := by
  unfold takeCheckSet
  rw [if_neg (by simp [h1]), if_neg (by simp [h2]), if_neg (by simp [hs])]

theorem takePatchsetLoad_none {id : Nat} {s : State} (h1 : id ≤ 3) (hs : saving s = false) (hn : setNamed s id = false) :
    takePatchsetLoad id 0 [] s = accept (.setLoaded id false) (storeSet id none s) := by
  unfold takePatchsetLoad
  rw [if_neg (by omega), if_neg (by simp [setBodyLength]), if_neg (by simp [hs]), if_neg (by simp [hn]), if_pos rfl]

theorem takePatchsetLoad_ok {id n : Nat} {l : List Byte} {s : State} (h1 : id ≤ 3) (h2 : 1 ≤ n) (h3 : n ≤ 24)
    (hl : l.length = 6 + 7 * n) (hs : saving s = false) (hn : setNamed s id = false) (hok : setOk (readSet n l) = true) :
    takePatchsetLoad id n l s = accept (.setLoaded id true) (storeSet id (some (readSet n l)) s) := by
  unfold takePatchsetLoad setBodyLength
  rw [if_neg (by omega), if_neg (by rw [if_neg (by omega)]; simp [hl]), if_neg (by simp [hs]), if_neg (by simp [hn]),
    if_neg (by omega), if_neg (by simp [hok])]

/-! ### JOB_OPEN (R2) -/

theorem policyOf_named {n : Nat} {p : Policy} (h : (n, p) ∈ [(1, Policy.verify), (2, Policy.adjust)]) :
    policyOf n = some p ∧ p ≠ .none := by
  simp only [List.mem_cons, List.not_mem_nil, or_false, Prod.mk.injEq] at h
  obtain ⟨rfl, rfl⟩ | ⟨rfl, rfl⟩ := h <;> exact ⟨rfl, nofun⟩

/-- R2: with policy NONE no check record is taken. -/
theorem takeJobOpen_plain {tag media setId flags slot : Nat} {s : State} (h1 : 1 ≤ tag) (h2 : tag ≤ 255) (h3 : media ≤ 15)
    (ht : tagInUse s tag = false) (hf : freeSlot s = some slot) :
    takeJobOpen tag media 0 setId flags s
      = accept (.jobOpened slot none) (openJob slot none tag media .none setId flags s) := by
  simp only [takeJobOpen, policyOf]
  rw [if_neg (by simp; omega), if_neg (by simp [ht]), if_neg (by simp), hf]
  simp only [if_true]

/-- R2, R126: with a policy that checks, the lowest free check record is taken. -/
theorem takeJobOpen_checked {tag media policy setId flags slot id : Nat} {p : Policy} {s : State} (h1 : 1 ≤ tag)
    (h2 : tag ≤ 255) (h3 : media ≤ 15) (ht : tagInUse s tag = false) (hf : freeSlot s = some slot)
    (hp : policyOf policy = some p) (hpn : p ≠ .none) (hi : setId ≤ 3) (hset : (setAt s setId).isSome = true)
    (hc : freeCheckId s = some id) :
    takeJobOpen tag media policy setId flags s
      = accept (.jobOpened slot (some id)) (openJob slot (some id) tag media p setId flags s) := by
  simp only [takeJobOpen, hp]
  rw [if_neg (by omega), if_neg (by simp [ht]), if_neg (by simp [Option.isSome_iff_ne_none.1 hset]), hf]
  simp only [if_neg hpn, hc]

end Sys2Proof.Machine

open Sys2Proof Sys2Proof.Machine

/-- Settles O28: each setting passes its tests and is stored. -/
theorem settingRequestsStoreTheirValues : Obligations.SettingRequestsStoreTheirValues := by
  intro ft s hs
  refine ⟨fun v h1 h2 => ?_, fun p x h1 h2 h3 => ?_, fun a b h1 h2 h3 hr => ?_, fun p h0 h1 h2 h3 h4 h5 h6 => ?_,
    fun id h1 hn => ?_, fun id n l h1 h2 h3 hl hn hok => ?_⟩
  · exact congrArg Host.Outcome.next (carryOut_of_accept (takeQueueMark_ok h1 h2 hs))
  · exact congrArg Host.Outcome.next (carryOut_of_accept (takePumpSet_ok h1 h2 h3 hs))
  · exact congrArg Host.Outcome.next (carryOut_of_accept (takeGeometrySet_ok h1 h2 h3 hs hr))
  · have hp : paramsOk p = true := by simpa [paramsOk] using ⟨⟨⟨⟨⟨h1, h2⟩, h3⟩, h4⟩, h5⟩, h6⟩
    exact congrArg Host.Outcome.next (carryOut_of_accept (takeCheckSet_ok h0 hp hs))
  · exact congrArg Host.Outcome.next (carryOut_of_accept (takePatchsetLoad_none h1 hs hn))
  · exact congrArg Host.Outcome.next (carryOut_of_accept (takePatchsetLoad_ok h1 h2 h3 hl hs hn hok))

/-- Settles O25, by the two ways to pass the tests: without a check and with one. -/
theorem jobOpenTakesSlotAccountAndCheck : Obligations.JobOpenTakesSlotAccountAndCheck := by
  intro ft tag media policy setId flags slot s h1 h2 h3 hslot hquote hfree job account
  have ht : tagInUse (cleared s) tag = false := by
    show ((slotOf s tag).isSome || (quoteSlotOf s tag).isSome) = false
    rw [hslot, hquote]; rfl
  refine ⟨?_, fun p id hp hi hset hcheck => ?_⟩
  · rintro rfl
    exact congrArg Host.Outcome.next (carryOut_of_accept (takeJobOpen_plain h1 h2 h3 ht hfree))
  · obtain ⟨hpol, hpn⟩ := policyOf_named hp
    rw [show job p (some setId) (some id) = newJob tag media p setId (some id) flags by simp [job, newJob, hpn]]
    exact congrArg Host.Outcome.next (carryOut_of_accept (takeJobOpen_checked h1 h2 h3 ht hfree hpol hpn hi hset hcheck))

end

section
/-! SWATH_PUT: a free queue tag, the entry at the tail, and what follows (O26). -/

namespace Sys2Proof.Machine

/-! ### SWATH_PUT (R4 to R7) -/

theorem takeSwathPut_ok {d : Descriptor} {s : State} {slot : Nat} {j : Job} {k : SwathKind} (hslot : slotOf s d.jobTag = some slot)
    (hj : jobAt s slot = some j) (ho : j.state = .opened) (hq : s.rc.queue.length < 64) (hk : swathKind d = some k)
    (ha : d.advance ≤ 3000) (hov : oversize s d.drops = false) (hp : ¬(k = .strip ∧ j.put = .after)) :
    takeSwathPut d s
      = (accept (.swathPut (nextTag s) (queueFree (putSwath slot d k s))) (putSwath slot d k s)).settled := by
  have hq' : ¬ Config.queueSize ≤ s.rc.queue.length := Nat.not_le.2 hq
  have ha' : ¬(3000 < d.advance ∨ oversize s d.drops = true) := by simp [ha, hov]
  simp only [takeSwathPut, hslot, hj, ho, ne_eq, not_true_eq_false, if_false, if_neg hq', hk, if_neg ha', if_neg hp]

/-- R4: the queue tags in use. -/
def usedTags (s : State) : List Nat := s.rc.queue.map (fun e => e.queueTag) ++ s.rc.stale.toList

theorem tagTaken_iff (s : State) (t : Nat) : tagTaken s t = true ↔ t ∈ usedTags s := by
  simp [tagTaken, usedTags]

/-- R4: the values of the tag counter, one after another, in the order of the search. -/
def tagSearch (s : State) : List Nat := (List.range 256).map (fun i => (s.rc.tagCounter + i) % 256)

theorem tagSearch_nodup (s : State) : (tagSearch s).Nodup := by
  refine List.nodup_range.map_on (fun i hi n hn h => ?_)
  rw [List.mem_range] at hi hn
  omega

/-- R4: at most 64 queue tags are in use beside a queue that is not full, so the search through 256 finds one that is not. -/
theorem tagTaken_nextTag {s : State} (hq : s.rc.queue.length < 64) : tagTaken s (nextTag s) = false := by
  have hfree : ∃ t ∈ tagSearch s, tagTaken s t = false := by
    by_contra hn
    have hsub : tagSearch s ⊆ usedTags s := by
      intro t ht
      rw [← tagTaken_iff]
      by_contra hf
      exact hn ⟨t, ht, by simpa using hf⟩
    have hlen := ((tagSearch_nodup s).subperm hsub).length_le
    have hstale : s.rc.stale.toList.length ≤ 1 := by cases s.rc.stale <;> simp
    simp only [tagSearch, usedTags, List.length_map, List.length_range, List.length_append] at hlen
    omega
  obtain ⟨t, ht, hft⟩ := hfree
  cases hfind : (tagSearch s).find? (fun t => !tagTaken s t) with
  | none => simpa [hft] using List.find?_eq_none.1 hfind t ht
  | some u =>
    have hu : nextTag s = u := congrArg (fun o => o.getD s.rc.tagCounter) hfind
    rw [hu]
    simpa using List.find?_some hfind

/-- R6: the put phase as the table of R6 gives it. -/
theorem PutPhase.next_eq (k : SwathKind) (p : PutPhase) : p.next k = match p, k with
    | .none, .strip => .strip
    | .none, _ => .none
    | .strip, .strip => .strip
    | .strip, _ => .after
    | .after, _ => .after := by
  cases p <;> cases k <;> rfl

/-- R5, R7: the queue, the counter, the job and the below-mark flag after a swath was put. -/
theorem putSwath_eq (slot : Nat) (d : Descriptor) (k : SwathKind) {j : Job} {s : State} (hj : jobAt s slot = some j) :
    putSwath slot d k s = { s with rc := { s.rc with
      queue := s.rc.queue ++ [newEntry d k (nextTag s)]
      tagCounter := (nextTag s + 1) % 256
      jobs := s.rc.jobs.modify slot (fun o => o.map (fun i =>
        { i with accepted := min 4294967295 (i.accepted + 1), put := j.put.next k }))
      belowMark := if 64 - (s.rc.queue.length + 1) < s.rc.queueMark then true else s.rc.belowMark } } := by
  have hm : s.rc.jobs.modify slot (fun o => o.map (fun i => { i with accepted := bump i.accepted, put := i.put.next k }))
      = s.rc.jobs.modify slot (fun o => o.map (fun i =>
        { i with accepted := min 4294967295 (i.accepted + 1), put := j.put.next k })) :=
    job_modify s slot _ _ (by rw [hj]; rfl)
  unfold putSwath markBelow
  simp only [updJob, queueFree, List.length_append, List.length_singleton, Config.queueSize, hm]
  split <;> rfl

/-- R9 to R12, R23 to R28: where every job is OPEN no reaction moves the queue, and admission moves at most its QUEUED head. -/
theorem settle_queue {s : State} (ho : ∀ i j, jobAt s i = some j → j.state = .opened) (hs : stopFree s = false)
    (hn : (s.rc.queue.map (fun e => e.queueTag)).Nodup) :
    (settle s).rc.queue = s.rc.queue ∨ ∃ e l c, s.rc.queue = e :: l ∧ e.state = .queued ∧
      (settle s).rc.queue = { e with state := .granted, charges := some c, revoked := some false } :: l := by
  unfold settle
  rw [react_quiet (quiet_of_open ho hs), syncCauses_rc]
  exact admission_queue 11 hn

end Sys2Proof.Machine

open Sys2Proof Sys2Proof.Machine

/-- Settles O26: the accepted swath is put as `putSwath_eq` says, and `settle_queue` says what the reactions make of the queue. -/
theorem swathPutQueuesTheSwath : Obligations.SwathPutQueuesTheSwath := by
  intro ft d s i j k hslot hj ho hlen hk ha hov hp q entry put
  have hfree : tagTaken s q = false := tagTaken_nextTag hlen
  simp only [tagTaken, Bool.or_eq_false_iff, List.any_eq_false, beq_iff_eq, beq_eq_false_iff_ne] at hfree
  obtain ⟨hfresh, hstale⟩ := hfree
  have hput : put = j.put.next k := (PutPhase.next_eq k j.put).symm
  have hx := putSwath_eq i d k (s := cleared s) hj
  rw [← hput] at hx
  have hreq := carryOut_of_settled (kind := 0x0A) (ft := ft) (takeSwathPut_ok (s := cleared s) hslot hj ho hlen hk ha hov hp)
  rw [hx] at hreq
  refine ⟨hfresh, hstale, _, follows_settle _, ?_, fun hopen hstop hnodup => settle_queue ?_ hstop ?_⟩
  · refine (congrArg Host.Outcome.next hreq).trans ?_
    simp only [queueFree, List.length_append, List.length_singleton]
    rfl
  · intro n l hl
    rw [jobAt_modify (s := s) i n _ rfl] at hl
    split at hl
    · obtain ⟨m, hm, rfl⟩ := Option.map_eq_some_iff.1 hl
      exact hopen n m hm
    · exact hopen n l hl
  · show ((s.rc.queue ++ [entry]).map (fun e => e.queueTag)).Nodup
    simp only [List.map_append, List.map_cons, List.map_nil, List.nodup_append_comm, List.singleton_append,
      List.nodup_cons, List.mem_map, not_exists, not_and]
    exact ⟨hfresh, hnodup⟩

end

section
/-! Rounds over the slots, closed records, and RECORD_TAKE (O34). -/

namespace Sys2Proof.Machine

/-! ### One slot among the eight -/

/-- A round over the slots in which each does nothing. -/
theorem foldl_idle (f : State → Nat → State) (l : List Nat) {s : State} (h : ∀ n ∈ l, f s n = s) : l.foldl f s = s := by
  induction l with
  | nil => rfl
  | cons n t ih => rw [List.foldl_cons, h n (by simp), ih (fun m hm => h m (by simp [hm]))]

/-- A round over the slots in which one slot alone acts, before and after which the others do nothing. -/
theorem foldl_once (f : State → Nat → State) {l : List Nat} {i : Nat} {s : State} (hi : i ∈ l) (hn : l.Nodup)
    (hs : ∀ n, n ≠ i → f s n = s) (ht : ∀ n, n ≠ i → f (f s i) n = f s i) : l.foldl f s = f s i := by
  induction l with
  | nil => cases hi
  | cons n t ih =>
    obtain ⟨hnt, hn⟩ := List.nodup_cons.1 hn
    rw [List.foldl_cons]
    by_cases h : n = i
    · subst h
      exact foldl_idle f t (fun m hm => ht m (by rintro rfl; exact hnt hm))
    · rw [hs n h]
      exact ih ((List.mem_cons.1 hi).resolve_left (Ne.symm h)) hn

theorem mem_slots {i : Nat} (h : i < 8) : i ∈ List.range Config.jobSlots := List.mem_range.2 h

/-- A job that is found stands inside the table. -/
theorem jobAt_lt {s : State} {i : Nat} {j : Job} (h : jobAt s i = some j) : i < s.rc.jobs.length := by
  by_contra hl
  rw [jobAt, List.getD_eq_default _ _ (by omega)] at h
  cases h

/-- The job found by its tag has that tag. -/
theorem tag_of_slotOf {s : State} {tag i : Nat} {j : Job} (h : slotOf s tag = some i) (hj : jobAt s i = some j) : j.tag = tag := by
  obtain ⟨hi, ht, -⟩ := List.findIdx?_eq_some_iff_getElem.1 h
  have hj' : s.rc.jobs[i] = some j := by
    rw [← hj, jobAt, List.getD_eq_getElem?_getD, List.getElem?_eq_getElem hi]; rfl
  rw [hj'] at ht
  exact beq_iff_eq.1 ht

/-- The slots once one of them is emptied. -/
theorem jobAt_set_none {s y : State} {i : Nat} (h : y.rc.jobs = s.rc.jobs.set i none) (n : Nat) :
    jobAt y n = if n = i then none else jobAt s n := by
  simp only [jobAt, h, List.getD_eq_getElem?_getD, List.getElem?_set]
  by_cases hni : i = n
  · subst hni
    by_cases hl : i < s.rc.jobs.length <;> simp [hl]
  · simp [hni, Ne.symm hni]

/-! ### An account closes into a record (R162, R163, R26) -/

/-- R162, R163: a record at the tail of the queue, with its conditions. -/
theorem pushRecord_eq (r : ClosedRecord) (s : State) : pushRecord r s =
    (let y := raise .recordReady none { s with cu.records := s.cu.records ++ [r] }
     if s.cu.records.length = 15 then raise .queueFull none y else y) := by
  unfold pushRecord
  simp only [raise_cu, List.length_append, List.length_singleton, Config.recordSize, Nat.reduceEqDiff]

/-- R26: the state after a job without a check closed: its record placed, its slot and its account freed. -/
def jobClosed (slot : Nat) (a : Account) (o : JobOutcome) (s : State) : State :=
  { pushRecord (makeRecord a (.job o) s.cu.active) s with
    rc.jobs := s.rc.jobs.set slot none, cu.printAccts := s.cu.printAccts.set slot none }

@[simp] theorem pushRecord_rc (r : ClosedRecord) (s : State) : (pushRecord r s).rc = s.rc := by
  rw [pushRecord_eq]; dsimp only; split <;> simp only [raise_rc]
@[simp] theorem pushRecord_mpc (r : ClosedRecord) (s : State) : (pushRecord r s).mpc = s.mpc := by
  rw [pushRecord_eq]; dsimp only; split <;> simp only [raise_mpc]
@[simp] theorem pushRecord_ccu (r : ClosedRecord) (s : State) : (pushRecord r s).ccu = s.ccu := by
  rw [pushRecord_eq]; dsimp only; split <;> simp only [raise_ccu]
@[simp] theorem pushRecord_cu (r : ClosedRecord) (s : State) : (pushRecord r s).cu = { s.cu with records := s.cu.records ++ [r] } := by
  rw [pushRecord_eq]; dsimp only; split <;> simp only [raise_cu]

theorem recordsFull_room {s : State} (h : s.cu.records.length < 16) : recordsFull s = false :=
  decide_eq_false (Nat.not_le.2 h)

theorem closeJob_eq {slot : Nat} {o : JobOutcome} {s : State} {j : Job} {a : Account} (hj : jobAt s slot = some j)
    (ha : printAt s slot = some a) (hc : j.checkId = none) (hr : s.cu.records.length < 16) :
    closeJob slot o s = jobClosed slot a o s := by
  unfold closeJob
  simp only [hj, ha, recordsFull_room hr, Bool.false_eq_true, if_false, hc, freeCheck, setJob, closeAccount, jobClosed, pushRecord_rc, pushRecord_cu]

/-- R26: every other slot keeps its job. -/
theorem jobAt_jobClosed (slot : Nat) (a : Account) (o : JobOutcome) (s : State) (n : Nat) :
    jobAt (jobClosed slot a o s) n = if n = slot then none else jobAt s n := jobAt_set_none (by rfl) n


/-! ### RECORD_TAKE (R164) -/

theorem closeClosing_idle {slot : Nat} {s : State} (h : ∀ j, jobAt s slot = some j → j.state ≠ .closing) : closeClosing slot s = s := by
  unfold closeClosing
  cases hj : jobAt s slot with
  | none => rfl
  | some j => exact if_neg (fun hc => h j hj hc.1)

/-- R26, R164: a CLOSING job without a check closes into the freed place. -/
theorem closeClosing_eq {slot : Nat} {s : State} {j : Job} {a : Account} {o : JobOutcome} (hj : jobAt s slot = some j)
    (hs : j.state = .closing) (ho : j.outcome = some o) (ha : printAt s slot = some a) (hc : j.checkId = none)
    (hr : s.cu.records.length < 16) : closeClosing slot s = jobClosed slot a o s := by
  unfold closeClosing
  simp only [hj, hs, recordsFull_room hr, and_self, if_true, ho, Option.getD_some]
  exact closeJob_eq hj ha hc hr

theorem takeRecordTake_empty {s : State} (h : s.cu.records = []) : takeRecordTake s = refuse .notNow s := by
  unfold takeRecordTake
  rw [h]

theorem takeRecordTake_eq {s : State} {r : ClosedRecord} {l : List ClosedRecord} (h : s.cu.records = r :: l) :
    takeRecordTake s = (accept (.record l.length r)
      ((List.range Config.jobSlots).foldl (fun x i => closeClosing i x) { s with cu.records := l })).settled := by
  unfold takeRecordTake
  rw [h]

end Sys2Proof.Machine

open Sys2Proof Sys2Proof.Machine

/-- Settles O34: with no CLOSING job the round over the slots does nothing, and with one it closes that job alone. -/
theorem recordTakeRemovesTheOldestRecord : Obligations.RecordTakeRemovesTheOldestRecord := by
  intro ft s
  refine ⟨fun h => ?_, fun r l h hn => ?_, fun r l i j a o h hl hj hs ho hc ha hn hlen => ?_⟩
  · exact congrArg Host.Outcome.next (carryOut_of_refuse (takeRecordTake_empty (s := cleared s) h))
  · have hreq := carryOut_of_settled (kind := 0x2E) (ft := ft) (takeRecordTake_eq (s := cleared s) h)
    have hidle : ∀ n, closeClosing n { cleared s with cu.records := l } = { cleared s with cu.records := l } :=
      fun n => closeClosing_idle (fun k hk => hn n k hk)
    rw [foldl_idle _ _ (fun n _ => hidle n)] at hreq
    exact ⟨_, follows_settle _, congrArg Host.Outcome.next hreq⟩
  · have hreq := carryOut_of_settled (kind := 0x2E) (ft := ft) (takeRecordTake_eq (s := cleared s) h)
    have hclose : closeClosing i { cleared s with cu.records := l } = jobClosed i a o { cleared s with cu.records := l } :=
      closeClosing_eq hj hs ho ha hc (by show l.length < 16; omega)
    rw [foldl_once _ (i := i) (mem_slots (hlen ▸ jobAt_lt hj)) List.nodup_range, hclose] at hreq
    · refine ⟨_, follows_iff ?_, congrArg Host.Outcome.next hreq⟩
      unfold jobClosed
      rw [pushRecord_eq]
      dsimp only
      rw [if_pos hl]
      rfl
    · exact fun n hni => closeClosing_idle (fun k hk => hn n k hni hk)
    · intro n hni
      rw [hclose]
      refine closeClosing_idle (fun k hk => hn n k hni ?_)
      rw [jobAt_jobClosed, if_neg hni] at hk
      exact hk

end

section
/-! The end and the abort of a job (O27). -/

namespace Sys2Proof.Machine

/-! ### A raised condition as a change of LC (R174) -/

/-- R174: LC with a condition raised. -/
def raisedLc (c : Cond) (sub : Option Nat) (l : Lc) : Lc :=
  if l.conds.any (fun e => e.isFor c sub) then
    { l with conds := l.conds.map (fun e => if e.isFor c sub then e.again else e) }
  else { l with conds := insertCond ⟨c, sub, c.standing, 1⟩ l.conds, noticeDue := true }

/-- A raised condition reads and writes LC alone. -/
theorem raise_eq_lc (c : Cond) (sub : Option Nat) (s : State) : raise c sub s = { s with lc := raisedLc c sub s.lc } := by
  unfold raise raisedLc
  split <;> rfl

@[simp] theorem raise_cover (c : Cond) (sub : Option Nat) (s : State) : (raise c sub s).lc.cover = s.lc.cover := by
  unfold raise
  split <;> rfl

/-! ### Updates of one job -/

/-- An update of the job in a slot depends only on what it makes of that job. -/
theorem updJob_congr {s : State} {slot : Nat} {j : Job} {f g : Job → Job} (hj : jobAt s slot = some j) (h : f j = g j) :
    updJob slot f s = updJob slot g s := by
  unfold updJob
  rw [job_modify s slot _ (fun o => o.map g) (by rw [hj, Option.map_some, Option.map_some, h])]

theorem updJob_updJob (slot : Nat) (f g : Job → Job) (s : State) :
    updJob slot f (updJob slot g s) = updJob slot (fun k => f (g k)) s := by
  simp only [updJob, List.modify_modify_eq]
  congr 3
  funext o
  cases o <;> rfl

theorem jobAt_updJob_same {s : State} {slot : Nat} {j : Job} (f : Job → Job) (hj : jobAt s slot = some j) :
    jobAt (updJob slot f s) slot = some (f j) := by
  rw [jobAt_modify (s := s) slot slot f rfl, if_pos rfl, hj, Option.map_some]

theorem jobAt_updJob_other {s : State} {slot n : Nat} (f : Job → Job) (h : n ≠ slot) : jobAt (updJob slot f s) n = jobAt s n := by
  rw [jobAt_modify (s := s) slot n f rfl, if_neg (Ne.symm h)]

/-! ### SWATH_ROOM leaves all but LC and the flag alone (R7) -/

@[simp] theorem roomed_jobs (s : State) : (roomed s).rc.jobs = s.rc.jobs := by unfold roomed; split <;> simp only [raise_rc]
@[simp] theorem roomed_queue (s : State) : (roomed s).rc.queue = s.rc.queue := by unfold roomed; split <;> simp only [raise_rc]
@[simp] theorem roomed_out (s : State) : (roomed s).out = s.out := by unfold roomed; split <;> simp only [raise_out]
@[simp] theorem roomed_mpc (s : State) : (roomed s).mpc = s.mpc := by unfold roomed; split <;> simp only [raise_mpc]
@[simp] theorem roomed_ccu (s : State) : (roomed s).ccu = s.ccu := by unfold roomed; split <;> simp only [raise_ccu]
@[simp] theorem roomed_cu (s : State) : (roomed s).cu = s.cu := by unfold roomed; split <;> simp only [raise_cu]

/-- R7: an update of RC that leaves the length of the queue, the mark and the flag as they are goes before or after SWATH_ROOM. -/
theorem roomed_comm (s : State) (jobs : List (Option Job)) (queue : List QEntry) (out : List Sent)
    (h : queue.length = s.rc.queue.length) :
    roomed { s with rc.jobs := jobs, rc.queue := queue, out := out }
      = { roomed s with rc.jobs := jobs, rc.queue := queue, out := out } := by
  unfold roomed raise
  dsimp only
  rw [h]
  split
  · split <;> rfl
  · rfl

theorem roomed_updJob (slot : Nat) (f : Job → Job) (s : State) : roomed (updJob slot f s) = updJob slot f (roomed s) := by
  have := roomed_comm s (s.rc.jobs.modify slot (fun o => o.map f)) s.rc.queue s.out rfl
  unfold updJob
  rw [roomed_jobs]
  refine this.trans ?_
  unfold roomed
  split <;> simp

/-! ### Where the executor stands -/

theorem stopFree_congr {y s : State} (h1 : y.mpc.exec = s.mpc.exec) (h2 : y.mpc.cuts = s.mpc.cuts) (h3 : y.mpc.cOff = s.mpc.cOff)
    (h4 : y.ccu.checks = s.ccu.checks) : stopFree y = stopFree s := by
  unfold stopFree inStopList
  rw [h1, stopList_congr h2 h3 h4]

/-- R92: an executor at no released stop is left where it is. -/
theorem resolveStop_idle {s : State} (h : stopFree s = false) : resolveStop s = s := by
  unfold stopFree at h
  unfold resolveStop
  split at h <;> simp_all

/-! ### One round of reactions, and no more (R23 to R28) -/

theorem pass_eq (s : State) : pass s = tailFeed ((List.range Config.jobSlots).foldl (fun s i => doneTest i s)
    ((List.range Config.jobSlots).foldl (fun s i => finishAborted i s) (resolveStop s))) := rfl

theorem settle_of_pass {y z : State} (hq : quiet y = false) (hp : pass y = z) (hz : Resting z) : settle y = syncCauses z := by
  have hy : react 64 y = z := by
    unfold react
    rw [if_neg (by simp [hq]), hp, react_quiet hz.1]
  have : settle y = settle z := by
    unfold settle
    rw [hy, react_quiet hz.1]
  rw [this, settle_resting hz]

theorem quiet_of_abortReady {y : State} {i : Nat} (hi : i < 8) (h : abortReady y i = true) : quiet y = false := by
  have : (List.range Config.jobSlots).all (fun i => !abortReady y i && !isDone y i) = false :=
    List.all_eq_false.2 ⟨i, mem_slots hi, by simp [h]⟩
  simp [quiet, this]

theorem quiet_of_isDone {y : State} {i : Nat} (hi : i < 8) (h : isDone y i = true) : quiet y = false := by
  have : (List.range Config.jobSlots).all (fun i => !abortReady y i && !isDone y i) = false :=
    List.all_eq_false.2 ⟨i, mem_slots hi, by simp [h]⟩
  simp [quiet, this]

theorem abortReady_of_state {s : State} {i : Nat} (h : ∀ j, jobAt s i = some j → j.state ≠ .aborting) : abortReady s i = false := by
  unfold abortReady
  split
  · rename_i j hj
    simp [h j hj]
  · rfl

theorem isDone_of_state {s : State} {i : Nat} (h : ∀ j, jobAt s i = some j → j.state ≠ .waiting) : isDone s i = false := by
  unfold isDone
  split
  · rename_i j hj
    simp [h j hj]
  · rfl

theorem finishAborted_idle {s : State} {i : Nat} (h : abortReady s i = false) : finishAborted i s = s := by
  unfold finishAborted
  rw [if_neg (by simp [h])]

/-- R24: no tail feed decision is taken where no job is ENDING. -/
theorem tailFeed_idle {s : State} (h : ∀ i j, jobAt s i = some j → j.state ≠ .ending) : tailFeed s = s := by
  have : feedSlot s = none := by
    unfold feedSlot
    split
    · rw [List.findIdx?_eq_none_iff]
      intro o ho
      have := any_jobs_false (s := s) (awaitsFeed s) (fun i j hj => by simp [awaitsFeed, h i j hj]) rfl
      simpa using List.any_eq_false.1 this o ho
    · rfl
  unfold tailFeed
  rw [this]

/-! ### A job that the reactions close -/

/-- R26: after the close every live job is OPEN where the others were. -/
theorem opened_jobClosed {slot : Nat} {a : Account} {o : JobOutcome} {s : State}
    (ho : ∀ i k, i ≠ slot → jobAt s i = some k → k.state = .opened) (i : Nat) (k : Job)
    (hk : jobAt (jobClosed slot a o s) i = some k) : k.state = .opened := by
  rw [jobAt_jobClosed] at hk
  split at hk
  · cases hk
  · rename_i hi
    exact ho i k hi hk

/-- R26: with every other job OPEN and no QUEUED entry at the head of the queue nothing follows the close. -/
theorem resting_jobClosed {slot : Nat} {a : Account} {o : JobOutcome} {s : State}
    (ho : ∀ i k, i ≠ slot → jobAt s i = some k → k.state = .opened) (hs : stopFree s = false)
    (hq : ∀ e, s.rc.queue.head? = some e → e.state ≠ .queued) : Resting (jobClosed slot a o s) := by
  refine resting_of_open (opened_jobClosed ho) ?_ ?_
  · intro e he
    exact hq e (by simpa [jobClosed] using he)
  · rw [← hs]
    exact stopFree_congr (by simp [jobClosed]) (by simp [jobClosed]) (by simp [jobClosed]) (by simp [jobClosed])

theorem pushRecord_comm_rc (r : ClosedRecord) (s : State) (x : Rc) : pushRecord r { s with rc := x } = { pushRecord r s with rc := x } := by
  simp only [pushRecord_eq, raise_eq_lc]
  split <;> rfl

/-- R26: what the closed slot held last does not show in the state after. -/
theorem jobClosed_updJob (slot : Nat) (a : Account) (o : JobOutcome) (f : Job → Job) (s : State) :
    jobClosed slot a o (updJob slot f s) = jobClosed slot a o s := by
  have hset : (s.rc.jobs.modify slot (fun o => o.map f)).set slot none = s.rc.jobs.set slot none := by
    apply List.ext_getElem?
    intro i
    simp only [List.getElem?_set, List.getElem?_modify, List.length_modify]
    split <;> simp_all
  show { pushRecord (makeRecord a (.job o) s.cu.active) { s with rc := { s.rc with jobs := s.rc.jobs.modify slot (fun o => o.map f) } } with
    rc.jobs := (s.rc.jobs.modify slot (fun o => o.map f)).set slot none, cu.printAccts := s.cu.printAccts.set slot none } = _
  rw [pushRecord_comm_rc, hset]
  simp only [jobClosed, pushRecord_rc]

/-- R25, R26: a done job without a check closes, where every other job is OPEN. -/
theorem settle_done {slot : Nat} {j : Job} {a : Account} {s : State} (hslot : slot < 8) (hj : jobAt s slot = some j)
    (ha : printAt s slot = some a) (hc : j.checkId = none) (hr : s.cu.records.length < 16) (hd : isDone s slot = true)
    (ho : ∀ i k, i ≠ slot → jobAt s i = some k → k.state = .opened) (hs : stopFree s = false)
    (hq : ∀ e, s.rc.queue.head? = some e → e.state ≠ .queued) :
    settle s = syncCauses (jobClosed slot a (doneOutcome j) s) := by
  have hclosed := opened_jobClosed (a := a) (o := doneOutcome j) ho
  have hwaiting : j.state = .waiting := by
    simp only [isDone, hj, Bool.and_eq_true, beq_iff_eq] at hd
    exact hd.1.1
  have habort : ∀ i, finishAborted i s = s := by
    refine fun i => finishAborted_idle (abortReady_of_state (fun k hk => ?_))
    by_cases hi : i = slot
    · subst hi
      rw [hj] at hk; cases hk
      rw [hwaiting]; nofun
    · rw [ho i k hi hk]; nofun
  have hdone : doneTest slot s = jobClosed slot a (doneOutcome j) s := by rw [doneTest_eq hd hj, closeJob_eq hj ha hc hr]
  have hround : (List.range Config.jobSlots).foldl (fun s i => doneTest i s) s = doneTest slot s := by
    refine foldl_once _ (mem_slots hslot) List.nodup_range (fun i hi => ?_) (fun i _ => ?_)
    · exact doneTest_idle (isDone_of_state (fun k hk => by rw [ho i k hi hk]; nofun))
    · rw [hdone]
      exact doneTest_idle (isDone_of_state (fun k hk => by rw [hclosed i k hk]; nofun))
  refine settle_of_pass (quiet_of_isDone hslot hd) ?_ (resting_jobClosed ho hs hq)
  rw [pass_eq, resolveStop_idle hs, foldl_idle (fun s i => finishAborted i s) _ (fun i _ => habort i), hround, hdone]
  exact tailFeed_idle (fun i k hk => by rw [hclosed i k hk]; nofun)

theorem names_iff (tag : Nat) (e : CutEntry) : e.names tag = true ↔ .job tag ∈ e.owners := by
  simp [CutEntry.names]

theorem names_eq_false {tag : Nat} {e : CutEntry} (h : .job tag ∉ e.owners) : e.names tag = false := by
  rw [← Bool.not_eq_true, names_iff]; exact h

/-- R109: a job that no cut entry names leaves the cut list as it is, and an idle executor where it stands. -/
theorem strikeCuts_idle {tag : Nat} {s : State} (hn : ∀ e ∈ s.mpc.cuts, .job tag ∉ e.owners) (he : s.mpc.exec = .idle) :
    strikeCuts tag none s = s := by
  have hcuts : s.mpc.cuts.filterMap (CutEntry.strike tag none) = s.mpc.cuts := by
    conv_rhs => rw [← List.filterMap_some (l := s.mpc.cuts)]
    refine List.filterMap_congr (fun e hm => ?_)
    have : e.names tag = false := names_eq_false (hn e hm)
    simp [CutEntry.strike, this]
  unfold strikeCuts
  rw [hcuts]
  have hrev : reviseSegment s = s := reviseSegment_still s (by simp [he])
  exact (congrArg resolveStop hrev).trans (resolveStop_idle (by simp [stopFree, he]))

/-- R27, R28: an aborted job without entries, cuts and check closes, where every other job is OPEN and the executor idle. -/
theorem settle_aborted {slot : Nat} {j : Job} {a : Account} {s : State} (hslot : slot < 8) (hj : jobAt s slot = some j)
    (ha : printAt s slot = some a) (hc : j.checkId = none) (hr : s.cu.records.length < 16) (hst : j.state = .aborting)
    (hn : ∀ e ∈ s.mpc.cuts, .job j.tag ∉ e.owners) (he : s.mpc.exec = .idle) (hqueue : s.rc.queue = [])
    (ho : ∀ i k, i ≠ slot → jobAt s i = some k → k.state = .opened) :
    settle s = syncCauses (jobClosed slot a .aborted s) := by
  have hs : stopFree s = false := by simp [stopFree, he]
  have hclosed := opened_jobClosed (a := a) (o := .aborted) ho
  have hready : abortReady s slot = true := by
    simp [abortReady, hj, hst, hasEntry, hqueue, feedsSlot, he, Exec.advance]
  have hfinish : finishAborted slot s = jobClosed slot a .aborted s := by
    unfold finishAborted
    rw [if_pos hready]
    simp only [hj, hc, strikeCuts_idle hn he, closeOwnCheck]
    exact closeJob_eq hj ha hc hr
  have hround : (List.range Config.jobSlots).foldl (fun s i => finishAborted i s) s = finishAborted slot s := by
    refine foldl_once _ (mem_slots hslot) List.nodup_range (fun i hi => ?_) (fun i _ => ?_)
    · exact finishAborted_idle (abortReady_of_state (fun k hk => by rw [ho i k hi hk]; nofun))
    · rw [hfinish]
      exact finishAborted_idle (abortReady_of_state (fun k hk => by rw [hclosed i k hk]; nofun))
  have hdone : ∀ i, doneTest i (jobClosed slot a .aborted s) = jobClosed slot a .aborted s :=
    fun i => doneTest_idle (isDone_of_state (fun k hk => by rw [hclosed i k hk]; nofun))
  refine settle_of_pass (quiet_of_abortReady hslot hready) ?_ (resting_jobClosed ho hs (by simp [hqueue]))
  rw [pass_eq, resolveStop_idle hs, hround, hfinish, foldl_idle (fun s i => doneTest i s) _ (fun i _ => hdone i)]
  exact tailFeed_idle (fun i k hk => by rw [hclosed i k hk]; nofun)


/-! ### JOB_END (R22, R23) -/

theorem takeJobEnd_ok {tag slot : Nat} {s : State} {j : Job} (hslot : slotOf s tag = some slot) (hj : jobAt s slot = some j)
    (ho : j.state = .opened) :
    takeJobEnd tag s = (accept .none (endIfEmpty tag (updJob slot (fun j => { j with state := .ending }) s))).settled := by
  simp only [takeJobEnd, hslot, hj, ho, ne_eq, not_true_eq_false, if_false]

theorem takeJobEnd_notNow {tag slot : Nat} {s : State} {j : Job} (hslot : slotOf s tag = some slot) (hj : jobAt s slot = some j)
    (ho : j.state ≠ .opened) : takeJobEnd tag s = refuse .notNow s := by
  simp only [takeJobEnd, hslot, hj, ne_eq, ho, not_false_eq_true, if_true]

/-- R23: a job is at its end once it is ENDING with its last entry gone. -/
theorem endIfEmpty_idle {tag slot : Nat} {s : State} {j : Job} (hslot : slotOf s tag = some slot) (hj : jobAt s slot = some j)
    (h : ¬(j.state = .ending ∧ hasEntry s tag = false)) : endIfEmpty tag s = s := by
  simp only [endIfEmpty, hslot, hj, if_neg h]

theorem endIfEmpty_end {tag slot : Nat} {s : State} {j : Job} (hslot : slotOf s tag = some slot) (hj : jobAt s slot = some j)
    (hs : j.state = .ending) (he : hasEntry s tag = false) : endIfEmpty tag s = readyToEnd slot s := by
  simp only [endIfEmpty, hslot, hj, hs, he, and_self, if_true]

/-- R23: what the ready-to-end step makes of a job without a check: an open strip is DONE, and without a tail feed the job goes WAITING. -/
def Job.ended (j : Job) : Job :=
  { j with strip := if j.strip = .inStrip then .done else j.strip, state := if j.tailFeed then j.state else .waiting }

theorem readyToEnd_unchecked {slot : Nat} {s : State} {j : Job} (hj : jobAt s slot = some j) (hc : j.checkId = none) :
    readyToEnd slot s = updJob slot Job.ended s := by
  unfold readyToEnd
  simp only [hj, hc, completeStrip]
  cases hst : j.strip <;> cases ht : j.tailFeed <;>
    simp only [Bool.false_eq_true, if_false, if_true, updJob_updJob]
  · exact updJob_congr hj (by simp [Job.ended, hst, ht])
  · exact (updJob_same _ hj (by cases j; simp_all [Job.ended])).symm
  · exact updJob_congr hj (by simp [Job.ended, hst, ht])
  · exact updJob_congr hj (by simp [Job.ended, hst, ht])
  · exact updJob_congr hj (by simp [Job.ended, hst, ht])
  · exact (updJob_same _ hj (by cases j; simp_all [Job.ended])).symm

/-- R22, R23: JOB_END of a job without entries and without a check. -/
theorem jobEnd_unchecked {tag slot : Nat} {s : State} {j : Job} (hslot : slotOf s tag = some slot) (hj : jobAt s slot = some j)
    (he : hasEntry s tag = false) (hc : j.checkId = none) :
    endIfEmpty tag (updJob slot (fun j => { j with state := .ending }) s)
      = updJob slot (fun j => Job.ended { j with state := .ending }) s := by
  have hj' := jobAt_updJob_same (fun j => { j with state := .ending }) hj
  rw [endIfEmpty_end ((slotOf_modify tag slot _ (by intro k; rfl) rfl).trans hslot) hj' rfl he, readyToEnd_unchecked hj' hc,
    updJob_updJob]

/-! ### JOB_ABORT (R27) -/

theorem takeJobAbort_closing {tag slot : Nat} {s : State} {j : Job} (hslot : slotOf s tag = some slot) (hj : jobAt s slot = some j)
    (hs : j.state = .closing) :
    takeJobAbort tag s = accept (.withdrawn 0) (updJob slot (fun j => { j with outcome := some .aborted }) s) := by
  simp only [takeJobAbort, hslot, hj, hs]

theorem takeJobAbort_ok {tag slot : Nat} {s : State} {j : Job} (hslot : slotOf s tag = some slot) (hj : jobAt s slot = some j)
    (h1 : j.state ≠ .aborting) (h2 : j.state ≠ .closing) :
    takeJobAbort tag s = (accept (.withdrawn (queuedOf tag s).length) (abortJob slot tag s)).settled := by
  unfold takeJobAbort
  simp only [hslot, hj]

/-- R27: the entry that a REVOKE goes to: the GRANTED one, where it is the aborted job's. -/
def revokedEntry (tag : Nat) (s : State) : Option QEntry := (grantedEntry s).filter (fun e => e.job == tag)

/-- R27 step 3: the GRANTED entry of the job is marked, and REVOKE sent. -/
theorem revokeGrant_eq (tag : Nat) (s : State) : revokeGrant tag s = { s with
    rc.queue := s.rc.queue.map (fun e =>
      if (revokedEntry tag s).map (fun x => x.queueTag) = some e.queueTag then { e with revoked := some true } else e)
    out := s.out ++ (revokedEntry tag s).toList.map (fun e => .revoke e.queueTag) } := by
  unfold revokeGrant revokedEntry
  cases hg : grantedEntry s with
  | none => simp
  | some e =>
    by_cases he : e.job = tag
    · simp [he, send, updEntry, eq_comm, Option.filter_some]
    · simp [he, Option.filter_some]

/-- R27 step 1: a withdrawn QUEUED entry is not the GRANTED one. -/
theorem grantedEntry_left (tag : Nat) (q : List QEntry) :
    (q.filter (fun e => !(e.job == tag && e.state == .queued))).find? (fun e => e.state == .granted)
      = q.find? (fun e => e.state == .granted) := by
  rw [List.find?_filter]
  congr 1
  funext e
  cases e.state <;> simp

/-- R27: the state after an abort, before SWATH_ROOM. -/
def abortedJob (slot tag : Nat) (s : State) : State :=
  let left := s.rc.queue.filter (fun e => !(e.job == tag && e.state == .queued))
  { s with
    rc.queue := left.map (fun e =>
      if (revokedEntry tag s).map (fun x => x.queueTag) = some e.queueTag then { e with revoked := some true } else e)
    rc.jobs := s.rc.jobs.modify slot (fun o => o.map (fun j =>
      { j with state := .aborting, hold := none, withdrawn := min 4294967295 (j.withdrawn + (queuedOf tag s).length) }))
    out := s.out ++ (revokedEntry tag s).toList.map (fun e => .revoke e.queueTag) }

theorem revokedEntry_congr {tag : Nat} {x s : State} (h : grantedEntry x = grantedEntry s) : revokedEntry tag x = revokedEntry tag s := by
  unfold revokedEntry
  rw [h]

/-- A REVOKE goes out the same before and after SWATH_ROOM. -/
theorem revokeGrant_roomed (tag : Nat) (s : State) : revokeGrant tag (roomed s) = roomed (revokeGrant tag s) := by
  have hg : revokedEntry tag (roomed s) = revokedEntry tag s :=
    revokedEntry_congr (by unfold grantedEntry; rw [roomed_queue])
  rw [revokeGrant_eq, revokeGrant_eq, hg, roomed_queue, roomed_out]
  refine Eq.trans ?_ (roomed_comm s s.rc.jobs _ _ (List.length_map _)).symm
  rw [← roomed_jobs s]

/-- R7, R27: the free entries rise by the withdrawn ones, if there are any. -/
theorem abortJob_eq (slot tag : Nat) (s : State) :
    abortJob slot tag s = if (queuedOf tag s).length = 0 then abortedJob slot tag s else roomed (abortedJob slot tag s) := by
  have hbase : ∀ w : State, w = updJob slot
        (fun j => { j with withdrawn := satAdd Config.count32Max j.withdrawn (queuedOf tag s).length, hold := none })
        { s with rc.queue := s.rc.queue.filter (fun e => !(e.job == tag && e.state == .queued)) } →
      updJob slot (fun j => { j with state := .aborting }) (revokeGrant tag w) = abortedJob slot tag s := by
    intro w hw
    have hg : revokedEntry tag w = revokedEntry tag s :=
      revokedEntry_congr (by rw [hw]; exact grantedEntry_left tag s.rc.queue)
    rw [revokeGrant_eq, hg, hw]
    simp only [updJob, List.modify_modify_eq, abortedJob]
    congr 3
    funext o
    cases o <;> rfl
  unfold abortJob withdraw
  dsimp only
  split
  · exact hbase _ rfl
  · rw [roomRose_eq, revokeGrant_roomed, ← roomed_updJob, hbase _ rfl]

end Sys2Proof.Machine

open Sys2Proof Sys2Proof.Machine

/-- Settles O27: JOB_END by `endIfEmpty`, JOB_ABORT by `abortJob_eq`; where nothing follows, `settle_one` says so. -/
theorem jobEndAndJobAbortMoveTheJob : Obligations.JobEndAndJobAbortMoveTheJob := by
  intro ft tag i s j hslot hj still moved
  have htag : j.tag = tag := tag_of_slotOf hslot hj
  have hmoved : ∀ x, jobAt (moved x) i = some { j with state := x } := fun x =>
    jobAt_updJob_same (s := cleared s) (fun j => { j with state := x }) hj
  refine ⟨fun ho he => ?_, fun ho he hc ht hst => ?_, fun h1 h2 => ?_, fun h => ?_, fun h => ?_⟩
  · have hreq := carryOut_of_settled (kind := 0x0B) (ft := ft) (takeJobEnd_ok (s := cleared s) hslot hj ho)
    have hend : endIfEmpty tag (updJob i (fun j => { j with state := .ending }) (cleared s)) = moved .ending :=
      endIfEmpty_idle ((slotOf_modify tag i _ (by intro k; rfl) rfl).trans hslot) (hmoved .ending)
        (fun h => Bool.noConfusion (he.symm.trans h.2))
    rw [hend] at hreq
    refine ⟨⟨_, follows_settle _, congrArg Host.Outcome.next hreq⟩, fun ⟨hothers, hstop, hhead⟩ => ?_⟩
    rw [← settle_one hj (y := moved .ending) rfl hothers hstop hhead ?_]
    · exact congrArg Host.Outcome.next hreq
    · have hentry : hasEntry (moved .ending) j.tag = true := htag ▸ he
      simp [abortReady, isDone, awaitsFeed, hmoved, hentry]
  · have hreq := carryOut_of_settled (kind := 0x0B) (ft := ft) (takeJobEnd_ok (s := cleared s) hslot hj ho)
    have hend : endIfEmpty tag (updJob i (fun j => { j with state := .ending }) (cleared s)) = moved .waiting := by
      rw [jobEnd_unchecked (s := cleared s) hslot hj he hc]
      exact updJob_congr (s := cleared s) hj (by simp [Job.ended, hst, ht])
    rw [hend] at hreq
    refine ⟨⟨_, follows_settle _, congrArg Host.Outcome.next hreq⟩, fun ⟨hothers, hstop, hhead⟩ ⟨e, hem, heo⟩ => ?_⟩
    rw [← settle_one hj (y := moved .waiting) rfl hothers hstop hhead ?_]
    · exact congrArg Host.Outcome.next hreq
    · have hcut : (moved .waiting).mpc.cuts.any (CutEntry.names j.tag) = true :=
        List.any_eq_true.2 ⟨e, hem, (names_iff _ _).2 (htag ▸ heo)⟩
      simp [abortReady, isDone, awaitsFeed, hmoved, hcut]
  · intro mine n left g base x
    have hreq := carryOut_of_settled (kind := 0x0C) (ft := ft) (takeJobAbort_ok (s := cleared s) hslot hj h1 h2)
    rw [abortJob_eq] at hreq
    refine ⟨⟨_, follows_settle _, congrArg Host.Outcome.next hreq⟩, fun ⟨hothers, hstop, hhead⟩ hlast => ?_⟩
    have hx : x.rc.jobs = base.rc.jobs ∧ x.rc.queue = base.rc.queue ∧ x.mpc = base.mpc ∧ x.ccu = base.ccu := by
      simp only [x]
      split
      · exact ⟨rfl, rfl, rfl, rfl⟩
      · exact ⟨roomed_jobs _, roomed_queue _, roomed_mpc _, roomed_ccu _⟩
    obtain ⟨hjobs, hqueue, hmpc, hccu⟩ := hx
    have hxj : jobAt x i = (jobAt s i).map _ := (jobAt_modify i i _ hjobs).trans (if_pos rfl)
    rw [hj] at hxj
    rw [← settle_one hj hjobs hothers ?_ ?_ ?_]
    · exact congrArg Host.Outcome.next hreq
    · exact (stopFree_congr (by rw [hmpc]; rfl) (by rw [hmpc]; rfl) (by rw [hmpc]; rfl) (by rw [hccu]; rfl)).trans hstop
    · intro e he
      simp only [hqueue, base, List.head?_map, Option.map_eq_some_iff] at he
      obtain ⟨y, hy, rfl⟩ := he
      have := hhead y hy
      split <;> exact this
    · have hready : hasEntry x tag = true ∨ feedsSlot x i = true := by
        refine hlast.imp (fun ⟨e, hem, het⟩ => ?_) (fun ⟨a, h, hexec, hr, hown⟩ => ?_)
        · simp only [hasEntry, hqueue, base, List.any_map]
          refine List.any_eq_true.2 ⟨e, hem, ?_⟩
          simp only [Function.comp]
          split <;> simpa using het
        · have : x.mpc.exec = .moving a h := by rw [hmpc]; exact hexec
          simp [feedsSlot, this, Exec.advance, hr, hown]
      rcases hready with h | h <;> simp [abortReady, isDone, awaitsFeed, hxj, htag, h]
  · exact congrArg Host.Outcome.next (carryOut_of_accept (takeJobAbort_closing (s := cleared s) hslot hj h))
  · exact congrArg Host.Outcome.next (carryOut_of_refuse (takeJobEnd_notNow (s := cleared s) hslot hj h))

end

section
/-! Jobs that close their account, and the tail feed (O60). -/

namespace Sys2Proof.Machine

/-! ### Reports for a grant (R13) -/

theorem reported_head {s : State} {e : QEntry} {q : List QEntry} (hq : s.rc.queue = e :: q) (he : e.state = .granted) :
    reported s e.queueTag = some e := by
  unfold reported
  rw [granted_head hq he]
  exact if_pos rfl

/-- R13: a report for the GRANTED head entry, then what follows. -/
theorem onReport_head {s : State} {e : QEntry} {q : List QEntry} (hq : s.rc.queue = e :: q) (he : e.state = .granted)
    (f : QEntry → State → State) : onReport true e.queueTag f s = settle (f e (begin s)) := by
  simp only [onReport, if_true, reported_head hq he]

/-- R20: a filter on the queue tag takes the head entry alone away. -/
theorem filter_tag {e : QEntry} {q : List QEntry} (h : ∀ x ∈ q, x.queueTag ≠ e.queueTag) :
    (e :: q).filter (fun x => x.queueTag != e.queueTag) = q := by
  rw [List.filter_cons, if_neg (by simp), List.filter_eq_self]
  exact fun x hx => by simpa using h x hx

theorem withdrawEntry_eq {s : State} {e : QEntry} {slot : Nat} (hs : slotOf s e.job = some slot) :
    withdrawEntry e s = updJob slot (fun j => { j with withdrawn := bump j.withdrawn })
      (roomed { s with rc.queue := s.rc.queue.filter (fun x => x.queueTag != e.queueTag) }) := by
  unfold withdrawEntry
  simp only [hs, roomRose_eq, roomed_updJob]

/-- R17, R37: NOT_FIRED for a revoked grant withdraws the entry. -/
theorem unfired_revoked {s : State} {e : QEntry} {q : List QEntry} {l : List ChargeRec} {slot : Nat} (hq : s.rc.queue = e :: q)
    (hr : e.revoked = some true) (hl : e.charges = some l) (ht : ∀ x ∈ q, x.queueTag ≠ e.queueTag) (hs : slotOf s e.job = some slot) :
    unfired e s = updJob slot (fun j => { j with withdrawn := bump j.withdrawn })
      (roomed { s with isc.chans := releasedChans l s.isc.chans, rc.fireTimer := none, rc.queue := q }) := by
  unfold unfired
  rw [hl, Option.getD_some, release_eq, if_pos hr, withdrawEntry_eq (slot := slot)]
  · simp only [hq, filter_tag ht]
  · exact hs

/-! ### The tail feed (R24) -/

/-- R24: the tail feed of a job without a check reaches for the farthest of its cut stops. -/
theorem feedStops_unchecked {s : State} {j : Job} (hc : j.checkId = none) :
    feedStops s j = (s.mpc.cuts.filter (fun e => e.owners.contains (.job j.tag))).map (fun e => e.position + s.mpc.cOff) := by
  unfold feedStops
  have : CutEntry.names j.tag = fun e => e.owners.contains (.job j.tag) := by
    funext e
    rw [Bool.eq_iff_iff, names_iff, List.contains_iff_mem]
  rw [hc, this, List.append_nil]
  rfl

/-- R24: the one job that waits for its decision is found. -/
theorem feedSlot_eq {s : State} {slot : Nat} {j : Job} (hj : jobAt s slot = some j) (hs : j.state = .ending) (ht : j.tailFeed = true)
    (he : hasEntry s j.tag = false) (hexec : s.mpc.exec = .idle) (hg : grantedEntry s = none)
    (ho : ∀ i k, i ≠ slot → jobAt s i = some k → k.state = .opened) : feedSlot s = some slot := by
  unfold feedSlot
  rw [if_pos ⟨hexec, by simp [hg]⟩]
  have hlt := jobAt_lt hj
  have hget : ∀ i (h : i < s.rc.jobs.length), s.rc.jobs[i] = jobAt s i := fun i h => by
    simp [jobAt, List.getD_eq_getElem?_getD, List.getElem?_eq_getElem h]
  refine List.findIdx?_eq_some_iff_getElem.2 ⟨hlt, ?_, fun i hi => ?_⟩
  · rw [hget, hj]
    simp [awaitsFeed, hs, ht, he]
  · rw [hget]
    cases hk : jobAt s i with
    | none => simp [awaitsFeed]
    | some k => simp [awaitsFeed, ho i k (Nat.ne_of_lt hi) hk]

/-- R89, R91: an advance taken with no stop reached, no hold and no settle window starts a segment to the nearer of its target and the next stop. -/
theorem takeAdvance_moves {s : State} {o : Owner} {q : Requester} {d : Nat} {r : Roll} {a : Advance}
    (ha : newAdvance s o q d = a) (hr : s.mpc.roll = some r) (hh : s.lc.hold = .none) (hf : firstReached s = none)
    (hw : s.mpc.settle = none) (hp : r.pos < a.target) :
    let stop := match (stopList s).find? (fun x => decide (r.pos < x.pos)) with
      | some x => min a.target x.pos
      | none => a.target
    takeAdvance o q d s = { (if a.clamped = true then raise .rollEnd (ownerTag s o) s else s) with
      mpc.exec := .moving a ⟨stop, 1000 + 2 * (stop - r.pos), 0, if s.lc.cover = .settled then .driving else .paused⟩ } := by
  intro stop
  have hheld : held s = false := by simp [held, hh]
  unfold takeAdvance
  simp only [ha, hheld, Bool.false_eq_true, if_false]
  split
  · refine (runOn_moves (s := s) (by rw [raise_mpc]) (by rw [raise_mpc]) (by rw [raise_ccu]) (by rw [raise_mpc, hr]) hf hp
      (by rw [raise_mpc, hw])).trans ?_
    rw [raise_cover] <;> rfl
  · exact runOn_moves (s := s) rfl rfl rfl hr hf hp hw

/-- R24, R89: the tail feed decision of a job with a stop ahead. -/
theorem decideFeed_moves {s : State} {slot : Nat} {j : Job} {r : Roll} {target : Nat} (hj : jobAt s slot = some j)
    (ht : (feedStops s j).foldl max 0 = target) (hr : s.mpc.roll = some r) (hh : s.lc.hold = .none)
    (hf : firstReached s = none) (hw : s.mpc.settle = none) (hp : r.pos < min r.length target) :
    let goal := min r.length target
    let stop := match (stopList s).find? (fun x => decide (r.pos < x.pos)) with
      | some x => min goal x.pos
      | none => goal
    decideFeed slot s = { (if r.length < target then raise .rollEnd (some j.tag) s else s) with
      rc.jobs := s.rc.jobs.modify slot (fun o => o.map (fun j => { j with state := .feeding }))
      mpc.exec := .moving ⟨.print slot, .tailFeed, goal, decide (r.length < target)⟩
        ⟨stop, 1000 + 2 * (stop - r.pos), 0, if s.lc.cover = .settled then .driving else .paused⟩ } := by
  intro goal stop
  have hpos : pos s = r.pos := by simp [pos, hr]
  have hlt : r.pos < target := lt_of_lt_of_le hp (min_le_right _ _)
  have hadd : r.pos + (target - r.pos) = target := by omega
  let y := updJob slot (fun j => { j with state := .feeding }) s
  have hadv : newAdvance y (.print slot) .tailFeed (target - r.pos) = ⟨.print slot, .tailFeed, goal, decide (r.length < target)⟩ := by
    have hy : pos y = r.pos := hpos
    have hl : loadedLength y = r.length := by simp [y, loadedLength, hr]
    simp only [newAdvance, hy, hl, hadd, goal]
  have htag : ownerTag y (.print slot) = some j.tag := by
    simp [ownerTag, y, jobAt_updJob_same _ hj]
  have htake := takeAdvance_moves hadv (r := r) hr hh hf hw hp
  unfold decideFeed
  simp only [hj, ht, hpos, if_pos hlt]
  rw [show updJob slot (fun j => { j with state := .feeding }) s = y from rfl, htake, htag]
  simp only [decide_eq_true_eq, raise_eq_lc]
  split <;> rfl

/-- R9: during an advance nothing is considered. -/
theorem considered_moving {s : State} {a : Advance} {g : Segment} (h : s.mpc.exec = .moving a g) : considered s = none := by
  unfold considered pathIdle
  rw [h]
  split <;> simp

/-- R24: with every other job OPEN, the tail feed decision is all that follows where it brings an advance. -/
theorem settle_tailFeed {s t : State} {slot : Nat} {j : Job} {a : Advance} {g : Segment} (hslot : feedSlot s = some slot)
    (hj : jobAt s slot = some j) (hst : j.state = .ending) (hs : stopFree s = false)
    (ho : ∀ i k, i ≠ slot → jobAt s i = some k → k.state = .opened) (ht : decideFeed slot s = t)
    (hjobs : t.rc.jobs = s.rc.jobs.modify slot (fun o => o.map (fun j => { j with state := .feeding })))
    (hexec : t.mpc.exec = .moving a g) : settle s = syncCauses t := by
  have hst' : ∀ i k, jobAt s i = some k → k.state = .ending ∨ k.state = .opened := by
    intro i k hk
    by_cases hi : i = slot
    · subst hi
      rw [hj] at hk; cases hk
      exact .inl hst
    · exact .inr (ho i k hi hk)
  have hfinish : ∀ i, finishAborted i s = s := fun i =>
    finishAborted_idle (abortReady_of_state (fun k hk => by rcases hst' i k hk with h | h <;> rw [h] <;> nofun))
  have hdone : ∀ i, doneTest i s = s := fun i =>
    doneTest_idle (isDone_of_state (fun k hk => by rcases hst' i k hk with h | h <;> rw [h] <;> nofun))
  have hquiet : quiet s = false := by simp [quiet, hslot]
  refine settle_of_pass hquiet ?_ ⟨quiet_of_jobs (by simp [stopFree, hexec]) (fun i k hk => ?_), by simp [considered_moving hexec]⟩
  · rw [pass_eq, resolveStop_idle hs, foldl_idle (fun s i => finishAborted i s) _ (fun i _ => hfinish i),
      foldl_idle (fun s i => doneTest i s) _ (fun i _ => hdone i)]
    unfold tailFeed
    rw [hslot]
    exact ht
  · have hk' : k.state = .feeding ∨ k.state = .opened := by
      rw [jobAt_modify slot i _ hjobs] at hk
      split at hk
      · obtain ⟨m, -, rfl⟩ := Option.map_eq_some_iff.1 hk
        exact .inl rfl
      · rename_i hi
        exact .inr (ho i k (Ne.symm hi) hk)
    rcases hk' with h | h <;> simp [abortReady, isDone, awaitsFeed, hk, h]

/-- R27: an abort with an empty queue moves the job alone. -/
theorem abortJob_empty {slot tag : Nat} {s : State} (hq : s.rc.queue = []) : abortJob slot tag s =
    updJob slot (fun j => { j with state := .aborting, hold := none, withdrawn := min 4294967295 (j.withdrawn + 0) }) s := by
  have hn : (queuedOf tag s).length = 0 := by simp [queuedOf, hq]
  have hg : revokedEntry tag s = none := by simp [revokedEntry, grantedEntry, hq]
  rw [abortJob_eq, if_pos hn]
  simp only [abortedJob, hn, hg, hq, updJob, Option.toList_none, List.map_nil, List.filter_nil, List.append_nil]

/-- R25: a job without a check, WAITING after an update and named by no cut, closes. -/
theorem settle_updJob_done {slot : Nat} {j : Job} {a : Account} {s : State} {f : Job → Job} (hslot : slot < 8)
    (hj : jobAt s slot = some j) (ha : printAt s slot = some a) (hc : (f j).checkId = none) (hr : s.cu.records.length < 16)
    (hw : (f j).state = .waiting) (hn : ∀ e ∈ s.mpc.cuts, .job (f j).tag ∉ e.owners)
    (ho : ∀ i k, i ≠ slot → jobAt s i = some k → k.state = .opened) (hs : stopFree s = false)
    (hq : ∀ e, s.rc.queue.head? = some e → e.state ≠ .queued) :
    settle (updJob slot f s) = syncCauses (jobClosed slot a (doneOutcome (f j)) s) := by
  have hj' := jobAt_updJob_same f hj
  have hcut : s.mpc.cuts.any (CutEntry.names (f j).tag) = false :=
    List.any_eq_false.2 (fun e hm => by rw [names_iff]; exact hn e hm)
  have hdone : isDone (updJob slot f s) slot = true := by
    simp only [isDone, hj', hw, hc, checkDone, updJob_mpc, hcut, beq_self_eq_true, Bool.not_false, Bool.and_self]
  rw [settle_done hslot hj' ha hc hr hdone (fun i k hi hk => ho i k hi ((jobAt_updJob_other f hi).symm.trans hk)) hs hq,
    jobClosed_updJob]

/-- R28: a job without a check, ABORTING after an update, named by no cut and without entries, closes. -/
theorem settle_updJob_aborted {slot : Nat} {j : Job} {a : Account} {s : State} {f : Job → Job} (hslot : slot < 8)
    (hj : jobAt s slot = some j) (ha : printAt s slot = some a) (hc : (f j).checkId = none) (hr : s.cu.records.length < 16)
    (hst : (f j).state = .aborting) (hn : ∀ e ∈ s.mpc.cuts, .job (f j).tag ∉ e.owners) (he : s.mpc.exec = .idle)
    (hqueue : s.rc.queue = []) (ho : ∀ i k, i ≠ slot → jobAt s i = some k → k.state = .opened) :
    settle (updJob slot f s) = syncCauses (jobClosed slot a .aborted s) := by
  rw [settle_aborted hslot (jobAt_updJob_same f hj) ha hc hr hst hn he hqueue
    (fun i k hi hk => ho i k hi ((jobAt_updJob_other f hi).symm.trans hk)), jobClosed_updJob]

theorem doneOutcome_eq (j : Job) : doneOutcome j =
    if j.rejectOnFail = true ∧ (j.verdict = some .fail ∨ j.verdict = some .failLimit) then .rejected else .completed := by
  simp [doneOutcome]

end Sys2Proof.Machine

open Sys2Proof Sys2Proof.Machine

/-- Settles O60: JOB_END and JOB_ABORT of a job at its end, NOT_FIRED for a revoked grant, and the tail feed, each followed by one round of reactions. -/
theorem endedAndAbortedJobsCloseTheirAccount : Obligations.EndedAndAbortedJobsCloseTheirAccount := by
  intro ft tag slot j a s hslot hj ha hc hlen hothers hrec hstop closed none_
  have htag : j.tag = tag := tag_of_slotOf hslot hj
  have hlt : slot < 8 := hlen ▸ jobAt_lt hj
  have hclosed : ∀ o (x : State), x.cu = s.cu → x.rc.jobs = s.rc.jobs → closed o x = syncCauses (jobClosed slot a o x) := by
    intro o x h1 h2
    simp only [closed, jobClosed, pushRecord_eq, h1, h2]
  refine ⟨fun hn ho he ht hhead => ?_, fun hn hst hq hexec => ?_, fun e l hn hst hq hg hjob hrev hl hexec => ?_,
    fun r ho he ht hstrip hexec hgr hh hr hf hw => ?_⟩
  · have hreq := carryOut_of_settled (kind := 0x0B) (ft := ft) (takeJobEnd_ok (s := cleared s) hslot hj ho)
    rw [jobEnd_unchecked (s := cleared s) hslot hj he hc,
      settle_updJob_done (s := cleared s) hlt hj ha hc hrec (by simp [Job.ended, ht]) (htag.symm ▸ hn) hothers hstop hhead] at hreq
    rw [← doneOutcome_eq j]
    refine (congrArg Host.Outcome.next hreq).trans ?_
    rw [hclosed _ (cleared s) rfl rfl]
    rfl
  · have hreq := carryOut_of_settled (kind := 0x0C) (ft := ft) (takeJobAbort_ok (s := cleared s) hslot hj
      (by rcases hst with h | h | h <;> rw [h] <;> nofun) (by rcases hst with h | h | h <;> rw [h] <;> nofun))
    have hempty : (queuedOf tag (cleared s)).length = 0 := by simp [queuedOf, cleared, hq]
    rw [hempty, abortJob_empty (s := cleared s) hq,
      settle_updJob_aborted (s := cleared s) hlt hj ha hc hrec rfl (htag.symm ▸ hn) hexec hq hothers] at hreq
    refine (congrArg Host.Outcome.next hreq).trans ?_
    rw [hclosed _ (cleared s) rfl rfl]
  · let x : State := { begin s with isc.chans := releasedChans l s.isc.chans, rc.fireTimer := none, rc.queue := [] }
    have hrep : exec (.notFired true e.queueTag) s
        = .next (settle (updJob slot (fun j => { j with withdrawn := bump j.withdrawn }) (roomed x))) := by
      exact congrArg Host.Outcome.next ((onReport_head hq hg unfired).trans (congrArg settle
        (unfired_revoked (s := begin s) hq hrev hl (by simp) (by rw [hjob]; exact hslot))))
    have hxj : ∀ i, jobAt (roomed x) i = jobAt s i := fun i => by
      unfold jobAt
      rw [roomed_jobs]
      rfl
    have hxa : printAt (roomed x) slot = some a := by
      unfold printAt
      rw [roomed_cu]
      exact ha
    have hset := settle_updJob_aborted (s := roomed x) (f := fun j => { j with withdrawn := bump j.withdrawn }) hlt
      ((hxj slot).trans hj) hxa hc (by rw [roomed_cu]; exact hrec) hst (by rw [roomed_mpc]; exact htag.symm ▸ hn)
      (by rw [roomed_mpc]; exact hexec) (by rw [roomed_queue])
      (fun i k hi hk => hothers i k hi ((hxj i).symm.trans hk))
    rw [hrep, hset, ← hclosed _ (roomed x) (by rw [roomed_cu]; rfl) (by rw [roomed_jobs]; rfl)]
    rfl
  · have hreq := carryOut_of_settled (kind := 0x0B) (ft := ft) (takeJobEnd_ok (s := cleared s) hslot hj ho)
    let z := updJob slot (fun j => Job.ended { j with state := .ending }) (cleared s)
    have hzj : jobAt z slot = some { j with state := .ending } :=
      (jobAt_updJob_same (s := cleared s) _ hj).trans (by simp [Job.ended, ht, hstrip])
    have hstops : feedStops z { j with state := .ending } = feedStops s j :=
      (feedStops_unchecked hc).trans (feedStops_unchecked hc).symm
    have hslotz : feedSlot z = some slot :=
      feedSlot_eq hzj rfl ht (htag ▸ he) hexec hgr (fun i k hi hk => hothers i k hi ((jobAt_updJob_other _ hi).symm.trans hk))
    intro target goal hp stop y
    have htarget : (feedStops z { j with state := .ending }).foldl max 0 = target := by
      rw [hstops, feedStops_unchecked hc, htag]
    have hdecide := decideFeed_moves hzj htarget hr hh hf hw hp
    have hset := settle_tailFeed hslotz hzj rfl hstop
      (fun i k hi hk => hothers i k hi ((jobAt_updJob_other _ hi).symm.trans hk)) hdecide rfl rfl
    rw [jobEnd_unchecked (s := cleared s) hslot hj he hc] at hreq
    refine (congrArg Host.Outcome.next hreq).trans (congrArg Host.Outcome.next (congrArg (answer _ ft _ _ _) (hset.trans ?_)))
    have hjobs : z.rc.jobs.modify slot (fun o => o.map (fun j => { j with state := .feeding }))
        = s.rc.jobs.modify slot (fun o => o.map (fun j => { j with state := .feeding })) := by
      show (updJob slot _ z).rc.jobs = (updJob slot _ (cleared s)).rc.jobs
      rw [updJob_updJob, updJob_congr (s := cleared s) (g := fun j => { j with state := .feeding }) hj (by simp [Job.ended, hstrip, ht])]
    rw [hjobs]
    simp only [y, htag, raise_eq_lc]
    split
    · rfl
    · rfl

end

section
/-! The end of a grant by FIRED and BROKEN (O48). -/

namespace Sys2Proof.Machine

/-! ### The commit of a swath (R38) -/

/-- R38: the channels with the charges of a swath taken from their levels and the reservations ended. -/
def spentChans (l : List ChargeRec) (cs : List Channel) : List Channel :=
  l.foldl (fun cs r => cs.modify r.channel (fun c =>
    { c with level := c.level.map (fun v => v - r.charge), drift := c.drift || c.level.any (fun v => v < r.charge), reserved := 0 })) cs

/-- R66: no channel of the charges asks for a refill. -/
def NoTrigger (l : List ChargeRec) (s : State) : Prop :=
  ∀ r ∈ l, (chanAt s r.channel).enabled = false ∨ (chanAt s r.channel).refill ≠ .idle ∨
    ∃ v, (chanAt s r.channel).level = some v ∧ (chanAt s r.channel).cfg.refillMark + (chanAt s r.channel).reserved ≤ v

theorem commit_eq {l : List ChargeRec} {s : State} (h : NoTrigger l { s with isc.chans := spentChans l s.isc.chans }) :
    commit l s = { s with isc.chans := spentChans l s.isc.chans } := by
  unfold commit
  simp only [spend_eq]
  rw [foldl_chans l (fun r => r.channel)]
  exact foldl_trigger l _ h

/-! ### The account of a fired swath (R150) -/

theorem addInks_eq (l : List (Nat × Nat)) (a : Account) : addInks l a = { a with
    ink := l.foldl (fun ink p => ink.modify p.1 (fun n => min 4294967295 (n + p.2))) a.ink
    flags := { a.flags with saturated := (addInks l a).flags.saturated } } := by
  induction l generalizing a with
  | nil => rfl
  | cons p t ih => exact ih (addInk p.1 p.2 a)

theorem bookSwath_eq (broken : Bool) (e : QEntry) (a : Account) : bookSwath broken e a = { a with
    ink := (e.charges.getD []).foldl (fun ink r => ink.modify r.channel (fun n => min 4294967295 (n + r.charge))) a.ink
    fired := if broken then a.fired else min 4294967295 (a.fired + 1)
    broken := if broken then min 4294967295 (a.broken + 1) else a.broken
    strips := if e.kind = .strip then 1 else a.strips
    flags := { a.flags with saturated := (bookSwath broken e a).flags.saturated } } := by
  have hstrip : ∀ n : Nat, (if (e.kind == .strip) = true then 1 else n) = if e.kind = .strip then 1 else n := by simp
  have hink := addInks_eq ((e.charges.getD []).map (fun r => (r.channel, r.charge))) a
  rw [List.foldl_map] at hink
  unfold bookSwath
  generalize addInks ((e.charges.getD []).map (fun r => (r.channel, r.charge))) a = a1 at hink ⊢
  generalize a1.flags.saturated = x at hink
  subst hink
  cases broken
  · simp only [countFired, hstrip]; rfl
  · simp only [countBroken, hstrip]; rfl

/-- R150: what the swath adds to the account, field by field. -/
theorem bookSwath_fields (broken : Bool) {e : QEntry} (a : Account) {l : List ChargeRec} (hl : e.charges = some l) :
    let b := bookSwath broken e a
    b.ink = l.foldl (fun ink r => ink.modify r.channel (fun n => min 4294967295 (n + r.charge))) a.ink ∧
    b.fired = (if broken then a.fired else min 4294967295 (a.fired + 1)) ∧
    b.broken = (if broken then min 4294967295 (a.broken + 1) else a.broken) ∧
    b.strips = (if e.kind = .strip then 1 else a.strips) ∧
    b = { a with ink := b.ink, fired := b.fired, broken := b.broken, strips := b.strips
                 flags := { a.flags with saturated := b.flags.saturated } } := by
  have hb := bookSwath_eq broken e a
  rw [hl, Option.getD_some] at hb
  generalize bookSwath broken e a = b at hb ⊢
  generalize b.flags.saturated = x at hb
  subst hb
  exact ⟨rfl, rfl, rfl, rfl, rfl⟩

/-! ### The ending of a grant (R15, R16) -/

/-- R15, R16: the state once the charges and the swath of the head entry are booked, with the account `b` after it. -/
def grantBooked (broken : Bool) (e : QEntry) (q : List QEntry) (l : List ChargeRec) (slot : Nat) (b : Account) (s : State) : State :=
  { s with
    isc.chans := spentChans l s.isc.chans
    cu.printAccts := s.cu.printAccts.modify slot (fun _ => some b)
    rc := { s.rc with
      fireTimer := none
      queue := { e with state := .fired } :: q
      jobs := s.rc.jobs.modify slot (fun o => o.map (fun j =>
        if broken then { j with broken := min 4294967295 (j.broken + 1) }
        else { j with fired := min 4294967295 (j.fired + 1) })) } }

/-- R16: SWATH_BROKEN for a broken swath. -/
def brokenRaised (broken : Bool) (e : QEntry) (s : State) : State :=
  if broken then raise .swathBroken (some e.job) s else s

theorem endGrant_at {broken : Bool} {e : QEntry} {slot : Nat} {s x : State}
    (hx : commit (e.charges.getD []) (updEntry e.queueTag (fun e => { e with state := .fired }) { s with rc.fireTimer := none }) = x)
    (hslot : slotOf x e.job = some slot) :
    endGrant broken e s = advanceSwath slot e (stripEvents slot e.kind
      (brokenRaised broken e (updJob slot (countSwath broken) (updPrint slot (bookSwath broken e) x)))) := by
  unfold endGrant
  simp only [hx, hslot]
  rfl

theorem endGrant_eq {broken : Bool} {e : QEntry} {q : List QEntry} {l : List ChargeRec} {slot : Nat} {a : Account} {s : State}
    (hq : s.rc.queue = e :: q) (hl : e.charges = some l) (ht : ∀ x ∈ q, x.queueTag ≠ e.queueTag) (hslot : slotOf s e.job = some slot)
    (ha : printAt s slot = some a) (hn : NoTrigger l { s with isc.chans := spentChans l s.isc.chans }) :
    endGrant broken e s = advanceSwath slot e (stripEvents slot e.kind
      (brokenRaised broken e (grantBooked broken e q l slot (bookSwath broken e a) s))) := by
  have hcommit : commit (e.charges.getD []) (updEntry e.queueTag (fun e => { e with state := .fired }) { s with rc.fireTimer := none })
      = { s with isc.chans := spentChans l s.isc.chans, rc.fireTimer := none, rc.queue := { e with state := .fired } :: q } := by
    have hy : updEntry e.queueTag (fun e => { e with state := .fired }) { s with rc.fireTimer := none }
        = { s with rc.fireTimer := none, rc.queue := { e with state := .fired } :: q } := by
      simp only [updEntry, hq]
      rw [map_tag e q _ ht]
    have hc : e.charges.getD [] = l := by rw [hl]; rfl
    rw [hc, hy]
    refine commit_eq ?_
    exact hn
  have hjobs : countSwath broken = fun j => if broken then { j with broken := min 4294967295 (j.broken + 1) }
      else { j with fired := min 4294967295 (j.fired + 1) } := rfl
  rw [endGrant_at hcommit (slot := slot) hslot]
  congr 3
  simp only [grantBooked, updJob, updPrint, hjobs]
  rw [print_modify s slot _ (fun _ => some (bookSwath broken e a)) (by rw [ha]; rfl)]

/-! ### What follows the fire (R15, R20, R21) -/

/-- R21: a swath that neither opens nor ends the strip of its job makes no strip event. -/
theorem stripEvents_none {slot : Nat} {k : SwathKind} {s : State} {j : Job} (hj : jobAt s slot = some j)
    (h : if k = .strip then j.strip ≠ .none else j.strip ≠ .inStrip) : stripEvents slot k s = s := by
  unfold stripEvents
  simp only [hj]
  split at h <;> simp_all

/-- R15, R20: with advance 0 the fired head entry leaves the queue. -/
theorem advanceSwath_retires {slot : Nat} {e : QEntry} {q : List QEntry} {s : State} {j : Job} (hz : e.advance = 0)
    (hq : s.rc.queue = { e with state := .fired } :: q) (ht : ∀ x ∈ q, x.queueTag ≠ e.queueTag)
    (hslot : slotOf s e.job = some slot) (hj : jobAt s slot = some j) (hs : j.state ≠ .ending) :
    advanceSwath slot e s = roomed { s with rc.queue := q } := by
  have hqueue : (updEntry e.queueTag (fun e => { e with state := .advancing }) s).rc.queue.filter (fun x => x.queueTag != e.queueTag) = q := by
    have hmap : ({ e with state := .fired } :: q).map (fun x => if x.queueTag = e.queueTag then { x with state := .advancing } else x)
        = { e with state := .advancing } :: q := map_tag { e with state := .fired } q (fun x => { x with state := .advancing }) ht
    simp only [updEntry, hq, hmap]
    exact filter_tag (e := { e with state := .advancing }) ht
  unfold advanceSwath
  simp only [if_pos hz]
  unfold retire
  rw [hqueue, roomRose_eq]
  refine endIfEmpty_idle (slot := slot) (j := j) ?_ ?_ (fun h => hs h.1)
  · unfold slotOf
    rw [roomed_jobs]
    exact hslot
  · unfold jobAt
    rw [roomed_jobs]
    exact hj

end Sys2Proof.Machine

open Sys2Proof Sys2Proof.Machine

/-- Settles O48: `endGrant_eq` books the grant; what follows is a retirement or an advance. -/
theorem firedAndBrokenEndTheGrant : Obligations.FiredAndBrokenEndTheGrant := by
  intro broken e q slot j a l s hq he hl ht hslot hj ha chans hn
  refine ⟨bookSwath broken e a, settle (endGrant broken e (begin s)), ?_⟩
  intro booked x
  have hexec : exec (if broken then .broken true e.queueTag else .fired true e.queueTag) s = .next (settle (endGrant broken e (begin s))) := by
    cases broken <;> exact congrArg Host.Outcome.next (onReport_head hq he _)
  have hend : endGrant broken e (begin s) = advanceSwath slot e (stripEvents slot e.kind x) :=
    endGrant_eq (s := begin s) hq hl ht hslot ha hn
  have hxrc : x.rc = booked.rc := by simp only [x]; split <;> simp only [raise_rc]
  refine ⟨hexec, fun hz hs hstrip => follows_iff ?_, fun hz => follows_iff ?_, bookSwath_fields broken a hl⟩
  · have hxjobs : x.rc.jobs = s.rc.jobs.modify slot (fun o => o.map (countSwath broken)) := congrArg Rc.jobs hxrc
    have hk : jobAt x slot = some (countSwath broken j) :=
      (jobAt_modify slot slot _ hxjobs).trans (by rw [if_pos rfl, hj, Option.map_some])
    obtain ⟨hks, hkt⟩ : (countSwath broken j).state = j.state ∧ (countSwath broken j).strip = j.strip := by
      cases broken <;> exact ⟨rfl, rfl⟩
    have hxs : slotOf x e.job = some slot :=
      (slotOf_modify (f := countSwath broken) e.job slot (by intro k; cases broken <;> rfl) hxjobs).trans hslot
    rw [hend, stripEvents_none hk (hkt.symm ▸ hstrip),
      advanceSwath_retires hz (by rw [hxrc]) ht hxs hk (hks.symm ▸ hs)]
  · rw [hend, advanceSwath, if_neg hz]

end

section
/-! Head records that discard or end the grant (O49). -/

namespace Sys2Proof.Machine

/-! ### Records of the head link (R13, R29) -/

/-- R13, R29: a report that names no GRANTED entry only clears the stale tag it carries. -/
theorem onReport_stale {s : State} {tag : Nat} (h : ∀ e, grantedEntry s = some e → e.queueTag ≠ tag) (f : QEntry → State → State) :
    onReport true tag f s = { s with out := [], rc.stale := if s.rc.stale = some tag then none else s.rc.stale } := by
  have hr : reported s tag = none := by
    unfold reported
    split
    · rename_i e he
      exact if_neg (h e he)
    · rfl
  simp only [onReport, if_true, hr, clearStale, begin_rc]
  by_cases hs : s.rc.stale = some tag
  · simp only [hs, if_true]
    rfl
  · simp only [hs, if_false]
    rfl

theorem breakGrant_none {s : State} (h : grantedEntry s = none) : breakGrant s = s := by
  unfold breakGrant
  rw [h]

theorem breakGrant_some {s : State} {e : QEntry} (h : grantedEntry s = some e) : breakGrant s = endGrant true e s := by
  unfold breakGrant
  rw [h]

/-- R16: a raised condition does not touch the grant in flight. -/
theorem grantedEntry_raise (c : Cond) (sub : Option Nat) (s : State) : grantedEntry (raise c sub s) = grantedEntry s := by
  unfold grantedEntry
  rw [raise_rc]

/-! ### NOT_FIRED (R17) -/

/-- R17: the state after NOT_FIRED for a grant that was not revoked. -/
def requeued (e : QEntry) (q : List QEntry) (l : List ChargeRec) (s : State) : State :=
  { s with
    isc.chans := releasedChans l s.isc.chans
    out := s.out ++ [.askState]
    rc := { s.rc with
      fireTimer := none, head := .notReady
      queue := { e with state := .queued, charges := none, revoked := none } :: q } }

theorem unfired_eq {s : State} {e : QEntry} {q : List QEntry} {l : List ChargeRec} (hq : s.rc.queue = e :: q)
    (hr : e.revoked ≠ some true) (hl : e.charges = some l) (ht : ∀ x ∈ q, x.queueTag ≠ e.queueTag) :
    unfired e s = requeued e q l s := by
  unfold unfired
  rw [hl, Option.getD_some, release_eq, if_neg hr]
  simp only [headNotReady, requeue, updEntry, hq]
  rw [map_tag e q (fun e => { e with state := .queued, charges := none, revoked := none }) ht]
  rfl

/-- R9: the media path is idle with no advance, no stroke and no scan under way. -/
theorem pathIdle_of {s : State} (h1 : ∀ a g, s.mpc.exec ≠ .moving a g) (h2 : ∀ a r, s.mpc.exec ≠ .atStop a r)
    (h3 : ∀ left, s.mpc.cutter ≠ .stroke left) (h4 : ∀ c ∈ s.ccu.checks, c.state ≠ .measuring) : pathIdle s = true := by
  have hc : s.ccu.checks.all (fun c => c.state != .measuring) = true :=
    List.all_eq_true.2 (fun c hm => by simpa using h4 c hm)
  have hgo : goAsserted s = false := by
    unfold goAsserted
    split
    · rename_i left h
      exact absurd h (h3 left)
    · rfl
  unfold pathIdle
  rw [hc, hgo]
  split
  · rename_i a g h
    exact absurd h (h1 a g)
  · rename_i a r h
    exact absurd h (h2 a r)
  · rfl

/-- R10 test 3: out of a hold and with the cover settled, a head that is not READY holds the head swath. -/
theorem holdReason_head {s : State} (j : Job) (e : QEntry) (h1 : s.lc.hold = .none) (h2 : s.lc.cover = .settled)
    (h3 : s.rc.head ≠ .ready) : holdReason s j e = some .headNotReady := by
  simp [holdReason, pathHold, held, unsettled, h1, h2, h3]

end Sys2Proof.Machine

open Sys2Proof Sys2Proof.Machine

/-- Settles O49: by record, and for the GRANTED head entry by the end that each record brings. -/
theorem headReportsEndOrDiscardTheGrant : Obligations.HeadReportsEndOrDiscardTheGrant := by
  intro s now
  refine ⟨fun i tag counts hi => ?_, fun i tag hi h => ?_, fun hg => ?_, ?_⟩
  · simp only [List.mem_cons, List.not_mem_nil, or_false] at hi
    rcases hi with rfl | rfl | rfl | rfl | rfl | rfl <;> rfl
  · simp only [List.mem_cons, List.not_mem_nil, or_false] at hi
    rcases hi with rfl | rfl | rfl <;> exact congrArg Host.Outcome.next (onReport_stale h _)
  · refine ⟨?_, _, rfl, follows_iff ?_⟩
    · show Host.Outcome.next (doFireTimeout s) = _
      unfold doFireTimeout
      rw [if_neg (by simp [hg])]
      rfl
    · refine congrArg settle (breakGrant_none ?_)
      rw [grantedEntry_raise]
      exact hg
  · intro e q l slot j hq he hl ht hslot hj chans
    have hg : grantedEntry s = some e := granted_head hq he
    refine ⟨⟨_, rfl, follows_iff ?_⟩, ⟨_, rfl, follows_iff ?_⟩, fun hr => ?_, fun hr hh hc hx hcut hm hother ho => ?_⟩
    · unfold doFireTimeout
      rw [if_pos (by simp [hg])]
      unfold expireGrant
      rw [breakGrant_some (s := begin s) hg]
      simp only [send, raise_out]
      rfl
    · refine congrArg settle (breakGrant_some ?_)
      rw [grantedEntry_raise]
      exact hg
    · refine ⟨_, congrArg Host.Outcome.next (onReport_head hq he unfired), follows_iff (congrArg settle ?_)⟩
      rw [unfired_revoked (s := begin s) hq hr hl ht hslot, ← roomed_updJob]
      rfl
    · intro x
      have hrep : exec (.notFired true e.queueTag) s = .next (settle (requeued e q l (begin s))) :=
        congrArg Host.Outcome.next ((onReport_head hq he unfired).trans (congrArg settle (unfired_eq (s := begin s) hq hr hl ht)))
      have hset := settle_hold (s := requeued e q l (begin s)) rfl rfl hother
        (pathIdle_of (by rw [show (requeued e q l (begin s)).mpc.exec = .idle from hx]; nofun)
          (by rw [show (requeued e q l (begin s)).mpc.exec = .idle from hx]; nofun) hcut hm)
        ho (by simp [stopFree, requeued, hx]) hslot hj (holdReason_head j _ hh hc (by simp [requeued])) (by nofun)
      rw [hrep, hset]
      rfl

end

section
/-! Admission of the head swath (O50). -/

namespace Sys2Proof.Machine

/-! ### The first channel that a test of R10 finds -/

theorem dropChannels_sorted (drops : List DropEntry) : (dropChannels drops).Pairwise (· < ·) :=
  List.pairwise_lt_range.filter _

theorem dropChannels_nodup (drops : List DropEntry) : (dropChannels drops).Nodup := List.nodup_range.filter _

theorem find_first {l : List Nat} {p : Nat → Bool} {c : Nat} (hl : l.Pairwise (· < ·)) (hc : c ∈ l) (hp : p c = true)
    (hb : ∀ d ∈ l, d < c → p d = false) : l.find? p = some c := by
  induction l with
  | nil => cases hc
  | cons d t ih =>
    obtain ⟨hd, ht⟩ := List.pairwise_cons.1 hl
    rcases List.mem_cons.1 hc with rfl | hct
    · exact List.find?_cons_of_pos hp
    · rw [List.find?_cons_of_neg (by simp [hb d (by simp) (hd c hct)])]
      exact ih ht hct (fun x hx => hb x (by simp [hx]))

theorem find_nobody {l : List Nat} {p : Nat → Bool} (h : ∀ c ∈ l, p c = false) : l.find? p = none :=
  List.find?_eq_none.2 (fun c hc => by simp [h c hc])

/-! ### A hold of the head swath (R10, R11) -/

/-- R11: the state of a hold for the reason `r` in which the channels `asked` are requested with the pump busy. -/
def holdState (slot : Nat) (j : Job) (r : HoldReason) (asked : List Nat) (s : State) : State :=
  let x : State := { s with
    rc.jobs := s.rc.jobs.modify slot (fun o => o.map (fun j => { j with hold := some r }))
    isc.chans := asked.foldl (fun cs c => cs.modify c (fun x => { x with refill := .queued })) s.isc.chans
    isc.pumpQueue := s.isc.pumpQueue ++ asked.map (fun c => ⟨c, (chanAt s c).lowFloat⟩) }
  if j.hold = some r then x else raise .jobHeld (some j.tag) x

/-- R11: the channels that a hold requests. -/
def askedChans (s : State) (e : QEntry) : List Nat :=
  ((dropChannels e.drops).filter (wantsInk s e)).filter (fun c => (chanAt s c).refill == .idle)

/-- R11: the hold as recorded, before its refill requests. -/
def holdNoted (slot : Nat) (j : Job) (r : HoldReason) (s : State) : State :=
  let x := updJob slot (fun j => { j with hold := some r }) s
  if j.hold = some r then x else raise .jobHeld (some j.tag) x

theorem holdNoted_isc (slot : Nat) (j : Job) (r : HoldReason) (s : State) : (holdNoted slot j r s).isc = s.isc :=
  held_isc slot j r s

/-- R11: a hold without refill requests. -/
theorem holdState_nil (slot : Nat) (j : Job) (r : HoldReason) (s : State) : holdState slot j r [] s = holdNoted slot j r s := by
  unfold holdState holdNoted
  simp only [List.map_nil, List.append_nil, List.foldl_nil]
  rfl

theorem recordHold_eq (slot : Nat) (j : Job) (e : QEntry) (r : HoldReason) (s : State) :
    recordHold slot j e r s = askInk r e (holdNoted slot j r s) := rfl

theorem wantsInk_congr {s y : State} (h : y.isc = s.isc) (e : QEntry) : wantsInk y e = wantsInk s e := by
  unfold wantsInk shortOfInk testCharge chargeNow gainAt chanAt
  rw [h]

/-- R11: a reason that asks for no ink. -/
theorem recordHold_plain {slot : Nat} {j : Job} {e : QEntry} {r : HoldReason} {s : State} (h : r.asksInk = false) :
    recordHold slot j e r s = holdState slot j r [] s := by
  rw [recordHold_eq, holdState_nil, askInk_none (by simp [h])]

/-- R11: a reason that asks for ink, with the pump busy or nothing to ask for. -/
theorem recordHold_asks {slot : Nat} {j : Job} {e : QEntry} {r : HoldReason} {s : State} (h : r.asksInk = true)
    (he : ∀ c ∈ dropChannels e.drops, (chanAt s c).enabled = true) (hq : askedChans s e = [] ∨ s.isc.pump ≠ .free) :
    recordHold slot j e r s = holdState slot j r (askedChans s e) s := by
  have hisc := holdNoted_isc slot j r s
  have hchan : ∀ c, chanAt (holdNoted slot j r s) c = chanAt s c := fun c => by unfold chanAt; rw [hisc]
  rw [recordHold_eq]
  rcases hq with hq | hq
  · rw [hq, holdState_nil]
    refine askInk_none (fun _ c hc hw hi => ?_)
    have : c ∈ askedChans s e := by
      rw [wantsInk_congr hisc] at hw
      rw [hchan] at hi
      simp [askedChans, hc, hw, hi]
    rw [hq] at this
    cases this
  · unfold askInk
    rw [if_pos h, wantsInk_congr hisc, foldl_placeRequest_busy _ _ (by rw [hisc]; exact hq) ((dropChannels_nodup _).filter _)
      (fun c hc => by rw [hchan]; exact he c (List.mem_filter.1 hc).1)]
    simp only [hchan, hisc]
    unfold holdState holdNoted askedChans
    simp only [raise_eq_lc]
    split <;> rfl

/-- R9: a hold changes no level. -/
theorem levels_holdState (slot : Nat) (j : Job) (r : HoldReason) (asked : List Nat) (s : State) :
    levels (holdState slot j r asked s) = levels s := by
  have hfold : ∀ (l : List Nat) (cs : List Channel),
      (l.foldl (fun cs c => cs.modify c (fun x => { x with refill := .queued })) cs).map (fun c => c.level)
        = cs.map (fun c => c.level) := by
    intro l
    induction l with
    | nil => intro cs; rfl
    | cons c t ih => intro cs; rw [List.foldl_cons, ih]; exact map_modify_of_eq _ _ _ _ (fun _ _ => rfl)
  unfold levels holdState
  dsimp only
  split
  · exact hfold asked s.isc.chans
  · rw [raise_isc]
    exact hfold asked s.isc.chans

/-- R9 to R11: what HEAD_READY finds in the queue: a QUEUED head entry of an OPEN job that is considered. -/
structure HeadWaits (s : State) (e : QEntry) (q : List QEntry) (slot : Nat) (j : Job) : Prop where
  queue : s.rc.queue = e :: q
  queued : e.state = .queued
  others : ∀ x ∈ q, x.state ≠ .granted
  idle : pathIdle s = true
  opened : ∀ i k, jobAt s i = some k → k.state = .opened
  still : stopFree s = false
  slotFound : slotOf s e.job = some slot
  jobFound : jobAt s slot = some j

/-- R10, R11: the considered head swath is held. -/
theorem HeadWaits.settle_hold {s : State} {e : QEntry} {q : List QEntry} {slot : Nat} {j : Job} {r : HoldReason} {asked : List Nat}
    (h : HeadWaits s e q slot j) (hr : holdReason s j e = some r) (ha : recordHold slot j e r s = holdState slot j r asked s) :
    settle s = syncCauses (holdState slot j r asked s) := by
  rw [← ha]
  exact settle_held h.queue h.queued h.others h.idle h.opened h.still h.slotFound h.jobFound hr (by rw [ha]; exact levels_holdState ..)

/-- R12: the considered head swath is granted. -/
theorem HeadWaits.settle_grant {s : State} {e : QEntry} {q : List QEntry} {slot : Nat} {j : Job} (h : HeadWaits s e q slot j)
    (hr : holdReason s j e = none) : settle s = syncCauses (grant slot e s) := by
  unfold settle
  rw [react_quiet (quiet_of_open h.opened h.still)]
  unfold admission
  simp only [considered_open h.queue h.queued h.others h.idle h.opened, h.slotFound, h.jobFound, hr]

/-- R12, R36: the reservations of a grant. -/
theorem reserve_eq (drops : List DropEntry) (s : State) : reserve drops s = { s with
    isc.chans := (dropChannels drops).foldl (fun cs c => cs.modify c (fun x =>
      { x with reserved := chargeNow s c (dropCounts drops c), residue := residueNow s c (dropCounts drops c) })) s.isc.chans } :=
  foldl_chans (dropChannels drops) (fun c => c) (fun c x =>
    { x with reserved := chargeNow s c (dropCounts drops c), residue := residueNow s c (dropCounts drops c) }) s

/-- R12, R36: a grant written out. -/
theorem grant_eq {s : State} {e : QEntry} {q : List QEntry} {slot : Nat} (hq : s.rc.queue = e :: q)
    (ht : ∀ x ∈ q, x.queueTag ≠ e.queueTag) : grant slot e s = { s with
      out := s.out ++ [.grant e.queueTag e.number e.kind]
      isc.chans := (dropChannels e.drops).foldl (fun cs c => cs.modify c (fun x =>
        { x with reserved := chargeNow s c (dropCounts e.drops c), residue := residueNow s c (dropCounts e.drops c) })) s.isc.chans
      rc := { s.rc with
        fireTimer := some 30000
        queue := { e with state := .granted, revoked := some false, charges := some (chargesNow s e.drops) } :: q
        jobs := s.rc.jobs.modify slot (fun o => o.map (fun j => { j with hold := none })) } } := by
  unfold grant updEntry
  rw [hq, map_tag e q (fun x => { x with state := .granted, charges := some (chargesNow s e.drops), revoked := some false }) ht]
  dsimp only
  rw [reserve_eq]
  rfl

/-- R10 tests 1, 2 and 4 to 8, where the head is READY. -/
theorem pathHold_ready {s : State} (j : Job) (e : QEntry) (h : s.rc.head = .ready) : pathHold s j e =
    if s.lc.hold ≠ .none then some .supplyHold
    else if s.lc.cover ≠ .settled then some .coverOpen
    else if s.mpc.cutter = .jammed then some .cutterJammed
    else match s.mpc.exec, s.mpc.roll with
      | .stalled _, _ => some .feedStalled
      | _, none => some .noRoll
      | _, some r =>
        if r.media ≠ j.media then some .wrongMedia else if r.length - r.pos < e.advance then some .rollEnd else none := by
  have hheld : held s = true ↔ s.lc.hold ≠ .none := by cases hh : s.lc.hold <;> simp [held, hh]
  have hcover : unsettled s = true ↔ s.lc.cover ≠ .settled := by cases hc : s.lc.cover <;> simp [unsettled, hc]
  unfold pathHold
  simp only [hheld, hcover, h, ne_eq, not_true, if_false]
  cases s.mpc.exec <;> cases s.mpc.roll <;> rfl

/-- R10, R11: a reason of the media path asks for no ink. -/
theorem pathHold_asks_none {s : State} {j : Job} {e : QEntry} {r : HoldReason} (h : pathHold s j e = some r) : r.asksInk = false := by
  unfold pathHold at h
  split_ifs at h
  iterate 4 (cases h; rfl)
  split at h
  · cases h; rfl
  · split at h
    · cases h; rfl
    · split_ifs at h <;> cases h <;> rfl

/-- R10 test 9. -/
theorem inkHold_off {s : State} {e : QEntry} {c : Nat} (hc : c ∈ dropChannels e.drops) (h : (chanAt s c).enabled = false)
    (hb : ∀ d ∈ dropChannels e.drops, d < c → (chanAt s d).enabled = true) : inkHold s e = some (.channelOff c) := by
  unfold inkHold
  simp only [find_first (p := fun c => !(chanAt s c).enabled) (dropChannels_sorted e.drops) hc (by simp [h]) (fun d hd hlt => by simp [hb d hd hlt])]

/-- R10 test 9 finds no channel. -/
theorem find_off_none {s : State} {l : List Nat} (h : ∀ c ∈ l, (chanAt s c).enabled = true) :
    l.find? (fun c => !(chanAt s c).enabled) = none := by
  refine find_nobody (fun d hd => ?_)
  rw [h d hd]
  rfl

/-- R10 test 10 finds no channel. -/
theorem find_unknown_none {s : State} {l : List Nat} (h : ∀ c ∈ l, (chanAt s c).level ≠ none) :
    l.find? (fun c => (chanAt s c).level.isNone) = none :=
  find_nobody (fun d hd => Bool.eq_false_iff.2 (fun hn => h d hd (Option.isNone_iff_eq_none.1 hn)))

section Enabled
variable {s : State} {e : QEntry} (hon : ∀ c ∈ dropChannels e.drops, (chanAt s c).enabled = true)
include hon

/-- R10 test 10. -/
theorem inkHold_unknown {c : Nat} (hc : c ∈ dropChannels e.drops) (h : (chanAt s c).level = none)
    (hb : ∀ d ∈ dropChannels e.drops, d < c → (chanAt s d).level ≠ none) : inkHold s e = some (.inkUnknown c) := by
  unfold inkHold
  simp only [find_off_none hon,
    find_first (p := fun c => (chanAt s c).level.isNone) (dropChannels_sorted e.drops) hc (by simp [h])
      (fun d hd hlt => Bool.eq_false_iff.2 (fun h => hb d hd hlt (Option.isNone_iff_eq_none.1 h)))]

variable (hknown : ∀ c ∈ dropChannels e.drops, (chanAt s c).level ≠ none)
include hknown

/-- R10 test 11. -/
theorem inkHold_never {c : Nat} (hc : c ∈ dropChannels e.drops) (h : (chanAt s c).cfg.full - (chanAt s c).cfg.floor < testCharge s e c)
    (hb : ∀ d ∈ dropChannels e.drops, d < c → testCharge s e d ≤ (chanAt s d).cfg.full - (chanAt s d).cfg.floor) :
    inkHold s e = some (.inkNever c) := by
  unfold inkHold
  simp only [find_off_none hon,
    find_unknown_none hknown,
    find_first (p := fun c => decide ((chanAt s c).cfg.full - (chanAt s c).cfg.floor < testCharge s e c))
      (dropChannels_sorted e.drops) hc (by simpa using h) (fun d hd hlt => by simpa using hb d hd hlt)]

variable (hfits : ∀ c ∈ dropChannels e.drops, testCharge s e c ≤ (chanAt s c).cfg.full - (chanAt s c).cfg.floor)
include hfits

/-- R10 test 12 decides where tests 9 to 11 let the swath pass. -/
theorem inkHold_last : inkHold s e = ((dropChannels e.drops).find? (shortOfInk s e)).map .inkWait := by
  unfold inkHold
  simp only [find_off_none hon,
    find_unknown_none hknown,
    find_nobody (p := fun c => decide ((chanAt s c).cfg.full - (chanAt s c).cfg.floor < testCharge s e c))
      (fun c hc => by simpa using hfits c hc)]
  cases (dropChannels e.drops).find? (shortOfInk s e) <;> rfl

end Enabled

/-- R10 test 12: a channel is short where its known level is below its floor and the charge. -/
theorem shortOfInk_iff {s : State} {e : QEntry} {c : Nat} : shortOfInk s e c = true
    ↔ ∃ v, (chanAt s c).level = some v ∧ v < (chanAt s c).cfg.floor + testCharge s e c := by
  unfold shortOfInk
  cases (chanAt s c).level <;> simp

/-- R11: the channels that a hold requests, by one test. -/
theorem askedChans_eq (s : State) (e : QEntry) : askedChans s e = (dropChannels e.drops).filter (fun c =>
    (chanAt s c).enabled && (chanAt s c).refill == .idle && (match (chanAt s c).level with
      | none => true
      | some v => decide (v < (chanAt s c).cfg.floor + testCharge s e c))) := by
  unfold askedChans
  rw [List.filter_filter]
  refine List.filter_congr (fun c _ => ?_)
  unfold wantsInk shortOfInk
  cases (chanAt s c).level <;> cases (chanAt s c).enabled <;> simp [Bool.and_comm]

end Sys2Proof.Machine

open Sys2Proof Sys2Proof.Machine

/-- Settles O50: HEAD_READY leaves the head swath to admission, whose first applying test is told apart test by test. -/
theorem headReadyAdmitsOrHoldsTheHeadSwath : Obligations.HeadReadyAdmitsOrHoldsTheHeadSwath := by
  intro e q slot j s hq he hg ht hslot hj ho hmove hstop hoff hcut hmeas used scaled charge limit short path now holding heldFor
    asked queueing
  have hexec : exec (.headReady true) s = .next (settle now) := rfl
  have hwait : HeadWaits now e q slot j := {
    queue := hq, queued := he, others := hg, idle := pathIdle_of hmove hstop hcut hmeas, opened := ho
    still := by
      unfold stopFree
      split
      · rename_i a r h
        exact absurd h (hstop a r)
      · rename_i a r h
        rw [Bool.not_eq_false']
        exact hoff a r h
      · rfl
    slotFound := hslot, jobFound := hj }
  have hpath : pathHold now j e = path := pathHold_ready j e rfl
  have hink : path = none → holdReason now j e = inkHold now e := fun h => by unfold holdReason; rw [hpath, h]
  have hplain : ∀ r, r.asksInk = false → holdReason now j e = some r → exec (.headReady true) s = .next (heldFor r) := by
    intro r hr h
    rw [hexec, hwait.settle_hold h (recordHold_plain hr)]
    rfl
  have hasked : askedChans now e = asked := askedChans_eq now e
  have hasks : ∀ r, r.asksInk = true → holdReason now j e = some r → (∀ c ∈ used, (chanAt s c).enabled = true) → queueing →
      exec (.headReady true) s = .next (holding asked r) := by
    intro r hr h hon hqueue
    have hrec := recordHold_asks (slot := slot) (j := j) (s := now) hr hon (by rw [hasked]; exact hqueue)
    rw [hexec, hwait.settle_hold h hrec, hasked]
    rfl
  refine ⟨fun r h => ?_, fun hfree => ⟨fun c hc hd hb => ?_, fun hon => ⟨fun c hc hu hb hqueue => ?_, fun hknown =>
    ⟨fun c hc hl hb => ?_, fun hfits => ⟨fun c hc hs hb hqueue => ?_, fun hs => ?_⟩⟩⟩⟩⟩
  · have hr : pathHold now j e = some r := hpath.trans h
    exact hplain r (pathHold_asks_none hr) (by unfold holdReason; rw [hr])
  · exact hplain _ rfl ((hink hfree).trans (inkHold_off hc hd hb))
  · exact hasks _ rfl ((hink hfree).trans (inkHold_unknown hon hc hu hb)) hon hqueue
  · exact hplain _ rfl ((hink hfree).trans (inkHold_never hon hknown hc hl hb))
  · refine hasks _ rfl ((hink hfree).trans ((inkHold_last (s := now) hon hknown hfits).trans ?_)) hon hqueue
    rw [find_first (p := shortOfInk now e) (dropChannels_sorted _) hc (shortOfInk_iff.2 hs)
      (fun d hd hlt => Bool.eq_false_iff.2 (fun h => hb d hd hlt (shortOfInk_iff.1 h)))]
    rfl
  · have hgrant := hwait.settle_grant ((hink hfree).trans ((inkHold_last (s := now) hon hknown hfits).trans (by
      rw [find_nobody (p := shortOfInk now e) (fun c hc => Bool.eq_false_iff.2 (fun h => hs c hc (shortOfInk_iff.1 h)))]
      rfl)))
    rw [hexec, hgrant, grant_eq (s := now) hq ht]
    rfl

end

section
/-! The start of a hold (O56). -/

namespace Sys2Proof.Machine

/-! ### The mechanisms at the start of a hold -/

/-- R81: the pump at the start of a hold. -/
theorem suspendPump_eq (s : State) : suspendPump s = { s with
    isc.pump := match s.isc.pump with
      | .running d => .suspended d
      | p => p } := by
  unfold suspendPump
  cases hp : s.isc.pump with
  | running d => rfl
  | free => dsimp only; rw [← hp]
  | suspended d => dsimp only; rw [← hp]

/-- R97: the executor at the start of a hold, with the settle window of a driven feed. -/
theorem holdExec_eq (s : State) : holdExec s = { s with
    mpc.exec := match s.mpc.exec with
      | .moving a g => match g.phase with
        | .driving | .settling => .moving a { g with phase := .holding }
        | .paused => if s.mpc.settle = none then .off a none else .moving a { g with phase := .holding }
        | _ => .moving a g
      | .atStop a r => .off a (some r)
      | e => e
    mpc.settle := match s.mpc.exec with
      | .moving _ g => if g.phase = .driving then some 100 else s.mpc.settle
      | _ => s.mpc.settle } := by
  unfold holdExec
  cases he : s.mpc.exec with
  | moving a g =>
    unfold holdMoving stopFeed setExec
    simp only [he]
    cases hp : g.phase with
    | driving => rfl
    | settling => rfl
    | stalling => dsimp only; rw [← he, if_neg nofun]
    | paused => cases s.mpc.settle <;> simp
    | holding => dsimp only; rw [← he, if_neg nofun]
  | atStop a r => rfl
  | idle => dsimp only; rw [← he]
  | stalled a => dsimp only; rw [← he]
  | off a r => dsimp only; rw [← he]

/-- R119: the cutter at the start of a hold. -/
theorem holdCutter_eq (s : State) : holdCutter s = { s with
    mpc.cutter := match s.mpc.cutter with
      | .ready => .off false
      | .stroke _ => .off true
      | c => c
    mpc.strokeTimer := match s.mpc.cutter with
      | .stroke _ => none
      | _ => s.mpc.strokeTimer } := by
  unfold holdCutter
  cases hc : s.mpc.cutter with
  | ready => rfl
  | stroke left => rfl
  | jammed => dsimp only; rw [← hc]
  | off mid => dsimp only; rw [← hc]

end Sys2Proof.Machine

open Sys2Proof Sys2Proof.Machine

/-- Settles O56: by hold state; the start of a hold is what each mechanism does, and last the end of the grant in flight. -/
theorem supplyHoldStopsEveryMechanism : Obligations.SupplyHoldStopsEveryMechanism := by
  intro s now
  have hdeassert : exec .supplyOkDeassert s = .next (doSupplyOkDeassert s) := rfl
  have hassert : exec .supplyOkAssert s = .next (doSupplyOkAssert s) := rfl
  refine ⟨fun h => ?_, fun h => ?_, fun h => ?_, fun h => ?_, fun h => ?_⟩
  · rw [hdeassert]
    unfold doSupplyOkDeassert
    rw [h]
    rfl
  · rw [hdeassert]
    unfold doSupplyOkDeassert
    rw [h]
    rfl
  · rw [hassert]
    unfold doSupplyOkAssert
    rw [h]
    rfl
  · rw [hassert]
    unfold doSupplyOkAssert
    cases hh : s.lc.hold with
    | down => exact absurd hh h
    | none => rfl
    | up => rfl
  · refine ⟨settle (beginHold (begin s)), ?_, ?_⟩
    · rw [hdeassert]
      unfold doSupplyOkDeassert
      rw [h]
    · intro x
      have hx : beginHold (begin s) = breakGrant x := by
        unfold beginHold
        rw [holdCutter_eq, holdExec_eq, suspendPump_eq]
        simp only [raise_eq_lc, x]
        rfl
      have hg : grantedEntry x = grantedEntry s := grantedEntry_raise _ _ _
      exact ⟨fun hn => follows_iff (congrArg settle (hx.trans (breakGrant_none (hg.trans hn)))),
        fun e he => follows_iff (congrArg settle (hx.trans (breakGrant_some (hg.trans he))))⟩

end

section
/-! The end of a settle window and the feed limit (O53). -/

namespace Sys2Proof.Machine

/-! ### The end of a settle window (R88, R91) -/

/-- R88, R100: the state when a settle window has closed, its moved distance handed to the owner of the advance. -/
def windowClosed (a : Advance) (r : Roll) (s : State) : State :=
  let charged := addMedia r.media s.mpc.moved (s.mpc.moved * r.width)
  { s with
    out := []
    mpc.settle := none
    mpc.moved := 0
    mpc.resetWindow := false
    cu := if s.mpc.moved = 0 ∨ s.mpc.resetWindow = true then s.cu else match a.owner with
      | .print slot => { s.cu with printAccts := s.cu.printAccts.modify slot (fun o => o.map charged) }
      | .house => { s.cu with house := charged s.cu.house } }

theorem handCharge_eq {s : State} {a : Advance} {g : Segment} {r : Roll} (hr : s.mpc.roll = some r) (hx : s.mpc.exec = .moving a g) :
    handCharge { begin s with mpc.settle := none } = windowClosed a r s := by
  unfold handCharge windowClosed
  simp only [begin, hx, hr]
  split
  · rfl
  · cases a.owner <;> rfl

/-- R91: with no open window nothing is handed and the executor stays. -/
theorem handCharge_still {s : State} (h : ∀ a g, s.mpc.exec ≠ .moving a g) :
    handCharge s = { s with mpc.moved := 0, mpc.resetWindow := false } := by
  unfold handCharge
  dsimp only
  split
  · rename_i a g r hx hr
    exact absurd hx (h a g)
  · rfl

theorem afterWindow_still {s : State} (h : ∀ a g, s.mpc.exec ≠ .moving a g) : afterWindow s = s := by
  unfold afterWindow
  split
  · rename_i a g hx
    exact absurd hx (h a g)
  · rfl

theorem afterWindow_settling {s : State} {a : Advance} {g : Segment} (hx : s.mpc.exec = .moving a g) (hg : g.phase = .settling) :
    afterWindow s = runOn a s := by
  unfold afterWindow
  simp only [hx, hg]

theorem stall_still {s : State} (h : ∀ a g, s.mpc.exec = .moving a g → g.phase ≠ .driving) : stall s = s := by
  unfold stall
  split
  · rename_i a g hx
    rw [if_neg (h a g hx)]
  · rfl

/-! ### One step of the executor (R91, R92) -/

theorem runOn_ends {a : Advance} {s : State} (h : firstReached s = none) (hp : ¬ pos s < a.target) :
    runOn a s = advanceEnded a (setExec .idle s) := by
  unfold runOn proceed
  simp only [h, if_neg hp]

theorem runOn_meas {a : Advance} {s : State} {id : Nat} (h : firstReached s = some (.meas id)) :
    runOn a s = scanTest id (setExec (.atStop a (.meas id)) s) := by
  unfold runOn proceed
  simp only [h]

theorem runOn_cut {a : Advance} {s : State} {p : Nat} (h : firstReached s = some (.cut p)) (hs : skipTest s p = false) :
    runOn a s = strokeTry p (guardTest p (setExec (.atStop a (.cut p)) s)) := by
  unfold runOn proceed
  simp only [h, hs, Bool.false_eq_true, if_false]

/-- R111: a skipped cut behind which no stop is reached. -/
theorem runOn_skips {a : Advance} {s : State} {p : Nat} (h : firstReached s = some (.cut p)) (hs : skipTest s p = true)
    (hc : s.mpc.cuts ≠ []) (hn : firstReached (skipCut p (setExec (.atStop a (.cut p)) s)) = none) :
    runOn a s = let z := skipCut p (setExec (.atStop a (.cut p)) s)
      if pos z < a.target then startSegment a z else advanceEnded a (setExec .idle z) := by
  obtain ⟨n, hlen⟩ : ∃ n, s.mpc.cuts.length = n + 1 := Nat.exists_eq_succ_of_ne_zero (by simpa using hc)
  unfold runOn proceed
  simp only [h, hs, if_true, hlen]
  unfold proceed
  simp only [hn]

/-! ### The skip of a cut (R111) -/

theorem skipTest_iff {s : State} {p : Nat} : skipTest s p = true ↔ ∃ c ∈ s.ccu.checks, c.state ≠ .free ∧ c.state ≠ .closed ∧
    ∃ b, c.stripStart = some b ∧ b ≤ p ∧ ∀ z, c.stripEnd = some z → p < z := by
  have hspan : ∀ c : Check, c.spans p = true ↔ c.state ≠ .free ∧ c.state ≠ .closed ∧
      ∃ b, c.stripStart = some b ∧ b ≤ p ∧ ∀ z, c.stripEnd = some z → p < z := by
    intro c
    unfold Check.spans Check.live
    cases c.stripStart <;> cases c.stripEnd <;> simp [and_assoc]
  unfold skipTest
  simp only [List.any_eq_true, hspan]

theorem raiseSkipped_comm_mpc (l : List CutOwner) (s : State) (x : Mpc) :
    raiseSkipped l { s with mpc := x } = { raiseSkipped l s with mpc := x } := by
  have hfold : ∀ (l : List Nat) (s : State), l.foldl (fun s t => raise .cutSkipped (some t) s) { s with mpc := x }
      = { l.foldl (fun s t => raise .cutSkipped (some t) s) s with mpc := x } := by
    intro l
    induction l with
    | nil => intro s; rfl
    | cons t l ih => intro s; simp only [List.foldl_cons, raise_comm_mpc, ih]
  unfold raiseSkipped
  split
  · exact raise_comm_mpc ..
  · exact hfold _ _

theorem raiseSkipped_keeps (l : List CutOwner) (s : State) :
    (raiseSkipped l s).ccu = s.ccu ∧ (raiseSkipped l s).lc.cover = s.lc.cover := by
  have hfold : ∀ (l : List Nat) (s : State), (l.foldl (fun s t => raise .cutSkipped (some t) s) s).ccu = s.ccu
      ∧ (l.foldl (fun s t => raise .cutSkipped (some t) s) s).lc.cover = s.lc.cover := by
    intro l
    induction l with
    | nil => intro s; exact ⟨rfl, rfl⟩
    | cons t l ih =>
      intro s
      obtain ⟨hccu, hcover⟩ := ih (raise .cutSkipped (some t) s)
      exact ⟨by rw [List.foldl_cons, hccu, raise_ccu], by rw [List.foldl_cons, hcover, raise_cover]⟩
  unfold raiseSkipped
  split
  · exact ⟨raise_ccu .., raise_cover ..⟩
  · exact hfold _ _

/-- R107, R111: the cut leaves the list uncut. -/
theorem skipCut_eq {s : State} {p : Nat} {e : CutEntry} (he : cutAt s p = some e) (h : ∀ b g, s.mpc.exec ≠ .moving b g) :
    skipCut p s = raiseSkipped e.owners { s with mpc.cuts := s.mpc.cuts.filter (fun e => e.position != p) } := by
  unfold skipCut removeCut
  simp only [he]
  rw [reviseSegment_still]
  exact h

/-- R111: CUT_SKIPPED, written out by the tags of the owners. -/
theorem raiseSkipped_eq (l : List CutOwner) (s : State) : raiseSkipped l s =
    if ownerTags l = [] then raise .cutSkipped none s else (ownerTags l).foldl (fun z tag => raise .cutSkipped (some tag) z) s := by
  unfold raiseSkipped
  cases ownerTags l <;> rfl

/-- R111: the executor stands at the stop of an entry that has left the list, CUT_SKIPPED raised. -/
def cutPassed (a : Advance) (e : CutEntry) (w : State) : State :=
  { raiseSkipped e.owners w with mpc := { w.mpc with exec := .atStop a (.cut e.position) } }

theorem firstReached_cutPassed (a : Advance) (e : CutEntry) (w : State) : firstReached (cutPassed a e w) = firstReached w :=
  firstReached_congr rfl rfl (congrArg Ccu.checks (raiseSkipped_keeps e.owners w).1)

/-- R111: with no other stop reached the executor goes on from a skipped cut. -/
theorem runOn_past {a : Advance} {s w : State} {p : Nat} {e : CutEntry} (h : firstReached s = some (.cut p)) (hs : skipTest s p = true)
    (he : cutAt s p = some e) (hw : w = { s with mpc.cuts := s.mpc.cuts.filter (fun e => e.position != p) })
    (hn : firstReached w = none) : runOn a s = runOn a (cutPassed a e w) := by
  obtain rfl : e.position = p := by simpa using List.find?_some he
  have hz : skipCut e.position (setExec (.atStop a (.cut e.position)) s) = cutPassed a e w := by
    unfold cutPassed
    rw [skipCut_eq (s := setExec (.atStop a (.cut e.position)) s) he (by nofun), ← raiseSkipped_comm_mpc, hw]
    rfl
  have hfirst := (firstReached_cutPassed a e w).trans hn
  have hc : s.mpc.cuts ≠ [] := List.ne_nil_of_mem (List.mem_of_find?_eq_some he)
  rw [runOn_skips h hs hc (hz ▸ hfirst), hz]
  dsimp only
  split
  · rename_i ht
    exact (runOn_start a _ hfirst ht).symm
  · rename_i ht
    exact (runOn_ends hfirst ht).symm

/-! ### The guard and the stroke (R112, R114) -/

theorem guardCheck_none {s : State} {e : CutEntry}
    (h : ∀ id, e.guard = some id → (checkAt s id).state = .free ∨ (checkAt s id).state = .closed) : guardCheck s e = none := by
  unfold guardCheck
  split
  · rename_i id hid
    rw [if_neg]
    rcases h id hid with h | h <;> simp [Check.live, h]
  · rfl

theorem guardCheck_some {s : State} {e : CutEntry} {id : Nat} (hid : e.guard = some id) (h1 : (checkAt s id).state ≠ .free)
    (h2 : (checkAt s id).state ≠ .closed) : guardCheck s e = some id := by
  unfold guardCheck
  simp [hid, Check.live, h1, h2]

theorem guardTest_unguarded {s : State} {p : Nat} {e : CutEntry} (he : cutAt s p = some e) (h : guardCheck s e = none) :
    guardTest p s = s := by
  unfold guardTest
  simp only [he, h]

theorem guardTest_kept {s : State} {p id : Nat} {e : CutEntry} (he : cutAt s p = some e) (h : guardCheck s e = some id)
    (hb : stopBeyond (checkAt s id) (cutStop s e) = false) : guardTest p s = s := by
  unfold guardTest
  simp only [he, h, hb, Bool.false_eq_true, if_false]

/-- R112: the guard is dropped, with GUARD_LOST. -/
theorem guardTest_lost {s : State} {p id tag slot : Nat} {e : CutEntry} (he : cutAt s p = some e) (h : guardCheck s e = some id)
    (hb : stopBeyond (checkAt s id) (cutStop s e) = true) (hj : (checkAt s id).job = some tag) (hs : slotOf s tag = some slot) :
    guardTest p s = updPrint slot (fun a => { a with flags.guardLost := true }) (updCut p (fun e => { e with guard := none }) s) := by
  have hbind : (checkAt (updCut p (fun e => { e with guard := none }) s) id).job.bind
      (slotOf (updCut p (fun e => { e with guard := none }) s)) = some slot := by
    rw [show checkAt (updCut p (fun e => { e with guard := none }) s) id = checkAt s id from rfl, hj]
    exact hs
  unfold guardTest
  simp only [he, h, hb, if_true]
  unfold guardLost
  simp only [hbind]

/-- R101: the entry at a position after an update of it. -/
theorem cutAt_updCut {s : State} {p : Nat} {e : CutEntry} {f : CutEntry → CutEntry} (hf : ∀ e, (f e).position = e.position)
    (he : cutAt s p = some e) : cutAt (updCut p f s) p = some (f e) := by
  unfold cutAt updCut at *
  dsimp only
  rw [List.find?_map]
  have hp : ((fun e : CutEntry => e.position == p) ∘ fun e => if e.position = p then f e else e) = fun e => e.position == p := by
    funext x
    by_cases hx : x.position = p <;> simp [hx, hf]
  rw [hp, he]
  have := List.find?_some he
  simp only [beq_iff_eq] at this
  simp [this]

section Stroke
variable {s : State} {p : Nat} {a : Advance} {e : CutEntry}

/-- R114: at its stop a DUE and unguarded entry is stroked just where the cutter is READY, the cover settled and no hold in effect. -/
theorem strokeTry_starts (hx : s.mpc.exec = .atStop a (.cut p)) (he : cutAt s p = some e) (hd : e.state = .due)
    (hg : guardCheck s e = none) (h1 : s.mpc.cutter = .ready) (h2 : s.lc.cover = .settled) (h3 : s.lc.hold = .none) :
    strokeTry p s = startStroke p s := by
  unfold strokeTry strokeCondition
  simp [hx, he, hd, hg, h1, unsettled, h2, held, h3]

theorem strokeTry_waits (h : s.mpc.cutter ≠ .ready ∨ s.lc.cover ≠ .settled) : strokeTry p s = s := by
  unfold strokeTry strokeCondition unsettled
  rw [if_neg]
  rcases h with h | h <;> simp [h]

theorem strokeTry_guarded {id : Nat} (he : cutAt s p = some e) (hg : guardCheck s e = some id) : strokeTry p s = s := by
  unfold strokeTry strokeCondition
  rw [if_neg]
  simp [he, hg]

end Stroke

/-! ### The end of an advance (R20, R24) -/

/-- R20: the end of the advance of the head swath, with no job at its end. -/
theorem advanceEnded_retires {a : Advance} {s : State} {e : QEntry} {q : List QEntry} {slot : Nat} {j : Job} (ha : a.requester = .swath)
    (hq : s.rc.queue = e :: q) (he : e.state = .advancing) (ht : ∀ y ∈ q, y.queueTag ≠ e.queueTag)
    (hslot : slotOf s e.job = some slot) (hj : jobAt s slot = some j) (hs : j.state ≠ .ending) :
    advanceEnded a s = roomed { s with rc.queue := q } := by
  have hadv : advancingEntry s = some e := by
    unfold advancingEntry
    rw [hq, List.find?_cons_of_pos (by simp [he])]
  unfold advanceEnded
  simp only [ha, hadv]
  unfold retire
  rw [hq, filter_tag ht, roomRose_eq]
  refine endIfEmpty_idle (slot := slot) (j := j) ?_ ?_ (fun h => hs h.1)
  · unfold slotOf at hslot ⊢
    rwa [roomed_jobs]
  · unfold jobAt at hj ⊢
    rwa [roomed_jobs]

/-- R24: a finished tail feed takes its job to WAITING. -/
theorem advanceEnded_feeds {a : Advance} {s : State} {slot : Nat} {j : Job} (ha : a.requester = .tailFeed) (ho : a.owner = .print slot)
    (hj : jobAt s slot = some j) (hs : j.state = .feeding) :
    advanceEnded a s = updJob slot (fun j => { j with state := .waiting }) s := by
  unfold advanceEnded
  simp only [ha, ho, hj, hs, if_true]

theorem advanceEnded_feed {a : Advance} {s : State} (ha : a.requester = .feed) : advanceEnded a s = s := by
  unfold advanceEnded
  simp only [ha]

end Sys2Proof.Machine

open Sys2Proof Sys2Proof.Machine

/-- Settles O53: `windowClosed` is the state after the charge, and each phase of the segment then goes its own way. -/
theorem settleWindowEndAndFeedLimitMoveTheExecutor : Obligations.SettleWindowEndAndFeedLimitMoveTheExecutor := by
  intro s n r a g now
  refine ⟨⟨settle (stall now), rfl, fun a g hx hg => follows_iff (congrArg settle ?_), fun h => follows_iff (congrArg settle (stall_still h))⟩,
    fun hw => ?_, fun hw hx => ?_, fun hw hr hx => ?_⟩
  · unfold stall stopFeed setExec
    simp only [now, hx, hg, if_true]
    rfl
  · show Host.Outcome.next (doSettleWindowEnd s) = _
    unfold doSettleWindowEnd
    rw [hw]
    rfl
  · refine ⟨settle (afterWindow (handCharge { begin s with mpc.settle := none })), ?_, follows_iff (congrArg settle ?_)⟩
    · show Host.Outcome.next (doSettleWindowEnd s) = _
      unfold doSettleWindowEnd
      rw [hw]
    · exact (congrArg afterWindow (handCharge_still (s := { begin s with mpc.settle := none }) hx)).trans (afterWindow_still hx)
  · intro d charged x
    have hclosed : handCharge { begin s with mpc.settle := none } = x := handCharge_eq hr hx
    have hxx : x.mpc.exec = .moving a g := hx
    have hroll : x.mpc.roll = some r := hr
    have hfirst : firstReached x = firstReached s := firstReached_congr rfl rfl rfl
    have hpos : pos x = r.pos := by
      unfold pos
      rw [hroll]
    refine ⟨settle (afterWindow x), ?_, ?_⟩
    · show Host.Outcome.next (doSettleWindowEnd s) = _
      unfold doSettleWindowEnd
      rw [hw, ← hclosed]
    have hsettling : g.phase = .settling → afterWindow x = runOn a x := afterWindow_settling hxx
    have hends : g.phase = .settling → firstReached s = none → a.target ≤ r.pos →
        afterWindow x = advanceEnded a (setExec .idle x) := fun hg hf ht =>
      (hsettling hg).trans (runOn_ends (hfirst.trans hf) (by omega))
    refine ⟨fun hg => follows_iff (congrArg settle ?_), fun hg hh => follows_iff (congrArg settle ?_), fun hg => follows_iff (congrArg settle ?_),
      fun hg hf ht => follows_iff (congrArg settle ((hsettling hg).trans ?_)),
      fun hg hf ht => ⟨fun e q slot j ha hq he htag hslot hj hs => follows_iff (congrArg settle ((hends hg hf ht).trans ?_)),
        fun slot j ha ho hj hs => ?_, fun ha => follows_iff (congrArg settle ((hends hg hf ht).trans ?_))⟩,
      fun id hg hf => ⟨fun h => follows_iff (congrArg settle ((hsettling hg).trans ?_)),
        fun tag h hj => follows_iff (congrArg settle ((hsettling hg).trans ?_))⟩, fun p e hg hf he hd => ?_⟩
    · unfold afterWindow
      simp only [hxx, hg]
      rfl
    · have hheld : held x = true := by simpa [held] using hh
      unfold afterWindow
      simp only [hxx, hg, hheld, if_true]
      rfl
    · unfold afterWindow
      rcases hg with hg | hg <;> simp only [hxx, hg]
    · exact runOn_moves (y := x) rfl rfl rfl hroll hf ht rfl
    · exact advanceEnded_retires (s := setExec .idle x) ha hq he htag hslot hj hs
    · intro y
      have hy : afterWindow x = y := (hends hg hf ht).trans (advanceEnded_feeds (s := setExec .idle x) ha ho hj hs)
      refine ⟨follows_iff (congrArg settle hy), fun hother hq hleft => (congrArg settle hy).trans
        (settle_one (s := s) hj rfl hother (by simp [stopFree, y]) hq ?_)⟩
      have hyj : jobAt y slot = some { j with state := .waiting } := jobAt_updJob_same (s := s) _ hj
      have hopen : isDone y slot = false := by
        unfold isDone
        rw [hyj]
        rcases hleft with ⟨c, hc, hown⟩ | ⟨id, hid, hstate⟩
        · have hcut : y.mpc.cuts.any (CutEntry.names j.tag) = true := List.any_eq_true.2 ⟨c, hc, (names_iff _ _).2 hown⟩
          simp [hcut]
        · have hcheck : checkDone y j.checkId = false := by
            unfold checkDone
            rw [hid]
            exact beq_eq_false_iff_ne.2 hstate
          simp [hcheck]
      exact ⟨abortReady_of_state (fun k hk => by rw [hyj] at hk; cases hk; nofun), hopen, rfl⟩
    · exact advanceEnded_feed ha
    · exact (runOn_meas (hfirst.trans hf)).trans (scanTest_idle h)
    · refine (runOn_meas (hfirst.trans hf)).trans (scanTest_eq h ?_ hj)
      simp [standsAt, setExec]
    · intro y stroked
      have hcut : firstReached x = some (.cut p) := hfirst.trans hf
      have hyx : y.mpc.exec = .atStop a (.cut p) := rfl
      have hye : cutAt y p = some e := he
      have hep : e.position = p := by simpa using List.find?_some he
      refine ⟨fun hspan => ?_, fun hspan => ?_⟩
      · intro tags skipped w hnone
        have hskip : skipped w = raiseSkipped e.owners w := (raiseSkipped_eq e.owners w).symm
        have hpast := (hsettling hg).trans (runOn_past hcut (skipTest_iff.2 hspan) he rfl hnone)
        obtain ⟨hccu, hcover⟩ := raiseSkipped_keeps e.owners w
        have hmpc := raiseSkipped_mpc e.owners w
        refine ⟨fun ht => ?_, fun ht ha => follows_iff (congrArg settle (hpast.trans ?_))⟩
        · intro stop
          refine follows_iff (congrArg settle (hpast.trans ?_))
          rw [hskip]
          refine (runOn_moves (y := cutPassed a e w) (s := w) rfl rfl (congrArg Ccu.checks hccu) hroll hnone ht rfl).trans ?_
          simp only [cutPassed, hcover, hmpc]
          rfl
        · have hend : ¬ pos (cutPassed a e w) < a.target := by
            rw [show pos (cutPassed a e w) = r.pos from hpos]
            omega
          rw [hskip, runOn_ends ((firstReached_cutPassed a e w).trans hnone) hend, advanceEnded_feed ha]
          simp only [setExec, cutPassed, hmpc]
      · have hrun : afterWindow x = strokeTry p (guardTest p y) := by
          refine (hsettling hg).trans (runOn_cut hcut (Bool.eq_false_iff.2 (fun h => ?_)))
          obtain ⟨c, hc, h1, h2, b, hb, hbp, hend⟩ := skipTest_iff.1 h
          obtain ⟨z, hz, hzp⟩ := hspan c hc h1 h2 b hb hbp
          exact absurd (hend z hz) (by omega)
        refine ⟨fun hguard => ?_, fun id hguard h1 h2 => ⟨fun q hstop hq => follows_iff (congrArg settle (hrun.trans ?_)),
          fun tag slot hbeyond hj hslot => ?_⟩⟩
        · have hnone : guardCheck y e = none := guardCheck_none hguard
          have hfree := hrun.trans (congrArg (strokeTry p) (guardTest_unguarded hye hnone))
          exact ⟨fun hc hv hh => follows_iff (congrArg settle (hfree.trans (strokeTry_starts hyx hye hd hnone hc hv hh))),
            fun hw => follows_iff (congrArg settle (hfree.trans (strokeTry_waits hw)))⟩
        · have hkept : guardCheck y e = some id := guardCheck_some hguard h1 h2
          rw [guardTest_kept hye hkept ?_]
          · exact strokeTry_guarded hye hkept
          · have : checkAt y id = checkAt s id := rfl
            simp only [stopBeyond, this, hstop, cutStop, hep]
            exact decide_eq_false (Nat.not_lt.2 hq)
        · intro z
          have hkept : guardCheck y e = some id := guardCheck_some hguard h1 h2
          have hbeyond' : stopBeyond (checkAt y id) (cutStop y e) = true := by
            have hcheck : checkAt y id = checkAt s id := rfl
            unfold stopBeyond
            rw [hcheck]
            cases hstop : (checkAt s id).stop with
            | none => rfl
            | some q =>
              simp only [cutStop, hep]
              exact decide_eq_true (hbeyond q hstop)
          have hlost : afterWindow x = strokeTry p z :=
            hrun.trans (congrArg (strokeTry p) (guardTest_lost hye hkept hbeyond' hj hslot))
          have hze : cutAt z p = some { e with guard := none } :=
            cutAt_updCut (s := y) (f := fun e => { e with guard := none }) (fun _ => rfl) hye
          exact ⟨fun hc hv hh => follows_iff (congrArg settle (hlost.trans (strokeTry_starts hyx hze hd rfl hc hv hh))),
            fun hw => follows_iff (congrArg settle (hlost.trans (strokeTry_waits hw)))⟩

end

section
/-! Strip events and the closing of a check (O59). -/

namespace Sys2Proof.Machine

theorem pos_eq (s : State) : pos s = (s.mpc.roll.map (fun r => r.pos)).getD 0 := by
  unfold pos
  cases s.mpc.roll <;> rfl

theorem pos_of_roll {s : State} {r : Roll} (h : s.mpc.roll = some r) : pos s = r.pos := by
  unfold pos
  rw [h]

/-! ### The records of a closing check (R133) -/

/-- R133 step 5: what CHECK_CLOSED and CHECK_FAILED make of the link controller's block. -/
def closedLc (tag : Nat) (v : Verdict) (lc : Lc) : Lc :=
  if v = .fail ∨ v = .failLimit then raisedLc .checkFailed (some tag) (raisedLc .checkClosed (some tag) lc)
  else raisedLc .checkClosed (some tag) lc

theorem raiseClosed_eq_lc (tag : Nat) (v : Verdict) (s : State) : raiseClosed tag v s = { s with lc := closedLc tag v s.lc } := by
  unfold raiseClosed closedLc
  simp only [raise_eq_lc]
  split <;> rfl

theorem raisedLc_cover (c : Cond) (sub : Option Nat) (lc : Lc) : (raisedLc c sub lc).cover = lc.cover := by
  unfold raisedLc
  split <;> rfl

theorem closedLc_cover (tag : Nat) (v : Verdict) (lc : Lc) : (closedLc tag v lc).cover = lc.cover := by
  unfold closedLc
  split <;> simp only [raisedLc_cover]

/-- R133 steps 1 to 4: the check, its job and its account with the verdict of a closing. -/
def recordsClosed (id slot : Nat) (r : Result) (m : Bool) (s : State) : State := { s with
  rc.jobs := s.rc.jobs.modify slot (fun o => o.map (fun j => { j with verdict := some r.verdict }))
  cu.printAccts := s.cu.printAccts.modify slot (fun o => o.map (fun a =>
    { a with verdict := some r.verdict, flags.unchecked := a.flags.unchecked || r.verdict == .unchecked
             flags.missed := a.flags.missed || m }))
  ccu.checks := s.ccu.checks.modify id (Check.close r) }

/-- R133 steps 1 to 5 for a check whose scan does not run. -/
theorem closeRecords_of_job {s : State} {id slot tag : Nat} {m : Bool} {r : Result} (hc : (checkAt s id).job = some tag)
    (hslot : slotOf s tag = some slot) (hscan : ∀ w k t, s.ccu.link ≠ .scanning id w k t) :
    closeRecords id r m s = raiseClosed tag r.verdict (recordsClosed id slot r m s) := by
  have hlink : abandonScan id s = s := by
    unfold abandonScan
    split
    · rename_i c w k t h
      refine if_neg ?_
      rintro rfl
      exact hscan w k t h
    · rfl
  unfold closeRecords
  rw [hlink, hc]
  simp only
  unfold writeVerdict
  rw [show slotOf (updCheck id (Check.close r) s) tag = some slot from hslot]
  rfl

/-- R130, R133: an UNCHECKED closing raises CHECK_CLOSED alone. -/
theorem raiseClosed_unchecked (tag : Nat) (s : State) : raiseClosed tag .unchecked s = raise .checkClosed (some tag) s := by
  unfold raiseClosed
  rw [if_neg (by simp)]

/-- R129, R130: the state after the check of a strip closed UNCHECKED, its job moved by `f`, its record by `g`. -/
def strippedClosed (id slot tag : Nat) (m : Bool) (f : Job → Job) (g : Check → Check) (s : State) : State :=
  raise .checkClosed (some tag) { s with
    rc.jobs := s.rc.jobs.modify slot (fun o => o.map f)
    cu.printAccts := s.cu.printAccts.modify slot (fun o => o.map (fun a =>
      { a with verdict := some .unchecked, flags.unchecked := true, flags.missed := a.flags.missed || m }))
    ccu.checks := s.ccu.checks.modify id g }

theorem closeRecords_strip {s : State} {id slot tag : Nat} {m : Bool} {f : Job → Job} {g : Check → Check}
    (hc : (g (checkAt s id)).job = some tag) (hid : id < s.ccu.checks.length) (hf : ∀ j, (f j).tag = j.tag)
    (hslot : slotOf s tag = some slot) (hscan : ∀ w k t, s.ccu.link ≠ .scanning id w k t) :
    closeRecords id Result.unchecked m (updCheck id g (updJob slot f s))
      = strippedClosed id slot tag m (fun j => { f j with verdict := some .unchecked }) (fun c => Check.close Result.unchecked (g c)) s := by
  have hjob : (checkAt (updCheck id g (updJob slot f s)) id).job = some tag := by
    rw [checkAt_upd (updJob slot f s) id g hid]
    exact hc
  rw [closeRecords_of_job (slot := slot) hjob ((slotOf_modify tag slot f hf rfl).trans hslot) hscan]
  have hflag : ∀ b : Bool, (b || (Verdict.unchecked == .unchecked)) = true := fun b => Bool.or_true b
  unfold recordsClosed strippedClosed updCheck updJob
  rw [show Result.unchecked.verdict = .unchecked from rfl, raiseClosed_unchecked]
  simp only [List.modify_modify_eq, hflag]
  congr 4
  funext o
  cases o <;> rfl

theorem strippedClosed_congr {id slot tag : Nat} {m : Bool} {f f' : Job → Job} {g : Check → Check} {s : State} {j : Job}
    (hj : jobAt s slot = some j) (h : f j = f' j) : strippedClosed id slot tag m f g s = strippedClosed id slot tag m f' g s := by
  unfold strippedClosed
  rw [job_modify s slot _ (fun o => o.map f') (by rw [hj, Option.map_some, Option.map_some, h])]

theorem updJob_strippedClosed (id slot tag : Nat) (m : Bool) (f f' : Job → Job) (g : Check → Check) (s : State) :
    updJob slot f' (strippedClosed id slot tag m f g s) = strippedClosed id slot tag m (fun j => f' (f j)) g s := by
  have hjobs : (s.rc.jobs.modify slot (fun o => o.map f)).modify slot (fun o => o.map f')
      = s.rc.jobs.modify slot (fun o => o.map (fun j => f' (f j))) := congrArg (fun x : State => x.rc.jobs) (updJob_updJob slot f' f s)
  unfold strippedClosed updJob
  simp only [raise_eq_lc, hjobs]

theorem updCheck_id (id : Nat) (s : State) : updCheck id (fun c => c) s = s := by
  unfold updCheck
  rw [show s.ccu.checks.modify id (fun c => c) = s.ccu.checks from List.modify_id ..]

/-! ### Strip events (R128 to R130) -/

/-- R21, R128: the strip start. -/
theorem stripEvents_starts {s : State} {slot id : Nat} {j : Job} (hj : jobAt s slot = some j) (hid : j.checkId = some id)
    (ha : j.state ≠ .aborting) (hs : j.strip = .none) :
    stripEvents slot .strip s = stripStart id (updJob slot (fun j => { j with strip := .inStrip }) s) := by
  unfold stripEvents
  simp [hj, hs, beginStrip, hid, ha]

/-- R21, R129: the strip completion. -/
theorem stripEvents_completes {s : State} {slot id : Nat} {k : SwathKind} {j : Job} (hj : jobAt s slot = some j)
    (hid : j.checkId = some id) (hk : k ≠ .strip) (ha : j.state ≠ .aborting) (hs : j.strip = .inStrip) :
    stripEvents slot k s = stripComplete id (updJob slot (fun j => { j with strip := .done }) s) := by
  unfold stripEvents
  simp [hj, hk, hs, completeStrip, hid, ha]

theorem stripStart_eq {s : State} {id : Nat} (hw : (checkAt s id).state = .waitingStrip) (hn : (checkAt s id).stripStart = none) :
    stripStart id s = { s with ccu.checks := s.ccu.checks.modify id (fun c =>
      { c with stripStart := some (pos s), limit := some (s.ccu.params.limit * 1000) }) } := by
  have hstart := check_modify s id
    (fun c => if c.state = .waitingStrip ∧ c.stripStart = none then
      { c with stripStart := some (pos s), limit := some (s.ccu.params.limit * 1000) } else c)
    (fun c => { c with stripStart := some (pos s), limit := some (s.ccu.params.limit * 1000) }) (if_pos ⟨hw, hn⟩)
  unfold stripStart updCheck
  dsimp only
  rw [hstart]

theorem stopPosition_eq {s : State} {c : Check} {set : PatchSet} (h : checkSetOf s c = some set) (a : Nat) :
    stopPosition s c a = a + set.rowOffset + s.mpc.sOff := by
  unfold stopPosition
  simp only [h]

/-- R98, R129: a strip completion with its stop ahead of P. -/
theorem stripComplete_placed {s : State} {id a : Nat} {set : PatchSet} (hw : (checkAt s id).state = .waitingStrip)
    (ha : (checkAt s id).stripStart = some a) (hset : checkSetOf s (checkAt s id) = some set)
    (hp : pos s < a + set.rowOffset + s.mpc.sOff) (hx : ∀ b g, s.mpc.exec ≠ .moving b g) :
    stripComplete id s = updCheck id (Check.placed (pos s) (a + set.rowOffset + s.mpc.sOff) (s.ccu.params.dryTime * 1000)) s := by
  unfold stripComplete
  simp only [hw, ha, stopPosition_eq hset, stopPlaced, decide_eq_true hp, if_true]
  exact reviseSegment_still _ hx

/-- R98, R129: a strip completion with P at its stop or beyond. -/
theorem stripComplete_missed {s : State} {id a : Nat} {set : PatchSet} (hw : (checkAt s id).state = .waitingStrip)
    (ha : (checkAt s id).stripStart = some a) (hset : checkSetOf s (checkAt s id) = some set)
    (hp : a + set.rowOffset + s.mpc.sOff ≤ pos s) :
    stripComplete id s = closeRecords id Result.unchecked true (updCheck id (fun c => { c with stripEnd := some (pos s) }) s) := by
  unfold stripComplete
  simp only [hw, ha, stopPosition_eq hset, stopPlaced, decide_eq_false (Nat.not_lt.2 hp), Bool.false_eq_true, if_false]

/-- R131: a dry time in milliseconds is 0 just where it is 0 in seconds. -/
theorem placed_eq (p stop t : Nat) : Check.placed p stop (t * 1000) = fun c => { c with
    stripEnd := some p, stop := some stop, reached := false
    state := if t = 0 then .armed else .drying
    dry := if t = 0 then none else some (t * 1000) } := by
  have h : t * 1000 = 0 ↔ t = 0 := by omega
  funext c
  unfold Check.placed
  simp only [h]

/-- R23, R130: JOB_END of a job whose check saw no strip. -/
theorem readyToEnd_noStrip {s : State} {slot id : Nat} {j : Job} (hj : jobAt s slot = some j) (hid : j.checkId = some id)
    (hs : j.strip = .none) (ht : j.tailFeed = false) (hw : (checkAt s id).state = .waitingStrip)
    (hn : (checkAt s id).stripStart = none) :
    readyToEnd slot s = updJob slot (fun j => { j with state := .waiting }) (closeRecords id Result.unchecked false s) := by
  unfold readyToEnd
  simp only [hj, hs, hid, ht, Bool.false_eq_true, if_false]
  unfold noStrip
  rw [if_pos ⟨hw, hn⟩]

/-! ### Closing a check in full (R133) -/

/-- R133 steps 1 to 5, with the executor then at `ex`. -/
def checkClosed (id slot tag : Nat) (r : Result) (ex : Exec) (s : State) : State :=
  raiseClosed tag r.verdict { recordsClosed id slot r false s with mpc.exec := ex }

theorem checkClosed_eq (id slot tag : Nat) (r : Result) (ex : Exec) (s : State) : checkClosed id slot tag r ex s =
    { recordsClosed id slot r false s with lc := closedLc tag r.verdict s.lc, mpc.exec := ex } := raiseClosed_eq_lc ..

/-- R26: a job with a check closes into a record, and its check is freed, or it waits in CLOSING. -/
theorem closeJob_checked {slot id : Nat} {o : JobOutcome} {s : State} {j : Job} {a : Account} (hj : jobAt s slot = some j)
    (ha : printAt s slot = some a) (hc : j.checkId = some id) : closeJob slot o s =
    if s.cu.records.length < 16 then
      { jobClosed slot a o s with ccu.checks := s.ccu.checks.modify id Check.release }
    else updJob slot (fun j => { j with state := .closing, outcome := some o }) s := by
  unfold closeJob
  simp only [hj, ha]
  split
  · rename_i hfull
    have : ¬ s.cu.records.length < 16 := Nat.not_lt.2 (of_decide_eq_true hfull)
    rw [if_neg this]
  · rename_i hroom
    have : s.cu.records.length < 16 := Nat.not_le.1 (fun h => hroom (decide_eq_true h))
    rw [if_pos this]
    simp only [hc, freeCheck, updCheck, setJob, closeAccount, jobClosed, pushRecord_rc, pushRecord_cu, pushRecord_ccu]

/-- R25, R26: the done test of a job with a check. -/
def doneTested (slot id : Nat) (j : Job) (a : Account) (s : State) : State :=
  if j.state = .waiting ∧ ∀ e ∈ s.mpc.cuts, .job j.tag ∉ e.owners then
    if s.cu.records.length < 16 then
      { jobClosed slot a (doneOutcome j) s with ccu.checks := s.ccu.checks.modify id Check.release }
    else updJob slot (fun k => { k with state := .closing, outcome := some (doneOutcome j) }) s
  else s
theorem doneTest_checked {slot id : Nat} {s : State} {j : Job} {a : Account} (hj : jobAt s slot = some j) (ha : printAt s slot = some a)
    (hc : j.checkId = some id) (hclosed : (checkAt s id).state = .closed) : doneTest slot s = doneTested slot id j a s := by
  have hdone : isDone s slot = true ↔ j.state = .waiting ∧ ∀ e ∈ s.mpc.cuts, .job j.tag ∉ e.owners := by
    have hcheck : checkDone s j.checkId = true := by
      unfold checkDone
      rw [hc]
      exact beq_iff_eq.2 hclosed
    unfold isDone
    rw [hj]
    simp [hcheck, names_iff]
  unfold doneTested
  by_cases h : j.state = .waiting ∧ ∀ e ∈ s.mpc.cuts, .job j.tag ∉ e.owners
  · rw [doneTest_eq (hdone.2 h) hj, closeJob_checked hj ha hc, if_pos h]
  · rw [doneTest_idle (Bool.eq_false_iff.2 (fun hd => h (hdone.1 hd))), if_neg h]

theorem doneTested_mpc (slot id : Nat) (j : Job) (a : Account) (s : State) : (doneTested slot id j a s).mpc = s.mpc := by
  unfold doneTested
  split
  · split
    · exact pushRecord_mpc ..
    · rfl
  · rfl

theorem heldStop_congr {y s : State} (h : y.mpc = s.mpc) : heldStop y = heldStop s := by
  unfold heldStop
  rw [h]

/-- R133 step 7: the ring once the scan's readings are released. -/
theorem releaseScan_checkClosed (id slot tag n : Nat) (r : Result) (ex : Exec) (s : State) :
    releaseScan n (checkClosed id slot tag r ex s) = { recordsClosed id slot r false s with
      lc := closedLc tag r.verdict s.lc, mpc.exec := ex
      ccu.ring := if s.ccu.retain then s.ccu.ring else s.ccu.ring.take (s.ccu.ring.length - n) } := by
  have hretain : (recordsClosed id slot r false s).ccu.retain = s.ccu.retain := rfl
  unfold releaseScan
  rw [checkClosed_eq]
  simp only [hretain]
  split <;> rfl

/-- R133: a closing of a check at which the executor does not stand any more, its stop released. -/
theorem closeCheck_eq {s : State} {id slot tag n : Nat} {r : Result} {j : Job} {acct : Account} {ex : Exec}
    (hj : jobAt s slot = some j) (hid : j.checkId = some id) (hc : (checkAt s id).job = some tag) (hslot : slotOf s tag = some slot)
    (hacct : printAt s slot = some acct) (hlen : id < s.ccu.checks.length)
    (hres : resolveStop (reviseSegment (closeRecords id r false s)) = checkClosed id slot tag r ex s)
    (hex : heldStop (checkClosed id slot tag r ex s) = none) :
    closeCheck id r n s = doneTested slot id { j with verdict := some r.verdict }
      { acct with verdict := some r.verdict, flags.unchecked := acct.flags.unchecked || r.verdict == .unchecked }
      (releaseScan n (checkClosed id slot tag r ex s)) := by
  let z := releaseScan n (checkClosed id slot tag r ex s)
  have hz := releaseScan_checkClosed id slot tag n r ex s
  change z = _ at hz
  have hzslot : slotOf z tag = some slot := by
    rw [← hslot, hz]
    exact slotOf_modify tag slot (fun j => { j with verdict := some r.verdict }) (fun _ => rfl) rfl
  have hzjob : jobAt z slot = some { j with verdict := some r.verdict } := by
    rw [hz]
    exact jobAt_updJob_same (s := s) (fun j => { j with verdict := some r.verdict }) hj
  have hzacct : printAt z slot = some { acct with
      verdict := some r.verdict, flags.unchecked := acct.flags.unchecked || r.verdict == .unchecked } := by
    rw [hz]
    simp only [printAt, recordsClosed, List.getD_eq_getElem?_getD, List.getElem?_modify, if_true] at hacct ⊢
    cases hslots : s.cu.printAccts[slot]? <;> simp_all
  have hzcheck : (checkAt z id).state = .closed := by
    rw [hz]
    exact congrArg Check.state (checkAt_upd s id (Check.close r) hlen)
  have htest : doneTestOf (checkAt s id).job z = doneTest slot z := by
    unfold doneTestOf
    rw [hc, Option.bind_some, hzslot]
  unfold closeCheck
  rw [hres, htest, doneTest_checked hzjob hzacct hid hzcheck]
  have hmpc : (doneTested slot id { j with verdict := some r.verdict }
      { acct with verdict := some r.verdict, flags.unchecked := acct.flags.unchecked || r.verdict == .unchecked } z).mpc
        = (checkClosed id slot tag r ex s).mpc := by
    rw [doneTested_mpc, hz, checkClosed_eq]
  exact retestScan_idle (fun i hi => absurd ((heldStop_congr hmpc).trans hex |>.symm.trans hi) nofun)

/-! ### The release of a closed check's stop (R92, R133 step 6) -/

section Release
variable {s : State} {id slot tag : Nat} {r : Result}

theorem setExec_checkClosed (ex ex' : Exec) : setExec ex' (checkClosed id slot tag r ex s) = checkClosed id slot tag r ex' s := by
  rw [checkClosed_eq, checkClosed_eq]
  rfl

/-- R92: a closed check's stop is not in the list. -/
theorem inStopList_checkClosed (ex : Exec) (hlen : id < s.ccu.checks.length) :
    inStopList (checkClosed id slot tag r ex s) (.meas id) = false := by
  refine inStopList_closed ?_
  rw [checkClosed_eq]
  exact congrArg Check.live (checkAt_upd s id (Check.close r) hlen)

section Records
variable (hc : (checkAt s id).job = some tag) (hslot : slotOf s tag = some slot)
  (hscan : ∀ w k t, s.ccu.link ≠ .scanning id w k t) (hx : ∀ b g, s.mpc.exec ≠ .moving b g)
include hc hslot hscan hx

/-- R133 steps 1 to 5 move no executor. -/
theorem closeRecords_still :
    reviseSegment (closeRecords id r false s) = checkClosed id slot tag r s.mpc.exec s := by
  rw [closeRecords_of_job hc hslot hscan]
  refine reviseSegment_still _ ?_
  rw [raiseClosed_eq_lc]
  exact hx

/-- R92: any other stop at which the executor stands stays in the list. -/
theorem resolve_elsewhere (hheld : heldStop s = none) (hfree : stopFree s = false) :
    resolveStop (reviseSegment (closeRecords id r false s)) = checkClosed id slot tag r s.mpc.exec s := by
  rw [closeRecords_still hc hslot hscan hx]
  refine resolveStop_idle ?_
  have hcut : ∀ p, inStopList (checkClosed id slot tag r s.mpc.exec s) (.cut p) = inStopList s (.cut p) := fun p => by
    rw [inStopList_cut, inStopList_cut, checkClosed_eq]
    rfl
  have hexec : (checkClosed id slot tag r s.mpc.exec s).mpc.exec = s.mpc.exec := by
    rw [checkClosed_eq]
  unfold stopFree at hfree ⊢
  unfold heldStop at hheld
  rw [hexec]
  cases hs : s.mpc.exec with
  | atStop a x =>
    cases x with
    | meas c => simp [hs] at hheld
    | cut p => simpa [hs, ← hcut] using hfree
  | off a o =>
    cases o with
    | none => rfl
    | some x =>
      cases x with
      | meas c => simp [hs] at hheld
      | cut p => simpa [hs, ← hcut] using hfree
  | idle => rfl
  | moving a g => rfl
  | stalled a => rfl

end Records

section AtItsStop
variable (hc : (checkAt s id).job = some tag) (hslot : slotOf s tag = some slot)
  (hscan : ∀ w k t, s.ccu.link ≠ .scanning id w k t) (hlen : id < s.ccu.checks.length) {b : Advance}
include hc hslot hscan hlen

theorem resolve_off (hx : s.mpc.exec = .off b (some (.meas id))) :
    resolveStop (reviseSegment (closeRecords id r false s)) = checkClosed id slot tag r (.off b none) s := by
  rw [closeRecords_still hc hslot hscan (by rw [hx]; nofun), hx]
  unfold resolveStop
  have hexec : (checkClosed id slot tag r (.off b (some (.meas id))) s).mpc.exec = .off b (some (.meas id)) := by
    rw [checkClosed_eq]
  simp only [hexec, inStopList_checkClosed _ hlen, Bool.false_eq_true, if_false, setExec_checkClosed]

theorem resolve_atStop (hx : s.mpc.exec = .atStop b (.meas id)) :
    resolveStop (reviseSegment (closeRecords id r false s)) = runOn b (checkClosed id slot tag r s.mpc.exec s) := by
  rw [closeRecords_still hc hslot hscan (by rw [hx]; nofun), hx]
  unfold resolveStop
  have hexec : (checkClosed id slot tag r (.atStop b (.meas id)) s).mpc.exec = .atStop b (.meas id) := by
    rw [checkClosed_eq]
  simp only [hexec, inStopList_checkClosed _ hlen, Bool.false_eq_true, if_false]

end AtItsStop

end Release

/-! ### The dry timer (R131) -/

/-- R136: the scan start test of a check at whose stop the executor does not stand. -/
theorem scanTest_away {s : State} {id : Nat} (h : standsAt s id = false) : scanTest id s = s := by
  unfold scanTest
  rw [if_neg (by simp [h])]

end Sys2Proof.Machine

open Sys2Proof Sys2Proof.Machine

/-- Settles O59: the strip events by `stripStart` and `stripComplete`, a closing by `closeCheck_eq` with the release of the stop in each place the executor can stand. -/
theorem checksOpenArmAndClose : Obligations.ChecksOpenArmAndClose := by
  intro s slot id j c hj hid hc hlen now p strip
  subst hc
  have hpos : p = pos s := (pos_eq s).symm
  refine ⟨fun ha hs hw hn => ?_, fun k a set hk ha hs hw hn hset hp hx => ?_, fun tag hjob hslot hw hscan => ?_,
    fun r n tag acct hjob hslot hacct hscan => ?_, fun hd => ?_, fun hd => ?_, fun hl => ?_, fun h1 h2 h3 => ?_⟩
  · rw [stripEvents_starts hj hid ha hs, stripStart_eq (s := updJob slot (fun j => { j with strip := .inStrip }) s) hw hn, hpos]
    rfl
  · rw [stripEvents_completes hj hid hk ha hs,
      stripComplete_placed (s := updJob slot (fun j => { j with strip := .done }) s) hw hn hset (hpos ▸ hp) hx, hpos]
    unfold updCheck
    rw [placed_eq]
    rfl
  · intro missed
    refine ⟨fun k a set hk ha hs hn hset hp => ?_, fun ho he hs hn ht ft => ?_⟩
    · rw [stripEvents_completes hj hid hk ha hs,
        stripComplete_missed (s := updJob slot (fun j => { j with strip := .done }) s) hw hn hset (hpos ▸ hp),
        closeRecords_strip (s := s) (f := fun j => { j with strip := .done }) (g := fun c => { c with stripEnd := some _ }) hjob hlen (fun _ => rfl) hslot hscan,
        strippedClosed_congr (f' := fun k => { k with strip := .done, state := j.state, verdict := some .unchecked }) hj rfl,
        hpos]
      rfl
    · let ended := updJob slot (fun j => { j with state := .ending }) (cleared s)
      have hreq := carryOut_of_settled (kind := 0x0B) (ft := ft) (takeJobEnd_ok (s := cleared s) hslot hj ho)
      have hej : jobAt ended slot = some { j with state := .ending } := jobAt_updJob_same (s := cleared s) _ hj
      have hend : endIfEmpty tag ended = missed false p .none .waiting (cleared s) := by
        rw [endIfEmpty_end ((slotOf_modify tag slot _ (by intro k; rfl) rfl).trans hslot) hej rfl he,
          readyToEnd_noStrip hej hid hs ht hw hn, ← updCheck_id id ended,
          closeRecords_strip (s := cleared s) (f := fun j => { j with state := .ending }) (g := fun c => c) hjob hlen (fun _ => rfl) hslot hscan, updJob_strippedClosed,
          strippedClosed_congr (s := cleared s)
            (f' := fun k => { k with strip := .none, state := .waiting, verdict := some .unchecked }) hj (by simp [hs])]
        rfl
      exact ⟨_, congrArg Host.Outcome.next hreq, follows_iff (congrArg settle hend)⟩
  · intro booked x raised outcome tested
    have htag : j.tag = tag := tag_of_slotOf hslot hj
    have hraised : ∀ z, raised z = raiseClosed tag r.verdict z := fun z => rfl
    have houtcome : doneOutcome { j with verdict := some r.verdict } = outcome := by
      rw [doneOutcome_eq]
      simp only [Option.some.injEq, outcome]
    have htested : ∀ z, z.cu.records = s.cu.records → z.cu.active = s.cu.active → z.mpc.cuts = s.mpc.cuts →
        doneTested slot id { j with verdict := some r.verdict } booked z = tested z := by
      intro z hrec hact hcuts
      unfold doneTested jobClosed
      rw [houtcome, pushRecord_eq, hrec, hact, hcuts]
      simp only [htag]
      rfl
    have hbooked := print_modify s slot (fun o => o.map (fun a =>
      { a with verdict := some r.verdict, flags.unchecked := a.flags.unchecked || r.verdict == .unchecked
               flags.missed := a.flags.missed || false })) (fun _ => some booked) (by simp [hacct, booked])
    have hclose : ∀ ex, resolveStop (reviseSegment (closeRecords id r false s)) = checkClosed id slot tag r ex s →
        heldStop { s with mpc.exec := ex } = none → closeCheck id r n s = tested (raised { x with mpc.exec := ex }) := by
      intro ex hres hex
      have hscanned : releaseScan n (checkClosed id slot tag r ex s) = raised { x with mpc.exec := ex } := by
        rw [releaseScan_checkClosed, hraised, raiseClosed_eq_lc]
        unfold recordsClosed
        rw [hbooked]
        rfl
      have hheld : heldStop (checkClosed id slot tag r ex s) = none := by
        rw [← hex, checkClosed_eq]
        rfl
      rw [closeCheck_eq hj hid hjob hslot hacct hlen hres hheld, hscanned]
      refine htested _ ?_ ?_ ?_ <;> rw [hraised, raiseClosed_eq_lc]
    refine ⟨fun hheld hx hfree => hclose _ (resolve_elsewhere hjob hslot hscan hx hheld hfree) hheld,
      fun b hx => hclose _ (resolve_off hjob hslot hscan hlen hx) rfl, fun b roll hx hroll hset hfirst => ?_⟩
    have hrun : resolveStop (reviseSegment (closeRecords id r false s)) = runOn b { recordsClosed id slot r false s with
        lc := closedLc tag r.verdict s.lc } :=
      (resolve_atStop hjob hslot hscan hlen hx).trans (congrArg (runOn b) (checkClosed_eq ..))
    refine ⟨fun ht => ?_, fun ht ha => hclose _ (hrun.trans ?_) rfl⟩
    · intro stop
      refine hclose _ (hrun.trans ?_) rfl
      rw [checkClosed_eq, ← closedLc_cover tag r.verdict s.lc]
      exact runOn_moves (s := x) rfl rfl rfl hroll hfirst ht hset
    · let y : State := { recordsClosed id slot r false s with lc := closedLc tag r.verdict s.lc }
      have hpast : ¬ pos y < b.target := by
        rw [pos_of_roll (s := y) hroll]
        omega
      have hnone : firstReached y = none := (firstReached_congr (s := x) rfl rfl rfl).trans hfirst
      refine (runOn_ends hnone hpast).trans ((advanceEnded_feed ha).trans ?_)
      rw [checkClosed_eq]
      rfl
  · show Host.Outcome.next (doDryTimerExpiry id s) = _
    unfold doDryTimerExpiry
    rw [if_neg hd]
    rfl
  · intro x
    have harmed := checkAt_upd (begin s) id (fun c => { c with state := .armed, dry := none }) hlen
    have hxstate : (checkAt x id).state = .armed := congrArg Check.state harmed
    have hxjob : (checkAt x id).job = (checkAt s id).job := (congrArg Check.job harmed).trans rfl
    refine ⟨settle (scanTest id x), ?_, fun h => follows_iff (congrArg settle (scanTest_away h)),
      fun tag hjob h => follows_iff (congrArg settle (scanTest_eq hxstate h (hxjob.trans hjob)))⟩
    show Host.Outcome.next (doDryTimerExpiry id s) = _
    unfold doDryTimerExpiry
    rw [if_pos hd]
    rfl
  · show Host.Outcome.next (doLimitTimerExpiry id s) = _
    unfold doLimitTimerExpiry
    rw [if_neg]
    · rfl
    · rcases hl with hl | hl | hl <;> simp [Check.live, hl]
  · have hlive : (checkAt s id).live = true := by simp [Check.live, h1, h2]
    have hlimit : (checkAt s id).limit.isSome = true := Option.isSome_iff_ne_none.2 h3
    refine ⟨settle (closeUnchecked id (begin s)), ?_, follows_iff (congrArg settle ?_)⟩
    · show Host.Outcome.next (doLimitTimerExpiry id s) = _
      unfold doLimitTimerExpiry
      rw [if_pos (by simp [hlive, hlimit])]
    · unfold closeUnchecked
      rw [if_pos (show (checkAt (begin s) id).live = true from hlive)]
      rfl

end

section
/-! Ink charged channel by channel: to a quote account (O32), and by a CLEANED record (O51). -/

namespace Sys2Proof.Machine

/-! ### One update at each of several places -/

/-- Updates at distinct places: each place of the list is updated once, from what it held at first. -/
theorem getElem?_foldl_modify {A : Type} {l : List Nat} (hn : l.Nodup) (f : Nat → A → A) (xs : List A) (i : Nat) :
    (l.foldl (fun ys c => ys.modify c (f c)) xs)[i]? = if i ∈ l then xs[i]?.map (f i) else xs[i]? := by
  induction l generalizing xs with
  | nil => simp
  | cons c t ih =>
    obtain ⟨hct, ht⟩ := List.nodup_cons.1 hn
    rw [List.foldl_cons, ih ht, List.getElem?_modify]
    by_cases hi : c = i
    · subst hi
      simp [hct]
    · simp [hi, Ne.symm hi]

theorem length_foldl_modify {A : Type} (l : List Nat) (f : Nat → A → A) (xs : List A) :
    (l.foldl (fun ys c => ys.modify c (f c)) xs).length = xs.length := by
  induction l generalizing xs with
  | nil => rfl
  | cons c t ih => rw [List.foldl_cons, ih, List.length_modify]

theorem getD_foldl_modify_mem {A : Type} {l : List Nat} (hn : l.Nodup) (f : Nat → A → A) {xs : List A} {i : Nat} (d : A)
    (hi : i ∈ l) (hx : i < xs.length) : (l.foldl (fun ys c => ys.modify c (f c)) xs).getD i d = f i (xs.getD i d) := by
  simp [List.getD_eq_getElem?_getD, getElem?_foldl_modify hn, hi, hx]

theorem getD_foldl_modify_not_mem {A : Type} {l : List Nat} (hn : l.Nodup) (f : Nat → A → A) (xs : List A) {i : Nat} (d : A)
    (hi : i ∉ l) : (l.foldl (fun ys c => ys.modify c (f c)) xs).getD i d = xs.getD i d := by
  simp [List.getD_eq_getElem?_getD, getElem?_foldl_modify hn, hi]

/-! ### Ink booked to an account (R150) -/

/-- R150: the ink totals once each channel of `l` has its charge added, with saturation. -/
def inkTotals (charge : Nat → Nat) (l ink : List Nat) : List Nat :=
  l.foldl (fun ink c => ink.modify c (fun n => min 4294967295 (n + charge c))) ink

theorem length_inkTotals (charge : Nat → Nat) (l ink : List Nat) : (inkTotals charge l ink).length = ink.length :=
  length_foldl_modify l _ ink

theorem inkTotals_mem {charge : Nat → Nat} {l ink : List Nat} {c : Nat} (hn : l.Nodup) (hc : c ∈ l) (hl : c < ink.length) :
    (inkTotals charge l ink).getD c 0 = min 4294967295 (ink.getD c 0 + charge c) :=
  getD_foldl_modify_mem hn _ 0 hc hl

theorem inkTotals_not_mem {charge : Nat → Nat} {l ink : List Nat} {c : Nat} (hn : l.Nodup) (hc : c ∉ l) :
    (inkTotals charge l ink).getD c 0 = ink.getD c 0 :=
  getD_foldl_modify_not_mem hn _ ink 0 hc

theorem addInks_ink (charge : Nat → Nat) (l : List Nat) (a : Account) :
    (addInks (l.map (fun c => (c, charge c))) a).ink = inkTotals charge l a.ink := by
  rw [addInks_eq, List.foldl_map]
  rfl

/-- R150: booked ink moves the ink totals and SATURATED alone. -/
theorem addInks_frame (l : List (Nat × Nat)) (a : Account) : addInks l a = { a with
    ink := (addInks l a).ink, flags := { a.flags with saturated := (addInks l a).flags.saturated } } := by
  rw [congrArg Account.ink (addInks_eq l a)]
  exact addInks_eq l a

/-! ### Quotes (R166, R167) -/

theorem takeQuoteOpen_ok {tag media width cuts slot : Nat} {s : State} (h1 : 1 ≤ tag) (h2 : tag ≤ 255) (h3 : media ≤ 15)
    (h4 : 1000 ≤ width) (h5 : width ≤ 20000) (h6 : cuts ≤ 65535) (ht : tagInUse s tag = false)
    (hf : s.cu.quotes.findIdx? (fun o => o.isNone) = some slot) :
    takeQuoteOpen tag media width cuts s = accept (.quoteSlot slot)
      { s with cu.quotes := s.cu.quotes.set slot (some (newQuote tag media width cuts s.isc.gainGen)) } := by
  unfold takeQuoteOpen
  rw [if_neg (by omega), if_neg (by simp [ht]), hf]

theorem takeQuoteSwath_ok {tag slot : Nat} {d : Descriptor} {a : Account} {k : SwathKind} {s : State}
    (hslot : quoteSlotOf s tag = some slot) (ha : quoteAt s slot = some a) (hk : swathKind d = some k)
    (hadv : d.advance ≤ 3000) :
    takeQuoteSwath tag d s = accept (quoteBody s d (quoteAccount s d k a))
      { s with cu.quotes := s.cu.quotes.set slot (some (quoteAccount s d k a)) } := by
  simp only [takeQuoteSwath, hslot, ha, hk]
  rw [if_neg (by omega)]

/-- R34: the charge of a channel of a quote swath from the quote's residues `rs`. -/
def quoteCharge (s : State) (drops : List DropEntry) (rs : List Nat) (c : Nat) : Nat :=
  chargeNl (quoteRaw s drops c) (gainAt s c) (rs.getD c 0)

/-- R34: the quote's residues once each channel of `l` has its new residue. -/
def quoteResidues (s : State) (drops : List DropEntry) (l rs : List Nat) : List Nat :=
  l.foldl (fun rs c => rs.modify c (chargeResidue (quoteRaw s drops c) (gainAt s c))) rs

theorem chargeQuote_eq {s : State} {drops : List DropEntry} {a : Account} {rs : List Nat} (c : Nat)
    (hr : a.quoteResidue = some rs) : chargeQuote s drops a c = { addInk c (quoteCharge s drops rs c) a with
      quoteResidue := some (rs.modify c (chargeResidue (quoteRaw s drops c) (gainAt s c))) } := by
  have hat : quoteResidueAt a c = rs.getD c 0 := by rw [quoteResidueAt, hr]; rfl
  have hset : rs.set c (chargeResidue (quoteRaw s drops c) (gainAt s c) (rs.getD c 0))
      = rs.modify c (chargeResidue (quoteRaw s drops c) (gainAt s c)) := by
    rw [List.set_eq_modify]
    exact modify_at rs c 0 _ _ rfl
  unfold chargeQuote
  rw [hat, hr, ← hset]
  rfl

/-- The charge of one channel leaves the residues of the others, hence their charges. -/
theorem quoteCharge_modify_ne {s : State} {drops : List DropEntry} {c d : Nat} (f : Nat → Nat) (rs : List Nat) (h : c ≠ d) :
    quoteCharge s drops (rs.modify c f) d = quoteCharge s drops rs d := by
  simp [quoteCharge, List.getD_eq_getElem?_getD, h]

theorem addInks_quoteResidue (l : List (Nat × Nat)) (a : Account) (o : Option (List Nat)) :
    addInks l { a with quoteResidue := o } = { addInks l a with quoteResidue := o } := by
  induction l generalizing a with
  | nil => rfl
  | cons p t ih => exact ih (addInk p.1 p.2 a)

/-- R167 step 1: distinct channels are each charged from the residue that the quote held before the swath. -/
theorem foldl_chargeQuote {s : State} {drops : List DropEntry} {l : List Nat} (hn : l.Nodup) {a : Account} {rs : List Nat}
    (hr : a.quoteResidue = some rs) : l.foldl (chargeQuote s drops) a =
      { addInks (l.map (fun c => (c, quoteCharge s drops rs c))) a with quoteResidue := some (quoteResidues s drops l rs) } := by
  induction l generalizing a rs with
  | nil =>
    show a = { a with quoteResidue := some rs }
    rw [← hr]
  | cons c t ih =>
    obtain ⟨hct, ht⟩ := List.nodup_cons.1 hn
    have hrest : ∀ d ∈ t, c ≠ d := fun d hd h => hct (h ▸ hd)
    rw [List.foldl_cons, chargeQuote_eq c hr, ih ht rfl,
      List.map_congr_left (fun d hd => by rw [quoteCharge_modify_ne _ rs (hrest d hd)]), addInks_quoteResidue]
    rfl

/-- R151, R167 step 3: the media entries once the advance is booked under the quote's media type and width. -/
def quoteMediaAfter (advance media width : Nat) (l : List MediaEntry) : List MediaEntry :=
  if advance = 0 then l
  else (withMedia media l).map (fun e => if e.media = media then e.add advance (advance * width) else e)

theorem quoteAdvance_eq {advance media width : Nat} {a : Account} (hm : a.quoteMedia = some media)
    (hw : a.quoteWidth = some width) : quoteAdvance advance a = { a with
      media := quoteMediaAfter advance media width a.media
      flags := { a.flags with saturated := (quoteAdvance advance a).flags.saturated } } := by
  unfold quoteAdvance quoteMediaAfter
  split
  · rfl
  · simp only [hm, hw, Option.getD_some, addMedia]

/-- R151: the media entry of a quote once the advance is booked under its width. -/
def quoteEntryAfter (advance width : Nat) (e : MediaEntry) : MediaEntry :=
  if advance = 0 then e
  else ⟨e.media, min 4294967295 (e.length + advance), min 999999999999999 (e.area + advance * width)⟩

theorem quoteEntryAfter_media (advance width : Nat) (e : MediaEntry) : (quoteEntryAfter advance width e).media = e.media := by
  unfold quoteEntryAfter
  split <;> rfl

theorem quoteMediaAfter_one (advance width : Nat) (e : MediaEntry) :
    quoteMediaAfter advance e.media width [e] = [quoteEntryAfter advance width e] := by
  unfold quoteMediaAfter quoteEntryAfter
  split
  · rfl
  · simp [withMedia, MediaEntry.add, satAdd, Config.count32Max, Config.areaMax]

/-- R167: what a swath makes of each field of its quote account. -/
theorem quoteAccount_eq (s : State) (d : Descriptor) (k : SwathKind) {a : Account} {media width : Nat} {rs : List Nat}
    (hm : a.quoteMedia = some media) (hw : a.quoteWidth = some width) (hr : a.quoteResidue = some rs) :
    quoteAccount s d k a = { a with
      ink := inkTotals (quoteCharge s d.drops rs) (dropChannels d.drops) a.ink
      media := quoteMediaAfter d.advance media width a.media
      strips := if k = .strip then 1 else a.strips
      fired := min 4294967295 (a.fired + 1)
      quoteResidue := some (quoteResidues s d.drops (dropChannels d.drops) rs)
      flags := { a.flags with saturated := (quoteAccount s d k a).flags.saturated } } := by
  have hfold := foldl_chargeQuote (s := s) (drops := d.drops) (dropChannels_nodup d.drops) hr
  rw [addInks_frame, addInks_ink] at hfold
  have hstrip : (if (k == .strip) = true then 1 else a.strips) = if k = .strip then 1 else a.strips := by simp
  have hadv := quoteAdvance_eq (advance := d.advance) (media := media) (width := width)
    (a := countFired (k == .strip) ((dropChannels d.drops).foldl (chargeQuote s d.drops) a))
    (by rw [hfold]; exact hm) (by rw [hfold]; exact hw)
  refine hadv.trans ?_
  rw [← hstrip, quoteAccount, hfold]
  rfl

/-- R167: the reply shows the one media entry of a quote. -/
theorem quoteEntry_one {a : Account} {e : MediaEntry} (ha : a.media = [e]) (he : a.quoteMedia = some e.media) :
    quoteEntry a = e := by
  simp [quoteEntry, ha, he]

/-! ### The forced commit (R41) -/

theorem anyCount_iff (n : Counts) : anyCount n = true ↔ n ≠ ⟨0, 0, 0⟩ := by
  cases n
  simp only [anyCount, Bool.or_eq_true, bne_iff_ne, ne_eq, Counts.mk.injEq]
  tauto

/-- R41: the channels with a nonzero count. -/
def cleanedChannels (count : Nat → Counts) : List Nat := (List.range Config.channels).filter (fun c => anyCount (count c))

theorem cleanedChannels_nodup (count : Nat → Counts) : (cleanedChannels count).Nodup := List.nodup_range.filter _

theorem mem_cleanedChannels {count : Nat → Counts} {c : Nat} :
    c ∈ cleanedChannels count ↔ c < 10 ∧ count c ≠ ⟨0, 0, 0⟩ := by
  simp only [cleanedChannels, List.mem_filter, List.mem_range, anyCount_iff, Config.channels]

/-- R41: a channel after its forced commit at a gain. -/
def cleanedChan (gain : Nat) (n : Counts) (x : Channel) : Channel :=
  { spend (chargeNl (rawVolume n x.cfg) gain x.residue) x with residue := chargeResidue (rawVolume n x.cfg) gain x.residue }

/-- R38: the level less the charge, with DRIFT where the charge exceeds it. -/
theorem cleanedChan_eq (gain : Nat) (n : Counts) (x : Channel) : cleanedChan gain n x = { x with
    residue := chargeResidue (rawVolume n x.cfg) gain x.residue
    level := x.level.map (fun v => v - chargeNl (rawVolume n x.cfg) gain x.residue)
    drift := x.drift || x.level.any (fun v => v < chargeNl (rawVolume n x.cfg) gain x.residue) } := by
  unfold cleanedChan spend
  cases hv : x.level with
  | none => simp [hv]
  | some v => simp

theorem forceCommit_eq (c : Nat) (n : Counts) (s : State) : forceCommit c n s = { s with
    isc.chans := s.isc.chans.modify c (cleanedChan (gainAt s c) n)
    cu.house := addInk c (chargeNow s c n) s.cu.house } := by
  rw [← chan_modify s c (fun x => { spend (chargeNow s c n) x with residue := residueNow s c n })
    (cleanedChan (gainAt s c) n) rfl]
  rfl

theorem chargeNow_forceCommit_ne {c d : Nat} (n m : Counts) (s : State) (h : c ≠ d) :
    chargeNow (forceCommit c n s) d m = chargeNow s d m := by
  have hchan : chanAt (forceCommit c n s) d = chanAt s d := chanAt_modify_ne s c d _ h
  unfold chargeNow
  rw [hchan]
  rfl

/-- R41: the channels once those of `l` are committed. -/
def cleanedChans (count : Nat → Counts) (l : List Nat) (s : State) : List Channel :=
  l.foldl (fun cs c => cs.modify c (cleanedChan (gainAt s c) (count c))) s.isc.chans

theorem getElem?_cleanedChans {count : Nat → Counts} {l : List Nat} (hn : l.Nodup) {s : State} {c : Nat}
    (hc : c < s.isc.chans.length) :
    (cleanedChans count l s)[c]? = some (if c ∈ l then cleanedChan (gainAt s c) (count c) (chanAt s c) else chanAt s c) := by
  have hs : s.isc.chans[c]? = some (chanAt s c) := by simp [chanAt, hc]
  rw [cleanedChans, getElem?_foldl_modify hn (fun c => cleanedChan (gainAt s c) (count c)), hs]
  split <;> rfl

/-- R41: the state once the channels of `l` are committed and charged to the house account. -/
def cleanedState (count : Nat → Counts) (l : List Nat) (s : State) : State :=
  { s with
    isc.chans := cleanedChans count l s
    cu.house := addInks (l.map (fun c => (c, chargeNow s c (count c)))) s.cu.house }

/-- R41: forced commits of distinct channels, each charged as the state before them says. -/
theorem foldl_forceCommit (count : Nat → Counts) {l : List Nat} (hn : l.Nodup) (s : State) :
    l.foldl (fun t c => forceCommit c (count c) t) s = cleanedState count l s := by
  induction l generalizing s with
  | nil => rfl
  | cons c t ih =>
    obtain ⟨hct, ht⟩ := List.nodup_cons.1 hn
    have hrest : ∀ d ∈ t, c ≠ d := fun d hd h => hct (h ▸ hd)
    rw [List.foldl_cons, ih ht, cleanedState,
      List.map_congr_left (fun d hd => by rw [chargeNow_forceCommit_ne (count c) (count d) s (hrest d hd)]), forceCommit_eq]
    rfl

theorem chanAt_cleanedState {count : Nat → Counts} {l : List Nat} (hn : l.Nodup) {s : State} {c : Nat} (hc : c ∈ l)
    (hl : c < s.isc.chans.length) : chanAt (cleanedState count l s) c = cleanedChan (gainAt s c) (count c) (chanAt s c) := by
  show (cleanedChans count l s).getD c _ = _
  rw [List.getD_eq_getElem?_getD, getElem?_cleanedChans hn hl, if_pos hc]
  rfl

/-- R66: a channel asks for no refill after its forced commit. -/
def CleanQuiet (s : State) (c : Nat) (n : Counts) : Prop :=
  (chanAt s c).enabled = false ∨ (chanAt s c).refill ≠ .idle ∨
    ∃ v, (chanAt s c).level = some v ∧ (chanAt s c).cfg.refillMark + (chanAt s c).reserved ≤ v - chargeNow s c n

theorem commitTrigger_cleanedState {count : Nat → Counts} {l : List Nat} (hn : l.Nodup) {s : State} {c : Nat} (hc : c ∈ l)
    (hl : c < s.isc.chans.length) (h : CleanQuiet s c (count c)) :
    commitTrigger (cleanedState count l s) c = cleanedState count l s := by
  apply commitTrigger_none
  rw [chanAt_cleanedState hn hc hl, cleanedChan_eq]
  rcases h with he | hr | ⟨v, hv, hle⟩
  · exact .inl he
  · exact .inr (.inl hr)
  · exact .inr (.inr ⟨v - chargeNow s c (count c), by rw [hv]; rfl, hle⟩)

/-- R41, R66: a CLEANED record after which no channel asks for a refill. -/
theorem cleanAll_eq {counts : List Counts} {count : Nat → Counts}
    (hcount : count = fun c => counts.getD c ⟨0, 0, 0⟩) {s : State} (hlen : s.isc.chans.length = 10)
    (h : ∀ c ∈ cleanedChannels count, CleanQuiet s c (count c)) :
    cleanAll counts s = cleanedState count (cleanedChannels count) s := by
  have hn := cleanedChannels_nodup count
  have hforce : cleanAll counts s = (cleanedChannels count).foldl commitTrigger
      ((cleanedChannels count).foldl (fun t c => forceCommit c (count c) t) s) := by rw [hcount]; rfl
  rw [hforce, foldl_forceCommit count hn]
  exact foldl_idle commitTrigger _ (fun c hc =>
    commitTrigger_cleanedState hn hc (by rw [hlen]; exact (mem_cleanedChannels.1 hc).1) (h c hc))

end Sys2Proof.Machine

open Sys2Proof Sys2Proof.Machine

/-- Settles O32: QUOTE_OPEN by its tests; QUOTE_SWATH by `quoteAccount_eq`, read channel by channel. -/
theorem quoteOpensAndTakesSwaths : Obligations.QuoteOpensAndTakesSwaths := by
  intro ft tag s
  refine ⟨fun media width cuts slot h1 h2 h3 h4 h5 h6 hjob hquote hfree => ?_,
    fun d slot a k media width residue hslot ha hk hadv hm hw hr hink hres => ?_⟩
  · have ht : tagInUse (cleared s) tag = false := by
      show ((slotOf s tag).isSome || (quoteSlotOf s tag).isSome) = false
      rw [hjob, hquote]; rfl
    exact congrArg Host.Outcome.next (carryOut_of_accept (takeQuoteOpen_ok h1 h2 h3 h4 h5 h6 ht hfree))
  · have hb := quoteAccount_eq (cleared s) d k hm hw hr
    have hexec : exec (.quoteSwath ft tag d) s = .next (answer 0x27 ft .ok (planMark s)
        (quoteBody s d (quoteAccount (cleared s) d k a))
        { cleared s with cu.quotes := s.cu.quotes.set slot (some (quoteAccount (cleared s) d k a)) }) :=
      congrArg Host.Outcome.next (carryOut_of_accept (takeQuoteSwath_ok (s := cleared s) hslot ha hk hadv))
    generalize quoteAccount (cleared s) d k a = b at hb hexec
    generalize b.flags.saturated = saturated at hb
    have hn := dropChannels_nodup d.drops
    refine ⟨b, quoteEntry b, quoteResidues (cleared s) d.drops (dropChannels d.drops) residue, hexec, ?_⟩
    subst hb
    refine ⟨rfl, (length_inkTotals ..).trans hink, (length_foldl_modify ..).trans hres,
      fun c hc => ⟨fun hmem => ⟨?_, ?_⟩, fun hmem => ⟨?_, ?_⟩⟩, rfl, rfl, fun hz => if_pos hz, fun e he hem => ?_, rfl⟩
    · exact inkTotals_mem hn hmem (by rw [hink]; exact hc)
    · exact getD_foldl_modify_mem hn _ 0 hmem (by rw [hres]; exact hc)
    · exact inkTotals_not_mem hn hmem
    · exact getD_foldl_modify_not_mem hn _ residue 0 hmem
    · subst hem
      have hone : quoteMediaAfter d.advance e.media width a.media = [quoteEntryAfter d.advance width e] :=
        he ▸ quoteMediaAfter_one d.advance width e
      have hentry := quoteEntry_one (a := { a with media := quoteMediaAfter d.advance e.media width a.media }) hone
        (hm.trans (congrArg some (quoteEntryAfter_media d.advance width e).symm))
      exact ⟨hone.trans (congrArg (fun m => [m]) hentry.symm), hentry⟩

/-- Settles O51: `cleanAll_eq` leaves the forced commits alone, and `foldl_forceCommit` says what they book. -/
theorem cleanedBooksForcedCommits : Obligations.CleanedBooksForcedCommits := by
  intro counts s hlen hink count hit scaled charge hquiet
  have hn := cleanedChannels_nodup count
  have hclean : cleanAll counts (begin s) = cleanedState count (cleanedChannels count) (begin s) :=
    cleanAll_eq rfl hlen (fun c hc => hquiet c (mem_cleanedChannels.1 hc).1 (mem_cleanedChannels.1 hc).2)
  have htotals := addInks_ink charge (cleanedChannels count) s.cu.house
  refine ⟨cleanedChans count (cleanedChannels count) s,
    addInks ((cleanedChannels count).map (fun c => (c, charge c))) s.cu.house, settle (cleanAll counts (begin s)), rfl,
    follows_iff (congrArg settle hclean), (length_foldl_modify ..).trans hlen, ?_, fun c hc => ?_,
    fun c hc hhit => ?_, fun c hc hhit => ?_, addInks_frame _ _⟩
  · rw [htotals]
    exact (length_inkTotals ..).trans hink
  · rw [getElem?_cleanedChans hn (by rw [hlen]; exact hc), cleanedChan_eq]
    by_cases hz : count c = ⟨0, 0, 0⟩
    · rw [if_neg (by simp [mem_cleanedChannels, hz])]
      simp only [if_pos hz]
    · rw [if_pos (mem_cleanedChannels.2 ⟨hc, hz⟩)]
      simp only [if_neg hz]
      rfl
  · rw [htotals]
    exact inkTotals_mem hn (mem_cleanedChannels.2 ⟨hc, hhit⟩) (by rw [hink]; exact hc)
  · rw [htotals]
    exact inkTotals_not_mem hn (fun hmem => hhit (mem_cleanedChannels.1 hmem).2)

end

section
/-! The form of a supply hold, the forms at reset, and the part's own steps (O7, O9, O2). -/

namespace Sys2Proof.Machine

/-! ### Forms at reset -/

/-- R196: a part that runs on the factory defaults, with no good image and no save under way, has every gain in its range. -/
theorem gainForm_factory {s : State} (hg : s.isc.gains = factory.gains) (hi : s.ss.image = .bad) (hs : s.ss.store = .defaulted) :
    GainForm s := by
  refine ⟨hg ▸ StepClosed.factory_gains, fun p hp => ?_, fun p n hp => ?_⟩
  · rw [hi] at hp; cases hp
  · rw [hs] at hp; cases hp

/-- R50, R63: a channel after the reset has no known level and no residue. -/
theorem chanForm_afterReset (p : ChanCfg × Bool) : ChanForm (Channel.afterReset p) :=
  ⟨nofun, (by decide : 0 < Config.chargeDivisor)⟩

theorem inkForm_afterReset {s : State} {l : List (ChanCfg × Bool)} (hc : s.isc.chans = l.map Channel.afterReset)
    (hq : s.rc.queue = []) : InkForm s := by
  refine ⟨fun c hmem => ?_, fun e he => ?_⟩
  · rw [hc] at hmem
    obtain ⟨p, _, rfl⟩ := List.mem_map.1 hmem
    exact chanForm_afterReset p
  · rw [hq] at he; cases he

/-! ### The part's own steps (log 3, log 17) -/

/-- R189, R194: dispatch takes a frame where one is buffered, no formed reply waits and no RESET_SOFT reply is under way. -/
theorem dispatchable_iff (s : State) : (mayDispatch s && !s.lc.buffer.isEmpty) = true ↔
    s.lc.buffer ≠ [] ∧ s.lc.formed = [] ∧ s.lc.softReset = .none := by
  simp [mayDispatch]
  tauto

/-- R177, R190. -/
theorem maySend_iff (s : State) : maySend s = true ↔
    s.lc.line = none ∧ (s.lc.noticeDue = true ∨ s.lc.busy ≠ [] ∨ s.lc.formed ≠ []) := by
  simp [maySend, or_assoc]

/-- R56. -/
theorem mayStartTag_iff (s : State) : mayStartTag s = true ↔ s.isc.tagBus = none ∧ s.isc.tagQueue ≠ [] := by
  simp [mayStartTag]

theorem step_own {s : State} {i : Instr} (hp : s.pending = []) (h : ownStep s = some i) : step s = exec i s := by
  unfold step
  rw [hp]
  simp only [h]

theorem step_tick {s : State} (hp : s.pending = []) (h : ownStep s = none) : step s = .next (tick (begin s)) := by
  unfold step
  rw [hp]
  simp only [h]

end Sys2Proof.Machine

open Sys2Proof Sys2Proof.Machine

/-- Settles O7: the form is one that every change of form keeps. -/
theorem noMechanismRunsDuringHold : Obligations.NoMechanismRunsDuringHold := by
  intro s t hs hst
  have hold : StepClosed HoldForm := fun _ _ hf h => hf.hold h
  exact hold.holds_after hst hs

/-- Settles O9, form by form. -/
theorem resetStateHasEveryForm : Obligations.ResetStateHasEveryForm := by
  have gain : GainForm State.reset := gainForm_factory rfl rfl rfl
  have link : LinkForm State.reset.lc := ⟨by decide, by decide, by decide⟩
  have table : TableForm State.reset.lc.conds := by
    refine ⟨List.pairwise_singleton _ _, fun e he => ?_⟩
    rw [List.mem_singleton.1 he]
    exact ⟨by decide, nofun⟩
  have queue : QueueForm State.reset.rc.queue := ⟨Nat.zero_le _, List.nodup_nil⟩
  have ink : InkForm State.reset := inkForm_afterReset (l := factory.chans) rfl rfl
  have roll : RollForm State.reset := nofun
  have cut : CutForm State.reset.mpc.cuts := ⟨Nat.zero_le _, List.Pairwise.nil⟩
  have hold : HoldForm State.reset := holdForm_of_not_held rfl
  have ring : RingForm State.reset.ccu := ⟨Nat.zero_le _, trivial⟩
  have record : RecordForm State.reset := Nat.zero_le _
  exact ⟨gain, link, table, queue, ink, roll, cut, hold, ring, record⟩

/-- Settles O2: each of the part's own steps in its order, and else one millisecond. -/
theorem emptyQueueTakesOwnStepOrTicks : Obligations.EmptyQueueTakesOwnStepOrTicks := by
  intro s hp dispatch transmit start
  have hd : (mayDispatch s && !s.lc.buffer.isEmpty) = true ↔ dispatch := dispatchable_iff s
  have ht : maySend s = true ↔ transmit := maySend_iff s
  have hs : mayStartTag s = true ↔ start := mayStartTag_iff s
  refine ⟨fun hr => step_own hp ?_, fun hr h1 => step_own hp ?_, fun hr h1 h2 => step_own hp ?_,
    fun hr h1 h2 h3 => step_own hp ?_, fun hr h1 h2 h3 => step_tick hp ?_⟩ <;> unfold ownStep
  · rw [if_pos hr]
  · rw [if_neg hr, if_pos (hd.2 h1)]
  · rw [if_neg hr, if_neg (mt hd.1 h1), if_pos (ht.2 h2)]
  · rw [if_neg hr, if_neg (mt hd.1 h1), if_neg (mt ht.1 h2), if_pos (hs.2 h3)]
  · rw [if_neg hr, if_neg (mt hd.1 h1), if_neg (mt ht.1 h2), if_neg (mt hs.1 h3)]

end

section
/-! Records as they stand, the end of the store load, and the channel requests (O36, O16, O29). -/

namespace Sys2Proof.Machine

/-! ### CHAN_GET, CHECK_GET and ACCOUNT_GET (R47, R127, R165) -/

theorem takeChanGet_ok {c : Nat} {s : State} (h : c ≤ 9) :
    takeChanGet c s = accept (.channel (chanAt s c) (gainAt s c) s.isc.gainGen (bayViews s c))
      (updChan c (fun x => { x with drift := false }) s) := if_neg (by omega)

theorem takeCheckGet_ok {id : Nat} {s : State} (h : id ≤ 3) : takeCheckGet id s = accept (.check (checkReport s id)) s :=
  if_neg (by omega)

theorem takeAccountGet_tag {tag : Nat} {s : State} (h : tag ≠ 0) : takeAccountGet 0 tag s = takeTagAccount tag s := by
  unfold takeAccountGet
  rw [if_neg (by decide), if_pos rfl, if_neg h]

theorem takeTagAccount_print {tag i : Nat} {j : Job} {a : Account} {s : State} (hi : slotOf s tag = some i)
    (hj : jobAt s i = some j) (ha : printAt s i = some a) :
    takeTagAccount tag s = accept (accountBody s a (some i) (some (j.state, j.outcome))) s := by
  simp only [takeTagAccount, hi, hj, ha]

theorem takeTagAccount_quote {tag i : Nat} {a : Account} {s : State} (hn : slotOf s tag = none)
    (hi : quoteSlotOf s tag = some i) (ha : quoteAt s i = some a) :
    takeTagAccount tag s = accept (accountBody s a (some i) none) s := by
  simp only [takeTagAccount, hn, hi, ha]

theorem takeTagAccount_none {tag : Nat} {s : State} (hn : slotOf s tag = none) (hq : quoteSlotOf s tag = none) :
    takeTagAccount tag s = refuse .noJob s := by
  simp only [takeTagAccount, hn, hq]

/-! ### The end of the store load (R196) -/

/-- R195, R196: the settings that every block took stand as the working settings, where each stored channel has a record. -/
theorem workingSettings_applySettings {p : Settings} {s : State} (h : p.chans.length = s.isc.chans.length) :
    workingSettings (applySettings p s) = p := by
  have hchans : (List.zipWith Channel.load p.chans s.isc.chans).map (fun c => (c.cfg, c.enabled)) = p.chans := by
    calc (List.zipWith Channel.load p.chans s.isc.chans).map (fun c => (c.cfg, c.enabled))
        = (List.zip p.chans s.isc.chans).map Prod.fst := by rw [List.zip, List.map_zipWith, List.map_zipWith]; rfl
      _ = p.chans := List.map_fst_zip h.le
  cases p
  simp only [workingSettings, applySettings, hchans]

theorem doStoreLoadEnd_loading {s : State} {n : Nat} (h : s.ss.loading = some n) : doStoreLoadEnd s = endLoad (begin s) :=
  if_pos (by rw [h]; rfl)

theorem endLoad_good {s : State} {p : Settings} (h : s.ss.image = .good p) :
    endLoad s = loadDone .valid (applySettings p s) := by
  simp only [endLoad, loadedSettings, h]

theorem endLoad_bad {s : State} (h : s.ss.image = .bad) :
    endLoad s = raise .storeDefaulted none (loadDone .defaulted (applySettings factory s)) := by
  simp only [endLoad, loadedSettings, h]

/-! ### CHAN_SET, CHAN_ON, CHAN_OFF and GAIN_SET (R44 to R46, R146) -/

theorem takeChanSet_ok {c : Nat} {cfg : ChanCfg} {s : State} (hc : c ≤ 9) (hs : saving s = false)
    (he : (chanAt s c).enabled = false) (hok : cfgOk cfg = true) :
    takeChanSet c cfg s = (accept .none (markChanged (updChan c (Channel.configure cfg) s))).settled := by
  unfold takeChanSet
  rw [if_neg (by omega), if_neg (by simp [hs]), if_neg (by simp [he]), if_neg (by simp [hok])]

/-- R44: a known level above the new full volume is clamped with DRIFT. -/
theorem configure_eq (cfg : ChanCfg) (x : Channel) : Channel.configure cfg x = { x with
    cfg := cfg, level := x.level.map (fun l => min l cfg.full), drift := x.drift || x.level.any (fun l => cfg.full < l) } := by
  unfold Channel.configure
  cases hl : x.level with
  | none => simp
  | some l => simp

theorem takeChanOn_disabled {c : Nat} {s : State} (hc : c ≤ 9) (hs : saving s = false) (he : (chanAt s c).enabled = false) :
    takeChanOn c s = (accept .none (markChanged (updChan c (fun x => { x with enabled := true }) s))).settled := by
  unfold takeChanOn enable
  rw [if_neg (by omega), if_neg (by simp [hs]), if_neg (by simp [he])]

theorem takeChanOn_enabled {c : Nat} {s : State} (hc : c ≤ 9) (hs : saving s = false) (he : (chanAt s c).enabled = true) :
    takeChanOn c s = (accept .none s).settled := by
  unfold takeChanOn enable
  rw [if_neg (by omega), if_neg (by simp [hs]), if_pos he]

theorem isDrawing_false {s : State} {c : Nat} (h : ∀ b, (chanAt s c).refill ≠ .drawing b) : isDrawing s c = false := by
  unfold isDrawing
  split
  · rename_i b hb
    exact absurd hb (h b)
  · rfl

theorem takeChanOff_ok {c : Nat} {s : State} (hc : c ≤ 9) (hs : saving s = false) (hg : grantNames s c = false)
    (hd : ∀ b, (chanAt s c).refill ≠ .drawing b) (he : (chanAt s c).enabled = true) :
    takeChanOff c s = (accept (.refill (chanAt s c).refill)
      (markChanged (unqueue c (updChan c (fun x => { x with enabled := false, refill := .idle }) s)))).settled := by
  unfold takeChanOff disable
  rw [if_neg (by omega), if_neg (by simp [hs]), if_neg (by simp [hg]), if_neg (by simp [isDrawing_false hd]), if_pos he]

theorem takeGainSet_ok {c v : Nat} {s : State} (hc : c ≤ 9) (hs : saving s = false) :
    takeGainSet c v s
      = (accept (.gainStored (clampGain v) ((s.isc.gainGen + 1) % 65536)) (gainWrite [(c, clampGain v)] s)).settled := by
  unfold takeGainSet
  rw [if_neg (by omega), if_neg (by simp [hs])]
  rfl

/-- The end of an accepted request after which the part reacts: the state that follows, and the reply that is formed on it. -/
theorem follows_of_settled {kind : Nat} {ft : Byte} {f : State → Taken} {s x : State} {b : Body} {i : Instr}
    (hi : exec i s = .next (carryOut kind ft f s)) (h : f (cleared s) = (accept b x).settled) :
    ∃ t : State, Follows x t ∧ exec i s = .next (answer kind ft .ok (planMark s) b t) :=
  ⟨settle x, follows_settle x, hi.trans (congrArg Host.Outcome.next (carryOut_of_settled h))⟩

end Sys2Proof.Machine

open Sys2Proof Sys2Proof.Machine

/-- Settles O36, request by request. -/
theorem recordReadsCarryWhatStands : Obligations.RecordReadsCarryWhatStands := by
  intro ft s
  refine ⟨fun c hc => ?_, fun c hc => ?_, fun id hid => ?_, fun id hid => ?_, ?_⟩
  · exact congrArg Host.Outcome.next (carryOut_of_accept (takeChanGet_ok hc))
  · exact congrArg Host.Outcome.next (carryOut_of_refuse (if_pos hc))
  · exact congrArg Host.Outcome.next (carryOut_of_accept (takeCheckGet_ok hid))
  · exact congrArg Host.Outcome.next (carryOut_of_refuse (if_pos hid))
  · intro seen
    refine ⟨fun tag => ?_, ?_, fun tag i j a h0 hi hj ha => ?_, fun tag i a h0 hn hi ha => ?_, fun tag h0 hn hq => ?_⟩
    · exact congrArg Host.Outcome.next (carryOut_of_accept (if_pos rfl))
    · exact congrArg Host.Outcome.next (carryOut_of_refuse rfl)
    · exact congrArg Host.Outcome.next (carryOut_of_accept ((takeAccountGet_tag h0).trans (takeTagAccount_print hi hj ha)))
    · exact congrArg Host.Outcome.next (carryOut_of_accept ((takeAccountGet_tag h0).trans (takeTagAccount_quote hn hi ha)))
    · exact congrArg Host.Outcome.next (carryOut_of_refuse ((takeAccountGet_tag h0).trans (takeTagAccount_none hn hq)))

/-- Settles O16, by the image that was found. -/
theorem storeLoadEndTakesTheImage : Obligations.StoreLoadEndTakesTheImage := by
  intro s n p hload himage hlen x
  refine ⟨workingSettings_applySettings (s := begin s) hlen, fun hgood => ?_, fun hbad => ?_⟩
  · obtain himg | ⟨hbad, _⟩ := himage
    · show Host.Outcome.next (doStoreLoadEnd s) = _
      rw [doStoreLoadEnd_loading hload, endLoad_good (s := begin s) himg]
      simp only [x, if_neg hgood]
      rfl
    · exact absurd hbad hgood
  · obtain himg | ⟨_, rfl⟩ := himage
    · rw [hbad] at himg; cases himg
    · show Host.Outcome.next (doStoreLoadEnd s) = _
      rw [doStoreLoadEnd_loading hload, endLoad_bad (s := begin s) hbad]
      simp only [x, if_pos hbad]
      rfl

/-- Settles O29: each request passes its tests and is stored, and the reactions follow. -/
theorem channelRequestsStoreTheirValues : Obligations.ChannelRequestsStoreTheirValues := by
  intro ft c s hc hs
  refine ⟨fun cfg he hok => ?_, fun he => ?_, fun he => ?_, fun hg hd he => ?_, fun v => ?_⟩
  · rw [← funext (configure_eq cfg)]
    exact follows_of_settled rfl (takeChanSet_ok (s := cleared s) hc hs he hok)
  · exact follows_of_settled rfl (takeChanOn_disabled (s := cleared s) hc hs he)
  · exact follows_of_settled rfl (takeChanOn_enabled (s := cleared s) hc hs he)
  · exact follows_of_settled rfl (takeChanOff_ok (s := cleared s) hc hs hg hd he)
  · exact follows_of_settled rfl (takeGainSet_ok (s := cleared s) hc hs)

end

section
/-! The evaluation of a scan and its gain write (O58). -/

namespace Sys2Proof.Machine

/-! ### The whole root (R143) -/

/-- From a root known to lie in `r .. r + 2 ^ k - 1`, the bits below `k` give the whole root. -/
theorem isqrtFrom_bounds (n : Nat) {k r : Nat} (hlo : r * r ≤ n) (hhi : n < (r + 2 ^ k) * (r + 2 ^ k)) :
    isqrtFrom n k r * isqrtFrom n k r ≤ n ∧ n < (isqrtFrom n k r + 1) * (isqrtFrom n k r + 1) := by
  induction k generalizing r with
  | zero => exact ⟨hlo, hhi⟩
  | succ k ih =>
    unfold isqrtFrom
    split
    · rename_i hbit
      refine ih hbit ?_
      rwa [Nat.add_assoc, ← Nat.two_mul, ← Nat.pow_succ']
    · rename_i hbit
      exact ih hlo (Nat.lt_of_not_le hbit)

/-! ### The correction of one channel (R145) -/

/-- R145 step 2: the wanted step, held to the maximum step. -/
def boundedStep (params : CheckParams) (ch : Nat) (errors : List Int) : Int :=
  clampInt (-(params.maxStep : Int)) params.maxStep
    ((errors.sum.tdiv errors.length * (params.sens.getD ch 0 : Nat)).tdiv 100)

theorem boundedStep_bounds (params : CheckParams) (ch : Nat) (errors : List Int) :
    -(params.maxStep : Int) ≤ boundedStep params ch errors ∧ boundedStep params ch errors ≤ params.maxStep := by
  simp only [boundedStep, clampInt]
  omega

/-- R145 steps 3 to 5: the step is applied so that the gain stays in its range. -/
theorem correction_eq (params : CheckParams) (gain ch : Nat) (errors : List Int) :
    correction params gain ch errors = ⟨ch, clampInt 3072 5120 (gain + boundedStep params ch errors) - gain,
      clampInt 3072 5120 (gain + boundedStep params ch errors) != gain + boundedStep params ch errors⟩ := rfl

/-- A clamp changes a number just where it lies outside the range. -/
theorem clampInt_ne_iff {lo hi x : Int} (h : lo ≤ hi) : clampInt lo hi x ≠ x ↔ x < lo ∨ hi < x := by
  simp only [clampInt]
  omega

/-- R145: a gain in its range moves within it, and by no more than the maximum step. -/
theorem appliedStep_bounds {gain step m : Int} (hlo : 3072 ≤ gain) (hhi : gain ≤ 5120) (h : -m ≤ step ∧ step ≤ m) :
    3072 ≤ gain + (clampInt 3072 5120 (gain + step) - gain) ∧ gain + (clampInt 3072 5120 (gain + step) - gain) ≤ 5120 ∧
      m * -1 ≤ clampInt 3072 5120 (gain + step) - gain ∧ clampInt 3072 5120 (gain + step) - gain ≤ m := by
  simp only [clampInt]
  omega

/-! ### The result of a scan (R143 to R145) -/

theorem channelErrors_nonempty (ds : List Diff) (c : Nat) :
    (!(channelErrors ds c).isEmpty) = ds.any (fun d => d.channel == some c) := by
  rw [Bool.eq_iff_iff]
  simp [channelErrors, List.filter_eq_nil_iff]

theorem corrections_eq (s : State) (ds : List Diff) : corrections s ds =
    ((List.range 10).filter (fun c => ds.any (fun d => d.channel == some c))).map (fun c =>
      correction s.ccu.params (gainAt s c) c (channelErrors ds c)) := by
  simp only [corrections, channelErrors_nonempty]
  rfl

section
variable {s : State} {p : PatchSet} {policy : Option Policy} {readings : List RingEntry} {ds : List Diff}
  (hds : diffsFrom readings 0 p.patches = ds)
include hds

/-- R144: with no valid patch, or with too many invalid ones, the scan gives no judgement. -/
theorem evaluate_sensorError (h : ds = [] ∨ s.ccu.params.maxInvalid < p.patches.length - ds.length) :
    evaluate s p policy readings = Result.sensorError ds.length := by
  unfold evaluate
  rw [hds]
  exact if_pos (by rwa [List.length_eq_zero_iff])

/-- R144, R145: the result of a scan with enough valid patches. -/
theorem evaluate_judged (h : ds ≠ []) (hv : p.patches.length - ds.length ≤ s.ccu.params.maxInvalid) :
    evaluate s p policy readings =
      { verdict := if policy = some .adjust ∧ (corrections s ds).any (fun c => c.limited) then .failLimit
          else if passes p ds then .pass else .fail
        worst := some ((ds.map Diff.size).foldl max 0), mean := some (meanDiff ds), valid := some ds.length
        corrections := if policy = some .adjust then some (corrections s ds) else none } := by
  unfold evaluate
  rw [hds]
  exact if_neg (by rw [List.length_eq_zero_iff]; exact not_or.2 ⟨h, Nat.not_lt.2 hv⟩)

end

/-! ### The gain write of a result (R61, R145) -/

theorem gainPairs_eq (s : State) (r : Result) : gainPairs s r =
    ((r.corrections.getD []).filter (fun c => decide (c.applied ≠ 0))).map (fun c =>
      (c.channel, ((gainAt s c.channel : Int) + c.applied).toNat)) := by
  have hne : (fun c : Correction => c.applied != 0) = fun c => decide (c.applied ≠ 0) := by
    funext c
    rw [Bool.eq_iff_iff, bne_iff_ne, decide_eq_true_iff]
  rw [gainPairs, hne]

theorem applyCorrections_eq (r : Result) (s : State) :
    applyCorrections r s = if gainPairs s r = [] then s else gainWrite (gainPairs s r) s := by
  unfold applyCorrections
  cases gainPairs s r <;> rfl

/-- R61, R153, R195: one gain write: the pairs stored, the generation raised once, the accounts marked. -/
theorem gainWrite_eq (pairs : List (Nat × Nat)) (s : State) : gainWrite pairs s = { s with
    isc.gains := pairs.foldl (fun g p => g.set p.1 p.2) s.isc.gains
    isc.gainGen := (s.isc.gainGen + 1) % 65536
    cu.printAccts := s.cu.printAccts.map (fun o => o.map (markGain ((s.isc.gainGen + 1) % 65536)))
    cu.quotes := s.cu.quotes.map (fun o => o.map (markGain ((s.isc.gainGen + 1) % 65536)))
    ss.changed := true } := rfl

end Sys2Proof.Machine

open Sys2Proof Sys2Proof.Machine

/-- Settles O58: the root, a channel's correction, the result, and its gain write. -/
theorem evaluationGivesVerdictAndCorrections : Obligations.EvaluationGivesVerdictAndCorrections := by
  refine ⟨fun n hn => isqrtFrom_bounds n (Nat.zero_le _) (by simpa using hn), ?_, ?_, ?_⟩
  · intro params gain ch errors hlo hhi _ error wanted c
    have hstep := boundedStep_bounds params ch errors
    have hc : c = ⟨ch, _, _⟩ := correction_eq params gain ch errors
    have hb : max (-(params.maxStep : Int)) (min params.maxStep wanted) = boundedStep params ch errors := rfl
    rw [hb, hc]
    obtain ⟨hge, hle, hdown, hup⟩ := appliedStep_bounds (gain := gain) (by omega) (by omega) hstep
    refine ⟨rfl, hge, hle, hdown, hup, rfl, fun hl => ?_, bne_iff_ne.trans (clampInt_ne_iff (by decide))⟩
    rw [show clampInt 3072 5120 (gain + boundedStep params ch errors) = _ from bne_eq_false_iff_eq.1 hl]
    exact add_sub_cancel_left _ _
  · intro s p policy readings ds r sizes corr
    have hcorr : corr = corrections s ds := (corrections_eq s ds).symm
    refine ⟨evaluate_sensorError rfl, fun hne hv => ?_⟩
    intro passed
    have hr : r = _ := evaluate_judged rfl hne hv
    rw [hr, hcorr]
    refine ⟨rfl, rfl, rfl, fun hp => ⟨if_neg hp, ?_⟩, fun hp => ⟨if_pos hp, ?_⟩⟩
    · simp only [hp, false_and, if_false]
      rfl
    · simp only [hp, true_and]
      rfl
  · intro s r steps gen flag
    have hpairs : gainPairs s r = steps.map (fun c => (c.channel, ((gainAt s c.channel : Int) + c.applied).toNat)) :=
      gainPairs_eq s r
    refine ⟨fun h => ?_, fun h => ?_⟩
    · rw [applyCorrections_eq, hpairs, h, List.map_nil, if_pos rfl]
    · rw [applyCorrections_eq, if_neg (by simpa [hpairs] using h), gainWrite_eq, hpairs, List.foldl_map]
      rfl

end

section
/-! Refill requests, floats and bays: the requests' outcomes where the pump serves nothing, and the presence inputs (O44, O45). -/

namespace Sys2Proof.Machine

/-! ### Bays (R53, R55, R58) -/

/-- R55: a bay's tag operation is abandoned. -/
theorem abandonTagOp_eq (b : Nat) (s : State) : abandonTagOp b s = { s with
    isc.tagQueue := s.isc.tagQueue.filter (fun op => op.bay != b)
    isc.tagBus := s.isc.tagBus.filter (fun r => r.op.bay != b) } := by
  have hbus : (match s.isc.tagBus with
      | some r => if r.op.bay = b then none else some r
      | none => none) = s.isc.tagBus.filter (fun r => r.op.bay != b) := by
    cases s.isc.tagBus with
    | none => rfl
    | some r => by_cases h : r.op.bay = b <;> simp [Option.filter, h]
  rw [← hbus]
  rfl

theorem doBayPresenceDeassert_present {b : Fin 16} {s : State} (h : (bayAt s b).present = true) :
    doBayPresenceDeassert b s = settle (bayRemoved b (begin s)) := if_pos h

section
variable {b : Nat} {s : State}

theorem bayRemoved_reading (h : (bayAt s b).state = .reading) : bayRemoved b s = emptyBay b (abandonTagOp b s) := by
  simp only [bayRemoved, h]

theorem bayRemoved_writing (h : (bayAt s b).state = .writing) :
    bayRemoved b s = raise .tagStale (some b) (emptyBay b (abandonTagOp b s)) := by
  simp only [bayRemoved, h]

theorem bayRemoved_idle (h : (bayAt s b).state = .ready ∨ (bayAt s b).state = .spent ∨ (bayAt s b).state = .suspect ∨
    (bayAt s b).state = .tagFault) : bayRemoved b s = emptyBay b s := by
  obtain h | h | h | h := h <;> simp only [bayRemoved, h]

theorem takeBayClear_ok (hb : b ≤ 15)
    (h : ((bayAt s b).state = .suspect ∨ (bayAt s b).state = .tagFault) ∧ (bayAt s b).present = true) :
    takeBayClear b s = accept .none (clearBay b s) := by
  unfold takeBayClear
  rw [if_neg (by omega), if_pos h]

theorem takeBayClear_notNow (hb : b ≤ 15)
    (h : ¬(((bayAt s b).state = .suspect ∨ (bayAt s b).state = .tagFault) ∧ (bayAt s b).present = true)) :
    takeBayClear b s = refuse .notNow s := by
  unfold takeBayClear
  rw [if_neg (by omega), if_neg h]

end

/-- R174: the cause of a condition ends in the entry of its pair. -/
theorem endCause_eq (c : Cond) (sub : Option Nat) (s : State) : endCause c sub s = { s with
    lc.conds := s.lc.conds.map (fun e => if e.cond = c ∧ e.subject = sub then { e with cause := false } else e) } := by
  simp only [endCause, isFor_iff]

/-! ### Refill requests that serve nothing (R65) -/

section
variable {c : Nat} {low : Bool} {s : State}

/-- R65, R69: a request of an enabled IDLE channel is queued, and the pump has its turn. -/
theorem placeRequest_idle (hr : (chanAt s c).refill = .idle) (he : (chanAt s c).enabled = true) :
    placeRequest c low s = pumpServe { s with
      isc.chans := s.isc.chans.modify c (fun x => { x with refill := .queued })
      isc.pumpQueue := s.isc.pumpQueue ++ [⟨c, low || (chanAt s c).lowFloat⟩] } := by
  unfold placeRequest
  simp only [hr, he, if_true]
  rfl

/-- R65, R70: while the pump is busy such a request waits. -/
theorem placeRequest_busy (hr : (chanAt s c).refill = .idle) (he : (chanAt s c).enabled = true) (hp : s.isc.pump ≠ .free) :
    placeRequest c low s = { s with
      isc.chans := s.isc.chans.modify c (fun x => { x with refill := .queued })
      isc.pumpQueue := s.isc.pumpQueue ++ [⟨c, low || (chanAt s c).lowFloat⟩] } :=
  (placeRequest_idle hr he).trans (pumpServe_busy _ hp)

/-- R51, R65: a LOW-float request marks the entry of a QUEUED channel. -/
theorem placeRequest_queued (hr : (chanAt s c).refill = .queued) :
    placeRequest c true s = { s with
      isc.pumpQueue := s.isc.pumpQueue.map (fun e => if e.channel = c then { e with marked := true } else e) } := by
  unfold placeRequest
  simp only [hr, if_true]

/-- R65: no other channel is requested. -/
theorem placeRequest_refused (hq : (chanAt s c).refill ≠ .queued) (hi : (chanAt s c).enabled = true → (chanAt s c).refill ≠ .idle) :
    placeRequest c low s = s := by
  unfold placeRequest
  dsimp only
  split
  · rename_i hr
    exact if_neg (fun he => hi he hr)
  · rename_i hr
    exact absurd hr hq
  · rfl

end

/-! ### The floats (R51, R52) -/

/-- R51: the level corrected by the LOW float. -/
theorem lowCorrect_eq (x : Channel) : x.lowCorrect = { x with
    level := x.level.map (fun l => min l x.cfg.lowVol), drift := x.drift || x.level.any (fun l => x.cfg.lowVol < l) } := by
  unfold Channel.lowCorrect
  obtain ⟨cfg, enabled, level, reserved, residue, drift, refill, low, full⟩ := x
  cases level with
  | none => simp
  | some l =>
    by_cases h : cfg.lowVol < l
    · simp [h, h.le]
    · simp [h, Nat.le_of_not_lt h]

/-- R51: the channel record `y` after the LOW float asserted on it where it stood as `x`. -/
def lowered (x y : Channel) : Channel :=
  { y with lowFloat := true, level := x.level.map (fun l => min l x.cfg.lowVol)
           drift := x.drift || x.level.any (fun l => x.cfg.lowVol < l) }

/-- R51: the LOW float corrects the level, and requests the channel with the mark. -/
theorem lowAsserts_eq (c : Nat) (s : State) : lowAsserts c s = placeRequest c true (updChan c (lowered (chanAt s c)) s) := by
  unfold lowAsserts updChan
  rw [chan_modify s c (fun y => { y.lowCorrect with lowFloat := true }) (lowered (chanAt s c)) (by rw [lowCorrect_eq]; rfl)]

section
variable {c : Nat} {s : State} (hlen : c < s.isc.chans.length)
include hlen

theorem chanAt_lowered : chanAt (updChan c (lowered (chanAt s c)) s) c = lowered (chanAt s c) (chanAt s c) :=
  chanAt_upd s c _ hlen

/-- R51, R65: while the pump is busy the LOW float queues an enabled IDLE channel, with the mark. -/
theorem lowAsserts_idle (he : (chanAt s c).enabled = true) (hr : (chanAt s c).refill = .idle) (hp : s.isc.pump ≠ .free) :
    lowAsserts c s = { s with
      isc.chans := s.isc.chans.modify c (fun y => { lowered (chanAt s c) y with refill := .queued })
      isc.pumpQueue := s.isc.pumpQueue ++ [⟨c, true⟩] } := by
  rw [lowAsserts_eq, placeRequest_busy (s := updChan c (lowered (chanAt s c)) s) (by rw [chanAt_lowered hlen]; exact hr)
    (by rw [chanAt_lowered hlen]; exact he) hp]
  simp only [updChan, List.modify_modify_eq]
  rfl

theorem lowAsserts_queued (hr : (chanAt s c).refill = .queued) : lowAsserts c s = { s with
    isc.chans := s.isc.chans.modify c (lowered (chanAt s c))
    isc.pumpQueue := s.isc.pumpQueue.map (fun e => if e.channel = c then { e with marked := true } else e) } := by
  rw [lowAsserts_eq, placeRequest_queued (by rw [chanAt_lowered hlen]; exact hr)]
  rfl

theorem lowAsserts_refused (hq : (chanAt s c).refill ≠ .queued)
    (hi : (chanAt s c).enabled = true → (chanAt s c).refill ≠ .idle) :
    lowAsserts c s = { s with isc.chans := s.isc.chans.modify c (lowered (chanAt s c)) } := by
  rw [lowAsserts_eq, placeRequest_refused (by rw [chanAt_lowered hlen]; exact hq) (by rw [chanAt_lowered hlen]; exact hi)]
  rfl

end

/-- R52: the level corrected by the FULL float. -/
theorem fullCorrect_eq (x : Channel) : x.fullCorrect = { x with
    level := some x.cfg.full, drift := x.drift || x.level.any (fun l => l < x.cfg.full) } := by
  unfold Channel.fullCorrect
  cases x.level with
  | none => simp
  | some l => simp

/-- The draw in flight, running or suspended. -/
theorem draw_eq_some {p : Pump} {d : Draw} : p.draw = some d ↔ p = .running d ∨ p = .suspended d := by
  cases p <;> simp [Pump.draw]

theorem drawOf_none {s : State} {c : Nat} (h : ∀ d, s.isc.pump = .running d ∨ s.isc.pump = .suspended d → d.channel ≠ c) :
    drawOf s c = none := by
  unfold drawOf
  cases hd : s.isc.pump.draw with
  | none => rfl
  | some d => exact if_neg (h d (draw_eq_some.1 hd))

theorem drawOf_some {s : State} {d : Draw} (h : s.isc.pump = .running d ∨ s.isc.pump = .suspended d) :
    drawOf s d.channel = some d := by
  simp only [drawOf, draw_eq_some.2 h, if_true]

/-- R52: outside a draw the FULL float corrects the level. -/
theorem fullAsserts_outside {s : State} {c : Nat} (h : drawOf s c = none) : fullAsserts c s = { s with
    isc.chans := s.isc.chans.modify c (fun y => { y with
      fullFloat := true, level := some (chanAt s c).cfg.full
      drift := (chanAt s c).drift || (chanAt s c).level.any (fun l => l < (chanAt s c).cfg.full) }) } := by
  rw [← chan_modify s c (fun y => Channel.fullCorrect { y with fullFloat := true }) _ (fullCorrect_eq _)]
  unfold fullAsserts
  simp only [h, updChan, List.modify_modify_eq]
  rfl

end Sys2Proof.Machine

open Sys2Proof Sys2Proof.Machine

/-- Settles O44, by the state that the bay leaves. -/
theorem bayInsertionRemovalAndClear : Obligations.BayInsertionRemovalAndClear := by
  intro b s bays now others emptied abandoned
  have hothers : others = fun op => op.bay != b.val := by
    funext op
    cases op <;> rfl
  have habandoned : emptyBay b (abandonTagOp b now) = raise .bayChanged (some b.val) abandoned := by
    rw [abandonTagOp_eq]
    simp only [abandoned, hothers]
    rfl
  refine ⟨fun h => ?_, fun h => ?_, fun h => ?_, fun h => ?_, fun ft h => ?_, fun ft h => ?_, fun ft n h => ?_⟩
  · exact congrArg Host.Outcome.next (if_pos h)
  · exact congrArg Host.Outcome.next (if_neg (by simp [h]))
  · exact congrArg Host.Outcome.next (if_neg (by simp [h]))
  · refine ⟨_, congrArg Host.Outcome.next (doBayPresenceDeassert_present h), fun hs => ?_, fun hs => ?_, fun hs => ?_⟩
    · exact follows_iff (by rw [bayRemoved_reading (s := begin s) hs, ← habandoned]; rfl)
    · exact follows_iff (by rw [bayRemoved_writing (s := begin s) hs, ← habandoned]; rfl)
    · exact follows_iff (by rw [bayRemoved_idle (s := begin s) hs]; rfl)
  · refine congrArg Host.Outcome.next ((carryOut_of_accept (takeBayClear_ok (s := cleared s) (by omega) h)).trans ?_)
    rw [clearBay, endCause_eq]
    rfl
  · exact congrArg Host.Outcome.next (carryOut_of_refuse (takeBayClear_notNow (s := cleared s) (by omega) h))
  · exact congrArg Host.Outcome.next (carryOut_of_refuse (if_pos h))

/-- Settles O45: the correction, and the request that a LOW float makes by the refill state. -/
theorem floatsCorrectTheLevel : Obligations.FloatsCorrectTheLevel := by
  intro c s hlen x now low
  refine ⟨rfl, rfl, fun h => ?_, fun h => ?_, fun h => ?_, fun h hd => ?_⟩
  · exact congrArg Host.Outcome.next (if_pos h)
  · exact congrArg Host.Outcome.next (if_pos h)
  · refine ⟨settle (lowAsserts c now), congrArg Host.Outcome.next (if_neg (by simpa using h)), fun he hr hp => ?_, fun hr => ?_,
      fun hq hi => ?_⟩
    · exact follows_iff (congrArg settle (lowAsserts_idle (s := now) hlen he hr hp))
    · exact follows_iff (congrArg settle (lowAsserts_queued (s := now) hlen hr))
    · exact follows_iff (congrArg settle (lowAsserts_refused (s := now) hlen hq hi))
  · exact ⟨_, follows_iff (congrArg settle (fullAsserts_outside (drawOf_none hd))), 
      congrArg Host.Outcome.next (if_neg (by simpa using h))⟩

end

section
/-! The tag bus (O47). -/

namespace Sys2Proof.Machine

/-! ### Tag operations (R54, R56, R57) -/

theorem doTagOpStart_free {s : State} {op : TagOp} {l : List TagOp} (hb : s.isc.tagBus = none) (hq : s.isc.tagQueue = op :: l) :
    doTagOpStart s = send op.sent { begin s with isc.tagQueue := l, isc.tagBus := some ⟨op, 0⟩ } := by
  simp only [doTagOpStart, hb, hq]

section
variable {s : State} {b n : Nat}

theorem doTagReadComplete_read (h : s.isc.tagBus = some ⟨.read b, n⟩) (ink capacity remaining : Nat) (check : Half) :
    doTagReadComplete ink capacity remaining check s
      = settle (readResult b ⟨ink, capacity, remaining⟩ check (freeBus (begin s))) := by
  simp only [doTagReadComplete, h]

theorem doTagOpTimeout_read (h : s.isc.tagBus = some ⟨.read b, n⟩) :
    doTagOpTimeout s = settle (bayFaults b false (freeBus (begin s))) := by
  simp only [doTagOpTimeout, h]

variable {w : TagData}

theorem doTagWriteComplete_write (h : s.isc.tagBus = some ⟨.write b w, n⟩) :
    doTagWriteComplete s = settle (bayResult b (bayRemaining s b) (freeBus (begin s))) := by
  simp only [doTagWriteComplete, h]

theorem doTagOpTimeout_write (h : s.isc.tagBus = some ⟨.write b w, n⟩) :
    doTagOpTimeout s = settle (bayFaults b true (freeBus (begin s))) := by
  simp only [doTagOpTimeout, h]

end

/-- R54, R57: a bay with no more than the spent mark goes SPENT. -/
theorem bayResult_spent {b remaining : Nat} {s : State} (h : remaining ≤ s.isc.spentMark) :
    bayResult b remaining s = updBay b (fun y => { y with state := .spent }) s := if_neg (by omega)

/-- R54, R57: a bay with more than the spent mark goes READY. -/
theorem bayResult_ready {b remaining : Nat} {s : State} (h : s.isc.spentMark < remaining) :
    bayResult b remaining s = bayReady b (updBay b (fun y => { y with state := .ready }) s) := if_pos h

/-- R54: a read with a good check fills the record, and its bay goes as after a write. -/
theorem readResult_ready {b : Nat} {g : TagData} {check : Half} {s : State} (h : g.ok check = true)
    (hr : s.isc.spentMark < g.remaining) :
    readResult b g check s = bayReady b (updBay b (fun y => { y with tag := some g, state := .ready }) s) := by
  refine (if_pos h).trans ((bayResult_ready (s := updBay b (fun y => { y with tag := some g }) s) hr).trans ?_)
  simp only [updBay, List.modify_modify_eq]
  rfl

theorem readResult_spent {b : Nat} {g : TagData} {check : Half} {s : State} (h : g.ok check = true)
    (hr : g.remaining ≤ s.isc.spentMark) :
    readResult b g check s = updBay b (fun y => { y with tag := some g, state := .spent }) s := by
  refine (if_pos h).trans ((bayResult_spent (s := updBay b (fun y => { y with tag := some g }) s) hr).trans ?_)
  simp only [updBay, List.modify_modify_eq]
  rfl

theorem readResult_bad {b : Nat} {g : TagData} {check : Half} {s : State} (h : g.ok check = false) :
    readResult b g check s = bayFaults b false s := if_neg (by simp [h])

/-- R68: the DRY channels whose map holds a bay, in ascending order. -/
def dryMapped (s : State) (b : Nat) : List Nat :=
  (List.range Config.channels).filter (fun c => (chanAt s c).refill == .dry && mapsBay (chanAt s c).cfg b)

theorem bayReady_eq (b : Nat) (s : State) : bayReady b s = (dryMapped s b).foldl (fun s c => leaveDry c s) s := rfl

/-- R68: with the pump busy each of them is queued. -/
theorem bayReady_busy {b : Nat} {s : State}
    (h : dryMapped s b = [] ∨ s.isc.pump ≠ .free ∧ ∀ c ∈ dryMapped s b, (chanAt s c).enabled = true) :
    bayReady b s = { s with
      isc.chans := (dryMapped s b).foldl (fun cs c => cs.modify c (fun x => { x with refill := .queued })) s.isc.chans
      isc.pumpQueue := s.isc.pumpQueue ++ (dryMapped s b).map (fun c => ⟨c, (chanAt s c).lowFloat⟩) } := by
  rw [bayReady_eq]
  obtain h | ⟨hp, he⟩ := h
  · rw [h]
    simp
  · exact foldl_leaveDry_busy _ s hp (List.nodup_range.filter _) he

end Sys2Proof.Machine

open Sys2Proof Sys2Proof.Machine

/-- Settles O47, by the operation on the bus and by what its end leaves in the record. -/
theorem tagBusRunsOneOperation : Obligations.TagBusRunsOneOperation := by
  intro s now done good
  refine ⟨fun op l hb hq => ?_, ?_⟩
  · refine congrArg Host.Outcome.next ((doTagOpStart_free hb hq).trans ?_)
    cases op <;> rfl
  intro dry ready faulted
  have hready : ∀ b (f : Bay → Bay), ready b (s.isc.bays.modify b f) (settle (bayReady b (updBay b f done))) := fun b f =>
    ⟨follows_settle _, fun h => follows_iff (congrArg settle (bayReady_busy (s := updBay b f done) h))⟩
  refine ⟨fun b n hbus hlen => ⟨fun ink capacity remaining check => ?_, _, congrArg Host.Outcome.next (doTagOpTimeout_read hbus),
    follows_settle _⟩, fun b w n g hbus hg hlen => ⟨?_, _, congrArg Host.Outcome.next (doTagOpTimeout_write hbus), follows_settle _⟩⟩
  · refine ⟨_, congrArg Host.Outcome.next (doTagReadComplete_read hbus ink capacity remaining check), ?_⟩
    refine ⟨fun hgood => ⟨fun hr => ?_, fun hr => ?_⟩, fun hbad => ?_⟩
    · rw [readResult_ready (g := ⟨ink, capacity, remaining⟩) (s := freeBus (begin s)) hgood hr]
      exact hready b _
    · exact follows_iff (congrArg settle (readResult_spent (g := ⟨ink, capacity, remaining⟩) hgood hr))
    · exact follows_iff (congrArg settle (readResult_bad (g := ⟨ink, capacity, remaining⟩) hbad))
  · have hrem : bayRemaining s b = g.remaining := by simp only [bayRemaining, hg]
    refine ⟨_, congrArg Host.Outcome.next ((doTagWriteComplete_write hbus).trans (by rw [hrem])), fun hr => ?_, fun hr => ?_⟩
    · rw [bayResult_ready (s := freeBus (begin s)) hr]
      exact hready b _
    · exact follows_iff (congrArg settle (bayResult_spent (s := freeBus (begin s)) hr))

end

section
/-! What a serve makes of a channel, and the endings of a draw (O46). -/

namespace Sys2Proof.Machine

/-! ### Updates of the ink records -/

/-- What a view of a record does not see of an update stays as it was at every place of the list. -/
theorem view_modify {A B : Type} (g : A → B) {f : A → A} (hg : ∀ x, g (f x) = g x) (l : List A) (i k : Nat) (d : A) :
    g ((l.modify i f).getD k d) = g (l.getD k d) := by
  simp only [List.getD_eq_getElem?_getD, List.getElem?_modify]
  by_cases hk : i = k
  · cases l[k]? <;> simp [hk, hg]
  · simp [hk]

theorem view_updChan {A : Type} (g : Channel → A) {f : Channel → Channel} (hg : ∀ x, g (f x) = g x) (c k : Nat) (s : State) :
    g (chanAt (updChan c f s) k) = g (chanAt s k) := view_modify g hg _ _ _ _

theorem view_updBay {A : Type} (g : Bay → A) {f : Bay → Bay} (hg : ∀ x, g (f x) = g x) (b k : Nat) (s : State) :
    g (bayAt (updBay b f s) k) = g (bayAt s k) := view_modify g hg _ _ _ _

/-- R174: a raised condition leaves ISC as it is, so a change of ISC may come before it or after it. -/
theorem raise_mapIsc (k : Cond) (sub : Option Nat) (f : Isc → Isc) (s : State) :
    raise k sub { s with isc := f s.isc } = { raise k sub s with isc := f (raise k sub s).isc } := by
  rw [raise_comm_isc, raise_isc]

theorem updChan_raise (c : Nat) (f : Channel → Channel) (k : Cond) (sub : Option Nat) (s : State) :
    updChan c f (raise k sub s) = raise k sub (updChan c f s) :=
  (raise_mapIsc k sub (fun i => { i with chans := i.chans.modify c f }) s).symm

/-! ### Bay selection (R72) -/

theorem mem_mapBays {cfg : ChanCfg} {b : Nat} : b ∈ mapBays cfg ↔ b < 16 ∧ cfg.bayMap.getLsbD b = true := by
  simp [mapBays, mapsBay, Config.bays]

theorem qualifies_eq (s : State) (c b : Nat) : qualifies s c b = ((bayAt s b).state == .ready && (bayAt s b).tag.any (fun g =>
    g.inkId == (chanAt s c).cfg.inkId && decide (s.isc.spentMark < g.remaining))) := by
  unfold qualifies
  cases (bayAt s b).tag <;> simp [Bool.and_assoc]

theorem wrongInk_eq (s : State) (c b : Nat) : wrongInk s c b = ((bayAt s b).state == .ready && (bayAt s b).tag.any (fun g =>
    g.inkId != (chanAt s c).cfg.inkId)) := by
  unfold wrongInk
  cases (bayAt s b).tag <;> simp

/-- R72: WRONG_INK for each bay of a list. -/
def warned (l : List Nat) (s : State) : State := l.foldl (fun s b => raise .wrongInk (some b) s) s

/-- R72: the bays of a channel's map that are READY with another ink. -/
def wrongInkBays (s : State) (c : Nat) : List Nat := (mapBays (chanAt s c).cfg).filter (wrongInk s c)

theorem raiseWrongInk_eq (c : Nat) (s : State) : raiseWrongInk c s = warned (wrongInkBays s c) s := rfl

theorem warned_mapIsc (l : List Nat) (f : Isc → Isc) (s : State) :
    warned l { s with isc := f s.isc } = { warned l s with isc := f (warned l s).isc } := by
  induction l generalizing s with
  | nil => rfl
  | cons b t ih => exact (congrArg (warned t) (raise_mapIsc .wrongInk (some b) f s)).trans (ih _)

theorem updChan_warned (c : Nat) (f : Channel → Channel) (l : List Nat) (s : State) :
    updChan c f (warned l s) = warned l (updChan c f s) :=
  (warned_mapIsc l (fun i => { i with chans := i.chans.modify c f }) s).symm

/-- R72, R52: where no bay of the map qualifies, the channel goes DRY with INK_OUT. -/
theorem serveChannel_dry {c : Nat} {s : State} (h : ∀ b ∈ mapBays (chanAt s c).cfg, qualifies s c b = false) :
    serveChannel c s = raise .inkOut (some c) (warned (wrongInkBays s c) (updChan c (fun x => { x with refill := .dry }) s)) := by
  unfold serveChannel
  simp only [find_nobody h]
  rw [raiseWrongInk_eq, updChan_warned]

/-- R72: with no READY bay in the map there is no bay with another ink, and none that qualifies. -/
theorem unusable_of_not_ready {c b : Nat} {s : State} (h : (bayAt s b).state ≠ .ready) :
    qualifies s c b = false ∧ wrongInk s c b = false := by
  have hb : ((bayAt s b).state == BayState.ready) = false := by simpa using h
  rw [qualifies_eq, wrongInk_eq, hb]
  exact ⟨rfl, rfl⟩

theorem serveChannel_nothingReady {c : Nat} {s : State} (h : ∀ b ∈ mapBays (chanAt s c).cfg, (bayAt s b).state ≠ .ready) :
    serveChannel c s = raise .inkOut (some c) (updChan c (fun x => { x with refill := .dry }) s) := by
  have hnone : wrongInkBays s c = [] := List.filter_eq_nil_iff.2 (fun b hb => by simp [(unusable_of_not_ready (h b hb)).2])
  rw [serveChannel_dry (fun b hb => (unusable_of_not_ready (h b hb)).1), hnone]
  rfl

/-! ### The endings of a draw (R77 to R79) -/

/-- R57: the bay is debited, with DRIFT where the tag holds less, and its tag write placed. -/
theorem debitAndWrite_tagged {b moved : Nat} {s : State} {g : TagData} (hg : (bayAt s b).tag = some g) :
    debitAndWrite b moved s = { s with
      isc.bays := s.isc.bays.modify b (fun y =>
        { y with state := .writing, tag := some (g.debit moved), drift := y.drift || decide (g.remaining < moved) })
      isc.tagQueue := s.isc.tagQueue ++ [.write b (g.debit moved)] } := by
  simp only [debitAndWrite, hg]
  rfl

/-- R77: a draw from a bay with a tag, ended by the FULL float. -/
theorem endDrawFull_eq {d : Draw} {s : State} {g : TagData} (hg : (bayAt s d.bay).tag = some g) :
    endDrawFull d s = { s with isc := { s.isc with
      chans := s.isc.chans.modify d.channel (fun c => { c with level := some c.cfg.full, refill := .idle })
      bays := s.isc.bays.modify d.bay (fun y => { y with
        state := .writing, tag := some (g.debit (movedAtFull s d)), drift := y.drift || decide (g.remaining < movedAtFull s d) })
      pump := .free, tagQueue := s.isc.tagQueue ++ [.write d.bay (g.debit (movedAtFull s d))] } } := by
  unfold endDrawFull
  exact debitAndWrite_tagged hg

/-- R77: the moved volume depends on the settings and the level of the channel alone. -/
theorem movedAtFull_congr {s t : State} {d : Draw} (hcfg : (chanAt t d.channel).cfg = (chanAt s d.channel).cfg)
    (hlevel : (chanAt t d.channel).level = (chanAt s d.channel).level) : movedAtFull t d = movedAtFull s d := by
  simp only [movedAtFull, hcfg, hlevel]

/-- R52, R77: the FULL float asserts on the channel of the draw in flight. -/
theorem fullAsserts_draw {s : State} {d : Draw} {g : TagData} (hd : s.isc.pump = .running d ∨ s.isc.pump = .suspended d)
    (hg : (bayAt s d.bay).tag = some g) (hq : s.isc.pumpQueue = []) :
    fullAsserts d.channel s = { s with isc := { s.isc with
      chans := s.isc.chans.modify d.channel (fun y =>
        { y with fullFloat := true, level := some (chanAt s d.channel).cfg.full, refill := .idle })
      bays := s.isc.bays.modify d.bay (fun y => { y with
        state := .writing, tag := some (g.debit (movedAtFull s d)), drift := y.drift || decide (g.remaining < movedAtFull s d) })
      pump := .free, tagQueue := s.isc.tagQueue ++ [.write d.bay (g.debit (movedAtFull s d))] } } := by
  have hmoved : movedAtFull (updChan d.channel (fun c => { c with fullFloat := true }) s) d = movedAtFull s d :=
    movedAtFull_congr (view_updChan (fun x => x.cfg) (by intro; rfl) _ _ s) (view_updChan (fun x => x.level) (by intro; rfl) _ _ s)
  have hserve : fullAsserts d.channel s
      = pumpServe (endDrawFull d (updChan d.channel (fun c => { c with fullFloat := true }) s)) := by
    simp only [fullAsserts, drawOf_some hd]
  rw [hserve, endDrawFull_eq (s := updChan d.channel _ s) hg, hmoved]
  refine Eq.trans (pumpServe_nil _ hq) ?_
  simp only [updChan, List.modify_modify_eq]
  rw [chan_modify s d.channel _ (fun y =>
    { y with fullFloat := true, level := some (chanAt s d.channel).cfg.full, refill := .idle }) rfl]

theorem doFullFloatAssert_clear {c : Fin 10} {s : State} (h : (chanAt s c).fullFloat = false) :
    doFullFloatAssert c s = settle (fullAsserts c (begin s)) := if_neg (by simp [h])

theorem doDrawLimitExpiry_running {s : State} {d : Draw} (h : s.isc.pump = .running d) :
    doDrawLimitExpiry s = settle (endDrawExpiry d (begin s)) := by
  simp only [doDrawLimitExpiry, h]

theorem doDrawLimitExpiry_idle {s : State} (h : ∀ d, s.isc.pump ≠ .running d) : doDrawLimitExpiry s = begin s := by
  unfold doDrawLimitExpiry
  split
  · rename_i d hd
    exact absurd hd (h d)
  · rfl

/-- R78: the moved volume capped by what the tag of the source bay holds. -/
theorem movedCapped_tagged {s : State} {d : Draw} {g : TagData} (hg : (bayAt s d.bay).tag = some g) :
    movedCapped s d = min ((chanAt s d.channel).cfg.flow * d.elapsed)
      (min g.remaining ((chanAt s d.channel).cfg.full - (chanAt s d.channel).level.getD 0)) := by
  simp only [movedCapped, hg]

/-- R78: a draw from a bay with a tag, ended by its limit with no channel queued. -/
theorem endDrawExpiry_eq {d : Draw} {s : State} {g : TagData} (hg : (bayAt s d.bay).tag = some g) (hq : s.isc.pumpQueue = []) :
    endDrawExpiry d s = raise .refillTimeout (some d.channel) { s with isc := { s.isc with
      pump := .free
      chans := s.isc.chans.modify d.channel (fun y => { y with
        level := y.level.map (· + movedCapped s { d with elapsed := d.limit }), refill := .fault .refillTimeout })
      bays := s.isc.bays.modify d.bay (fun y => { y with
        state := .suspect, tag := some (g.debit (movedCapped s { d with elapsed := d.limit })) }) } } := by
  unfold endDrawExpiry
  refine Eq.trans (pumpServe_nil _ (by rw [raise_isc]; exact hq)) ?_
  simp only [updBay]
  rw [bay_modify _ d.bay _ (fun y => { y with
    state := .suspect, tag := some (g.debit (movedCapped s { d with elapsed := d.limit })) })]
  · rfl
  · show ({ bayAt s d.bay with state := _, tag := (bayAt s d.bay).tag.map _ } : Bay) = _
    rw [hg]
    rfl

/-- R55, R79: the part after the source bay of a draw was taken out, the channel left with the refill state `r`. -/
def drawRemoved (d : Draw) (r : Refill) (s : State) : State :=
  raise .drawCut (some d.bay) (raise .bayChanged (some d.bay) { s with
    isc.pump := .free
    isc.chans := s.isc.chans.modify d.channel (fun y => { y with level := y.level.map (· + movedRemoved s d), refill := r })
    isc.bays := s.isc.bays.modify d.bay (fun _ => ⟨.empty, none, false, false⟩) })

theorem endDrawRemoval_eq (d : Draw) (s : State) :
    endDrawRemoval d s = pumpServe (placeRequest d.channel false (drawRemoved d .idle s)) := rfl

theorem drawRemoved_isc (d : Draw) (r : Refill) (s : State) : (drawRemoved d r s).isc = { s.isc with
    pump := .free
    chans := s.isc.chans.modify d.channel (fun y => { y with level := y.level.map (· + movedRemoved s d), refill := r })
    bays := s.isc.bays.modify d.bay (fun _ => ⟨.empty, none, false, false⟩) } := by
  unfold drawRemoved
  rw [raise_isc, raise_isc]

theorem held_drawRemoved (d : Draw) (r : Refill) (s : State) : held (drawRemoved d r s) = held s := by
  unfold drawRemoved
  rw [held_raise, held_raise]
  rfl

/-- R79: the channel of the draw, where it is one of the part's ten. -/
theorem chanAt_drawRemoved {d : Draw} {s : State} (hlen : d.channel < s.isc.chans.length) (r : Refill) :
    chanAt (drawRemoved d r s) d.channel =
      { chanAt s d.channel with level := (chanAt s d.channel).level.map (· + movedRemoved s d), refill := r } := by
  unfold chanAt
  rw [drawRemoved_isc]
  exact chanAt_upd s d.channel (fun y => { y with level := y.level.map (· + movedRemoved s d), refill := r }) hlen

theorem updChan_drawRemoved (d : Draw) (r r' : Refill) (s : State) :
    updChan d.channel (fun y => { y with refill := r' }) (drawRemoved d r s) = drawRemoved d r' s := by
  unfold drawRemoved
  rw [updChan_raise, updChan_raise]
  simp only [updChan, List.modify_modify_eq]
  rfl

section
variable {d : Draw} {s : State} (hlen : d.channel < s.isc.chans.length) (he : (chanAt s d.channel).enabled = true)
include hlen he

/-- R79, R81: during a hold the channel of the draw is requested again, and waits. -/
theorem endDrawRemoval_held (hh : held s = true) (hq : s.isc.pumpQueue = []) : endDrawRemoval d s =
    { drawRemoved d .queued s with isc.pumpQueue := [⟨d.channel, (chanAt s d.channel).lowFloat⟩] } := by
  have hx := chanAt_drawRemoved hlen .idle
  have hheld : held (drawRemoved d .idle s) = true := (held_drawRemoved d .idle s).trans hh
  have hqueue : (drawRemoved d .idle s).isc.pumpQueue = [] := by rw [drawRemoved_isc]; exact hq
  rw [endDrawRemoval_eq, placeRequest_idle (by rw [hx]) (by rw [hx]; exact he)]
  refine Eq.trans (congrArg pumpServe (pumpServe_held _ hheld)) (Eq.trans (pumpServe_held _ hheld) ?_)
  rw [hx, hqueue, ← updChan_drawRemoved d .idle .queued s]
  rfl

variable (hh : held s = false) (hq : s.isc.pumpQueue = [])
include hh hq

/-- R79: outside a hold the FREE pump serves the request of the channel at once, and nothing is left to serve. -/
theorem endDrawRemoval_served : endDrawRemoval d s = placeRequest d.channel false (drawRemoved d .idle s) ∧
    endDrawRemoval d s = serveChannel d.channel (drawRemoved d .queued s) := by
  have hx := chanAt_drawRemoved hlen .idle
  have hi := drawRemoved_isc d .idle s
  have hserve : placeRequest d.channel false (drawRemoved d .idle s) = serveChannel d.channel (drawRemoved d .queued s) := by
    rw [placeRequest_serves (by rw [hx]) (by rw [hx]; exact he) (by rw [hi]) ((held_drawRemoved d .idle s).trans hh)
      (by rw [hi]; exact hq), updChan_drawRemoved]
  have hrest : endDrawRemoval d s = placeRequest d.channel false (drawRemoved d .idle s) := by
    rw [endDrawRemoval_eq, pumpServe_nil]
    rw [hserve, serveChannel_queue, drawRemoved_isc]
    exact hq
  exact ⟨hrest, hrest.trans hserve⟩

/-- R79, R72: with no READY bay left in its map the channel goes DRY. -/
theorem endDrawRemoval_dry (hb : ∀ m ∈ mapBays (chanAt s d.channel).cfg, m ≠ d.bay → (bayAt s m).state ≠ .ready)
    (hbay : d.bay < s.isc.bays.length) : endDrawRemoval d s = raise .inkOut (some d.channel) (drawRemoved d .dry s) := by
  have hbays : ∀ m, (bayAt (drawRemoved d .queued s) m).state = if d.bay = m then .empty else (bayAt s m).state := fun m => by
    unfold bayAt
    rw [drawRemoved_isc]
    simp only [List.getD_eq_getElem?_getD, List.getElem?_modify]
    by_cases hm : d.bay = m
    · simp [← hm, List.getElem?_eq_getElem hbay]
    · simp [hm]
  rw [(endDrawRemoval_served hlen he hh hq).2, serveChannel_nothingReady, updChan_drawRemoved]
  rw [chanAt_drawRemoved hlen]
  intro m hm
  rw [hbays]
  split
  · exact nofun
  · rename_i hne
    exact hb m hm (Ne.symm hne)

end

theorem bayRemoved_drawing {s : State} {d : Draw} (hd : s.isc.pump = .running d ∨ s.isc.pump = .suspended d)
    (hs : (bayAt s d.bay).state = .drawing) : bayRemoved d.bay s = endDrawRemoval d s := by
  simp only [bayRemoved, hs, drawFrom, draw_eq_some.2 hd, if_true]

end Sys2Proof.Machine

open Sys2Proof Sys2Proof.Machine

/-- Settles O46: the FULL float, the limit, and the removal of the source bay in a hold and outside. -/
theorem drawEndingsBookTheMovedVolume : Obligations.DrawEndingsBookTheMovedVolume := by
  rintro s d ⟨c, hc⟩ ⟨b, hb⟩ g hdc hdb hclen hblen hg hq x now room
  obtain rfl : d.channel = c := hdc
  obtain rfl : d.bay = b := hdb
  refine ⟨fun hf hd => ?_, fun hp => ?_, fun hp => ?_, fun hp hh hs hpres he => ?_, fun hp hh hs hpres he => ?_⟩
  · exact ⟨_, follows_iff (congrArg settle (fullAsserts_draw (s := now) hd hg hq)),
      congrArg Host.Outcome.next (doFullFloatAssert_clear hf)⟩
  · refine ⟨_, follows_iff (congrArg settle ?_), congrArg Host.Outcome.next (doDrawLimitExpiry_running hp)⟩
    rw [endDrawExpiry_eq (s := begin s) hg hq,
      movedCapped_tagged (d := { d with elapsed := d.limit }) (s := begin s) hg]
    rfl
  · exact congrArg Host.Outcome.next (doDrawLimitExpiry_idle hp)
  · refine ⟨_, follows_iff (congrArg settle ?_), congrArg Host.Outcome.next (doBayPresenceDeassert_present hpres)⟩
    exact (bayRemoved_drawing (s := begin s) (.inr hp) hs).trans
      (endDrawRemoval_held (s := begin s) hclen he (by simpa [held] using hh) hq)
  · have hheld : held (begin s) = false := by simpa [held] using hh
    refine ⟨_, congrArg Host.Outcome.next (doBayPresenceDeassert_present hpres), ?_⟩
    rw [bayRemoved_drawing (s := begin s) (.inl hp) hs]
    refine ⟨follows_iff (congrArg settle (endDrawRemoval_served (s := begin s) hclen he hheld hq).1), fun hnone => ?_⟩
    exact follows_iff (congrArg settle (endDrawRemoval_dry (s := begin s) hclen he hheld hq
      (fun m hm hmb => hnone m (mem_mapBays.1 hm).1 hmb (mem_mapBays.1 hm).2) hblen))

end

section
/-! REFILL_ASK: the queued request and the serve (O43). -/

namespace Sys2Proof.Machine

/-! ### The request of an IDLE or DRY channel (R65, R67, R68) -/

/-- The state in which the request of a channel has been placed. -/
def requested (c : Nat) (s : State) : State := updChan c (fun x => { x with refill := .queued }) s

@[simp] theorem requested_cfg (c k : Nat) (s : State) : (chanAt (requested c s) k).cfg = (chanAt s k).cfg :=
  view_updChan (fun x => x.cfg) (by intro; rfl) c k s
@[simp] theorem requested_enabled (c k : Nat) (s : State) : (chanAt (requested c s) k).enabled = (chanAt s k).enabled :=
  view_updChan (fun x => x.enabled) (by intro; rfl) c k s
@[simp] theorem requested_level (c k : Nat) (s : State) : (chanAt (requested c s) k).level = (chanAt s k).level :=
  view_updChan (fun x => x.level) (by intro; rfl) c k s
@[simp] theorem requested_fullFloat (c k : Nat) (s : State) : (chanAt (requested c s) k).fullFloat = (chanAt s k).fullFloat :=
  view_updChan (fun x => x.fullFloat) (by intro; rfl) c k s
@[simp] theorem requested_bayAt (c b : Nat) (s : State) : bayAt (requested c s) b = bayAt s b := rfl

theorem updChan_refill_twice (c : Nat) (r r' : Refill) (s : State) :
    updChan c (fun x => { x with refill := r }) (updChan c (fun x => { x with refill := r' }) s)
      = updChan c (fun x => { x with refill := r }) s := by
  simp only [updChan, modify_twice]

theorem updChan_requested (c : Nat) (r : Refill) (s : State) :
    updChan c (fun x => { x with refill := r }) (requested c s) = updChan c (fun x => { x with refill := r }) s :=
  updChan_refill_twice c r .queued s

section
variable {c : Nat} {s : State}

/-- R67, R68: an IDLE channel is requested as one that leaves DRY. -/
theorem askRefill_eq (h : (chanAt s c).refill = .idle ∨ (chanAt s c).refill = .dry) : askRefill c s = leaveDry c s := by
  obtain h | h := h
  · have hsame : updChan c (fun x => { x with refill := .idle }) s = s := by
      unfold updChan
      rw [chan_modify s c _ id (by rw [← h]; rfl), List.modify_id]
    unfold askRefill leaveDry
    rw [h, hsame]
  · simp only [askRefill, h]

theorem askRefill_waiting (h : (chanAt s c).refill = .queued ∨ ∃ b, (chanAt s c).refill = .drawing b) : askRefill c s = s := by
  obtain h | ⟨b, h⟩ := h <;> simp only [askRefill, h]

variable (hlen : c < s.isc.chans.length) (he : (chanAt s c).enabled = true)
include hlen he

/-- R65, R69: while the pump is busy the channel waits. -/
theorem leaveDry_busy (hp : s.isc.pump ≠ .free) :
    leaveDry c s = { requested c s with isc.pumpQueue := s.isc.pumpQueue ++ [⟨c, (chanAt s c).lowFloat⟩] } := by
  have hx := chanAt_upd s c (fun x => { x with refill := .idle }) hlen
  unfold leaveDry
  rw [placeRequest_busy (s := updChan c _ s) (by rw [hx]) (by rw [hx]; exact he) hp, hx]
  simp only [requested, updChan, modify_twice, Bool.false_or]

/-- R70: the FREE pump serves the channel at once where nothing waits. -/
theorem leaveDry_served (hp : s.isc.pump = .free) (hh : held s = false) (hq : s.isc.pumpQueue = []) :
    leaveDry c s = serveChannel c (requested c s) := by
  have hx := chanAt_upd s c (fun x => { x with refill := .idle }) hlen
  unfold leaveDry
  rw [placeRequest_serves (s := updChan c _ s) (by rw [hx]) (by rw [hx]; exact he) hp hh hq, updChan_refill_twice]
  rfl

end

/-! ### The bays of a channel (R49, R72) -/

/-- R72: a bay of the channel's map that qualifies for it. -/
def usableBay (s : State) (c b : Nat) : Bool := mapsBay (chanAt s c).cfg b && qualifies s c b

theorem usableBay_eq (s : State) (c b : Nat) : usableBay s c b = ((chanAt s c).cfg.bayMap.getLsbD b &&
    (bayAt s b).state == .ready && (bayAt s b).tag.any (fun g =>
      g.inkId == (chanAt s c).cfg.inkId && decide (s.isc.spentMark < g.remaining))) := by
  rw [usableBay, qualifies_eq, mapsBay, Bool.and_assoc]

/-- R72: the bays with another ink, written as one pass over the sixteen. -/
theorem wrongInkBays_eq (s : State) (c : Nat) : wrongInkBays s c = (List.range 16).filter (fun b =>
    (chanAt s c).cfg.bayMap.getLsbD b && (bayAt s b).state == .ready &&
      (bayAt s b).tag.any (fun g => g.inkId != (chanAt s c).cfg.inkId)) := by
  unfold wrongInkBays mapBays
  rw [List.filter_filter]
  congr 1
  funext b
  rw [wrongInk_eq, mapsBay, Bool.and_comm, Bool.and_assoc]

theorem mapConflict_iff {s : State} {c b : Nat} : mapConflict s c b = true ↔
    ∃ k, k < 10 ∧ k ≠ c ∧ (chanAt s k).enabled = true ∧ (chanAt s k).cfg.bayMap.getLsbD b = true := by
  simp [mapConflict, mapsBay, Config.channels, and_assoc]

theorem mapConflict_false {s : State} {c b : Nat}
    (h : ∀ k, k < 10 → k ≠ c → (chanAt s k).enabled = true → (chanAt s k).cfg.bayMap.getLsbD b = false) :
    mapConflict s c b = false := by
  refine Bool.eq_false_iff.2 (fun hc => ?_)
  obtain ⟨k, hk, hne, hen, hmap⟩ := mapConflict_iff.1 hc
  exact Bool.false_ne_true ((h k hk hne hen).symm.trans hmap)

@[simp] theorem usableBay_requested (c b : Nat) (s : State) : usableBay (requested c s) c b = usableBay s c b := by
  simp only [usableBay_eq, requested_cfg]
  rfl

@[simp] theorem wrongInkBays_requested (c : Nat) (s : State) : wrongInkBays (requested c s) c = wrongInkBays s c := by
  simp [wrongInkBays_eq]

@[simp] theorem mapConflict_requested (c b : Nat) (s : State) : mapConflict (requested c s) c b = mapConflict s c b := by
  simp [mapConflict]

theorem qualifies_of_mapped {s : State} {c b : Nat} (hb : b ∈ mapBays (chanAt s c).cfg) : qualifies s c b = usableBay s c b := by
  rw [usableBay, show mapsBay (chanAt s c).cfg b = true from (mem_mapBays.1 hb).2, Bool.true_and]

/-- R72: the lowest usable bay is the one found. -/
theorem find_usable {s : State} {c b : Nat} (hb : b < 16) (hu : usableBay s c b = true) (hlow : ∀ d, d < b → usableBay s c d = false) :
    (mapBays (chanAt s c).cfg).find? (qualifies s c) = some b := by
  obtain ⟨hmap, hqual⟩ := Bool.and_eq_true_iff.1 hu
  refine find_first (List.pairwise_lt_range.filter _) (mem_mapBays.2 ⟨hb, hmap⟩) hqual (fun d hd hdb => ?_)
  rw [qualifies_of_mapped hd]
  exact hlow d hdb

/-! ### The draw that starts (R74, R75, R77) -/

/-- What a draw that starts makes of ISC. -/
def drawStarted (d : Draw) (i : Isc) : Isc := { i with
  chans := i.chans.modify d.channel (fun x => { x with refill := .drawing d.bay })
  bays := i.bays.modify d.bay (fun y => { y with state := .drawing })
  pump := .running d }

/-- What a draw of the volume `moved` makes of ISC that ends as it starts; `g` stands in the tag of its source bay. -/
def drawFilled (d : Draw) (g : TagData) (moved : Nat) (i : Isc) : Isc := { i with
  chans := i.chans.modify d.channel (fun x => { x with level := some x.cfg.full, refill := .idle })
  bays := i.bays.modify d.bay (fun y =>
    { y with state := .writing, tag := some (g.debit moved), drift := y.drift || decide (g.remaining < moved) })
  pump := .free
  tagQueue := i.tagQueue ++ [.write d.bay (g.debit moved)] }

/-- The draw takes the channel out of QUEUED. -/
theorem drawStarted_requested (d : Draw) (s : State) : drawStarted d (requested d.channel s).isc = drawStarted d s.isc := by
  simp only [requested, updChan, drawStarted, List.modify_modify_eq]
  rfl

theorem drawFilled_requested (d : Draw) (g : TagData) (moved : Nat) (s : State) :
    drawFilled d g moved (requested d.channel s).isc = drawFilled d g moved s.isc := by
  simp only [requested, updChan, drawFilled, List.modify_modify_eq]
  rfl

section
variable {c b : Nat} {s : State}

theorem startDraw_clear (h : (chanAt s c).fullFloat = false) :
    startDraw c b s = { s with isc := drawStarted (newDraw s c b) s.isc } := by
  unfold startDraw
  simp only [h]
  rfl

theorem startDraw_full {g : TagData} (h : (chanAt s c).fullFloat = true) (hg : (bayAt s b).tag = some g) :
    startDraw c b s = { s with isc := drawFilled (newDraw s c b) g (movedAtFull s (newDraw s c b)) s.isc } := by
  have htag : (bayAt (updBay b (fun y => { y with state := .drawing }) s) b).tag = some g :=
    (view_updBay (fun y => y.tag) (by intro; rfl) b b s).trans hg
  have hmoved : movedAtFull (updChan c (fun x => { x with refill := .drawing b }) s) (newDraw s c b) = movedAtFull s (newDraw s c b) :=
    movedAtFull_congr (view_updChan (fun x => x.cfg) (by intro; rfl) c c s) (view_updChan (fun x => x.level) (by intro; rfl) c c s)
  have hend : startDraw c b s = endDrawFull (newDraw s c b) { s with isc := drawStarted (newDraw s c b) s.isc } := by
    unfold startDraw
    simp only [h]
    rfl
  rw [hend, endDrawFull_eq htag,
    show movedAtFull { s with isc := drawStarted (newDraw s c b) s.isc } (newDraw s c b) = _ from hmoved]
  simp only [drawStarted, List.modify_modify_eq]
  rfl

/-- R77: a draw that ends as it starts moves what the level lacks, and nothing where the level is not known. -/
theorem movedAtFull_newDraw (s : State) (c b : Nat) : movedAtFull s (newDraw s c b) =
    if (chanAt s c).level = none then 0 else (chanAt s c).cfg.full - (chanAt s c).level.getD 0 := by
  unfold movedAtFull newDraw
  cases h : (chanAt s c).level <;> simp [h]

end

/-- R77: the FREE pump stays FREE where the draw ends as it starts. -/
theorem drawFilled_newDraw {c b : Nat} {s : State} (g : TagData) (moved : Nat) (hp : s.isc.pump = .free) :
    drawFilled (newDraw s c b) g moved s.isc = { s.isc with
      chans := s.isc.chans.modify c (fun y => { y with level := some (chanAt s c).cfg.full, refill := .idle })
      bays := s.isc.bays.modify b (fun y =>
        { y with state := .writing, tag := some (g.debit moved), drift := y.drift || decide (g.remaining < moved) })
      tagQueue := s.isc.tagQueue ++ [.write b (g.debit moved)] } := by
  rw [← chan_modify s c (fun y => { y with level := some y.cfg.full, refill := .idle }) _ rfl]
  unfold drawFilled
  rw [← hp]
  rfl

/-! ### The serve (R70, R72, R73) -/

theorem warned_isc (l : List Nat) (s : State) : (warned l s).isc = s.isc := by
  induction l generalizing s with
  | nil => rfl
  | cons b t ih => exact (ih _).trans (raise_isc _ _ _)

theorem chanAt_warned (l : List Nat) (s : State) (c : Nat) : chanAt (warned l s) c = chanAt s c := by
  unfold chanAt
  rw [warned_isc]

theorem chanAt_of_isc {c : Nat} {s y : State} {i : Isc} {f : Channel → Channel} (hy : y.isc = i)
    (hi : i.chans = s.isc.chans.modify c f) (hlen : c < s.isc.chans.length) : chanAt y c = f (chanAt s c) := by
  rw [← chanAt_upd s c f hlen]
  unfold chanAt updChan
  rw [hy, hi]

theorem serveChannel_found {c b : Nat} {s : State} (hf : (mapBays (chanAt s c).cfg).find? (qualifies s c) = some b) :
    serveChannel c s = if mapConflict s c b then
        raise .mapConflict (some c) (warned (wrongInkBays s c) (updChan c (fun x => { x with refill := .fault .mapConflict }) s))
      else startDraw c b (warned (wrongInkBays s c) s) := by
  unfold serveChannel
  simp only [hf]
  rw [raiseWrongInk_eq, updChan_warned]

theorem serve_dry {c : Nat} {s : State} (h : ∀ b, b < 16 → usableBay s c b = false) : serveChannel c (requested c s)
    = raise .inkOut (some c) (warned (wrongInkBays s c) (updChan c (fun x => { x with refill := .dry }) s)) := by
  rw [serveChannel_dry, updChan_requested, wrongInkBays_requested]
  intro b hb
  rw [qualifies_of_mapped hb, usableBay_requested]
  exact h b (mem_mapBays.1 hb).1

/-- A draw that starts reads the settings and the level of its channel alone. -/
theorem newDraw_requested (l : List Nat) (c b : Nat) (s : State) : newDraw (warned l (requested c s)) c b = newDraw s c b := by
  simp only [newDraw, chanAt_warned, requested_cfg, requested_level]

section
variable {c b : Nat} {s : State} (hb : b < 16) (hu : usableBay s c b = true) (hlow : ∀ d, d < b → usableBay s c d = false)
include hb hu hlow

theorem serve_found : serveChannel c (requested c s) = if mapConflict s c b then
      raise .mapConflict (some c) (warned (wrongInkBays s c) (updChan c (fun x => { x with refill := .fault .mapConflict }) s))
    else startDraw c b (warned (wrongInkBays s c) (requested c s)) := by
  rw [serveChannel_found (find_usable hb (by simpa using hu) (by simpa using hlow)), mapConflict_requested, updChan_requested,
    wrongInkBays_requested]

/-- R49: the lowest usable bay stands in the map of another enabled channel. -/
theorem serve_conflict (hc : mapConflict s c b = true) : serveChannel c (requested c s)
    = raise .mapConflict (some c) (warned (wrongInkBays s c) (updChan c (fun x => { x with refill := .fault .mapConflict }) s)) :=
  (serve_found hb hu hlow).trans (if_pos hc)

variable (hc : mapConflict s c b = false)
include hc

/-- R74: the draw starts from the lowest usable bay. -/
theorem serve_draw (hf : (chanAt s c).fullFloat = false) : serveChannel c (requested c s)
    = warned (wrongInkBays s c) { s with isc := drawStarted (newDraw s c b) s.isc } := by
  rw [serve_found hb hu hlow, if_neg (by simp [hc]), startDraw_clear (by rw [chanAt_warned, requested_fullFloat]; exact hf),
    newDraw_requested, ← warned_mapIsc _ (drawStarted (newDraw s c b))]
  exact congrArg (fun i => warned (wrongInkBays s c) { s with isc := i }) (drawStarted_requested (newDraw s c b) s)

/-- R52, R77: the draw ends at once on the FULL float that stands asserted. -/
theorem serve_fill {g : TagData} (hf : (chanAt s c).fullFloat = true) (hg : (bayAt s b).tag = some g) :
    serveChannel c (requested c s) = warned (wrongInkBays s c)
      { s with isc := drawFilled (newDraw s c b) g (movedAtFull s (newDraw s c b)) s.isc } := by
  have hmoved : movedAtFull (warned (wrongInkBays s c) (requested c s)) (newDraw s c b) = movedAtFull s (newDraw s c b) :=
    movedAtFull_congr (by rw [chanAt_warned, requested_cfg]) (by rw [chanAt_warned, requested_level])
  have hbay : (bayAt (warned (wrongInkBays s c) (requested c s)) b).tag = some g := by
    unfold bayAt
    rw [warned_isc]
    exact hg
  rw [serve_found hb hu hlow, if_neg (by simp [hc]), startDraw_full (by rw [chanAt_warned, requested_fullFloat]; exact hf) hbay,
    newDraw_requested, hmoved, ← warned_mapIsc _ (drawFilled (newDraw s c b) g (movedAtFull s (newDraw s c b)))]
  exact congrArg (fun i => warned (wrongInkBays s c) { s with isc := i }) (drawFilled_requested (newDraw s c b) g _ s)

end

/-! ### REFILL_ASK (R67) -/

theorem takeRefillAsk_held {c : Nat} {s : State} (hc : c ≤ 9) (h : held s = true) : takeRefillAsk c s = refuse .held s := by
  unfold takeRefillAsk
  rw [if_neg (by omega), if_pos h]

theorem inFault_iff {s : State} {c : Nat} : inFault s c = true ↔ ∃ k, (chanAt s c).refill = .fault k := by
  unfold inFault
  cases (chanAt s c).refill <;> simp

theorem takeRefillAsk_notNow {c : Nat} {s : State} (hc : c ≤ 9) (hh : held s = false)
    (h : (chanAt s c).enabled = false ∨ ∃ k, (chanAt s c).refill = .fault k) : takeRefillAsk c s = refuse .notNow s := by
  unfold takeRefillAsk
  rw [if_neg (by omega), if_neg (by simp [hh])]
  obtain h | h := h
  · rw [if_pos (by simp [h])]
  · rw [if_pos (inFault_iff.2 h), ite_self]

theorem takeRefillAsk_ok {c : Nat} {s : State} (hc : c ≤ 9) (hh : held s = false) (he : (chanAt s c).enabled = true)
    (hf : ∀ k, (chanAt s c).refill ≠ .fault k) : takeRefillAsk c s = (accept
      (.refillPlace (chanAt (askRefill c s) c).refill (pumpPlace (askRefill c s) c)) (askRefill c s)).settled := by
  unfold takeRefillAsk
  rw [if_neg (by omega), if_neg (by simp [hh]), if_neg (by simp [he]), if_neg (fun h => (inFault_iff.1 h).elim hf)]

/-- R67: what follows an accepted REFILL_ASK that leaves the state `y`, and its reply: the refill state and the place of `y`. -/
theorem refillAsk_answers {c : Nat} {s y : State} {r : Refill} {q : List PumpEntry} (ft : Byte) (hc : c ≤ 9)
    (hh : held s = false) (he : (chanAt s c).enabled = true) (hf : ∀ k, (chanAt s c).refill ≠ .fault k)
    (hy : askRefill c (cleared s) = y) (hr : (chanAt y c).refill = r) (hq : y.isc.pumpQueue = q) :
    ∃ t : State, Follows y t ∧ exec (.refillAsk ft c) s = .next (answer 0x12 ft .ok (planMark s) (.refillPlace r
      ((q.filter (fun e => e.marked) ++ q.filter (fun e => !e.marked)).findIdx? (fun e => e.channel == c))) t) := by
  subst hr hq hy
  exact follows_of_settled rfl (takeRefillAsk_ok (s := cleared s) hc hh he hf)

end Sys2Proof.Machine
open Sys2Proof Sys2Proof.Machine

/-- Settles O43: the refusals, the channel that is requested already, and the request of an IDLE or DRY channel, queued or served. -/
theorem refillAskQueuesOrServesTheChannel : Obligations.RefillAskQueuesOrServesTheChannel := by
  intro ft c s hc hlen x refilled answered
  have hnot : s.lc.hold = .none → held (cleared s) = false := fun h => by simpa [held, cleared] using h
  have not_fault : x.refill = .idle ∨ x.refill = .dry → ∀ k, x.refill ≠ .fault k := by
    rintro (hx | hx) k hk <;> exact nomatch hx.symm.trans hk
  refine ⟨fun hh => ?_, fun hh hx => ?_, fun hh he hx => ?_, fun hh he hx => ⟨fun hp => ?_, fun hp hq => ?_⟩⟩
  · exact congrArg Host.Outcome.next (carryOut_of_refuse
      (takeRefillAsk_held (s := cleared s) hc (by simpa [held, cleared] using hh)))
  · exact congrArg Host.Outcome.next (carryOut_of_refuse (takeRefillAsk_notNow (s := cleared s) hc (hnot hh) hx))
  · refine refillAsk_answers ft hc (hnot hh) he (fun k hk => ?_) (askRefill_waiting (s := cleared s) hx) rfl rfl
    obtain hx | ⟨b, hx⟩ := hx <;> exact nomatch hx.symm.trans hk
  · refine refillAsk_answers ft hc (hnot hh) he (not_fault hx) ((askRefill_eq (s := cleared s) hx).trans
      (leaveDry_busy (s := cleared s) hlen he hp)) ?_ rfl
    exact congrArg (fun y => y.refill) (chanAt_upd (cleared s) c (fun y => { y with refill := .queued }) hlen)
  · intro standing usable warns
    have hserve : askRefill c (cleared s) = serveChannel c (requested c (cleared s)) :=
      (askRefill_eq (s := cleared s) hx).trans (leaveDry_served (s := cleared s) hlen he hp (hnot hh) hq)
    have husable : ∀ b, usableBay (cleared s) c b = usable b := usableBay_eq (cleared s) c
    have hwarns : warned (wrongInkBays (cleared s) c) = warns := by rw [wrongInkBays_eq]; rfl
    have answers : ∀ (y : State) (i : Isc) (f : Channel → Channel), serveChannel c (requested c (cleared s)) = y → y.isc = i →
        i.chans = s.isc.chans.modify c f → i.pumpQueue = [] →
        ∃ t : State, Follows y t ∧ exec (.refillAsk ft c) s = answered (f x).refill [] t := fun y i f hy hisc hchans hempty =>
      refillAsk_answers ft hc (hnot hh) he (not_fault hx) (hserve.trans hy)
        (congrArg (fun z => z.refill) (chanAt_of_isc hisc hchans hlen)) (hisc ▸ hempty)
    rw [← hwarns]
    refine ⟨fun hnone => ?_, fun b g hb hu hlow hg => ?_⟩
    · exact answers _ _ (fun y => { y with refill := .dry })
        (serve_dry (s := cleared s) (fun b hb => (husable b).trans (hnone b hb)))
        ((raise_isc _ _ _).trans (warned_isc _ _)) rfl hq
    · have hu' : usableBay (cleared s) c b = true := (husable b).trans hu
      have hlow' : ∀ d, d < b → usableBay (cleared s) c d = false := fun d hd => (husable d).trans (hlow d hd)
      refine ⟨fun hconf => ?_, fun hfree => ⟨fun hf => ?_, fun hf => ?_⟩⟩
      · exact answers _ _ (fun y => { y with refill := .fault .mapConflict })
          (serve_conflict hb hu' hlow' (mapConflict_iff.2 hconf)) ((raise_isc _ _ _).trans (warned_isc _ _)) rfl hq
      · exact answers _ _ (fun y => { y with refill := .drawing b })
          (serve_draw hb hu' hlow' (mapConflict_false hfree) hf) (warned_isc _ _) rfl hq
      · have hfill := serve_fill hb hu' hlow' (mapConflict_false hfree) hf hg
        rw [drawFilled_newDraw (s := cleared s) g _ hp, movedAtFull_newDraw] at hfill
        exact answers _ _ (fun y => { y with level := some x.cfg.full, refill := .idle }) hfill (warned_isc _ _) rfl hq

end

section
/-! RESUME: the pump, the cutter and the executor at the end of a hold (O24). -/

namespace Sys2Proof.Machine

/-! ### The pump at RESUME (R81) -/

/-- R81: a suspended draw runs on; else the pump stands as it stood. -/
def Pump.resumed : Pump → Pump
  | .suspended d => .running d
  | p => p

/-- R81: a resumed pump that has nothing to serve, and no draw to end, moves nothing but its draw. -/
theorem resumePump_nil {s : State} (hq : s.isc.pumpQueue = [])
    (hf : ∀ d, s.isc.pump = .suspended d → (chanAt s d.channel).fullFloat = false) :
    resumePump s = { s with isc.pump := Pump.resumed s.isc.pump } := by
  unfold resumePump
  split
  next d hd => rw [hd]; exact if_neg (by simpa [chanAt] using hf d hd)
  next hn =>
    have hp : Pump.resumed s.isc.pump = s.isc.pump := by
      cases hd : s.isc.pump with
      | suspended d => exact absurd hd (hn d)
      | free | running _ => rfl
    rw [pumpServe_nil s hq, hp]

/-! ### The cutter at RESUME (R116, R120) -/

/-- R116, R120: the cut list after RESUME: the entry of a stroke that the hold broke off is DUE again. -/
def resumedCuts (s : State) : List CutEntry :=
  if s.mpc.cutter = .off true then
    s.mpc.cuts.map (fun e => if e.state = .cutting then { e with state := .due } else e)
  else s.mpc.cuts

theorem resumeCutter_off {s : State} {mid : Bool} (h : s.mpc.cutter = .off mid) :
    resumeCutter s = if s.mpc.home then { s with mpc.cuts := resumedCuts s, mpc.cutter := .ready }
      else raise .cutterJam none { s with mpc.cuts := resumedCuts s, mpc.cutter := .jammed } := by
  simp only [resumeCutter, h, resumedCuts]
  cases mid <;> rfl

theorem resumeCutter_on {s : State} (h : ∀ mid, s.mpc.cutter ≠ .off mid) : resumeCutter s = s := by
  unfold resumeCutter
  split
  next mid hm => exact absurd hm (h mid)
  next => rfl

/-- R120: the cutter's end of the hold leaves the executor to its own (R97). -/
theorem resumeCutter_exec (s : State) : (resumeCutter s).mpc.exec = s.mpc.exec := by
  by_cases h : ∃ mid, s.mpc.cutter = .off mid
  · obtain ⟨mid, hm⟩ := h
    rw [resumeCutter_off hm]
    split
    · rfl
    · rw [raise_mpc]
  · rw [resumeCutter_on (fun mid hm => h ⟨mid, hm⟩)]

/-! ### The executor at RESUME (R97) -/

theorem resumeExec_off {s : State} {a : Advance} {r : Option StopRef} (h : s.mpc.exec = .off a r) : resumeExec s = runOn a s := by
  simp only [resumeExec, h]

theorem resumeExec_on {s : State} (h : ∀ a r, s.mpc.exec ≠ .off a r) : resumeExec s = s := by
  unfold resumeExec
  split
  next a r ha => exact absurd ha (h a r)
  next => rfl

/-! ### RESUME (R181) -/

theorem takeResume_up {s : State} (h : s.lc.hold = .up) : takeResume s = (accept (.resumed .up) (endHold s)).settled := by
  rw [takeResume, if_pos h, h]

theorem takeResume_notNow {s : State} (h : s.lc.hold ≠ .up) : takeResume s = refuse .notNow s := if_neg h

end Sys2Proof.Machine

open Sys2Proof Sys2Proof.Machine

/-- Settles O24: the refusal outside UP, and in UP the pump, the cutter and the executor one after another. -/
theorem resumeEndsTheHold : Obligations.ResumeEndsTheHold := by
  intro ft s
  refine ⟨fun h => congrArg Host.Outcome.next (carryOut_of_refuse (takeResume_notNow (s := cleared s) h)), fun h hq hf => ?_⟩
  intro cuts pump x y
  have hpump : resumePump { cleared s with lc.hold := .none } = { cleared s with lc.hold := .none, isc.pump := pump } := by
    have hresumed : Pump.resumed s.isc.pump = pump := by simp only [pump]; cases s.isc.pump <;> rfl
    rw [← hresumed]
    exact resumePump_nil (s := { cleared s with lc.hold := .none }) hq hf
  have hcutter : resumeCutter { cleared s with lc.hold := .none, isc.pump := pump } = x := by
    cases hc : s.mpc.cutter with
    | off mid => simp only [x, hc]; exact resumeCutter_off hc
    | ready | stroke _ | jammed => simp only [x, hc]; exact resumeCutter_on (fun mid hm => nomatch hc.symm.trans hm)
  have hexec : x.mpc.exec = s.mpc.exec := by rw [← hcutter, resumeCutter_exec]; rfl
  have hrun : resumeExec x = y := by
    cases he : s.mpc.exec with
    | off a r => simp only [y, he]; exact resumeExec_off (hexec.trans he)
    | idle | moving _ _ | atStop _ _ | stalled _ =>
      simp only [y, he]; exact resumeExec_on (fun a r ha => nomatch (hexec.trans he).symm.trans ha)
  have hend : endHold (cleared s) = { y with out := y.out ++ [.askState] } := by
    rw [endHold, hpump, hcutter, hrun]; rfl
  rw [← hend]
  exact follows_of_settled rfl (takeResume_up (s := cleared s) h)

end

section
/-! The roll under every command (O6). -/

namespace Sys2Proof.Machine

/-! ### What moves the roll alone (R84) -/

/-- R84: what one step may make of a LOADED roll. -/
def RollStep (o o' : Option Roll) : Prop :=
  ∀ r q : Roll, o = some r → o' = some q →
    q.media = r.media ∧ q.width = r.width ∧ q.length = r.length ∧ r.pos ≤ q.pos ∧ q.pos ≤ r.pos + 1

theorem RollStep.of_eq {o o' : Option Roll} (h : o' = o) : RollStep o o' := by
  rintro r q hr hq
  obtain rfl : r = q := Option.some.inj (hr.symm.trans (h.symm.trans hq))
  exact ⟨rfl, rfl, rfl, le_rfl, Nat.le_succ _⟩

theorem RollStep.unloaded (o : Option Roll) : RollStep o none := by nofun

theorem RollStep.loaded (o : Option Roll) : RollStep none o := by nofun

/-! ### The reactions leave the roll alone -/

theorem roll_closed (o : Option Roll) : ReactionClosed (fun s => s.mpc.roll = o) where
  out _ _ h := h
  conds _ _ _ _ h := h
  rcFree _ _ _ _ h := h
  entry _ _ _ _ h := h
  drop _ _ h := h
  chan _ _ _ _ h := h
  bay _ _ _ _ h := h
  pump _ _ _ _ _ h := h
  mpcFree _ _ _ _ _ _ _ _ h := h
  cuts _ _ _ h := h
  checks _ _ h := h
  scan _ _ _ _ _ h := h
  drain _ _ h := h
  ring _ _ h := h
  prints _ _ h := h
  record _ _ _ h := h

theorem foldl_roll {A : Type} {f : State → A → State} (hf : ∀ s a, (f s a).mpc.roll = s.mpc.roll) (l : List A) (s : State) :
    (l.foldl f s).mpc.roll = s.mpc.roll :=
  ReactionClosed.foldl (P := fun t => t.mpc.roll = s.mpc.roll) f (fun t a h => (hf t a).trans h) l rfl

@[simp] theorem settle_roll (s : State) : (settle s).mpc.roll = s.mpc.roll := (roll_closed _).settle rfl
@[simp] theorem pumpServe_roll (s : State) : (pumpServe s).mpc.roll = s.mpc.roll := (roll_closed _).pumpServe rfl
@[simp] theorem placeRequest_roll (c : Nat) (low : Bool) (s : State) : (placeRequest c low s).mpc.roll = s.mpc.roll :=
  (roll_closed _).placeRequest c low rfl
@[simp] theorem debitAndWrite_roll (b n : Nat) (s : State) : (debitAndWrite b n s).mpc.roll = s.mpc.roll :=
  (roll_closed _).debitAndWrite b n rfl
@[simp] theorem endDrawFull_roll (d : Draw) (s : State) : (endDrawFull d s).mpc.roll = s.mpc.roll :=
  (roll_closed _).endDrawFull d rfl
@[simp] theorem roomRose_roll (s : State) : (roomRose s).mpc.roll = s.mpc.roll := (roll_closed _).roomRose rfl
@[simp] theorem endIfEmpty_roll (tag : Nat) (s : State) : (endIfEmpty tag s).mpc.roll = s.mpc.roll :=
  (roll_closed _).endIfEmpty tag rfl
@[simp] theorem retire_roll (e : QEntry) (s : State) : (retire e s).mpc.roll = s.mpc.roll := (roll_closed _).retire e rfl
@[simp] theorem advanceEnded_roll (a : Advance) (s : State) : (advanceEnded a s).mpc.roll = s.mpc.roll :=
  (roll_closed _).advanceEnded a rfl
@[simp] theorem takeAdvance_roll (o : Owner) (r : Requester) (d : Nat) (s : State) :
    (takeAdvance o r d s).mpc.roll = s.mpc.roll := (roll_closed _).takeAdvance o r d rfl
@[simp] theorem stripEvents_roll (i : Nat) (k : SwathKind) (s : State) : (stripEvents i k s).mpc.roll = s.mpc.roll :=
  (roll_closed _).stripEvents i k rfl
@[simp] theorem reviseSegment_roll (s : State) : (reviseSegment s).mpc.roll = s.mpc.roll := (roll_closed _).reviseSegment rfl
@[simp] theorem closeWindow_roll (s : State) : (closeWindow s).mpc.roll = s.mpc.roll := (roll_closed _).closeWindow rfl
@[simp] theorem removeCut_roll (p : Nat) (s : State) : (removeCut p s).mpc.roll = s.mpc.roll := (roll_closed _).removeCut p rfl
@[simp] theorem skipCut_roll (p : Nat) (s : State) : (skipCut p s).mpc.roll = s.mpc.roll := (roll_closed _).skipCut p rfl
@[simp] theorem guardTest_roll (p : Nat) (s : State) : (guardTest p s).mpc.roll = s.mpc.roll := (roll_closed _).guardTest p rfl
@[simp] theorem strokeTry_roll (p : Nat) (s : State) : (strokeTry p s).mpc.roll = s.mpc.roll := (roll_closed _).strokeTry p rfl
@[simp] theorem retestStroke_roll (s : State) : (retestStroke s).mpc.roll = s.mpc.roll := (roll_closed _).retestStroke rfl
@[simp] theorem resolveStop_roll (s : State) : (resolveStop s).mpc.roll = s.mpc.roll := (roll_closed _).resolveStop rfl
@[simp] theorem retestCut_roll (s : State) : (retestCut s).mpc.roll = s.mpc.roll := (roll_closed _).retestCut rfl
@[simp] theorem scanTest_roll (id : Nat) (s : State) : (scanTest id s).mpc.roll = s.mpc.roll := (roll_closed _).scanTest id rfl
@[simp] theorem retestScan_roll (s : State) : (retestScan s).mpc.roll = s.mpc.roll := (roll_closed _).retestScan rfl
@[simp] theorem closeCheck_roll (id : Nat) (r : Result) (n : Nat) (s : State) : (closeCheck id r n s).mpc.roll = s.mpc.roll :=
  (roll_closed _).closeCheck id r n rfl
@[simp] theorem closeUnchecked_roll (id : Nat) (s : State) : (closeUnchecked id s).mpc.roll = s.mpc.roll :=
  (roll_closed _).closeUnchecked id rfl
@[simp] theorem closeJob_roll (i : Nat) (o : JobOutcome) (s : State) : (closeJob i o s).mpc.roll = s.mpc.roll :=
  (roll_closed _).closeJob i o rfl

/-! ### The operations of the commands leave the roll alone -/

@[simp] theorem startSegment_roll (a : Advance) (s : State) : (startSegment a s).mpc.roll = s.mpc.roll := by
  unfold startSegment
  dsimp only
  split <;> simp

@[simp] theorem proceed_roll (n : Nat) (a : Advance) (s : State) : (proceed n a s).mpc.roll = s.mpc.roll := by
  induction n generalizing s with
  | zero => rfl
  | succ n ih =>
    unfold proceed
    split
    · simp
    · split <;> simp [ih]
    · split <;> simp

@[simp] theorem runOn_roll (a : Advance) (s : State) : (runOn a s).mpc.roll = s.mpc.roll := proceed_roll _ a s

@[simp] theorem updOwner_roll (o : Owner) (f : Account → Account) (s : State) : (updOwner o f s).mpc.roll = s.mpc.roll := by
  cases o <;> rfl

@[simp] theorem commitTrigger_roll (s : State) (c : Nat) : (commitTrigger s c).mpc.roll = s.mpc.roll := by
  unfold commitTrigger
  dsimp only
  split <;> split <;> simp

@[simp] theorem commit_roll (l : List ChargeRec) (s : State) : (commit l s).mpc.roll = s.mpc.roll := by
  unfold commit
  refine (foldl_roll (fun t r => ?_) _ _).trans (foldl_roll (fun t r => ?_) _ _)
  · exact commitTrigger_roll t r.channel
  · rfl

@[simp] theorem release_roll (l : List ChargeRec) (s : State) : (release l s).mpc.roll = s.mpc.roll := by
  unfold release
  exact foldl_roll (fun _ _ => by rfl) l s

@[simp] theorem cleanAll_roll (l : List Counts) (s : State) : (cleanAll l s).mpc.roll = s.mpc.roll := by
  unfold cleanAll
  refine (foldl_roll commitTrigger_roll _ _).trans (foldl_roll (fun t c => ?_) _ _)
  rfl

@[simp] theorem leaveDry_roll (c : Nat) (s : State) : (leaveDry c s).mpc.roll = s.mpc.roll := placeRequest_roll ..

@[simp] theorem bayReady_roll (b : Nat) (s : State) : (bayReady b s).mpc.roll = s.mpc.roll :=
  foldl_roll (fun t c => leaveDry_roll c t) _ s

@[simp] theorem bayResult_roll (b n : Nat) (s : State) : (bayResult b n s).mpc.roll = s.mpc.roll := by
  unfold bayResult
  split <;> simp

@[simp] theorem bayFaults_roll (b : Nat) (k : Bool) (s : State) : (bayFaults b k s).mpc.roll = s.mpc.roll := by
  simp [bayFaults]

@[simp] theorem emptyBay_roll (b : Nat) (s : State) : (emptyBay b s).mpc.roll = s.mpc.roll := by simp [emptyBay]

@[simp] theorem endDrawRemoval_roll (d : Draw) (s : State) : (endDrawRemoval d s).mpc.roll = s.mpc.roll := by
  simp [endDrawRemoval]

@[simp] theorem bayRemoved_roll (b : Nat) (s : State) : (bayRemoved b s).mpc.roll = s.mpc.roll := by
  have habandon : ∀ t, (abandonTagOp b t).mpc = t.mpc := fun _ => rfl
  unfold bayRemoved
  split
  · simp [habandon]
  · simp [habandon]
  · split <;> simp
  · simp

@[simp] theorem endGrant_roll (b : Bool) (e : QEntry) (s : State) : (endGrant b e s).mpc.roll = s.mpc.roll := by
  have hswath : ∀ (i : Nat) (t : State), (advanceSwath i e t).mpc.roll = t.mpc.roll := by
    intro i t
    unfold advanceSwath
    dsimp only
    split <;> simp
  unfold endGrant
  dsimp only
  split
  · split <;> simp [hswath]
  · simp

@[simp] theorem breakGrant_roll (s : State) : (breakGrant s).mpc.roll = s.mpc.roll := by
  unfold breakGrant
  split <;> simp

@[simp] theorem stopFeed_roll (p : SegPhase) (s : State) : (stopFeed p s).mpc.roll = s.mpc.roll := by
  unfold stopFeed
  split <;> rfl

@[simp] theorem openJob_roll (i : Nat) (c : Option Nat) (tag media : Nat) (p : Policy) (set flags : Nat) (s : State) :
    (openJob i c tag media p set flags s).mpc.roll = s.mpc.roll := by
  unfold openJob
  cases c <;> rfl

@[simp] theorem putSwath_roll (i : Nat) (d : Descriptor) (k : SwathKind) (s : State) :
    (putSwath i d k s).mpc.roll = s.mpc.roll := by
  unfold putSwath markBelow
  dsimp only
  split <;> rfl

@[simp] theorem abortJob_roll (i tag : Nat) (s : State) : (abortJob i tag s).mpc.roll = s.mpc.roll := by
  have hrevoke : ∀ t, (revokeGrant tag t).mpc.roll = t.mpc.roll := by
    intro t
    unfold revokeGrant
    split
    · split <;> rfl
    · rfl
  have hwithdraw : (withdraw i tag s).mpc.roll = s.mpc.roll := by
    unfold withdraw
    dsimp only
    split <;> simp
  exact (hrevoke _).trans hwithdraw

@[simp] theorem disable_roll (c : Nat) (s : State) : (disable c s).mpc.roll = s.mpc.roll := by
  unfold disable
  split <;> rfl

@[simp] theorem gainWrite_roll (l : List (Nat × Nat)) (s : State) : (gainWrite l s).mpc.roll = s.mpc.roll := rfl

@[simp] theorem commitPlan_roll (p q : Nat) (o : CutOwner) (k l : CutKind) (g : Option Nat) (s : State) :
    (commitPlan p q o k l g s).mpc.roll = s.mpc.roll := by
  have hplace : ∀ x kind guard t, (placeCut x o kind guard t).mpc.roll = t.mpc.roll := by
    intro x kind guard t
    unfold placeCut
    split <;> rfl
  simp [commitPlan, hplace]

@[simp] theorem closeClosing_roll (i : Nat) (s : State) : (closeClosing i s).mpc.roll = s.mpc.roll := by
  unfold closeClosing
  split
  · split <;> simp
  · rfl

@[simp] theorem uncut_roll (s : State) : (uncut s).mpc.roll = s.mpc.roll := rfl

@[simp] theorem endHold_roll (s : State) : (endHold s).mpc.roll = s.mpc.roll := by
  have hpump : ∀ t, (resumePump t).mpc.roll = t.mpc.roll := by
    intro t
    unfold resumePump
    split
    · dsimp only
      split <;> simp
    · simp
  have hcutter : ∀ t, (resumeCutter t).mpc.roll = t.mpc.roll := by
    intro t
    unfold resumeCutter
    split
    · dsimp only
      split <;> split <;> simp
    · rfl
  have hexec : ∀ t, (resumeExec t).mpc.roll = t.mpc.roll := by
    intro t
    unfold resumeExec
    split <;> simp
  simp [endHold, hpump, hcutter, hexec]

/-! ### The requests -/

/-- A request whose taking leaves the roll as it stands. -/
def KeepsRoll (f : State → Taken) : Prop := ∀ s, (f s).state.mpc.roll = s.mpc.roll

@[simp] theorem accept_state (b : Body) (s : State) : (accept b s).state = s := rfl
@[simp] theorem refuse_state (c : Code) (s : State) : (refuse c s).state = s := rfl
@[simp] theorem settled_roll (t : Taken) : t.settled.state.mpc.roll = t.state.mpc.roll := settle_roll _

namespace KeepsRoll

theorem takeResume : KeepsRoll Machine.takeResume := by
  intro s
  unfold Machine.takeResume
  repeat' split
  all_goals simp

theorem takeJobOpen (tag media policy set flags : Nat) : KeepsRoll (Machine.takeJobOpen tag media policy set flags) := by
  intro s
  unfold Machine.takeJobOpen
  repeat' split
  all_goals simp

theorem takeSwathPut (d : Descriptor) : KeepsRoll (Machine.takeSwathPut d) := by
  intro s
  unfold Machine.takeSwathPut
  repeat' split
  all_goals simp

theorem takeJobEnd (tag : Nat) : KeepsRoll (Machine.takeJobEnd tag) := by
  intro s
  unfold Machine.takeJobEnd
  repeat' split
  all_goals simp

theorem takeJobAbort (tag : Nat) : KeepsRoll (Machine.takeJobAbort tag) := by
  intro s
  unfold Machine.takeJobAbort
  repeat' split
  all_goals simp

theorem takeQueueMark (v : Nat) : KeepsRoll (Machine.takeQueueMark v) := by
  intro s
  unfold Machine.takeQueueMark
  repeat' split
  all_goals rfl

theorem takeChanSet (c : Nat) (cfg : ChanCfg) : KeepsRoll (Machine.takeChanSet c cfg) := by
  intro s
  unfold Machine.takeChanSet
  repeat' split
  all_goals simp

theorem takeChanOn (c : Nat) : KeepsRoll (Machine.takeChanOn c) := by
  intro s
  unfold Machine.takeChanOn Machine.enable
  repeat' split
  all_goals simp

theorem takeChanOff (c : Nat) : KeepsRoll (Machine.takeChanOff c) := by
  intro s
  unfold Machine.takeChanOff
  repeat' split
  all_goals simp

theorem takeChanGet (c : Nat) : KeepsRoll (Machine.takeChanGet c) := by
  intro s
  unfold Machine.takeChanGet
  repeat' split
  all_goals rfl

theorem takeRefillAsk (c : Nat) : KeepsRoll (Machine.takeRefillAsk c) := by
  intro s
  unfold Machine.takeRefillAsk Machine.askRefill
  repeat' split
  all_goals simp

theorem takePumpSet (p m : Nat) : KeepsRoll (Machine.takePumpSet p m) := by
  intro s
  unfold Machine.takePumpSet
  repeat' split
  all_goals rfl

theorem takeBayClear (b : Nat) : KeepsRoll (Machine.takeBayClear b) := by
  intro s
  unfold Machine.takeBayClear
  repeat' split
  all_goals rfl

theorem takeGainSet (c v : Nat) : KeepsRoll (Machine.takeGainSet c v) := by
  intro s
  unfold Machine.takeGainSet
  repeat' split
  all_goals simp

theorem takeFeed (d : Nat) : KeepsRoll (Machine.takeFeed d) := by
  intro s
  unfold Machine.takeFeed
  repeat' split
  all_goals simp

theorem takeFeedRetry : KeepsRoll Machine.takeFeedRetry := by
  intro s
  unfold Machine.takeFeedRetry
  repeat' split
  all_goals simp

theorem takeSheetFrom (p : Nat) : KeepsRoll (Machine.takeSheetFrom p) := by
  intro s
  unfold Machine.takeSheetFrom
  repeat' split
  all_goals rfl

theorem takeSheetTo (p : Nat) : KeepsRoll (Machine.takeSheetTo p) := by
  intro s
  unfold Machine.takeSheetTo
  repeat' split
  all_goals rfl

theorem commitSheet (p q : Nat) (o : CutOwner) (k l : CutKind) (g : Bool) : KeepsRoll (Machine.commitSheet p q o k l g) := by
  intro s
  unfold Machine.commitSheet
  dsimp only
  repeat' split
  all_goals simp

theorem takeSheetCommit (a b c d e : Nat) : KeepsRoll (Machine.takeSheetCommit a b c d e) := by
  intro s
  unfold Machine.takeSheetCommit
  split
  · split
    · exact commitSheet _ _ _ _ _ _ (dropPlan s)
    · rfl
  · rfl

theorem takeCutCancel (p : Nat) : KeepsRoll (Machine.takeCutCancel p) := by
  intro s
  unfold Machine.takeCutCancel
  repeat' split
  all_goals simp

theorem takeCutterClear : KeepsRoll Machine.takeCutterClear := by
  intro s
  unfold Machine.takeCutterClear
  repeat' split
  all_goals simp

theorem takeGeometrySet (a b : Nat) : KeepsRoll (Machine.takeGeometrySet a b) := by
  intro s
  unfold Machine.takeGeometrySet
  repeat' split
  all_goals rfl

theorem takePatchsetLoad (a b : Nat) (l : List Byte) : KeepsRoll (Machine.takePatchsetLoad a b l) := by
  intro s
  unfold Machine.takePatchsetLoad
  repeat' split
  all_goals rfl

theorem takeRingRetain (n : Nat) : KeepsRoll (Machine.takeRingRetain n) := by
  intro s
  unfold Machine.takeRingRetain
  repeat' split
  all_goals rfl

theorem takeRingRelease (n : Nat) : KeepsRoll (Machine.takeRingRelease n) := fun s => by simp [Machine.takeRingRelease]

theorem takeCheckSet (p : CheckParams) : KeepsRoll (Machine.takeCheckSet p) := by
  intro s
  unfold Machine.takeCheckSet
  repeat' split
  all_goals rfl

theorem takeCheckGet (i : Nat) : KeepsRoll (Machine.takeCheckGet i) := by
  intro s
  unfold Machine.takeCheckGet
  repeat' split
  all_goals rfl

theorem takeQuoteOpen (a b c d : Nat) : KeepsRoll (Machine.takeQuoteOpen a b c d) := by
  intro s
  unfold Machine.takeQuoteOpen
  repeat' split
  all_goals rfl

theorem takeQuoteSwath (t : Nat) (d : Descriptor) : KeepsRoll (Machine.takeQuoteSwath t d) := by
  intro s
  unfold Machine.takeQuoteSwath
  repeat' split
  all_goals rfl

theorem takeQuoteClose (t : Nat) : KeepsRoll (Machine.takeQuoteClose t) := by
  intro s
  unfold Machine.takeQuoteClose Machine.closeAccount
  repeat' split
  all_goals simp

theorem takeHouseClose : KeepsRoll Machine.takeHouseClose := by
  intro s
  unfold Machine.takeHouseClose Machine.closeAccount Machine.openHouse
  repeat' split
  all_goals simp

theorem takePriceStage (a b c : Nat) : KeepsRoll (Machine.takePriceStage a b c) := by
  intro s
  unfold Machine.takePriceStage
  repeat' split
  all_goals rfl

theorem takePriceCommit : KeepsRoll Machine.takePriceCommit := by
  intro s
  unfold Machine.takePriceCommit
  repeat' split
  all_goals rfl

theorem takePriceGet (n : Nat) : KeepsRoll (Machine.takePriceGet n) := by
  intro s
  unfold Machine.takePriceGet
  repeat' split
  all_goals rfl

theorem takeAccountGet (a b : Nat) : KeepsRoll (Machine.takeAccountGet a b) := by
  intro s
  unfold Machine.takeAccountGet Machine.takeTagAccount
  repeat' split
  all_goals rfl

theorem takeRecordTake : KeepsRoll Machine.takeRecordTake := by
  intro s
  unfold Machine.takeRecordTake
  split
  · rfl
  · rw [settled_roll, accept_state, foldl_roll (fun t i => closeClosing_roll i t)]

theorem takeStoreSave : KeepsRoll Machine.takeStoreSave := by
  intro s
  unfold Machine.takeStoreSave
  repeat' split
  all_goals rfl

end KeepsRoll

/-! ### The requests that load and unload the roll (R85, R99) -/

theorem takeRollLoad_step (media width length : Nat) (s : State) :
    RollStep s.mpc.roll (takeRollLoad media width length s).state.mpc.roll := by
  unfold takeRollLoad
  split
  · exact .of_eq rfl
  · split
    · exact .of_eq rfl
    · rename_i hroll
      rw [Option.not_isSome_iff_eq_none.1 hroll]
      exact .loaded _

theorem takeRollUnload_step (s : State) : RollStep s.mpc.roll (takeRollUnload s).state.mpc.roll := by
  unfold takeRollUnload
  split
  · exact .of_eq rfl
  · split
    · exact .of_eq rfl
    · rw [settled_roll]
      exact .unloaded _

/-- R84: a request that reaches its rule moves the roll by ROLL_LOAD and ROLL_UNLOAD alone. -/
theorem runRequest_rollStep (i : Instr) (s : State) : RollStep s.mpc.roll (runRequest i s).mpc.roll := by
  cases i with
  | rollLoad ft media width length => exact takeRollLoad_step media width length (cleared s)
  | rollUnload ft => exact takeRollUnload_step (cleared s)
  | resume ft => exact .of_eq (KeepsRoll.takeResume _)
  | jobOpen ft tag media policy set flags => exact .of_eq (KeepsRoll.takeJobOpen tag media policy set flags _)
  | swathPut ft d => exact .of_eq (KeepsRoll.takeSwathPut d _)
  | jobEnd ft tag => exact .of_eq (KeepsRoll.takeJobEnd tag _)
  | jobAbort ft tag => exact .of_eq (KeepsRoll.takeJobAbort tag _)
  | queueMark ft v => exact .of_eq (KeepsRoll.takeQueueMark v _)
  | chanSet ft c cfg => exact .of_eq (KeepsRoll.takeChanSet c cfg _)
  | chanOn ft c => exact .of_eq (KeepsRoll.takeChanOn c _)
  | chanOff ft c => exact .of_eq (KeepsRoll.takeChanOff c _)
  | chanGet ft c => exact .of_eq (KeepsRoll.takeChanGet c _)
  | refillAsk ft c => exact .of_eq (KeepsRoll.takeRefillAsk c _)
  | pumpSet ft p m => exact .of_eq (KeepsRoll.takePumpSet p m _)
  | bayClear ft b => exact .of_eq (KeepsRoll.takeBayClear b _)
  | gainSet ft c v => exact .of_eq (KeepsRoll.takeGainSet c v _)
  | feed ft d => exact .of_eq (KeepsRoll.takeFeed d _)
  | feedRetry ft => exact .of_eq (KeepsRoll.takeFeedRetry _)
  | sheetFrom ft p => exact .of_eq (KeepsRoll.takeSheetFrom p _)
  | sheetTo ft p => exact .of_eq (KeepsRoll.takeSheetTo p _)
  | sheetCommit ft a b c d e => exact .of_eq (KeepsRoll.takeSheetCommit a b c d e _)
  | cutCancel ft p => exact .of_eq (KeepsRoll.takeCutCancel p _)
  | cutterClear ft => exact .of_eq (KeepsRoll.takeCutterClear _)
  | geometrySet ft a b => exact .of_eq (KeepsRoll.takeGeometrySet a b _)
  | patchsetLoad ft a b l => exact .of_eq (KeepsRoll.takePatchsetLoad a b l _)
  | ringRetain ft n => exact .of_eq (KeepsRoll.takeRingRetain n _)
  | ringRelease ft n => exact .of_eq (KeepsRoll.takeRingRelease n _)
  | checkSet ft p => exact .of_eq (KeepsRoll.takeCheckSet p _)
  | checkGet ft n => exact .of_eq (KeepsRoll.takeCheckGet n _)
  | quoteOpen ft a b c d => exact .of_eq (KeepsRoll.takeQuoteOpen a b c d _)
  | quoteSwath ft t d => exact .of_eq (KeepsRoll.takeQuoteSwath t d _)
  | quoteClose ft t => exact .of_eq (KeepsRoll.takeQuoteClose t _)
  | houseClose ft => exact .of_eq (KeepsRoll.takeHouseClose _)
  | priceStage ft a b c => exact .of_eq (KeepsRoll.takePriceStage a b c _)
  | priceCommit ft => exact .of_eq (KeepsRoll.takePriceCommit _)
  | priceGet ft n => exact .of_eq (KeepsRoll.takePriceGet n _)
  | accountGet ft a b => exact .of_eq (KeepsRoll.takeAccountGet a b _)
  | recordTake ft => exact .of_eq (KeepsRoll.takeRecordTake _)
  | storeSave ft => exact .of_eq (KeepsRoll.takeStoreSave _)
  | _ => exact .of_eq rfl

/-! ### The encoder moves P by one (R87) -/

theorem forwardStep_roll (r : Roll) (s : State) : (forwardStep r s).mpc.roll =
    if r.pos < r.length then some { r with pos := r.pos + 1 } else s.mpc.roll := by
  have hstop : ∀ t, (stopAtSegmentEnd t).mpc.roll = t.mpc.roll := by
    intro t
    unfold stopAtSegmentEnd
    split
    · split <;> simp
    · rfl
  unfold forwardStep
  split
  · exact hstop _
  · rfl

theorem doEncoderStep_rollStep (f : Bool) (s : State) : RollStep s.mpc.roll (doEncoderStep f s).mpc.roll := by
  unfold doEncoderStep encode
  split
  · rename_i r hr
    rw [begin_mpc] at hr
    split
    · rw [forwardStep_roll, hr]
      split
      · rintro _ _ ⟨⟩ ⟨⟩
        exact ⟨rfl, rfl, rfl, Nat.le_succ _, le_rfl⟩
      · exact .of_eq hr
    · exact .of_eq rfl
  · exact .of_eq rfl

/-! ### The events leave the roll alone -/

theorem onReport_roll {ok : Bool} {tag : Nat} {f : QEntry → State → State} (hf : ∀ e s, (f e s).mpc.roll = s.mpc.roll) (s : State) :
    (onReport ok tag f s).mpc.roll = s.mpc.roll := by
  unfold onReport clearStale
  repeat' split
  all_goals simp [hf]

theorem unfired_roll (e : QEntry) (s : State) : (unfired e s).mpc.roll = s.mpc.roll := by
  unfold unfired withdrawEntry headNotReady requeue
  dsimp only
  repeat' split
  all_goals simp

theorem doHeadReady_roll (ok : Bool) (s : State) : (doHeadReady ok s).mpc.roll = s.mpc.roll := by
  unfold doHeadReady
  split <;> simp

theorem doHeadFault_roll (ok : Bool) (s : State) : (doHeadFault ok s).mpc.roll = s.mpc.roll := by
  unfold doHeadFault faultHead
  split <;> simp

theorem doCleaned_roll (ok : Bool) (l : List Counts) (s : State) : (doCleaned ok l s).mpc.roll = s.mpc.roll := by
  unfold doCleaned
  split <;> simp

theorem doFireTimeout_roll (s : State) : (doFireTimeout s).mpc.roll = s.mpc.roll := by
  unfold doFireTimeout expireGrant
  split <;> simp

theorem doSettleWindowEnd_roll (s : State) : (doSettleWindowEnd s).mpc.roll = s.mpc.roll := by
  have hcharge : ∀ t, (handCharge t).mpc.roll = t.mpc.roll := by
    intro t
    unfold handCharge
    dsimp only
    split
    · split <;> simp
    · rfl
  have hafter : ∀ t, (afterWindow t).mpc.roll = t.mpc.roll := by
    intro t
    unfold afterWindow
    repeat' split
    all_goals simp
  unfold doSettleWindowEnd
  split <;> simp [hafter, hcharge]

theorem doFeedLimitExpiry_roll (s : State) : (doFeedLimitExpiry s).mpc.roll = s.mpc.roll := by
  have hstall : ∀ t, (stall t).mpc.roll = t.mpc.roll := by
    intro t
    unfold stall
    split
    · split <;> simp
    · rfl
  simp [doFeedLimitExpiry, hstall]

theorem doHomeChange_roll (a : Bool) (s : State) : (doHomeChange a s).mpc.roll = s.mpc.roll := by
  have hdone : ∀ t, (strokeDone t).mpc.roll = t.mpc.roll := by
    intro t
    unfold strokeDone chargeCut
    dsimp only
    split
    · split <;> simp
    · rfl
  have hhome : ∀ t, (homeChanged a t).mpc.roll = t.mpc.roll := by
    intro t
    unfold homeChanged
    dsimp only
    repeat' split
    all_goals simp [hdone]
  unfold doHomeChange
  split <;> simp [hhome]

theorem doStrokeTimeout_roll (s : State) : (doStrokeTimeout s).mpc.roll = s.mpc.roll := by
  unfold doStrokeTimeout strokeFails
  split <;> simp

theorem doCoverOpen_roll (s : State) : (doCoverOpen s).mpc.roll = s.mpc.roll := by
  unfold doCoverOpen pauseFeed
  repeat' split
  all_goals simp

theorem doCoverClose_roll (s : State) : (doCoverClose s).mpc.roll = s.mpc.roll := by
  unfold doCoverClose
  split <;> simp

theorem doCoverSettleExpiry_roll (s : State) : (doCoverSettleExpiry s).mpc.roll = s.mpc.roll := by
  have hpause : ∀ t, (endPause t).mpc.roll = t.mpc.roll := by
    intro t
    unfold endPause
    repeat' split
    all_goals simp
  unfold doCoverSettleExpiry
  split <;> simp [hpause]

theorem doSupplyOkDeassert_roll (s : State) : (doSupplyOkDeassert s).mpc.roll = s.mpc.roll := by
  have hpump : ∀ t, (suspendPump t).mpc.roll = t.mpc.roll := by
    intro t
    unfold suspendPump
    split <;> rfl
  have hexec : ∀ t, (holdExec t).mpc.roll = t.mpc.roll := by
    intro t
    unfold holdExec holdMoving
    repeat' split
    all_goals simp
  have hcutter : ∀ t, (holdCutter t).mpc.roll = t.mpc.roll := by
    intro t
    unfold holdCutter
    split <;> rfl
  unfold doSupplyOkDeassert beginHold
  split <;> simp [hpump, hexec, hcutter]

theorem doSupplyOkAssert_roll (s : State) : (doSupplyOkAssert s).mpc.roll = s.mpc.roll := by
  unfold doSupplyOkAssert
  split <;> rfl

theorem doLowFloatAssert_roll (c : Fin 10) (s : State) : (doLowFloatAssert c s).mpc.roll = s.mpc.roll := by
  unfold doLowFloatAssert lowAsserts
  split <;> simp

theorem doFullFloatAssert_roll (c : Fin 10) (s : State) : (doFullFloatAssert c s).mpc.roll = s.mpc.roll := by
  unfold doFullFloatAssert fullAsserts
  dsimp only
  repeat' split
  all_goals simp

theorem doDrawLimitExpiry_roll (s : State) : (doDrawLimitExpiry s).mpc.roll = s.mpc.roll := by
  unfold doDrawLimitExpiry endDrawExpiry
  split <;> simp

theorem doBayPresenceAssert_roll (b : Fin 16) (s : State) : (doBayPresenceAssert b s).mpc.roll = s.mpc.roll := by
  unfold doBayPresenceAssert bayInserted
  split <;> simp

theorem doBayPresenceDeassert_roll (b : Fin 16) (s : State) : (doBayPresenceDeassert b s).mpc.roll = s.mpc.roll := by
  unfold doBayPresenceDeassert
  split <;> simp

theorem doTagOpStart_roll (s : State) : (doTagOpStart s).mpc.roll = s.mpc.roll := by
  unfold doTagOpStart
  split <;> rfl

@[simp] theorem freeBus_mpc (s : State) : (freeBus s).mpc = s.mpc := rfl

theorem doTagReadComplete_roll (a b c : Nat) (d : Half) (s : State) : (doTagReadComplete a b c d s).mpc.roll = s.mpc.roll := by
  unfold doTagReadComplete readResult
  repeat' split
  all_goals simp

theorem doTagWriteComplete_roll (s : State) : (doTagWriteComplete s).mpc.roll = s.mpc.roll := by
  unfold doTagWriteComplete
  split <;> simp

theorem doTagOpTimeout_roll (s : State) : (doTagOpTimeout s).mpc.roll = s.mpc.roll := by
  unfold doTagOpTimeout
  split <;> simp

theorem doReading_roll (ok : Bool) (i : Nat) (l a b : Int) (g : Bool) (s : State) :
    (doReading ok i l a b g s).mpc.roll = s.mpc.roll := by
  unfold doReading
  repeat' split
  all_goals rfl

@[simp] theorem endDrain_roll (s : State) : (endDrain s).mpc.roll = s.mpc.roll := retestScan_roll _
@[simp] theorem failScan_roll (id w : Nat) (s : State) : (failScan id w s).mpc.roll = s.mpc.roll := closeCheck_roll ..
@[simp] theorem faultSensor_roll (s : State) : (faultSensor s).mpc.roll = s.mpc.roll := by simp [faultSensor]

@[simp] theorem endScan_roll (id w : Nat) (s : State) : (endScan id w s).mpc.roll = s.mpc.roll := by
  unfold endScan applyCorrections
  dsimp only
  split <;> simp [idleLink]

theorem doScanEnd_roll (ok : Bool) (s : State) : (doScanEnd ok s).mpc.roll = s.mpc.roll := by
  unfold doScanEnd
  repeat' split
  all_goals simp

theorem doSensorReady_roll (ok : Bool) (s : State) : (doSensorReady ok s).mpc.roll = s.mpc.roll := by
  unfold doSensorReady
  split <;> simp

theorem doSensorFault_roll (ok : Bool) (s : State) : (doSensorFault ok s).mpc.roll = s.mpc.roll := by
  unfold doSensorFault
  repeat' split
  all_goals simp

theorem doScanTimeout_roll (s : State) : (doScanTimeout s).mpc.roll = s.mpc.roll := by
  unfold doScanTimeout
  split <;> simp

theorem doDryTimerExpiry_roll (c : Fin 4) (s : State) : (doDryTimerExpiry c s).mpc.roll = s.mpc.roll := by
  unfold doDryTimerExpiry armCheck
  split <;> simp

theorem doLimitTimerExpiry_roll (c : Fin 4) (s : State) : (doLimitTimerExpiry c s).mpc.roll = s.mpc.roll := by
  unfold doLimitTimerExpiry
  split <;> simp

/-! ### The link, the store and the resets -/

theorem bufferFrame_roll (f : Frame) (s : State) : (bufferFrame f s).mpc.roll = s.mpc.roll := by
  unfold bufferFrame
  repeat' split
  all_goals rfl

theorem receive_roll (r : List Frame × List Byte) (s : State) : (receive r s).mpc.roll = s.mpc.roll :=
  foldl_roll (fun t f => bufferFrame_roll f t) _ _

theorem doHostFrameReceived_roll (f : Frame) (s : State) : (doHostFrameReceived f s).mpc.roll = s.mpc.roll := by
  unfold doHostFrameReceived
  split
  · exact bufferFrame_roll f _
  · rfl

theorem doHostByteReceived_roll (b : Byte) (ok : Bool) (s : State) : (doHostByteReceived b ok s).mpc.roll = s.mpc.roll := by
  unfold doHostByteReceived
  split
  · split
    · exact receive_roll _ _
    · exact receive_roll _ _
  · rfl

theorem doFrameDispatch_rollStep (s : State) : RollStep s.mpc.roll (doFrameDispatch s).mpc.roll := by
  unfold doFrameDispatch
  split
  · rename_i f l _
    split
    · unfold handleFrame
      split
      · exact .of_eq rfl
      · exact .of_eq rfl
      · exact runRequest_rollStep _ { begin s with lc.buffer := l }
    · exact .of_eq rfl
  · exact .of_eq rfl

theorem doTransmitFrameStart_roll (s : State) : (doTransmitFrameStart s).mpc.roll = s.mpc.roll := by
  unfold doTransmitFrameStart nextFrame sendReply
  repeat' split
  all_goals rfl

theorem doFrameSendEnd_roll (s : State) : (doFrameSendEnd s).mpc.roll = s.mpc.roll := by
  unfold doFrameSendEnd
  split <;> rfl

theorem doStoreSaveEnd_roll (s : State) : (doStoreSaveEnd s).mpc.roll = s.mpc.roll := by
  unfold doStoreSaveEnd
  split <;> rfl

theorem doStoreLoadEnd_roll (s : State) : (doStoreLoadEnd s).mpc.roll = s.mpc.roll := by
  unfold doStoreLoadEnd endLoad
  dsimp only
  split
  · split
    · rfl
    · rw [raise_mpc]; rfl
  · rfl

/-- R100: the soft reset leaves the roll LOADED with its P. -/
theorem doSoftResetAct_roll (s : State) : (doSoftResetAct s).mpc.roll = s.mpc.roll := by
  have hrc : ∀ t, (softRc t).mpc.roll = t.mpc.roll := fun t => by rw [softRc_eq]
  have hisc : ∀ t, (softIsc t).mpc.roll = t.mpc.roll := by
    intro t
    obtain ⟨i, hi, -⟩ := softIsc_eq t
    rw [hi]
  unfold doSoftResetAct
  split
  · exact (hisc _).trans (hrc _)
  · rfl

/-- R100: after POWER_ON_RESET no roll is LOADED. -/
theorem doPowerOnReset_roll (p : Pins) (s : State) : (doPowerOnReset p s).mpc.roll = none := by
  unfold doPowerOnReset
  split
  · rfl
  · rw [beginHold_poweredOn]; rfl

/-! ### One millisecond -/

@[simp] theorem tickLoad_roll (s : State) : (tickLoad s).mpc.roll = s.mpc.roll := by
  unfold tickLoad
  dsimp only
  repeat' split
  all_goals rfl

@[simp] theorem tickGap_roll (s : State) : (tickGap s).mpc.roll = s.mpc.roll := by
  unfold tickGap
  dsimp only
  repeat' split
  all_goals rfl

@[simp] theorem tickTag_roll (s : State) : (tickTag s).mpc.roll = s.mpc.roll := by
  unfold tickTag
  dsimp only
  repeat' split
  all_goals rfl

@[simp] theorem tickDraw_roll (s : State) : (tickDraw s).mpc.roll = s.mpc.roll := by
  unfold tickDraw
  dsimp only
  repeat' split
  all_goals rfl

@[simp] theorem tickFire_roll (s : State) : (tickFire s).mpc.roll = s.mpc.roll := by
  unfold tickFire
  dsimp only
  split <;> rfl

@[simp] theorem tickCover_roll (s : State) : (tickCover s).mpc.roll = s.mpc.roll := by
  unfold tickCover
  dsimp only
  repeat' split
  all_goals rfl

@[simp] theorem tickSettle_roll (s : State) : (tickSettle s).mpc.roll = s.mpc.roll := by
  unfold tickSettle
  dsimp only
  split <;> rfl

@[simp] theorem tickFeed_roll (s : State) : (tickFeed s).mpc.roll = s.mpc.roll := by
  unfold tickFeed
  dsimp only
  repeat' split
  all_goals rfl

@[simp] theorem tickStroke_roll (s : State) : (tickStroke s).mpc.roll = s.mpc.roll := by
  unfold tickStroke
  dsimp only
  split <;> rfl

@[simp] theorem tickScan_roll (s : State) : (tickScan s).mpc.roll = s.mpc.roll := by
  unfold tickScan
  dsimp only
  split <;> rfl

@[simp] theorem tickCheck_roll (id : Fin 4) (s : State) : (tickCheck id s).mpc.roll = s.mpc.roll := by
  unfold tickCheck
  dsimp only
  split <;> split <;> rfl

@[simp] theorem tickSave_roll (s : State) : (tickSave s).mpc.roll = s.mpc.roll := by
  unfold tickSave
  dsimp only
  repeat' split
  all_goals rfl

theorem tick_roll (s : State) : (tick s).mpc.roll = s.mpc.roll := by simp [tick]

/-! ### Every command and every step -/

theorem rollStep_of_request {i : Instr} {s t : State} (h : exec i s = .next t) (hi : exec i s = .next (runRequest i s)) :
    RollStep s.mpc.roll t.mpc.roll := by
  cases hi.symm.trans h
  exact runRequest_rollStep i s

/-- R84: what each command makes of the roll. -/
theorem exec_rollStep {i : Instr} {s t : State} (h : exec i s = .next t) : RollStep s.mpc.roll t.mpc.roll := by
  cases i with
  | powerOnReset p => cases h; rw [doPowerOnReset_roll]; exact .unloaded _
  | encoderStep f => cases h; exact doEncoderStep_rollStep f s
  | frameDispatch => cases h; exact doFrameDispatch_rollStep s
  | storeLoadEnd => cases h; exact .of_eq (doStoreLoadEnd_roll s)
  | hostFrameReceived f => cases h; exact .of_eq (doHostFrameReceived_roll f s)
  | hostByteReceived b ok => cases h; exact .of_eq (doHostByteReceived_roll b ok s)
  | rxGapTimeout => cases h; exact .of_eq (receive_roll _ _)
  | transmitFrameStart => cases h; exact .of_eq (doTransmitFrameStart_roll s)
  | frameSendEnd => cases h; exact .of_eq (doFrameSendEnd_roll s)
  | softResetAct => cases h; exact .of_eq (doSoftResetAct_roll s)
  | storeSaveEnd => cases h; exact .of_eq (doStoreSaveEnd_roll s)
  | fired ok tag => cases h; exact .of_eq (onReport_roll (endGrant_roll false) s)
  | broken ok tag => cases h; exact .of_eq (onReport_roll (endGrant_roll true) s)
  | notFired ok tag => cases h; exact .of_eq (onReport_roll unfired_roll s)
  | headReady ok => cases h; exact .of_eq (doHeadReady_roll ok s)
  | headFault ok => cases h; exact .of_eq (doHeadFault_roll ok s)
  | cleaned ok l => cases h; exact .of_eq (doCleaned_roll ok l s)
  | fireTimeout => cases h; exact .of_eq (doFireTimeout_roll s)
  | settleWindowEnd => cases h; exact .of_eq (doSettleWindowEnd_roll s)
  | feedLimitExpiry => cases h; exact .of_eq (doFeedLimitExpiry_roll s)
  | homeChange a => cases h; exact .of_eq (doHomeChange_roll a s)
  | strokeTimeout => cases h; exact .of_eq (doStrokeTimeout_roll s)
  | coverOpen => cases h; exact .of_eq (doCoverOpen_roll s)
  | coverClose => cases h; exact .of_eq (doCoverClose_roll s)
  | coverSettleExpiry => cases h; exact .of_eq (doCoverSettleExpiry_roll s)
  | supplyOkDeassert => cases h; exact .of_eq (doSupplyOkDeassert_roll s)
  | supplyOkAssert => cases h; exact .of_eq (doSupplyOkAssert_roll s)
  | lowFloatAssert c => cases h; exact .of_eq (doLowFloatAssert_roll c s)
  | lowFloatDeassert c => cases h; exact .of_eq rfl
  | fullFloatAssert c => cases h; exact .of_eq (doFullFloatAssert_roll c s)
  | fullFloatDeassert c => cases h; exact .of_eq rfl
  | drawLimitExpiry => cases h; exact .of_eq (doDrawLimitExpiry_roll s)
  | bayPresenceAssert b => cases h; exact .of_eq (doBayPresenceAssert_roll b s)
  | bayPresenceDeassert b => cases h; exact .of_eq (doBayPresenceDeassert_roll b s)
  | tagOpStart => cases h; exact .of_eq (doTagOpStart_roll s)
  | tagReadComplete a b c d => cases h; exact .of_eq (doTagReadComplete_roll a b c d s)
  | tagWriteComplete => cases h; exact .of_eq (doTagWriteComplete_roll s)
  | tagOpTimeout => cases h; exact .of_eq (doTagOpTimeout_roll s)
  | reading ok i l a b g => cases h; exact .of_eq (doReading_roll ok i l a b g s)
  | scanEnd ok => cases h; exact .of_eq (doScanEnd_roll ok s)
  | sensorReady ok => cases h; exact .of_eq (doSensorReady_roll ok s)
  | sensorFault ok => cases h; exact .of_eq (doSensorFault_roll ok s)
  | scanTimeout => cases h; exact .of_eq (doScanTimeout_roll s)
  | dryTimerExpiry c => cases h; exact .of_eq (doDryTimerExpiry_roll c s)
  | limitTimerExpiry c => cases h; exact .of_eq (doLimitTimerExpiry_roll c s)
  | _ => exact rollStep_of_request h rfl

/-- R84: what each step makes of the roll. -/
theorem step_rollStep {s t : State} (h : step s = .next t) : RollStep s.mpc.roll t.mpc.roll := by
  unfold step at h
  split at h
  · rename_i i l _
    exact exec_rollStep (s := { s with pending := l }) h
  · split at h
    · exact exec_rollStep h
    · cases h
      exact .of_eq (tick_roll _)

end Sys2Proof.Machine

open Sys2Proof Sys2Proof.Machine

/-- Settles O6: the form as a property that every change of form keeps, and the roll's movement command by command. -/
theorem rollPositionStaysOnTheRollAndNeverDecreases : Obligations.RollPositionStaysOnTheRollAndNeverDecreases := by
  intro s t hst
  have roll : StepClosed (fun x => RollForm s → RollForm x) := fun _ _ hf h hs => hf.roll (h hs)
  exact ⟨roll.holds_after hst id, step_rollStep hst⟩

end

section
/-! The encoder (O52). -/

namespace Sys2Proof.Machine

/-! ### The counting window (R87) -/

theorem feedDriven_iff {s : State} : feedDriven s = true ↔ ∃ a g, s.mpc.exec = .moving a g ∧ g.phase = .driving := by
  unfold feedDriven
  split <;> simp_all

theorem windowOpen_iff {s : State} :
    windowOpen s = true ↔ s.mpc.settle ≠ none ∨ ∃ a g, s.mpc.exec = .moving a g ∧ g.phase = .driving := by
  rw [windowOpen, Bool.or_eq_true, feedDriven_iff, Option.isSome_iff_ne_none, or_comm]

theorem encode_stray {f : Bool} {s : State} (h : f = false ∨ s.mpc.roll = none ∨ windowOpen s ≠ true) :
    encode f s = { s with mpc.stray := min 65535 (s.mpc.stray + 1) } := by
  unfold encode
  split
  · rename_i r hr
    refine if_neg ?_
    rcases h with h | h | h <;> simp_all
  · rfl

theorem encode_forward {s : State} {r : Roll} (hr : s.mpc.roll = some r) (hw : windowOpen s = true) :
    encode true s = forwardStep r s := by
  simp [encode, hr, hw]

/-! ### A step inside the window (R87, R91) -/

theorem live_iff {c : Check} : c.live = true ↔ c.state ≠ .free ∧ c.state ≠ .closed := by simp [Check.live]

theorem markReached_eq {s : State} {p : Nat} (hp : pos s = p) : markReached s = { s with
    mpc.cuts := s.mpc.cuts.map (fun e =>
      if e.state = .planned ∧ e.position + s.mpc.cOff ≤ p then { e with state := .due } else e)
    ccu.checks := s.ccu.checks.map (fun c =>
      if c.state ≠ .free ∧ c.state ≠ .closed ∧ c.stop.any (fun q => q ≤ p) = true then { c with reached := true } else c) } := by
  subst hp
  have hchecks : (markReached s).ccu.checks = s.ccu.checks.map (fun c =>
      if c.state ≠ .free ∧ c.state ≠ .closed ∧ c.stop.any (fun q => q ≤ pos s) = true then { c with reached := true } else c) :=
    List.map_congr_left fun c _ => by cases hs : c.stop <;> simp [live_iff, and_assoc]
  rw [← hchecks]
  rfl

theorem stopAtSegmentEnd_ends {s : State} {a : Advance} {g : Segment} (hx : s.mpc.exec = .moving a g) (hg : g.phase = .driving)
    (hp : g.segEnd ≤ pos s) :
    stopAtSegmentEnd s = { s with mpc.exec := .moving a { g with phase := .settling }, mpc.settle := some 100 } := by
  simp only [stopAtSegmentEnd, hx, hg, hp, and_self, if_true, stopFeed, Config.settleTime]

theorem stopAtSegmentEnd_short {s : State} (h : ∀ a g, s.mpc.exec = .moving a g → ¬(g.phase = .driving ∧ g.segEnd ≤ pos s)) :
    stopAtSegmentEnd s = s := by
  unfold stopAtSegmentEnd
  split
  · rename_i a g hx
    exact if_neg (h a g hx)
  · rfl

theorem forwardStep_end {r : Roll} {s : State} (h : r.length ≤ r.pos) : forwardStep r s = s := if_neg (Nat.not_lt.2 h)

theorem forwardStep_moves {r : Roll} {s : State} (h : r.pos < r.length) : forwardStep r s = stopAtSegmentEnd { s with
    mpc.roll := some { r with pos := r.pos + 1 }
    mpc.moved := s.mpc.moved + 1
    mpc.cuts := s.mpc.cuts.map (fun e =>
      if e.state = .planned ∧ e.position + s.mpc.cOff ≤ r.pos + 1 then { e with state := .due } else e)
    ccu.checks := s.ccu.checks.map (fun c =>
      if c.state ≠ .free ∧ c.state ≠ .closed ∧ c.stop.any (fun q => q ≤ r.pos + 1) = true then { c with reached := true } else c) } := by
  rw [forwardStep, if_pos h, markReached_eq rfl]
  rfl

end Sys2Proof.Machine

open Sys2Proof Sys2Proof.Machine

/-- Settles O52: the step that is stray, and the forward step by whether it reaches the segment end. -/
theorem encoderStepMovesTheRollOrIsStray : Obligations.EncoderStepMovesTheRollOrIsStray := by
  intro s now open_ stray
  have hstray : ∀ f, f = false ∨ s.mpc.roll = none ∨ ¬ open_ → exec (.encoderStep f) s = .next stray := fun f h =>
    congrArg Host.Outcome.next (encode_stray (s := now) (h.imp_right (Or.imp_right (mt windowOpen_iff.1))))
  refine ⟨hstray false (.inl rfl), fun h => hstray true (.inr h), fun r hr hopen => ?_⟩
  have hforward : exec (.encoderStep true) s = .next (forwardStep r now) :=
    congrArg Host.Outcome.next (encode_forward (s := now) hr (windowOpen_iff.2 hopen))
  rw [hforward]
  refine ⟨fun hend => congrArg _ (forwardStep_end hend), fun hlt => ?_⟩
  intro p x
  rw [forwardStep_moves hlt]
  refine congrArg Host.Outcome.next (?_ : stopAtSegmentEnd x = _)
  cases hx : s.mpc.exec with
  | moving a g =>
    dsimp only
    split
    · rename_i hg
      exact stopAtSegmentEnd_ends (s := x) hx hg.1 hg.2
    · rename_i hg
      refine stopAtSegmentEnd_short (s := x) (fun b d hb => ?_)
      cases hx.symm.trans hb
      exact hg
  | idle | atStop _ _ | stalled _ | off _ _ =>
    exact stopAtSegmentEnd_short (s := x) (fun b d hb => nomatch hx.symm.trans hb)

end

section
/-! ROLL_LOAD and ROLL_UNLOAD (O38). -/

namespace Sys2Proof.Machine

/-! ### ROLL_LOAD (R85) -/

theorem takeRollLoad_range {media width length : Nat} {s : State}
    (h : 15 < media ∨ width < 1000 ∨ 20000 < width ∨ length = 0 ∨ 2000000 < length) :
    takeRollLoad media width length s = refuse .range s := if_pos h

theorem takeRollLoad_inRange {media width length : Nat} {s : State} (h1 : media ≤ 15) (h2 : 1000 ≤ width) (h3 : width ≤ 20000)
    (h4 : 1 ≤ length) (h5 : length ≤ 2000000) : takeRollLoad media width length s =
      if s.mpc.roll.isSome then refuse .notNow s else (accept .none (loadRoll media width length s)).settled := by
  unfold takeRollLoad
  rw [if_neg]
  simp only [Config.positionMax]
  omega

/-! ### CUT_LOST on the accounts of the owners (R99, R152) -/

/-- R152: CUT_LOST set on an account that is lost a cut, and left as it stands on another. -/
def Account.losing (b : Bool) (a : Account) : Account := { a with flags.cutLost := a.flags.cutLost || b }

theorem losing_false : Account.losing false = id := by
  funext a
  simp [Account.losing]

theorem losing_losing (b c : Bool) (a : Account) : (a.losing b).losing c = a.losing (b || c) := by
  simp [Account.losing, Bool.or_assoc]

/-- R1, R99: an owner of a cut entry is the print job in a slot. -/
def CutOwner.inSlot (s : State) (slot : Nat) : CutOwner → Bool
  | .job tag => decide (slotOf s tag = some slot)
  | .house => false

/-- R99: CUT_LOST on the accounts of some owners. -/
def cutsLost (l : List CutOwner) (s : State) : State :=
  { s with
    cu.printAccts := s.cu.printAccts.mapIdx (fun slot o => o.map (Account.losing (l.any (CutOwner.inSlot s slot))))
    cu.house := s.cu.house.losing (l.contains .house) }

theorem losing_true : Account.losing true = fun a => { a with flags.cutLost := true } := by
  funext a
  simp [Account.losing]

theorem mapIdx_same {A : Type} (l : List A) : l.mapIdx (fun _ x => x) = l := List.mapIdx_eq_iff.2 (fun i => by simp)

theorem cutsLost_nil (s : State) : cutsLost [] s = s := by
  simp [cutsLost, losing_false, mapIdx_same]

theorem cutsLost_house (s : State) : cutsLost [.house] s = setCutLost .house s := by
  simp [cutsLost, CutOwner.inSlot, losing_false, mapIdx_same, losing_true, setCutLost, updHouse]

theorem cutsLost_job (tag : Nat) (s : State) : cutsLost [.job tag] s = setCutLost (.job tag) s := by
  cases hslot : slotOf s tag with
  | none => simp [cutsLost, CutOwner.inSlot, hslot, mapIdx_same, losing_false, setCutLost]
  | some i =>
    have hprints : s.cu.printAccts.mapIdx (fun slot o => o.map (Account.losing (decide (i = slot)))) =
        s.cu.printAccts.modify i (fun o => o.map (fun a => { a with flags.cutLost := true })) := by
      refine List.mapIdx_eq_iff.2 (fun slot => ?_)
      rw [List.getElem?_modify]
      by_cases hi : i = slot
      · simp only [hi, decide_true, if_true, losing_true, Option.map_eq_map]
      · simp [hi, losing_false]
    simp [cutsLost, CutOwner.inSlot, hslot, hprints, losing_false, setCutLost, updPrint]

theorem cutsLost_cutsLost (l m : List CutOwner) (s : State) : cutsLost m (cutsLost l s) = cutsLost (l ++ m) s := by
  have hslot : CutOwner.inSlot (cutsLost l s) = CutOwner.inSlot s := rfl
  unfold cutsLost at hslot ⊢
  simp only [hslot, List.mapIdx_mapIdx, Function.comp_def, Option.map_map, losing_losing, List.any_append, List.contains_append]

theorem foldl_setCutLost (l : List CutOwner) (s : State) : l.foldl (fun t o => setCutLost o t) s = cutsLost l s := by
  induction l generalizing s with
  | nil => exact (cutsLost_nil s).symm
  | cons o t ih =>
    have hone : setCutLost o s = cutsLost [o] s := by
      cases o with
      | house => exact (cutsLost_house s).symm
      | job tag => exact (cutsLost_job tag s).symm
    rw [List.foldl_cons, ih, hone, cutsLost_cutsLost]
    rfl

/-! ### ROLL_UNLOAD (R99) -/

/-- R99: the owners of all cut entries. -/
def cutOwners (s : State) : List CutOwner := (s.mpc.cuts.map (fun e => e.owners)).flatten

/-- R99: the roll goes with its cuts, where no job waits for its end and no check leaves. -/
theorem unloadRoll_eq {s : State} (hj : ∀ i j, jobAt s i = some j → j.state ≠ .waiting)
    (hc : ∀ id, id < 4 → leavesWithRoll (checkAt s id) = false) :
    unloadRoll s = { cutsLost (cutOwners s) s with mpc.cuts := [], mpc.roll := none } := by
  have hlose : loseCuts s = { cutsLost (cutOwners s) s with mpc.cuts := [] } := by
    unfold loseCuts
    dsimp only
    rw [foldl_setCutLost]
    exact foldl_idle (fun t i => doneTest i t) _ (fun i _ => doneTest_idle (isDone_of_state (hj i)))
  unfold unloadRoll
  dsimp only
  rw [hlose, foldl_idle]
  case h => exact fun id hid => if_neg (Bool.eq_false_iff.1 (hc id (List.mem_range.1 hid)))

theorem any_cutOwners (s : State) (f : CutOwner → Bool) : (cutOwners s).any f = s.mpc.cuts.any (fun e => e.owners.any f) := by
  simp [cutOwners, Function.comp_def]

theorem contains_cutOwners (s : State) (o : CutOwner) :
    (cutOwners s).contains o = s.mpc.cuts.any (fun e => e.owners.contains o) := by
  simp only [List.contains_eq_any_beq, any_cutOwners]

theorem takeRollUnload_none {s : State} (h : s.mpc.roll = none) : takeRollUnload s = refuse .notNow s := by
  simp [takeRollUnload, h]

theorem takeRollUnload_busy {s : State} (h : s.mpc.roll ≠ none) (hb : s.mpc.exec ≠ .idle ∨ grantedEntry s ≠ none) :
    takeRollUnload s = refuse .busy s := by
  unfold takeRollUnload
  rw [if_neg (by simpa using h), if_pos (hb.imp_right Option.isSome_iff_ne_none.2)]

theorem takeRollUnload_ok {s : State} (h : s.mpc.roll ≠ none) (hx : s.mpc.exec = .idle) (hg : grantedEntry s = none) :
    takeRollUnload s = (accept (.removed s.mpc.cuts.length) (unloadRoll s)).settled := by
  simp [takeRollUnload, h, hx, hg]

theorem leavesWithRoll_false {c : Check} (h1 : c.state ≠ .drying) (h2 : c.state ≠ .armed)
    (h3 : ¬(c.state = .waitingStrip ∧ c.stripStart ≠ none)) : leavesWithRoll c = false := by
  unfold leavesWithRoll
  simp_all

end Sys2Proof.Machine

open Sys2Proof Sys2Proof.Machine

/-- Settles O38: the load field by field, and the unload as the fold over the owners of the lost cuts written out. -/
theorem rollLoadAndUnloadMoveTheRoll : Obligations.RollLoadAndUnloadMoveTheRoll := by
  intro ft s
  refine ⟨fun media width length h1 h2 h3 h4 h5 => ?_, fun media width length h => ?_, fun h => ?_, fun h hb => ?_,
    fun h hx hg hj hc => ?_⟩
  · have htake := takeRollLoad_inRange (s := cleared s) h1 h2 h3 h4 h5
    refine ⟨fun h => ?_, fun h => ?_⟩
    · exact follows_of_settled rfl (htake.trans (if_neg (by simpa [cleared] using h)))
    · exact congrArg Host.Outcome.next (carryOut_of_refuse (htake.trans (if_pos (Option.isSome_iff_ne_none.2 h))))
  · exact congrArg Host.Outcome.next (carryOut_of_refuse (takeRollLoad_range h))
  · exact congrArg Host.Outcome.next (carryOut_of_refuse (takeRollUnload_none (s := cleared s) h))
  · exact congrArg Host.Outcome.next (carryOut_of_refuse (takeRollUnload_busy (s := cleared s) h hb))
  · have hunload := unloadRoll_eq (s := cleared s) hj (fun id hid =>
      leavesWithRoll_false (hc id hid).1 (hc id hid).2.1 (hc id hid).2.2)
    obtain ⟨t, ht, hexec⟩ := follows_of_settled (i := .rollUnload ft) rfl (takeRollUnload_ok (s := cleared s) h hx hg)
    rw [hunload] at ht
    refine ⟨(cutsLost (cutOwners s) s).cu.printAccts, t, ?_, hexec, fun slot => ?_⟩
    · rw [← contains_cutOwners]
      exact ht
    · have howner : CutOwner.inSlot s slot = (fun w => match w with
          | .job tag => decide (slotOf s tag = some slot)
          | .house => false) := by
        funext w
        cases w <;> rfl
      rw [cutsLost, List.getElem?_mapIdx, any_cutOwners, howner]
      rfl

end

section
/-! FEED and FEED_RETRY (O39). -/

namespace Sys2Proof.Machine

/-! ### FEED and FEED_RETRY (R95) -/

section
variable {s : State} {d : Nat} (h1 : 1 ≤ d) (h2 : d ≤ 2000000) (hh : held s = false) (hr : s.mpc.roll ≠ none)
include h1 h2 hh hr

theorem takeFeed_busy (hb : s.mpc.exec ≠ .idle ∨ grantedEntry s ≠ none) : takeFeed d s = refuse .busy s := by
  unfold takeFeed
  rw [if_neg (by simp only [Config.positionMax]; omega), if_neg (by simp [hh]), if_neg (by simpa using hr),
    if_pos (hb.imp_right Option.isSome_iff_ne_none.2)]

theorem takeFeed_ok (hx : s.mpc.exec = .idle) (hg : grantedEntry s = none) : takeFeed d s =
    (accept (.fed (newAdvance s .house .feed d).target (newAdvance s .house .feed d).clamped)
      (takeAdvance .house .feed d s)).settled := by
  unfold takeFeed
  rw [if_neg (by simp only [Config.positionMax]; omega), if_neg (by simp [hh]), if_neg (by simpa using hr),
    if_neg (by simp [hx, hg])]

end

theorem takeFeedRetry_stalled {s : State} {a : Advance} (hh : held s = false) (hx : s.mpc.exec = .stalled a) :
    takeFeedRetry s = (accept (.retried (pos s) a.target) (runOn a s)).settled := by
  simp [takeFeedRetry, hh, hx]

theorem takeFeedRetry_notNow {s : State} (hh : held s = false) (hx : ∀ a, s.mpc.exec ≠ .stalled a) :
    takeFeedRetry s = refuse .notNow s := by
  unfold takeFeedRetry
  rw [if_neg (by simp [hh])]
  split
  · rename_i a ha
    exact absurd ha (hx a)
  · rfl

theorem newAdvance_eq {s : State} {r : Roll} (hr : s.mpc.roll = some r) (o : Owner) (q : Requester) (d : Nat) :
    newAdvance s o q d = ⟨o, q, min r.length (r.pos + d), decide (r.length < r.pos + d)⟩ := by
  simp [newAdvance, loadedLength, pos_of_roll hr, hr]

end Sys2Proof.Machine

open Sys2Proof Sys2Proof.Machine

/-- Settles O39: each of the two starts the segment of `runOn_moves`. -/
theorem feedAndRetryStartASegment : Obligations.FeedAndRetryStartASegment := by
  intro ft s r hr hhold hfirst hwindow moving
  have hheld : held (cleared s) = false := by simp [held, cleared, hhold]
  have hroll : (cleared s).mpc.roll ≠ none := by simp [cleared, hr]
  refine ⟨fun d h1 h2 hx hg hp => ?_, fun a hx hp => ?_, fun d h1 h2 hb => ?_, fun hx => ?_⟩
  · intro a x
    have ha : newAdvance (cleared s) .house .feed d = a := newAdvance_eq (s := cleared s) hr ..
    have htake := takeFeed_ok (s := cleared s) h1 h2 hheld hroll hx hg
    rw [ha, takeAdvance_moves (s := cleared s) ha hr hhold hfirst hwindow (lt_min hp (by omega))] at htake
    have hx : (if a.clamped = true then raise .rollEnd (ownerTag (cleared s) .house) (cleared s) else cleared s) = x := by
      simp only [a, x, decide_eq_true_eq, ownerTag]
    rw [hx] at htake
    exact follows_of_settled rfl htake
  · have htake := takeFeedRetry_stalled (s := cleared s) hheld hx
    rw [pos_of_roll (s := cleared s) hr, runOn_moves (y := cleared s) (s := s) rfl rfl rfl hr hfirst hp hwindow] at htake
    exact follows_of_settled rfl htake
  · exact congrArg Host.Outcome.next (carryOut_of_refuse (takeFeed_busy (s := cleared s) h1 h2 hheld hroll hb))
  · exact congrArg Host.Outcome.next (carryOut_of_refuse (takeFeedRetry_notNow (s := cleared s) hheld hx))

end

section
/-! SHEET_COMMIT (O41). -/

namespace Sys2Proof.Machine

/-! ### The cut list by position (R101) -/

theorem find_insertCut_same (e : CutEntry) {l : List CutEntry} (h : l.find? (fun x => x.position == e.position) = none) :
    (insertCut e l).find? (fun x => x.position == e.position) = some e := by
  induction l with
  | nil => simp [insertCut]
  | cons y t ih =>
    have hne : ∀ x ∈ y :: t, ¬(x.position == e.position) = true := List.find?_eq_none.1 h
    have ht := ih (List.find?_eq_none.2 fun x hx => hne x (List.mem_cons_of_mem _ hx))
    unfold insertCut
    split
    · simp
    · rw [List.find?_cons, ht]
      simp [hne y (List.mem_cons_self ..)]

theorem find_insertCut_other {e : CutEntry} {p : Nat} (hp : p ≠ e.position) (l : List CutEntry) :
    (insertCut e l).find? (fun x => x.position == p) = l.find? (fun x => x.position == p) := by
  have he : ¬(e.position == p) = true := by simpa using Ne.symm hp
  induction l with
  | nil => simp [insertCut, Ne.symm hp]
  | cons y t ih =>
    unfold insertCut
    split
    · rw [List.find?_cons, Bool.eq_false_iff.2 he]
    · rw [List.find?_cons, List.find?_cons, ih]

theorem cutAt_position {s : State} {p : Nat} {e : CutEntry} (h : cutAt s p = some e) : e.position = p := by
  simpa using List.find?_some h

theorem cutAt_updCut_other {s : State} {p x : Nat} {f : CutEntry → CutEntry} (hf : ∀ e, (f e).position = e.position)
    (hx : x ≠ p) : cutAt (updCut p f s) x = cutAt s x := by
  unfold cutAt updCut
  dsimp only
  rw [List.find?_map]
  have hsame : ((fun e : CutEntry => e.position == x) ∘ fun e => if e.position = p then f e else e) = fun e => e.position == x := by
    funext y
    by_cases hy : y.position = p <;> simp [hy, hf]
  rw [hsame]
  cases hfind : s.mpc.cuts.find? (fun e => e.position == x) with
  | none => rfl
  | some e => simp [cutAt_position hfind, hx]

/-! ### A cut placed or merged (R105) -/

/-- R105: the entry that the placing of a cut leaves at its position. -/
def placedCut (s : State) (o : CutOwner) (p : Nat) (k : CutKind) (g : Option Nat) : CutEntry :=
  match cutAt s p with
  | none => ⟨p, [o], k, g, .planned⟩
  | some e => e.merge o k g

theorem merge_eq (o : CutOwner) (k : CutKind) (g : Option Nat) (e : CutEntry) : e.merge o k g = { e with
    owners := if e.owners.contains o then e.owners else e.owners ++ [o]
    kind := if e.kind = .sheet ∨ k = .sheet then .sheet else .trim
    guard := if e.guard = none then g else e.guard } := by
  have howners : e.owners.any (fun x => x == o) = e.owners.contains o := by simp [List.any_beq']
  unfold CutEntry.merge
  rw [howners]
  cases e.guard <;> rfl

theorem placedCut_eq (s : State) (o : CutOwner) (p : Nat) (k : CutKind) (g : Option Nat) : placedCut s o p k g =
    match cutAt s p with
    | none => ⟨p, [o], k, g, .planned⟩
    | some e => { e with
        owners := if e.owners.contains o then e.owners else e.owners ++ [o]
        kind := if e.kind = .sheet ∨ k = .sheet then .sheet else .trim
        guard := if e.guard = none then g else e.guard } := by
  unfold placedCut
  cases cutAt s p with
  | none => rfl
  | some e => exact merge_eq o k g e

theorem placeCut_cuts (p : Nat) (o : CutOwner) (k : CutKind) (g : Option Nat) (s : State) :
    ∃ cuts : List CutEntry, placeCut p o k g s = { s with mpc.cuts := cuts } := by
  unfold placeCut
  split <;> exact ⟨_, rfl⟩

theorem cutAt_placeCut_same (p : Nat) (o : CutOwner) (k : CutKind) (g : Option Nat) (s : State) :
    cutAt (placeCut p o k g s) p = some (placedCut s o p k g) := by
  unfold placeCut placedCut
  cases h : cutAt s p with
  | none => exact find_insertCut_same ⟨p, [o], k, g, .planned⟩ h
  | some e => exact cutAt_updCut (fun _ => rfl) h

theorem cutAt_placeCut_other {p x : Nat} (hx : x ≠ p) (o : CutOwner) (k : CutKind) (g : Option Nat) (s : State) :
    cutAt (placeCut p o k g s) x = cutAt s x := by
  unfold placeCut
  cases h : cutAt s p with
  | none => exact find_insertCut_other (e := ⟨p, [o], k, g, .planned⟩) hx _
  | some e => exact cutAt_updCut_other (fun _ => rfl) hx

/-! ### Both cuts placed (R93, R105) -/

/-- R93: a change of the stop list moves the executor alone, and only where it is MOVING. -/
theorem reviseSegment_exec (s : State) : ∃ run : Exec, reviseSegment s = { s with mpc.exec := run } ∧
    ((∀ a g, s.mpc.exec ≠ .moving a g) → run = s.mpc.exec) := by
  unfold reviseSegment
  split
  · rename_i a g hx
    dsimp only
    split
    · exact ⟨_, rfl, fun h => absurd hx (h a g)⟩
    · exact ⟨_, rfl, fun _ => rfl⟩
  · exact ⟨_, rfl, fun _ => rfl⟩

theorem commitPlan_eq {p q : Nat} (hpq : p ≠ q) (o : CutOwner) (k l : CutKind) (g : Option Nat) (s : State) :
    ∃ (cuts : List CutEntry) (run : Exec),
      let t : State := { s with mpc.cuts := cuts, mpc.exec := run }
      commitPlan p q o k l g s = t ∧ cutAt t p = some (placedCut s o p k none) ∧ cutAt t q = some (placedCut s o q l g) ∧
      (∀ x, x ≠ p → x ≠ q → cutAt t x = cutAt s x) ∧ ((∀ a g, s.mpc.exec ≠ .moving a g) → run = s.mpc.exec) := by
  obtain ⟨cuts₁, hlead⟩ := placeCut_cuts p o k none s
  obtain ⟨cuts, htrail⟩ := placeCut_cuts q o l g (placeCut p o k none s)
  rw [hlead] at htrail
  obtain ⟨run, hrun, hstill⟩ := reviseSegment_exec (placeCut q o l g (placeCut p o k none s))
  have hq : placedCut (placeCut p o k none s) o q l g = placedCut s o q l g := by
    unfold placedCut
    rw [cutAt_placeCut_other (Ne.symm hpq)]
  have hat : ∀ x, cutAt { s with mpc.cuts := cuts, mpc.exec := run } x = cutAt (placeCut q o l g (placeCut p o k none s)) x := by
    intro x
    rw [hlead, htrail]
    rfl
  refine ⟨cuts, run, ?_, ?_, ?_, fun x hxp hxq => ?_, ?_⟩
  · rw [commitPlan, hrun, hlead, htrail]
  · rw [hat, cutAt_placeCut_other hpq, cutAt_placeCut_same]
  · rw [hat, cutAt_placeCut_same, hq]
  · rw [hat, cutAt_placeCut_other hxq, cutAt_placeCut_other hxp]
  · rwa [hlead, htrail] at hstill

/-! ### The tests of SHEET_COMMIT (R104) -/

theorem cutReply_eq {before after : State} {p : Nat} {e : CutEntry} (h : cutAt after p = some e) :
    cutReply before after p = ⟨p + after.mpc.cOff, e.owners, e.kind, (cutAt before p).isSome⟩ := by
  unfold cutReply
  simp only [h, cutStop, cutAt_position h]

theorem cutKindOf_named {n : Nat} {k : CutKind} (h : (n, k) ∈ [(0, CutKind.sheet), (1, CutKind.trim)]) : cutKindOf n = some k := by
  simp only [List.mem_cons, Prod.mk.injEq, List.not_mem_nil, or_false] at h
  rcases h with ⟨rfl, rfl⟩ | ⟨rfl, rfl⟩ <;> rfl

theorem takeSheetCommit_sequence {sel tag lead trail guard : Nat} {s : State} (h : ∀ p q, s.mpc.plan ≠ .to p q) :
    takeSheetCommit sel tag lead trail guard s = refuse .sequence (dropPlan s) := by
  unfold takeSheetCommit
  split
  · rename_i p q hp
    exact absurd hp (h p q)
  · rfl

theorem takeSheetCommit_plan {sel tag lead trail guard p q : Nat} {o : CutOwner} {k l : CutKind} {s : State}
    (hp : s.mpc.plan = .to p q) (ho : cutOwnerOf sel tag = some o) (hk : cutKindOf lead = some k) (hl : cutKindOf trail = some l) :
    takeSheetCommit sel tag lead trail guard s = commitSheet p q o k l (guard != 0) (dropPlan s) := by
  simp only [takeSheetCommit, hp, ho, hk, hl]

/-- R104 tests 3, 4 and 7: the account, and the check that a guard names. -/
structure AccountPasses (s : State) (o : CutOwner) (guard : Bool) (check : Option Nat) : Prop where
  named : o = .house ∨ (ownerJob s o).isNone = false
  stays : jobLeaving (ownerJob s o) = false
  guarded : guard = true → (jobCheck (ownerJob s o)).isNone = false
  check : check = if guard then jobCheck (ownerJob s o) else none

theorem AccountPasses.house (s : State) : AccountPasses s .house false none := ⟨.inl rfl, rfl, nofun, rfl⟩

theorem AccountPasses.job {s : State} {tag guard : Nat} {j : Job} {check : Option Nat} (hj : jobOf s tag = some j)
    (ha : j.state ≠ .aborting) (hc : j.state ≠ .closing)
    (hg : guard = 0 ∧ check = none ∨ guard ≠ 0 ∧ check = j.checkId ∧ j.checkId ≠ none) :
    AccountPasses s (.job tag) (guard != 0) check := by
  refine ⟨.inr (by simp [ownerJob, hj]), by simp [ownerJob, hj, jobLeaving, ha, hc], fun h => ?_, ?_⟩
  · rcases hg with ⟨rfl, -⟩ | ⟨-, -, hg⟩
    · cases h
    · simpa [jobCheck, ownerJob, hj, Option.isSome_iff_ne_none] using hg
  · rcases hg with ⟨rfl, rfl⟩ | ⟨hg, rfl, -⟩
    · rfl
    · simp [hg, jobCheck, ownerJob, hj]

section
variable {s : State} {p q : Nat} {o : CutOwner} {k l : CutKind} {guard : Bool} {check : Option Nat} {r : Roll}
  (ha : AccountPasses s o guard check) (hr : s.mpc.roll = some r) (hq : p + 500 ≤ q)
include ha hr hq

/-- R104: the tests from 8 on, where those before them are passed. -/
theorem commitSheet_tested : commitSheet p q o k l guard s =
    if p + s.mpc.cOff ≤ r.pos then refuse .late s
    else if guard = true ∧ guardClash s q (jobCheck (ownerJob s o)) = true then refuse .range s
    else if ownersFull s p o = true ∨ ownersFull s q o = true ∨ cutsFree s < newCuts s p q then refuse .full s
    else
      let t := commitPlan p q o k l check s
      accept (.committed (cutReply s t p) (cutReply s t q) (cutsFree t)) t := by
  obtain ⟨hnamed, hstays, hguarded, rfl⟩ := ha
  unfold commitSheet
  dsimp only
  rw [if_neg (by rintro ⟨h1, h2⟩; rcases hnamed with h | h <;> simp_all), if_neg (by simp [hstays]), if_neg (by simp [hr]),
    if_neg (Nat.not_lt.2 hq), if_neg (by rintro ⟨h1, h2⟩; simp [hguarded h1] at h2), pos_of_roll hr]

theorem commitSheet_late (h : p + s.mpc.cOff ≤ r.pos) : commitSheet p q o k l guard s = refuse .late s := by
  rw [commitSheet_tested ha hr hq, if_pos h]

theorem commitSheet_ok (h : r.pos < p + s.mpc.cOff)
    (howners : ∀ e, cutAt s p = some e ∨ cutAt s q = some e → e.owners.length < 2 ∨ e.owners.contains o = true)
    (hguard : ∀ e, cutAt s q = some e → guard = true → e.guard = none ∨ e.guard = check)
    (hroom : (cutAt s p).isNone.toNat + (cutAt s q).isNone.toNat ≤ 32 - s.mpc.cuts.length) :
    commitSheet p q o k l guard s = let t := commitPlan p q o k l check s
      accept (.committed (cutReply s t p) (cutReply s t q) (cutsFree t)) t := by
  have hclash : ¬(guard = true ∧ guardClash s q (jobCheck (ownerJob s o)) = true) := by
    rintro ⟨hg, hc⟩
    have hcheck := ha.check
    rw [if_pos hg] at hcheck
    rw [← hcheck] at hc
    unfold guardClash at hc
    split at hc
    · rename_i e he
      rcases hguard e he hg with h | h <;> simp [h] at hc
    · cases hc
  have hfull : ∀ x, (∀ e, cutAt s x = some e → e.owners.length < 2 ∨ e.owners.contains o = true) → ¬ownersFull s x o = true := by
    intro x hx hf
    unfold ownersFull at hf
    split at hf
    · rename_i e he
      have hany : e.owners.any (fun w => w == o) = e.owners.contains o := List.any_beq'
      rw [hany, Bool.and_eq_true, decide_eq_true_eq, Bool.not_eq_true'] at hf
      rcases hx e he with h | h
      · exact absurd hf.1 (Nat.not_le.2 h)
      · rw [h] at hf
        cases hf.2
    · cases hf
  rw [commitSheet_tested ha hr hq, if_neg (Nat.not_le.2 h), if_neg hclash, if_neg]
  rintro (hp | hq | hlt)
  · exact hfull p (fun e he => howners e (.inl he)) hp
  · exact hfull q (fun e he => howners e (.inr he)) hq
  · exact absurd hroom (Nat.not_le.2 hlt)

end

end Sys2Proof.Machine

open Sys2Proof Sys2Proof.Machine

/-- Settles O41: what stands at a position after two placements, and the tests of the commit in their order. -/
theorem sheetCommitPlacesBothCuts : Obligations.SheetCommitPlacesBothCuts := by
  intro ft s
  have hrefuse : ∀ {sel tag lead trail guard c},
      takeSheetCommit sel tag lead trail guard (begin s) = refuse c (dropPlan (begin s)) →
      exec (.sheetCommit ft sel tag lead trail guard) s
        = .next (answer 0x1B ft c false .none { s with out := [], mpc.plan := .empty }) := fun h =>
    congrArg Host.Outcome.next ((congrArg (form _ ft false) h).trans (form_refuse ..))
  refine ⟨fun sel tag lead trail guard h => hrefuse (takeSheetCommit_sequence h), ?_⟩
  intro p q sel tag lead trail guard r o k l check hplan hr hpq hk hl haccount
  let y : State := dropPlan (begin s)
  have hpass : cutOwnerOf sel tag = some o ∧ AccountPasses y o (guard != 0) check := by
    rcases haccount with ⟨rfl, rfl, rfl, rfl⟩ | ⟨rfl, h1, h2, rfl, j, hj, ha, hc, hg⟩
    · exact ⟨rfl, .house y⟩
    · exact ⟨if_neg (by omega), .job hj ha hc hg⟩
  obtain ⟨howner, hpass⟩ := hpass
  have htake : takeSheetCommit sel tag lead trail guard (begin s) = commitSheet p q o k l (guard != 0) y :=
    takeSheetCommit_plan hplan howner (cutKindOf_named hk) (cutKindOf_named hl)
  refine ⟨fun h => hrefuse (htake.trans (commitSheet_late hpass hr hpq h)), fun h howners hguard hroom => ?_⟩
  intro placed shown
  have hok := commitSheet_ok (s := y) (k := k) (l := l) hpass hr hpq h howners (fun e he hg => hguard e he (by simpa using hg)) hroom
  obtain ⟨cuts, run, hcommit, hp, hq, hothers, hstill⟩ := commitPlan_eq (p := p) (q := q) (by omega) o k l check y
  have hplaced : ∀ x kind g, placedCut y o x kind g = placed x kind g := fun x kind g => placedCut_eq ..
  rw [hplaced] at hp hq
  refine ⟨cuts, run, ?_, hp, hq, hothers, hstill⟩
  rw [hcommit] at hok
  dsimp only at hok
  rw [cutReply_eq hp, cutReply_eq hq] at hok
  exact congrArg Host.Outcome.next ((congrArg (form _ ft false) (htake.trans hok)).trans (form_accept ..))

end

section
/-! The cover: the pause of the feed and its end (O55). -/

namespace Sys2Proof.Machine

/-! ### COVER_OPEN and COVER_CLOSE (R96, R184) -/

theorem stopFeed_moving {s : State} {a : Advance} {g : Segment} (hx : s.mpc.exec = .moving a g) (phase : SegPhase) :
    stopFeed phase s = { s with mpc.exec := .moving a { g with phase := phase }, mpc.settle := some 100 } := by
  simp only [stopFeed, hx, Config.settleTime]

theorem pauseFeed_idle {s : State} (h : ¬∃ a g, s.mpc.exec = .moving a g ∧ g.phase = .driving) : pauseFeed s = s :=
  if_neg (mt feedDriven_iff.1 h)

theorem pauseFeed_driven {s : State} {a : Advance} {g : Segment} (hx : s.mpc.exec = .moving a g) (hg : g.phase = .driving) :
    pauseFeed s = { s with mpc.exec := .moving a { g with phase := .paused }, mpc.settle := some 100 } :=
  (if_pos (feedDriven_iff.2 ⟨a, g, hx, hg⟩)).trans (stopFeed_moving hx .paused)

/-! ### The end of a pause (R96) -/

theorem closeWindow_eq (s : State) : closeWindow s = { s with
    mpc.settle := none
    mpc.moved := if s.mpc.settle.isSome && s.mpc.resetWindow then 0 else s.mpc.moved
    mpc.resetWindow := s.mpc.settle.isNone && s.mpc.resetWindow } := by
  unfold closeWindow
  cases h : s.mpc.settle with
  | none => exact congrArg (fun w => { s with mpc.settle := w }) h
  | some n => rfl

theorem endPause_idle {s : State} (h : ∀ a g, s.mpc.exec = .moving a g → g.phase ≠ .paused) : endPause s = s := by
  unfold endPause
  split
  · rename_i a g hx
    exact if_neg (h a g hx)
  · rfl

section
variable {s : State} {a : Advance} {g : Segment} (hx : s.mpc.exec = .moving a g) (hg : g.phase = .paused)
include hx hg

theorem endPause_short (hp : pos s < g.segEnd) :
    endPause s = closeWindow (setExec (.moving a { g with phase := .driving }) s) := by
  simp only [endPause, hx, hg, if_true, hp]

theorem endPause_inWindow (hp : ¬pos s < g.segEnd) (hs : s.mpc.settle ≠ none) :
    endPause s = setExec (.moving a { g with phase := .settling }) s := by
  simp only [endPause, hx, hg, if_true, if_neg hp, Option.isSome_iff_ne_none.2 hs]

theorem endPause_atEnd (hp : ¬pos s < g.segEnd) (hs : s.mpc.settle = none) : endPause s = runOn a s := by
  simp only [endPause, hx, hg, if_true, if_neg hp, hs, Option.isSome_none, Bool.false_eq_true, if_false]

end

/-! ### The stroke condition taken again (R114, R118) -/

theorem retestStroke_idle {s : State} (h : ∀ a p, s.mpc.exec ≠ .atStop a (.cut p)) : retestStroke s = s := by
  unfold retestStroke
  split
  · rename_i a p hx
    exact absurd hx (h a p)
  · rfl

theorem retestStroke_atStop {s : State} {a : Advance} {p : Nat} (hx : s.mpc.exec = .atStop a (.cut p)) :
    retestStroke s = strokeTry p s := by
  simp only [retestStroke, hx]

theorem strokeTry_notDue {s : State} {p : Nat} {e : CutEntry} (he : cutAt s p = some e) (h : e.state ≠ .due) : strokeTry p s = s := by
  unfold strokeTry strokeCondition
  rw [if_neg]
  simp [he, h]

/-! ### COVER_SETTLE_EXPIRY (R184) -/

theorem doCoverSettleExpiry_idle {s : State} (h : ∀ n, s.lc.cover ≠ .settling n) : doCoverSettleExpiry s = begin s := by
  unfold doCoverSettleExpiry coverSettling
  cases hc : s.lc.cover with
  | settling n => exact absurd hc (h n)
  | opened | settled => rfl

theorem doCoverSettleExpiry_runs {s : State} {n : Nat} (h : s.lc.cover = .settling n) :
    doCoverSettleExpiry s = settle (retestStroke (endPause { begin s with lc.cover := .settled })) := by
  simp only [doCoverSettleExpiry, coverSettling, h, if_true]

end Sys2Proof.Machine

open Sys2Proof Sys2Proof.Machine

/-- Settles O55: the pause of the feed, and at the end of the settle timer the pause's end and the stroke condition, each by what the executor does. -/
theorem coverPausesAndSettles : Obligations.CoverPausesAndSettles := by
  intro s now driven
  refine ⟨fun h => congrArg Host.Outcome.next (if_pos h), fun h => ?_, fun h => congrArg Host.Outcome.next (if_neg h),
    fun h => congrArg Host.Outcome.next (if_pos h), fun h => congrArg Host.Outcome.next (doCoverSettleExpiry_idle h), fun n hn => ?_⟩
  · let z : State := raise .coverChanged none { now with lc.cover := .opened }
    have hz : z.mpc = s.mpc := raise_mpc ..
    refine ⟨settle (pauseFeed z), congrArg Host.Outcome.next (if_neg h), fun hd => follows_iff ?_, fun a g hx hg => follows_iff ?_⟩
    · rw [pauseFeed_idle]
      rwa [hz]
    · rw [pauseFeed_driven (by rw [hz, hx]) hg]
      simp only [z, raise_eq_lc]
  · refine ⟨_, congrArg Host.Outcome.next (doCoverSettleExpiry_runs hn), ?_⟩
    intro x
    refine ⟨fun hp hs => ?_, fun a g r hx hg hr hp => ?_, fun a g r hx hg hr hp => ⟨fun hw => ?_, fun hw hf ht => ?_⟩,
      fun a p e hx he => ⟨fun hd hg hc hh => ?_, fun h => ?_⟩⟩
    all_goals refine follows_iff (congrArg settle (?_ : retestStroke (endPause x) = _))
    · rw [endPause_idle (s := x) hp]
      exact retestStroke_idle hs
    · rw [endPause_short (s := x) hx hg (by rwa [pos_of_roll (s := x) hr]), closeWindow_eq]
      exact retestStroke_idle (by nofun)
    · rw [endPause_inWindow (s := x) hx hg (by rwa [pos_of_roll (s := x) hr, Nat.not_lt]) hw]
      exact retestStroke_idle (by nofun)
    · rw [endPause_atEnd (s := x) hx hg (by rwa [pos_of_roll (s := x) hr, Nat.not_lt]) hw,
        runOn_moves (y := x) (s := s) rfl rfl rfl hr hf ht hw]
      exact retestStroke_idle (by nofun)
    · rw [endPause_idle (s := x) (fun b g hb => nomatch hx.symm.trans hb), retestStroke_atStop (s := x) hx]
      exact strokeTry_starts (s := x) hx he hd (guardCheck_none (fun id hid => nomatch hg.symm.trans hid)) hc rfl hh
    · rw [endPause_idle (s := x) (fun b g hb => nomatch hx.symm.trans hb), retestStroke_atStop (s := x) hx]
      exact h.elim (strokeTry_notDue (s := x) he) (fun hc => strokeTry_waits (s := x) (.inl hc))

end

section
/-! HELLO, STATUS and RESET_SOFT, and the two requests that move the sheet plan (O22, O40). -/

namespace Sys2Proof.Machine

/-! ### The sheet plan (R102, R103) -/

/-- A plan request is taken on the state as it stands, and its reply carries the mark that its rule sets. -/
theorem carryKeep_eq (kind : Nat) (ft : Byte) (f : State → Taken) (s : State) :
    carryKeep kind ft f s = answer kind ft (f (begin s)).code (f (begin s)).mark (f (begin s)).body (f (begin s)).state := by
  unfold carryKeep form answer
  rw [Bool.false_or]

theorem takeSheetFrom_ok {position : Nat} {s : State} (h : position ≤ 2000000) : takeSheetFrom position s =
    { state := { s with mpc.plan := .from position }, code := .ok, body := .cutStop (position + s.mpc.cOff), mark := planMark s } := by
  rw [← planHeld_eq]
  exact if_neg (Nat.not_lt.2 h)

theorem takeSheetFrom_range {position : Nat} {s : State} (h : 2000000 < position) :
    takeSheetFrom position s = refusePlan .range (planMark s) s := by
  rw [← planHeld_eq]
  exact if_pos h

theorem takeSheetTo_ok {p position : Nat} {s : State} (hp : s.mpc.plan = .from p) (h : position ≤ 2000000) :
    takeSheetTo position s = accept (.cutStop (position + s.mpc.cOff)) { s with mpc.plan := .to p position } := by
  simp only [takeSheetTo, hp]
  exact if_neg (Nat.not_lt.2 h)

theorem takeSheetTo_range {p position : Nat} {s : State} (hp : s.mpc.plan = .from p) (h : 2000000 < position) :
    takeSheetTo position s = refusePlan .range true s := by
  simp only [takeSheetTo, hp]
  exact if_pos h

theorem takeSheetTo_sequence {position : Nat} {s : State} (hp : ∀ p, s.mpc.plan ≠ .from p) :
    takeSheetTo position s = refusePlan .sequence false s := by
  unfold takeSheetTo
  split
  · rename_i p h
    exact absurd h (hp p)
  · rfl

end Sys2Proof.Machine

open Sys2Proof Sys2Proof.Machine

/-- Settles O22: each of the three requests is accepted on every state. -/
theorem helloStatusAndResetSoftAnswer : Obligations.HelloStatusAndResetSoftAnswer := by
  intro ft s
  refine ⟨congrArg Host.Outcome.next (carryOut_of_accept rfl), ?_, congrArg Host.Outcome.next (carryOut_of_accept rfl)⟩
  exact congrArg Host.Outcome.next (carryKeep_eq ..)

/-- Settles O40, by the state of the plan and the range of the position. -/
theorem sheetFromAndSheetToMoveThePlan : Obligations.SheetFromAndSheetToMoveThePlan := by
  intro ft position s having
  have hfrom : exec (.sheetFrom ft position) s = .next (carryKeep 0x19 ft (takeSheetFrom position) s) := rfl
  have hto : exec (.sheetTo ft position) s = .next (carryKeep 0x1A ft (takeSheetTo position) s) := rfl
  rw [hfrom, hto, carryKeep_eq, carryKeep_eq]
  refine ⟨fun h => ?_, fun h => ?_, ?_⟩
  · rw [takeSheetFrom_ok h]; rfl
  · rw [takeSheetFrom_range h]; rfl
  · split
    · rename_i p hp
      split
      · rename_i h
        rw [takeSheetTo_ok (s := begin s) hp h]; rfl
      · rename_i h
        rw [takeSheetTo_range (s := begin s) hp (Nat.not_le.1 h)]; rfl
    · rename_i hp
      rw [takeSheetTo_sequence (s := begin s) hp]; rfl

end

section
/-! Every request: one reply, what a refusal changes, and the interruption of a sheet plan (O13, O14). -/

namespace Sys2Proof.Machine

/-- A taking that `Plain` describes: where it is refused it carries no fields and leaves the state as it was. -/
theorem Taken.Plain.of_refused {x : State} {t : Taken} (h : t.Plain x) (hc : t.code ≠ .ok) : t.body = .none ∧ t.state = x :=
  ⟨congrArg Taken.body (h.refused hc), congrArg Taken.state (h.refused hc)⟩

/-! ### The rules of the plan requests (R102 to R104) -/

/-- What the rule of a plan request gives on `s`: the formed replies stay, and a refusal carries no fields and empties the plan alone. -/
structure Taken.PlanRule (s : State) (t : Taken) : Prop where
  formed : t.state.lc.formed = s.lc.formed
  refused : t.code ≠ .ok → t.body = .none ∧ t.state = dropPlan s

/-- R105: the placing of both cuts moves the cut list and the executor alone. -/
theorem commitPlan_moves (p q : Nat) (o : CutOwner) (k l : CutKind) (g : Option Nat) (s : State) :
    ∃ (cuts : List CutEntry) (run : Exec), commitPlan p q o k l g s = { s with mpc.cuts := cuts, mpc.exec := run } := by
  obtain ⟨lead, hlead⟩ := placeCut_cuts p o k none s
  obtain ⟨cuts, htrail⟩ := placeCut_cuts q o l g { s with mpc.cuts := lead }
  obtain ⟨run, hrun, -⟩ := reviseSegment_exec { s with mpc.cuts := cuts }
  exact ⟨cuts, run, by rw [commitPlan, hlead, htrail, hrun]⟩

theorem commitPlan_keeps (p q : Nat) (o : CutOwner) (k l : CutKind) (g : Option Nat) (s : State) :
    (commitPlan p q o k l g s).lc.formed = s.lc.formed ∧ (commitPlan p q o k l g s).mpc.plan = s.mpc.plan := by
  obtain ⟨cuts, run, hmoves⟩ := commitPlan_moves p q o k l g s
  rw [hmoves]
  exact ⟨rfl, rfl⟩

/-- R191: a test that refuses, before a taking that `Plain` describes. -/
theorem Taken.Plain.tested {x : State} {t : Taken} {test : Prop} [Decidable test] (c : Code) (h : t.Plain x) :
    Plain x (if test then Machine.refuse c x else t) := by
  split
  · exact refuse c x
  · exact h

theorem Taken.Plain.commitSheet (p q : Nat) (o : CutOwner) (k l : CutKind) (g : Bool) (s : State) :
    Plain s (commitSheet p q o k l g s) := by
  unfold Machine.commitSheet
  iterate 8 apply tested
  exact accept _ (commitPlan_keeps ..)

namespace Taken.PlanRule

variable (s : State)

theorem refusePlan (c : Code) (m : Bool) : PlanRule s (refusePlan c m s) := ⟨rfl, fun _ => ⟨rfl, rfl⟩⟩

theorem of_plain {t : Taken} (h : t.Plain (dropPlan s)) : PlanRule s t := ⟨h.formed, h.of_refused⟩

theorem takeSheetFrom (position : Nat) : PlanRule s (takeSheetFrom position s) := by
  unfold Machine.takeSheetFrom
  split
  · exact refusePlan ..
  · exact ⟨rfl, fun h => absurd rfl h⟩

theorem takeSheetTo (position : Nat) : PlanRule s (takeSheetTo position s) := by
  unfold Machine.takeSheetTo
  split
  · split
    · exact refusePlan ..
    · exact ⟨rfl, fun h => absurd rfl h⟩
  · exact refusePlan ..

theorem takeSheetCommit (sel tag lead trail guard : Nat) : PlanRule s (takeSheetCommit sel tag lead trail guard s) := by
  unfold Machine.takeSheetCommit
  split
  · split
    · exact of_plain s (.commitSheet ..)
    · exact of_plain s (.refuse ..)
  · exact of_plain s (.refuse ..)

end Taken.PlanRule

/-! ### Every request (R106, R189 step 3, R191) -/

/-- R189 step 3: the command `i` with the frame `f` is carried out on `s` as the taking `t` says; the reply carries a mark of the carrying out or of the rule. -/
structure CarriedOut (i : Instr) (f : Frame) (s : State) (mark : Bool) (t : Taken) : Prop where
  next : ∃ kind, f.kind = BitVec.ofNat 8 kind ∧ exec i s = .next (form kind f.tag mark t)
  formed : t.state.lc.formed = s.lc.formed
  refused : t.code ≠ .ok → t.body = .none ∧ t.state = cleared s
  kept : actsOnPlan i = false → keepsPlan i = true → t.state.mpc.plan = s.mpc.plan ∧ (mark || t.mark) = false
  emptied : actsOnPlan i = false → keepsPlan i = false → t.state.mpc.plan = .empty ∧ (mark || t.mark) = planMark s

namespace CarriedOut

variable {i : Instr} {s : State} {kind : Nat} {ft : Byte} {l : List Byte} {take : State → Taken}

/-- R106: a request that interrupts a plan. -/
theorem interrupting (hi : exec i s = .next (carryOut kind ft take s)) (hk : keepsPlan i = false)
    (ht : (take (cleared s)).Plain (cleared s)) :
    CarriedOut i ⟨BitVec.ofNat 8 kind, ft, l⟩ s (planMark s) (take (cleared s)) where
  next := ⟨kind, rfl, hi.trans (congrArg _ (carryOut_eq ..))⟩
  formed := ht.formed
  refused := ht.of_refused
  kept _ h := nomatch hk.symm.trans h
  emptied _ _ := ⟨ht.plan, by rw [ht.mark, Bool.or_false]⟩

/-- R106: a request that a plan is kept across is never refused. -/
theorem keeping (hi : exec i s = .next (carryKeep kind ft take s)) (hk : keepsPlan i = true)
    (ht : (take (begin s)).Plain (begin s)) (hok : (take (begin s)).code = .ok) :
    CarriedOut i ⟨BitVec.ofNat 8 kind, ft, l⟩ s false (take (begin s)) where
  next := ⟨kind, rfl, hi⟩
  formed := ht.formed
  refused h := absurd hok h
  kept _ _ := ⟨ht.plan, ht.mark⟩
  emptied _ h := nomatch hk.symm.trans h

/-- R102 to R104: a request that acts on the plan itself. -/
theorem planning (hi : exec i s = .next (carryKeep kind ft take s)) (ha : actsOnPlan i = true)
    (ht : (take (begin s)).PlanRule (begin s)) :
    CarriedOut i ⟨BitVec.ofNat 8 kind, ft, l⟩ s false (take (begin s)) where
  next := ⟨kind, rfl, hi⟩
  formed := ht.formed
  refused := ht.refused
  kept h := nomatch ha.symm.trans h
  emptied h := nomatch ha.symm.trans h

end CarriedOut

/-- How each request is carried out: by the rule of the plan requests, with the plan kept, or with the plan interrupted. -/
theorem request_carriedOut {i : Instr} {f : Frame} (s : State) (h : encodeRequest i = some f) :
    ∃ mark t, CarriedOut i f s mark t := by
  cases i with
  | hello => cases h; exact ⟨_, _, .interrupting rfl rfl (.accept _ ⟨rfl, rfl⟩)⟩
  | resetSoft => cases h; exact ⟨_, _, .interrupting rfl rfl (.accept _ ⟨rfl, rfl⟩)⟩
  | resume => cases h; exact ⟨_, _, .interrupting rfl rfl (.takeResume ..)⟩
  | jobOpen => cases h; exact ⟨_, _, .interrupting rfl rfl (.takeJobOpen ..)⟩
  | swathPut => cases h; exact ⟨_, _, .interrupting rfl rfl (.takeSwathPut ..)⟩
  | jobEnd => cases h; exact ⟨_, _, .interrupting rfl rfl (.takeJobEnd ..)⟩
  | jobAbort => cases h; exact ⟨_, _, .interrupting rfl rfl (.takeJobAbort ..)⟩
  | queueMark => cases h; exact ⟨_, _, .interrupting rfl rfl (.takeQueueMark ..)⟩
  | chanSet => cases h; exact ⟨_, _, .interrupting rfl rfl (.takeChanSet ..)⟩
  | chanOn => cases h; exact ⟨_, _, .interrupting rfl rfl (.takeChanOn ..)⟩
  | chanOff => cases h; exact ⟨_, _, .interrupting rfl rfl (.takeChanOff ..)⟩
  | chanGet => cases h; exact ⟨_, _, .interrupting rfl rfl (.takeChanGet ..)⟩
  | refillAsk => cases h; exact ⟨_, _, .interrupting rfl rfl (.takeRefillAsk ..)⟩
  | pumpSet => cases h; exact ⟨_, _, .interrupting rfl rfl (.takePumpSet ..)⟩
  | bayClear => cases h; exact ⟨_, _, .interrupting rfl rfl (.takeBayClear ..)⟩
  | rollLoad => cases h; exact ⟨_, _, .interrupting rfl rfl (.takeRollLoad ..)⟩
  | rollUnload => cases h; exact ⟨_, _, .interrupting rfl rfl (.takeRollUnload ..)⟩
  | feed => cases h; exact ⟨_, _, .interrupting rfl rfl (.takeFeed ..)⟩
  | feedRetry => cases h; exact ⟨_, _, .interrupting rfl rfl (.takeFeedRetry ..)⟩
  | cutCancel => cases h; exact ⟨_, _, .interrupting rfl rfl (.takeCutCancel ..)⟩
  | cutterClear => cases h; exact ⟨_, _, .interrupting rfl rfl (.takeCutterClear ..)⟩
  | geometrySet => cases h; exact ⟨_, _, .interrupting rfl rfl (.takeGeometrySet ..)⟩
  | patchsetLoad => cases h; exact ⟨_, _, .interrupting rfl rfl (.takePatchsetLoad ..)⟩
  | gainSet => cases h; exact ⟨_, _, .interrupting rfl rfl (.takeGainSet ..)⟩
  | ringRetain => cases h; exact ⟨_, _, .interrupting rfl rfl (.takeRingRetain ..)⟩
  | ringRead => cases h; exact ⟨_, _, .interrupting rfl rfl (.takeRingRead ..)⟩
  | ringRelease => cases h; exact ⟨_, _, .interrupting rfl rfl (.takeRingRelease ..)⟩
  | checkSet => cases h; exact ⟨_, _, .interrupting rfl rfl (.takeCheckSet ..)⟩
  | checkGet => cases h; exact ⟨_, _, .interrupting rfl rfl (.takeCheckGet ..)⟩
  | quoteOpen => cases h; exact ⟨_, _, .interrupting rfl rfl (.takeQuoteOpen ..)⟩
  | quoteSwath => cases h; exact ⟨_, _, .interrupting rfl rfl (.takeQuoteSwath ..)⟩
  | quoteClose => cases h; exact ⟨_, _, .interrupting rfl rfl (.takeQuoteClose ..)⟩
  | houseClose => cases h; exact ⟨_, _, .interrupting rfl rfl (.takeHouseClose ..)⟩
  | priceStage => cases h; exact ⟨_, _, .interrupting rfl rfl (.takePriceStage ..)⟩
  | priceCommit => cases h; exact ⟨_, _, .interrupting rfl rfl (.takePriceCommit ..)⟩
  | priceGet => cases h; exact ⟨_, _, .interrupting rfl rfl (.takePriceGet ..)⟩
  | accountGet => cases h; exact ⟨_, _, .interrupting rfl rfl (.takeAccountGet ..)⟩
  | recordTake => cases h; exact ⟨_, _, .interrupting rfl rfl (.takeRecordTake ..)⟩
  | storeSave => cases h; exact ⟨_, _, .interrupting rfl rfl (.takeStoreSave ..)⟩
  | status => cases h; exact ⟨_, _, .keeping rfl rfl (.accept _ ⟨rfl, rfl⟩) rfl⟩
  | readFaults => cases h; exact ⟨_, _, .keeping rfl rfl (.accept _ ⟨rfl, rfl⟩) rfl⟩
  | readHolds => cases h; exact ⟨_, _, .keeping rfl rfl (.accept _ ⟨rfl, rfl⟩) rfl⟩
  | readProgress => cases h; exact ⟨_, _, .keeping rfl rfl (.accept _ ⟨rfl, rfl⟩) rfl⟩
  | readChanges => cases h; exact ⟨_, _, .keeping rfl rfl (.accept _ ⟨rfl, rfl⟩) rfl⟩
  | sheetFrom => cases h; exact ⟨_, _, .planning rfl rfl (.takeSheetFrom ..)⟩
  | sheetTo => cases h; exact ⟨_, _, .planning rfl rfl (.takeSheetTo ..)⟩
  | sheetCommit => cases h; exact ⟨_, _, .planning rfl rfl (.takeSheetCommit ..)⟩
  | _ => cases h

end Sys2Proof.Machine

open Sys2Proof Sys2Proof.Machine

/-- Settles O13: the reply that `form` makes, and what `CarriedOut.refused` says of a refusal. -/
theorem requestFormsOneReplyAndRefusalChangesNothing : Obligations.RequestFormsOneReplyAndRefusalChangesNothing := by
  intro i f s hf
  obtain ⟨mark, t, h⟩ := request_carriedOut s hf
  obtain ⟨kind, hkind, hexec⟩ := h.next
  let r : Reply := ⟨replyKind kind, f.tag, t.code, mark || t.mark, t.body⟩
  have hkind128 : r.kind = f.kind + 128#8 := by rw [hkind]; exact BitVec.ofNat_add ..
  refine ⟨form kind f.tag mark t, r, hexec, congrArg (· ++ [r]) h.formed, hkind128, rfl, fun hcode => ?_⟩
  obtain ⟨hbody, hstate⟩ := h.refused hcode
  exact ⟨hbody, congrArg (fun x : State => { x with lc.formed := x.lc.formed ++ [r] }) hstate⟩

/-- Settles O14 by the two cases that `CarriedOut` tells apart. -/
theorem requestInterruptsSheetPlan : Obligations.RequestInterruptsSheetPlan := by
  intro i s t hreq hact hexec
  obtain ⟨f, hf⟩ := Option.isSome_iff_exists.1 hreq
  obtain ⟨mark, taken, h⟩ := request_carriedOut s hf
  obtain ⟨kind, -, hnext⟩ := h.next
  obtain rfl : t = form kind f.tag mark taken := Host.Outcome.next.inj (hexec.symm.trans hnext)
  exact ⟨⟨replyKind kind, f.tag, taken.code, mark || taken.mark, taken.body⟩, congrArg (· ++ [_]) h.formed, h.kept hact, h.emptied hact⟩

end

section
/-! CUT_CANCEL, CUTTER_CLEAR and the stroke (O42, O54). -/

namespace Sys2Proof.Machine

/-! ### A cut entry leaves the list (R107) -/

/-- R107: with no segment under way an entry leaves the cut list, and nothing else moves. -/
theorem removeCut_still {s : State} (p : Nat) (h : ∀ a g, s.mpc.exec ≠ .moving a g) :
    removeCut p s = { s with mpc.cuts := s.mpc.cuts.filter (fun e => e.position != p) } :=
  reviseSegment_still _ h

theorem stopFree_of_noStop {s : State} (h : s.mpc.exec = .idle ∨ ∃ a, s.mpc.exec = .stalled a) : stopFree s = false := by
  unfold stopFree
  rcases h with h | ⟨a, h⟩ <;> simp only [h]

/-- R107: an entry is removed while the executor stands at no stop. -/
theorem removeCut_noStop {s : State} (p : Nat) (hx : s.mpc.exec = .idle ∨ ∃ a, s.mpc.exec = .stalled a) :
    resolveStop (removeCut p s) = { s with mpc.cuts := s.mpc.cuts.filter (fun e => e.position != p) } := by
  rw [removeCut_still p (by rcases hx with h | ⟨a, h⟩ <;> simp [h])]
  exact resolveStop_idle (stopFree_of_noStop hx)

/-- R92: the executor goes on from the stop of an entry that has left the list. -/
theorem resolveStop_cutGone {s : State} {a : Advance} {p : Nat} (hx : s.mpc.exec = .atStop a (.cut p))
    (hp : ∀ e ∈ s.mpc.cuts, e.position ≠ p) : resolveStop s = runOn a s := by
  have hgone : inStopList s (.cut p) = false := by
    rw [inStopList_cut, List.any_eq_false]
    exact fun e he => by simpa using hp e he
  simp only [resolveStop, hx, hgone, Bool.false_eq_true, if_false]

/-! ### CUT_CANCEL (R108) -/

theorem takeCutCancel_none {p : Nat} {s : State} (h : cutAt s p = none) : takeCutCancel p s = refuse .range s := by
  unfold takeCutCancel
  rw [h]
  exact ite_self _

section
variable {p : Nat} {e : CutEntry} {s : State} (hp : p ≤ 2000000) (he : cutAt s p = some e)
include hp he

/-- R108: the two tests of the entry. -/
theorem takeCutCancel_tested : takeCutCancel p s =
    if e.state = .cutting then refuse .notNow s
    else if e.state = .due ∧ s.mpc.cutter ≠ .jammed then refuse .notNow s
    else (accept (.cancelled e) (resolveStop (removeCut p s))).settled := by
  simp only [takeCutCancel, Config.positionMax, Nat.not_lt.2 hp, if_false, he]

theorem takeCutCancel_notNow (h : e.state = .cutting ∨ e.state = .due ∧ s.mpc.cutter ≠ .jammed) :
    takeCutCancel p s = refuse .notNow s := by
  rw [takeCutCancel_tested hp he]
  rcases h with h | h
  · exact if_pos h
  · rw [if_pos h]
    exact ite_self _

theorem takeCutCancel_ok (hx : s.mpc.exec = .idle ∨ ∃ a, s.mpc.exec = .stalled a)
    (h : e.state = .planned ∨ e.state = .due ∧ s.mpc.cutter = .jammed) : takeCutCancel p s =
      (accept (.cancelled e) { s with mpc.cuts := s.mpc.cuts.filter (fun e => e.position != p) }).settled := by
  have hcutting : ¬e.state = .cutting := by rcases h with h | ⟨h, -⟩ <;> simp [h]
  have hdue : ¬(e.state = .due ∧ s.mpc.cutter ≠ .jammed) := by rcases h with h | ⟨-, h⟩ <;> simp [h]
  rw [takeCutCancel_tested hp he, if_neg hcutting, if_neg hdue, removeCut_noStop p hx]

end

/-! ### CUTTER_CLEAR (R117) -/

theorem retestCut_elsewhere {s : State} (h : ∀ a p, s.mpc.exec ≠ .atStop a (.cut p)) : retestCut s = s := by
  unfold retestCut
  split
  · rename_i a p hx
    exact absurd hx (h a p)
  · rfl

/-- R114, R117: the stroke starts at the DUE and unguarded entry of the executor's stop, which lies in no strip span. -/
theorem retestCut_strokes {s : State} {a : Advance} {p : Nat} {e : CutEntry} (hx : s.mpc.exec = .atStop a (.cut p))
    (he : cutAt s p = some e) (hd : e.state = .due) (hg : e.guard = none) (hs : skipTest s p = false)
    (h1 : s.mpc.cutter = .ready) (h2 : s.lc.cover = .settled) (h3 : s.lc.hold = .none) : retestCut s = startStroke p s := by
  have hunguarded : guardCheck s e = none := guardCheck_none (fun id hid => nomatch hg.symm.trans hid)
  have hstand : setExec (.atStop a (.cut p)) s = s := by rw [← hx]; rfl
  simp only [retestCut, hx, he, hd, if_true, hs, Bool.false_eq_true, if_false]
  rw [hstand, guardTest_unguarded he hunguarded, strokeTry_starts hx he hd hunguarded h1 h2 h3]

theorem takeCutterClear_held {s : State} (h : s.lc.hold ≠ .none) : takeCutterClear s = refuse .held s :=
  if_pos (by simpa [held] using h)

section
variable {s : State} (hh : s.lc.hold = .none)
include hh

theorem takeCutterClear_notNow (h : s.mpc.cutter ≠ .jammed ∨ s.mpc.home = false) : takeCutterClear s = refuse .notNow s := by
  unfold takeCutterClear
  rw [if_neg (by simp [held, hh])]
  rcases h with h | h
  · exact if_pos h
  · rw [h]
    exact ite_self _

theorem takeCutterClear_ok (hj : s.mpc.cutter = .jammed) (hhome : s.mpc.home = true) :
    takeCutterClear s = (accept .none (retestCut { s with mpc.cutter := .ready })).settled := by
  simp [takeCutterClear, held, hh, hj, hhome]

end

/-! ### HOME and the stroke timer (R113, R115, R116) -/

theorem doHomeChange_same {s : State} {b : Bool} (h : s.mpc.home = b) : doHomeChange b s = begin s := if_pos h

theorem doHomeChange_moves {s : State} {b : Bool} (h : s.mpc.home ≠ b) : doHomeChange b s = settle (homeChanged b (begin s)) :=
  if_neg h

/-- R113, R120: JAMMED and OFF only record HOME. -/
theorem homeChanged_records {s : State} (b : Bool) (h : s.mpc.cutter = .jammed ∨ ∃ m, s.mpc.cutter = .off m) :
    homeChanged b s = { s with mpc.home := b } := by
  rcases h with h | ⟨m, h⟩ <;> simp only [homeChanged, h]

theorem homeChanged_jams {s : State} (h : s.mpc.cutter = .ready) :
    homeChanged false s = raise .cutterJam none { s with mpc.home := false, mpc.cutter := .jammed } := by
  simp only [homeChanged, h]
  rfl

theorem homeChanged_stroke {s : State} {left : Bool} (b : Bool) (h : s.mpc.cutter = .stroke left) : homeChanged b s =
    if b then if left then strokeDone { s with mpc.home := b } else { s with mpc.home := b }
    else { s with mpc.home := b, mpc.cutter := .stroke true } := by
  simp only [homeChanged, h]

/-- R115, R151: one cut charged to the owner of an advance. -/
theorem updOwner_addCut (o : Owner) (s : State) : updOwner o addCut s =
    let cut : Account → Account := fun b =>
      { b with cuts := min 4294967295 (b.cuts + 1), flags.saturated := b.flags.saturated || decide (4294967295 < b.cuts + 1) }
    { s with cu := match o with
      | .print slot => { s.cu with printAccts := s.cu.printAccts.modify slot (fun o => o.map cut) }
      | .house => { s.cu with house := cut s.cu.house } } := by
  cases o <;> rfl

theorem chargeCut_atStop {s : State} {a : Advance} {r : StopRef} (hx : s.mpc.exec = .atStop a r) :
    chargeCut s = updOwner a.owner addCut s := by
  simp only [chargeCut, hx, Exec.advance]

/-- R115: the stroke at the executor's stop is done: its entry is gone and charged, and the executor goes on. -/
theorem strokeDone_atStop {s : State} {a : Advance} {e : CutEntry} (hx : s.mpc.exec = .atStop a (.cut e.position))
    (he : s.mpc.cuts.find? (fun e => e.state == .cutting) = some e) : strokeDone s = runOn a (updOwner a.owner addCut
      { s with mpc.cutter := .ready, mpc.strokeTimer := none, mpc.cuts := s.mpc.cuts.filter (fun x => x.position != e.position) }) := by
  let z : State := { s with mpc.cutter := .ready, mpc.strokeTimer := none }
  let y : State := { z with mpc.cuts := s.mpc.cuts.filter (fun x => x.position != e.position) }
  have hremove : removeCut e.position z = y := removeCut_still e.position (fun b g h => nomatch hx.symm.trans h)
  have hmpc : (updOwner a.owner addCut y).mpc = y.mpc := by rw [updOwner_addCut]
  have hgone : ∀ x ∈ y.mpc.cuts, x.position ≠ e.position := fun x hm => by simpa using (List.mem_filter.1 hm).2
  calc strokeDone s = resolveStop (chargeCut (removeCut e.position z)) := by simp only [strokeDone, cuttingEntry, he, z]
    _ = resolveStop (updOwner a.owner addCut y) := by rw [hremove, chargeCut_atStop (s := y) hx]
    _ = runOn a (updOwner a.owner addCut y) := resolveStop_cutGone (hmpc ▸ hx) (hmpc ▸ hgone)

theorem doStrokeTimeout_runs {s : State} {left : Bool} (h : s.mpc.cutter = .stroke left) :
    doStrokeTimeout s = settle (strokeFails (begin s)) := by
  simp only [doStrokeTimeout, goAsserted, h, if_true]

theorem doStrokeTimeout_idle {s : State} (h : ∀ left, s.mpc.cutter ≠ .stroke left) : doStrokeTimeout s = begin s := by
  unfold doStrokeTimeout goAsserted
  cases hc : s.mpc.cutter with
  | stroke left => exact absurd hc (h left)
  | ready | jammed | off _ => rfl

/-- The end of a change of HOME that the part reacts to. -/
theorem homeChange_follows {s x : State} {b : Bool} (h : s.mpc.home ≠ b) (hx : homeChanged b (begin s) = x) :
    ∃ t : State, exec (.homeChange b) s = .next t ∧ Follows x t :=
  ⟨_, congrArg Host.Outcome.next (doHomeChange_moves h), hx ▸ follows_settle _⟩

end Sys2Proof.Machine

open Sys2Proof Sys2Proof.Machine

/-- Settles O42: each request by its tests, and CUTTER_CLEAR by where the executor stands. -/
theorem cutCancelAndCutterClear : Obligations.CutCancelAndCutterClear := by
  intro ft s
  refine ⟨fun p e hp he => ⟨fun h => ?_, fun hx h => ?_⟩, fun p h => ?_, fun h => ?_, fun hh h => ?_, fun hh hj hhome => ?_⟩
  · exact congrArg Host.Outcome.next (carryOut_of_refuse (takeCutCancel_notNow (s := cleared s) hp he h))
  · exact follows_of_settled rfl (takeCutCancel_ok (s := cleared s) hp he hx h)
  · exact congrArg Host.Outcome.next (carryOut_of_refuse (takeCutCancel_none (s := cleared s) h))
  · exact congrArg Host.Outcome.next (carryOut_of_refuse (takeCutterClear_held (s := cleared s) h))
  · exact congrArg Host.Outcome.next (carryOut_of_refuse (takeCutterClear_notNow (s := cleared s) hh h))
  · have htake := takeCutterClear_ok (s := cleared s) hh hj hhome
    refine ⟨fun hx => ?_, fun a p e hx he hd hg hspan hcover => ?_⟩
    · rw [retestCut_elsewhere (s := { cleared s with mpc.cutter := .ready }) hx] at htake
      exact follows_of_settled rfl htake
    · have hskip : skipTest { cleared s with mpc.cutter := .ready } p = false := by
        rw [Bool.eq_false_iff, Ne, skipTest_iff]
        rintro ⟨c, hc, hfree, hclosed, b, hb, hbp, hend⟩
        obtain ⟨z, hz, hzp⟩ := hspan c hc hfree hclosed b hb hbp
        exact absurd (hend z hz) (Nat.not_lt.2 hzp)
      rw [retestCut_strokes (s := { cleared s with mpc.cutter := .ready }) hx he hd hg hskip rfl hcover hh] at htake
      exact follows_of_settled rfl htake

/-- Settles O54, by the state of the cutter; the stroke that is done by `strokeDone_atStop`. -/
theorem homeAndStrokeTimerDecideTheStroke : Obligations.HomeAndStrokeTimerDecideTheStroke := by
  intro s now
  refine ⟨fun b h => congrArg Host.Outcome.next (doHomeChange_same h), fun hhome hc => ?_, fun b hhome hc => ?_, fun left hc => ?_,
    fun h => congrArg Host.Outcome.next (doStrokeTimeout_idle h)⟩
  · exact homeChange_follows (by simp [hhome]) (homeChanged_jams (s := begin s) hc)
  · exact homeChange_follows hhome (homeChanged_records (s := begin s) b hc)
  · have hstroke := fun b => homeChanged_stroke (s := begin s) b hc
    refine ⟨fun hhome => ?_, fun hhome hleft => ?_, fun a p e hhome hleft hx he hp => ?_, ?_⟩
    · exact homeChange_follows (by simp [hhome]) (hstroke false)
    · subst hleft
      exact homeChange_follows (by simp [hhome]) (hstroke true)
    · subst hleft hp
      have hdone := strokeDone_atStop (s := { begin s with mpc.home := true }) hx he
      rw [updOwner_addCut] at hdone
      exact homeChange_follows (by simp [hhome]) ((hstroke true).trans hdone)
    · exact ⟨_, congrArg Host.Outcome.next (doStrokeTimeout_runs hc), follows_settle _⟩

end

section
/-! The measurement ring and the scans that fill it (O8, O37, O57). -/

namespace Sys2Proof.Machine

/-! ### The scan start test taken again (R136) -/

/-- R136: the test of an ARMED check that finds ring room, the sensor READY and the link IDLE starts the scan. -/
theorem scanTest_starts {z : State} {id p : Nat} {r : Roll} (harmed : (checkAt z id).state = .armed) (hstands : standsAt z id = true)
    (hset : (checkAt z id).setId = some p) (hroll : z.mpc.roll = some r) (hready : z.ccu.sensor = .ready) (hidle : z.ccu.link = .idle)
    (hroom : checkCount z (checkAt z id) ≤ 64 - z.ccu.ring.length) :
    scanTest id z = { z with
      ccu := { z.ccu with
        checks := z.ccu.checks.modify id (fun c => { c with state := .measuring })
        link := .scanning id 0 (checkCount z (checkAt z id)) (2000 + 400 * checkCount z (checkAt z id)) }
      out := z.out ++ [.scan p (checkCount z (checkAt z id)) r.width] } := by
  have hshort : shortOfRing z id = false := decide_eq_false (Nat.not_lt.2 hroom)
  unfold scanTest startScan
  rw [if_pos ⟨harmed, hstands⟩, hshort, if_neg Bool.false_ne_true, if_pos ⟨hready, hidle⟩, hset, hroll]
  rfl

/-- R136: what follows where a change of `s` that leaves the media path and the checks as they were has the scan start test taken again. -/
theorem retestScan_follows {s x : State} (hmpc : x.mpc = s.mpc) (hchecks : x.ccu.checks = s.ccu.checks) :
    ((∀ id, heldStop s = some id → (checkAt s id).state ≠ .armed) → Follows x (settle (retestScan x))) ∧
    (∀ id tag, heldStop s = some id → (checkAt s id).state = .armed → (checkAt s id).job = some tag →
      Follows (scanTested id tag x) (settle (retestScan x))) := by
  have hcheck : ∀ id, checkAt x id = checkAt s id := fun id => by unfold checkAt; rw [hchecks]
  rw [← heldStop_congr hmpc]
  simp only [← hcheck]
  exact ⟨fun h => follows_iff (congrArg settle (retestScan_idle h)),
    fun id tag hheld harmed hjob => follows_iff (congrArg settle (retestScan_eq hheld harmed hjob))⟩

/-! ### The ring's requests (R140 to R142) -/

/-- The entries at the places below a count that are held are the first ones of the list. -/
theorem filterMap_getElem?_range {α : Type} (l : List α) (n : Nat) :
    (List.range (min n l.length)).filterMap (fun k => l[k]?) = l.take n := by
  induction l generalizing n with
  | nil => simp
  | cons a t ih =>
    cases n with
    | zero => simp
    | succ n =>
      rw [List.length_cons, Nat.succ_min_succ, List.range_succ_eq_map, List.filterMap_cons, List.filterMap_map, List.take_succ_cons, ← ih n]
      rfl

theorem takeRingRetain_ok {v : Nat} (hv : v ≤ 1) (s : State) :
    takeRingRetain v s = accept (.ringHeld s.ccu.ring.length) { s with ccu.retain := decide (v = 1) } := by
  obtain rfl | rfl : v = 0 ∨ v = 1 := by omega
  · rfl
  · rfl

/-- R141: the count clamped to the entries held beyond the offset. -/
theorem takeRingRead_eq (offset count : Nat) (s : State) : takeRingRead offset count s = accept (.ringEntries
    ((List.range (min count (s.ccu.ring.length - offset))).filterMap (fun k => s.ccu.ring[offset + k]?)) s.ccu.ring.length) s := by
  have h := filterMap_getElem?_range (s.ccu.ring.drop offset) count
  rw [List.length_drop] at h
  simp only [List.getElem?_drop] at h
  rw [h]
  rfl

/-! ### READING (R137) -/

section Scanning
variable {s : State} {id w n timer : Nat} (h : s.ccu.link = .scanning id w n timer)
include h

theorem doReading_beyond (hw : n ≤ w) (ok : Bool) (i : Nat) (l a b : Int) (good : Bool) : doReading ok i l a b good s = begin s := by
  unfold doReading
  rw [h]
  exact if_neg (Nat.not_lt.2 hw)

theorem doReading_writes (hw : w < n) (ok : Bool) (i : Nat) (l a b : Int) (good : Bool) : doReading ok i l a b good s
    = { begin s with ccu.link := .scanning id (w + 1) n timer, ccu.ring := s.ccu.ring ++ [ringEntry id w ok i l a b good] } := by
  unfold doReading
  rw [h]
  exact if_pos hw

end Scanning

theorem doReading_noScan {s : State} (h : ∀ id w n timer, s.ccu.link ≠ .scanning id w n timer)
    (ok : Bool) (i : Nat) (l a b : Int) (good : Bool) : doReading ok i l a b good s = begin s := by
  unfold doReading
  cases hl : s.ccu.link with
  | scanning id w n timer => exact absurd hl (h id w n timer)
  | idle => rfl
  | draining timer => rfl

theorem ringEntry_eq (id w : Nat) (ok : Bool) (i : Nat) (l a b : Int) (good : Bool) : ringEntry id w ok i l a b good
    = ⟨id, w, l, a, b, ok && good && decide (i = w) && decide (0 ≤ l) && decide (l ≤ 10000)
        && decide (-12800 ≤ a) && decide (a ≤ 12799) && decide (-12800 ≤ b) && decide (b ≤ 12799)⟩ := by
  unfold ringEntry readingOk inRangeInt
  simp only [Bool.and_assoc, beq_eq_decide]

/-! ### The end of a scan (R138, R139) -/

section Ends
variable {s : State}

section Scanning
variable {id w n timer : Nat} (h : s.ccu.link = .scanning id w n timer)
include h

theorem doScanEnd_scanning : doScanEnd true s = settle (endScan id w (begin s)) := by
  unfold doScanEnd
  rw [if_pos rfl, h]

theorem doScanTimeout_scanning : doScanTimeout s = settle (failScan id w (begin s)) := by
  unfold doScanTimeout
  rw [h]

theorem doSensorFault_scanning : doSensorFault true s = settle (failScan id w (faultSensor (begin s))) := by
  unfold doSensorFault
  rw [if_pos rfl, h]

end Scanning

section Draining
variable {timer : Nat} (h : s.ccu.link = .draining timer)
include h

theorem doScanEnd_draining : doScanEnd true s = settle (endDrain (begin s)) := by
  unfold doScanEnd
  rw [if_pos rfl, h]

theorem doScanTimeout_draining : doScanTimeout s = settle (endDrain (begin s)) := by
  unfold doScanTimeout
  rw [h]

theorem doSensorFault_draining : doSensorFault true s = settle (endDrain (faultSensor (begin s))) := by
  unfold doSensorFault
  rw [if_pos rfl, h]

end Draining

section Idle
variable (h : s.ccu.link = .idle)
include h

theorem doScanEnd_idle : doScanEnd true s = begin s := by
  unfold doScanEnd
  rw [if_pos rfl, h]

theorem doScanTimeout_idle : doScanTimeout s = begin s := by
  unfold doScanTimeout
  rw [h]

theorem doSensorFault_idle : doSensorFault true s = settle (faultSensor (begin s)) := by
  unfold doSensorFault
  rw [if_pos rfl, h]

end Idle

/-- The sensor's fault and the link's return to IDLE commute. -/
theorem idleLink_faultSensor (s : State) : idleLink (faultSensor s) = faultSensor (idleLink s) := by
  unfold idleLink faultSensor
  rw [raise_eq_lc, raise_eq_lc]

theorem endDrain_faultSensor (s : State) : endDrain (faultSensor s) = retestScan (faultSensor (idleLink s)) :=
  congrArg retestScan (idleLink_faultSensor s)

@[simp] theorem faultSensor_mpc (s : State) : (faultSensor s).mpc = s.mpc := raise_mpc ..
@[simp] theorem faultSensor_ccu (s : State) : (faultSensor s).ccu = { s.ccu with sensor := .fault } := raise_ccu ..

theorem setAt_faultSensor (s : State) : setAt (faultSensor s) = setAt s := by
  unfold setAt
  rw [faultSensor_ccu]

section Result
variable {id : Nat} {p : PatchSet} (hset : checkSetOf s (checkAt s id) = some p) (w : Nat)
include hset

theorem endScan_eq : endScan id w s =
    closeCheck id (evaluate s p (checkAt s id).policy (scanReadings w s)) w
      (applyCorrections (evaluate s p (checkAt s id).policy (scanReadings w s)) (idleLink s)) := by
  unfold endScan fullResult
  rw [hset]

theorem errorResult_eq : errorResult id w s = Result.sensorError (diffsFrom (scanReadings w s) 0 p.patches).length := by
  unfold errorResult
  rw [hset]

theorem failScan_eq : failScan id w s =
    closeCheck id (Result.sensorError (diffsFrom (scanReadings w s) 0 p.patches).length) w (idleLink s) := by
  unfold failScan
  rw [errorResult_eq hset]

/-- R138: the sensor's fault goes before the closing and leaves its result as it was. -/
theorem failScan_faultSensor : failScan id w (faultSensor s) =
    closeCheck id (Result.sensorError (diffsFrom (scanReadings w s) 0 p.patches).length) w (faultSensor (idleLink s)) := by
  have hfault : checkSetOf (faultSensor s) (checkAt (faultSensor s) id) = some p := by
    rw [← hset]
    unfold checkSetOf checkAt
    rw [setAt_faultSensor, faultSensor_ccu]
  rw [failScan_eq hfault, idleLink_faultSensor]
  simp only [scanReadings, faultSensor_ccu]

end Result

end Ends

end Sys2Proof.Machine

open Sys2Proof Sys2Proof.Machine

/-- Settles O8: the two forms together are a property that every change of form keeps. -/
theorem ringAndRecordsStayWithinCapacity : Obligations.RingAndRecordsStayWithinCapacity := by
  intro s t hs hst
  have both : StepClosed (fun x => RingForm x.ccu ∧ RecordForm x) := fun _ _ hf ⟨hring, hrecord⟩ => ⟨hf.ring hring, hf.record hrecord⟩
  exact both.holds_after hst hs

/-- Settles O37, request by request; what follows the release is the scan start test taken again. -/
theorem ringRequestsReadAndRelease : Obligations.RingRequestsReadAndRelease := by
  intro ft s held
  refine ⟨fun v hv => ?_, fun offset count => ?_, fun n => ?_⟩
  · exact congrArg Host.Outcome.next (carryOut_of_accept (takeRingRetain_ok hv (cleared s)))
  · exact congrArg Host.Outcome.next (carryOut_of_accept (takeRingRead_eq offset count (cleared s)))
  · intro scanning k x
    have htake : takeRingRelease n (cleared s) = (accept (.ringReleased k (held - k)) (retestScan x)).settled := rfl
    exact ⟨_, congrArg Host.Outcome.next (carryOut_of_settled htake), retestScan_follows (s := cleared s) (x := x) rfl rfl⟩

/-- Settles O57: READING by the patch count, the end of a scan by its result, and the end of a draining and SENSOR_READY by the scan start test. -/
theorem sensorRecordsFillTheRingAndEndTheScan : Obligations.SensorRecordsFillTheRingAndEndTheScan := by
  intro s now idle fault
  refine ⟨fun id w n timer h ok good i l a b => ⟨fun hw => ?_, fun hw => ?_⟩, fun h ok i l a b good => ?_, fun i hi => ?_,
    fun h => ⟨?_, ?_, ?_⟩, fun timer h => ?_, fun id w n timer p h hset => ?_, ?_⟩
  · exact congrArg Host.Outcome.next (doReading_beyond h hw ..)
  · rw [← ringEntry_eq]
    exact congrArg Host.Outcome.next (doReading_writes h hw ..)
  · exact congrArg Host.Outcome.next (doReading_noScan h ..)
  · simp only [List.mem_cons, List.not_mem_nil, or_false] at hi
    obtain rfl | rfl | rfl := hi
    · rfl
    · rfl
    · rfl
  · exact congrArg Host.Outcome.next (doScanEnd_idle h)
  · exact congrArg Host.Outcome.next (doScanTimeout_idle h)
  · exact ⟨_, congrArg Host.Outcome.next (doSensorFault_idle h), follows_settle _⟩
  · intro ends
    have hidle : ends idle (settle (endDrain now)) := retestScan_follows (s := s) (x := idle) rfl rfl
    have hfault : ends (fault idle) (settle (endDrain (faultSensor now))) := by
      rw [endDrain_faultSensor]
      exact retestScan_follows (s := s) (x := faultSensor idle) (faultSensor_mpc _) (by rw [faultSensor_ccu])
    exact ⟨⟨_, congrArg Host.Outcome.next (doScanEnd_draining h), hidle⟩,
      ⟨_, congrArg Host.Outcome.next (doScanTimeout_draining h), hidle⟩,
      ⟨_, congrArg Host.Outcome.next (doSensorFault_draining h), hfault⟩⟩
  · intro readings valid failed result
    have hset : checkSetOf now (checkAt now id) = some p := hset
    exact ⟨⟨_, congrArg Host.Outcome.next (doScanEnd_scanning h), follows_iff (congrArg settle (endScan_eq hset w))⟩,
      ⟨_, congrArg Host.Outcome.next (doScanTimeout_scanning h), follows_iff (congrArg settle (failScan_eq hset w))⟩,
      ⟨_, congrArg Host.Outcome.next (doSensorFault_scanning h), follows_iff (congrArg settle (failScan_faultSensor hset w))⟩⟩
  · let ready : State := { now with ccu.sensor := .ready }
    obtain ⟨hrest, htest⟩ := retestScan_follows (s := s) (x := ready) rfl rfl
    refine ⟨settle (retestScan ready), rfl, hrest, htest, fun id p r c hheld hc harmed hp hroll _ hlink hroom => ?_⟩
    subst hc
    have hstart : retestScan ready = scanTest id ready := by
      unfold retestScan
      rw [show heldStop ready = some id from hheld]
    exact follows_iff (congrArg settle (hstart.trans (scanTest_starts (z := ready) harmed (standsAt_held (s := s) hheld) hp hroll rfl hlink hroom)))

end

section
/-! Pricing, the price requests, and the closes of a quote and of the house account (O30, O31, O33). -/

namespace Sys2Proof.Machine

/-! ### Pricing (R158 to R161) -/

/-- R158, R159: rounding half up tests the remainder against half of the divisor. -/
theorem divHalfUp_eq (a h : Nat) : divHalfUp a (2 * h) = a / (2 * h) + (if h ≤ a % (2 * h) then 1 else 0) := by
  unfold divHalfUp
  by_cases hr : h ≤ a % (2 * h)
  · rw [if_pos (by omega), if_pos hr]
  · rw [if_neg (by omega), if_neg hr]; rfl

/-- Two lists of one length combined entry by entry, by position. -/
theorem zipWith_eq_map_range (f : Nat → Nat → Nat) {l m : List Nat} {n : Nat} (hl : l.length = n) (hm : m.length = n) :
    List.zipWith f l m = (List.range n).map (fun c => f (l.getD c 0) (m.getD c 0)) := by
  refine List.ext_getElem (by simp [hl, hm]) fun c hc _ => ?_
  rw [List.length_zipWith, lt_min_iff] at hc
  rw [List.getElem_zipWith, List.getElem_map, List.getElem_range, List.getD_eq_getElem l 0 hc.1, List.getD_eq_getElem m 0 hc.2]

/-- R158: the ink line, channel by channel. -/
theorem inkCost_eq {ink prices : List Nat} (hi : ink.length = 10) (hp : prices.length = 10) :
    inkCost ink prices =
      (let products := ((List.range 10).map (fun c => ink.getD c 0 * prices.getD c 0)).sum
       products / 1000000 + (if 500000 ≤ products % 1000000 then 1 else 0)) := by
  unfold inkCost
  rw [zipWith_eq_map_range (· * ·) hi hp]
  exact divHalfUp_eq _ 500000

/-- R159: the media line. -/
theorem mediaCost_eq (media : List MediaEntry) (prices : List Nat) :
    mediaCost media prices =
      (let areas := (media.map (fun m => m.area * prices.getD m.media 0)).sum
       areas / 100000000 + (if 50000000 ≤ areas % 100000000 then 1 else 0)) := divHalfUp_eq _ 50000000

/-- R158 to R160: the five lines of an account before their clamps. -/
def costLines (a : Account) (t : PriceTable) : List Nat :=
  [inkCost a.ink t.ink, mediaCost a.media t.media, a.cuts * t.cut, a.strips * t.strip,
    if a.kind = .house then 0 else t.handling]

theorem priceAccount_lines (a : Account) (t : PriceTable) :
    [(priceAccount a t).costs.ink, (priceAccount a t).costs.media, (priceAccount a t).costs.cut, (priceAccount a t).costs.strip,
      (priceAccount a t).costs.handling] = (costLines a t).map clampCost := rfl

theorem priceAccount_total (a : Account) (t : PriceTable) :
    (priceAccount a t).costs.total = clampCost ((costLines a t).map clampCost).sum := by
  simp [priceAccount, costLines, add_assoc]

/-- R161: SATURATED where a clamp changed a line or the total. -/
theorem priceAccount_saturated (a : Account) (t : PriceTable) :
    (priceAccount a t).saturated = ((costLines a t).any (fun n => decide (Config.costMax < n)) ||
      decide (Config.costMax < ((costLines a t).map clampCost).sum)) := by
  simp [priceAccount, costLines, add_assoc, Bool.or_assoc]

/-! ### The price requests (R155 to R157) -/

theorem takePriceStage_ok {k i v : Nat} {f : PriceField} {s : State} (hf : priceField k i = some f) (hv : v ≤ 9999999) :
    takePriceStage k i v s =
      accept (.staged v (s.cu.active.read f)) { s with cu.staged := s.cu.staged.write f v, cu.stagedMark := true } := by
  simp only [takePriceStage, hf]
  exact if_neg (Nat.not_lt.2 hv)

/-- R156: a selector that names no field, or a value above the largest price. -/
theorem takePriceStage_range {k i v : Nat} {s : State} (h : priceField k i = none ∨ 9999999 < v) :
    takePriceStage k i v s = refuse .range s := by
  unfold takePriceStage
  split
  · rfl
  · rename_i f hf
    exact if_pos (h.resolve_left (by rw [hf]; nofun))

theorem priceField_ink {i : Nat} (h : i ≤ 9) : priceField 0 i = some (.ink i) := if_neg (Nat.not_lt.2 h)

theorem priceField_media {i : Nat} (h : i ≤ 15) : priceField 1 i = some (.media i) := if_neg (Nat.not_lt.2 h)

theorem priceField_none {k i : Nat} (h : 4 < k ∨ k = 0 ∧ 9 < i ∨ k = 1 ∧ 15 < i) : priceField k i = none := by
  obtain hk | ⟨rfl, hi⟩ | ⟨rfl, hi⟩ := h
  · obtain ⟨n, rfl⟩ := Nat.exists_eq_add_of_le' hk
    rfl
  · exact if_pos hi
  · exact if_pos hi

theorem takePriceCommit_busy {s : State} (h : saving s = true) : takePriceCommit s = refuse .busy s := if_pos h

theorem takePriceCommit_ok {s : State} (h : saving s = false) : takePriceCommit s = accept (.generation (committedTable s).gen)
    (markChanged { s with cu.active := committedTable s, cu.staged := committedTable s, cu.stagedMark := false }) :=
  if_neg (by simp [h])

/-- An accepted PRICE_STAGE as a command. -/
theorem exec_priceStage_ok {k i v : Nat} {f : PriceField} (ft : Byte) (s : State) (hf : priceField k i = some f) (hv : v ≤ 9999999) :
    exec (.priceStage ft k i v) s = .next (answer 0x2A ft .ok (planMark s) (.staged v (s.cu.active.read f))
      { cleared s with cu.staged := s.cu.staged.write f v, cu.stagedMark := true }) :=
  congrArg Host.Outcome.next (carryOut_of_accept (takePriceStage_ok (s := cleared s) hf hv))

/-! ### QUOTE_CLOSE and HOUSE_CLOSE (R168, R170) -/

@[simp] theorem pushRecord_isc (r : ClosedRecord) (s : State) : (pushRecord r s).isc = s.isc := by
  rw [pushRecord_eq]; dsimp only; split <;> simp only [raise_isc]

theorem recordsFull_full {s : State} (h : 16 ≤ s.cu.records.length) : recordsFull s = true := decide_eq_true h

/-- R149: the media type that the house account opens with. -/
theorem houseMedia_eq (s : State) : houseMedia s = (s.mpc.roll.map (fun r => r.media)).getD 0 := by
  unfold houseMedia
  cases s.mpc.roll <;> rfl

theorem takeQuoteClose_noJob {tag : Nat} {s : State} (h : quoteSlotOf s tag = none) : takeQuoteClose tag s = refuse .noJob s := by
  simp only [takeQuoteClose, h]

theorem takeQuoteClose_full {tag slot : Nat} {a : Account} {s : State} (hi : quoteSlotOf s tag = some slot)
    (ha : quoteAt s slot = some a) (hr : 16 ≤ s.cu.records.length) : takeQuoteClose tag s = refuse .full s := by
  simp only [takeQuoteClose, hi, ha, recordsFull_full hr, if_true]

/-- R168: the quote's record is placed and its slot freed. -/
theorem takeQuoteClose_ok {tag slot : Nat} {a : Account} {s : State} (hi : quoteSlotOf s tag = some slot)
    (ha : quoteAt s slot = some a) (hr : s.cu.records.length < 16) :
    takeQuoteClose tag s = accept (.total (priceAccount a s.cu.active).costs.total)
      { pushRecord (makeRecord a .quoted s.cu.active) s with cu.quotes := s.cu.quotes.set slot none } := by
  simp only [takeQuoteClose, hi, ha, recordsFull_room hr, Bool.false_eq_true, if_false, closeAccount, pushRecord_cu]

theorem takeHouseClose_full {s : State} (hr : 16 ≤ s.cu.records.length) : takeHouseClose s = refuse .full s :=
  if_pos (recordsFull_full hr)

/-- R170: the house account's record is placed, and the account opens anew. -/
theorem takeHouseClose_ok {s : State} (hr : s.cu.records.length < 16) :
    takeHouseClose s = accept (.total (priceAccount s.cu.house s.cu.active).costs.total)
      { pushRecord (makeRecord s.cu.house .house s.cu.active) s with
        cu.house := Account.opened .house none ((s.mpc.roll.map (fun r => r.media)).getD 0) s.isc.gainGen } := by
  simp only [takeHouseClose, recordsFull_room hr, Bool.false_eq_true, if_false, openHouse, closeAccount, houseMedia_eq,
    pushRecord_mpc, pushRecord_isc]

end Sys2Proof.Machine

open Sys2Proof Sys2Proof.Machine

/-- Settles O30: the model's five lines are the stated ones, and their clamps and their sum follow from them. -/
theorem pricingComputesFiveLinesAndTotal : Obligations.PricingComputesFiveLinesAndTotal := by
  intro a t hink hprice products areas ink media lines sum p
  have hlines : costLines a t = lines := by
    unfold costLines
    rw [inkCost_eq hink hprice, mediaCost_eq]
  refine ⟨?_, ?_, ?_, fun o => ⟨rfl, rfl⟩⟩
  · exact (priceAccount_lines a t).trans (congrArg (List.map clampCost) hlines)
  · exact (priceAccount_total a t).trans (congrArg (fun l => clampCost (l.map clampCost).sum) hlines)
  · have hsat := priceAccount_saturated a t
    rw [hlines] at hsat
    exact hsat

/-- Settles O31: PRICE_STAGE by the field that is named, PRICE_GET by its selector, PRICE_COMMIT by whether a save runs. -/
theorem priceRequestsReadStageAndCommit : Obligations.PriceRequestsReadStageAndCommit := by
  intro ft s written next
  refine ⟨fun i v hv => ⟨fun hi => ?_, fun hi => ?_, ?_, ?_, ?_⟩, fun k i v h => ?_, fun selector => ?_, fun h => ?_, fun h => ?_⟩
  · exact exec_priceStage_ok ft s (priceField_ink hi) hv
  · exact exec_priceStage_ok ft s (priceField_media hi) hv
  · exact exec_priceStage_ok (f := .cut) ft s rfl hv
  · exact exec_priceStage_ok (f := .strip) ft s rfl hv
  · exact exec_priceStage_ok (f := .handling) ft s rfl hv
  · have hrefused : priceField k i = none ∨ 9999999 < v := by
      rcases Nat.lt_or_ge 9999999 v with hv | hv
      · exact .inr hv
      · exact .inl (priceField_none (by omega))
    exact congrArg Host.Outcome.next (carryOut_of_refuse (takePriceStage_range hrefused))
  · match selector with
    | 0 => exact congrArg Host.Outcome.next (carryOut_of_accept rfl)
    | 1 => exact congrArg Host.Outcome.next (carryOut_of_accept rfl)
    | _ + 2 => exact congrArg Host.Outcome.next (carryOut_of_refuse rfl)
  · exact congrArg Host.Outcome.next (carryOut_of_refuse (takePriceCommit_busy (s := cleared s) h))
  · exact congrArg Host.Outcome.next (carryOut_of_accept (takePriceCommit_ok (s := cleared s) h))

/-- Settles O33: each close by the room in the record queue; `pushRecord_eq` is the record placed at the tail. -/
theorem quoteCloseAndHouseClosePlaceARecord : Obligations.QuoteCloseAndHouseClosePlaceARecord := by
  intro ft s priced placed total
  have hplaced : ∀ a o, pushRecord (makeRecord a o s.cu.active) (cleared s) = placed a o := fun a o =>
    pushRecord_eq (priced a o) (cleared s)
  refine ⟨fun tag h => ?_, fun tag slot a hi ha => ⟨fun hr => ?_, fun hr => ?_⟩, fun hr => ?_, fun hr => ?_⟩
  · exact congrArg Host.Outcome.next (carryOut_of_refuse (takeQuoteClose_noJob (s := cleared s) h))
  · exact congrArg Host.Outcome.next (carryOut_of_refuse (takeQuoteClose_full (s := cleared s) hi ha hr))
  · rw [← hplaced]
    exact congrArg Host.Outcome.next (carryOut_of_accept (takeQuoteClose_ok (s := cleared s) hi ha hr))
  · exact congrArg Host.Outcome.next (carryOut_of_refuse (takeHouseClose_full (s := cleared s) hr))
  · rw [← hplaced]
    exact congrArg Host.Outcome.next (carryOut_of_accept (takeHouseClose_ok (s := cleared s) hr))

end

section
/-! The link's and the table's forms, the transmitter, and the class reads (O4, O21, O23). -/

namespace Sys2Proof.Machine

/-! ### The transmitter (R177, R190) -/

/-- R190: the free transmitter chooses its next frame. -/
theorem doTransmitFrameStart_free {s : State} (h : s.lc.line = none) : doTransmitFrameStart s = nextFrame (begin s) :=
  if_pos (by rw [h]; rfl)

/-- R177: a notice that is due goes out first where the table holds entries. -/
theorem nextFrame_notice {s : State} {e : CondEntry} {l : List CondEntry} (hdue : s.lc.noticeDue = true)
    (hc : s.lc.conds = e :: l) : nextFrame s = sendNotice s := by
  unfold nextFrame
  rw [if_pos hdue, hc]
  rfl

/-- R190: with no notice to send, the turn is the replies', and no mark is left. -/
theorem nextFrame_reply {s : State} (h : s.lc.noticeDue = false ∨ s.lc.conds = []) :
    nextFrame s = sendReply { s with lc.noticeDue := false } := by
  unfold nextFrame
  cases hdue : s.lc.noticeDue with
  | true =>
    have hc : s.lc.conds = [] := h.resolve_left (by rw [hdue]; nofun)
    rw [if_pos rfl, if_pos (by rw [hc]; rfl)]
  | false =>
    have same : { s with lc.noticeDue := s.lc.noticeDue } = s := rfl
    rw [hdue] at same
    rw [same]
    rfl

theorem sendReply_busy {s : State} {r : Reply} {l : List Reply} (h : s.lc.busy = r :: l) :
    sendReply s = startFrame (.reply r) { s with lc.busy := l } := by
  unfold sendReply
  rw [h]

theorem sendReply_formed {s : State} {r : Reply} {l : List Reply} (hb : s.lc.busy = []) (h : s.lc.formed = r :: l) :
    sendReply s = startFrame (.reply r) { s with lc.formed := l } := by
  unfold sendReply
  rw [hb, h]

/-- R178: the class that a notice names is the class of the table's first entry. -/
theorem reportedClass_cons {s : State} {e : CondEntry} {l : List CondEntry} (h : s.lc.conds = e :: l) :
    reportedClass s = e.cond.cls := by
  unfold reportedClass
  rw [h]

/-- R194: only the OK reply of RESET_SOFT makes the soft reset due. -/
theorem isResetReply_reply (r : Reply) : isResetReply (.reply r) = true ↔ r.kind = 0x83#8 ∧ r.code = .ok := by
  simp only [isResetReply, Bool.and_eq_true, beq_iff_eq]
  rfl

theorem doFrameSendEnd_some {s : State} {f : TxFrame} (h : s.lc.line = some f) : doFrameSendEnd s =
    { begin s with lc.line := none, lc.softReset := if isResetReply f then .due else s.lc.softReset } := by
  unfold doFrameSendEnd
  rw [h]

/-! ### The class reads (R175, R176) -/

/-- R175: a reported entry stays only while its cause lasts. -/
theorem readTable_reported {k n : Nat} {e : CondEntry} {t : List CondEntry} (h : e.cond.cls = k) :
    readTable k (n + 1) (e :: t)
      = if e.cause then { e with occurrences := 0 } :: readTable k n t else readTable k n t := by
  rw [readTable, if_pos h, CondEntry.afterRead]
  cases e.cause <;> rfl

theorem readTable_other {k n : Nat} {e : CondEntry} {t : List CondEntry} (h : e.cond.cls ≠ k) :
    readTable k (n + 1) (e :: t) = e :: readTable k (n + 1) t := by
  rw [readTable, if_neg h]

theorem readTable_zero (k : Nat) (l : List CondEntry) : readTable k 0 l = l := by
  cases l <;> rfl

/-- R175: a read of one class leaves every other class as it was. -/
theorem readTable_filter_ne (k n : Nat) (l : List CondEntry) :
    (readTable k n l).filter (fun e => e.cond.cls != k) = l.filter (fun e => e.cond.cls != k) := by
  induction l generalizing n with
  | nil => cases n <;> rfl
  | cons e t ih =>
    cases n with
    | zero => rw [readTable_zero]
    | succ n =>
      by_cases h : e.cond.cls = k
      · rw [readTable_reported h]
        cases e.cause <;> simp [h, ih]
      · simp [readTable_other h, h, ih]

/-- R175: of its own class, a read keeps the reported entries with a lasting cause, and all that it did not report. -/
theorem readTable_filter_eq (k n : Nat) (l : List CondEntry) :
    (readTable k n l).filter (fun e => e.cond.cls == k)
      = (((l.filter (fun e => e.cond.cls == k)).take n).filter (fun e => e.cause)).map (fun e => { e with occurrences := 0 })
        ++ (l.filter (fun e => e.cond.cls == k)).drop n := by
  induction l generalizing n with
  | nil => cases n <;> rfl
  | cons e t ih =>
    cases n with
    | zero => simp [readTable_zero]
    | succ n =>
      by_cases h : e.cond.cls = k
      · rw [readTable_reported h]
        cases hcause : e.cause <;> simp [h, hcause, ih]
      · simp [readTable_other h, h, ih]

/-- R175, R176: a class read carried out: its reply, the table it leaves, and the notice-due mark. -/
theorem carryKeep_takeRead (kind : Nat) (ft : Byte) (k : Nat) (s : State) : carryKeep kind ft (takeRead k) s =
    answer kind ft .ok false
      (.entries ((classEntries k s).take 200) ((classEntries k s).length - 200))
      { s with
        out := []
        lc.conds := readTable k 200 s.lc.conds
        lc.noticeDue := s.lc.noticeDue || ((readTable k 200 s.lc.conds).all (fun e => e.cond.cls != k)
          && (readTable k 200 s.lc.conds).any (fun e => k < e.cond.cls)) } := by
  rw [carryKeep_eq, List.all_eq_not_any_not]
  simp only [bne, Bool.not_not]
  rfl

end Sys2Proof.Machine

open Sys2Proof Sys2Proof.Machine

/-- Settles O4: the two forms together are a property that every change of form keeps. -/
theorem linkAndConditionTableKeepTheirForm : Obligations.LinkAndConditionTableKeepTheirForm := by
  intro s t hs hst
  have both : StepClosed (fun x => LinkForm x.lc ∧ TableForm x.lc.conds) :=
    fun _ _ hf ⟨hlink, htable⟩ => ⟨hf.link hlink, hf.table htable⟩
  exact both.holds_after hst hs

/-- Settles O21, by what the free transmitter has to send, and by the frame whose last byte has left. -/
theorem transmitterSendsNoticeThenBusyThenFormed : Obligations.TransmitterSendsNoticeThenBusyThenFormed := by
  intro s
  let x : State := { begin s with lc.noticeDue := false }
  have turn (hline : s.lc.line = none) (hn : s.lc.noticeDue = false ∨ s.lc.conds = []) : doTransmitFrameStart s = sendReply x :=
    (doTransmitFrameStart_free hline).trans (nextFrame_reply (s := begin s) hn)
  refine ⟨?_, fun r l hline hn hb => ?_, fun r l hline hn hb hf => ?_, fun f hf => ?_⟩
  · intro hline hdue e l hc n
    have hnotice : formNotice (begin s) = n := by
      unfold formNotice
      rw [reportedClass_cons (s := begin s) hc]
      rfl
    refine ⟨congrArg Host.Outcome.next ?_, fun _ => rfl⟩
    rw [doTransmitFrameStart_free hline, nextFrame_notice (s := begin s) hdue hc, sendNotice, hnotice]
    rfl
  · exact congrArg Host.Outcome.next ((turn hline hn).trans (sendReply_busy (s := x) hb))
  · exact congrArg Host.Outcome.next ((turn hline hn).trans (sendReply_formed (s := x) hb hf))
  · refine congrArg Host.Outcome.next ((doFrameSendEnd_some hf).trans ?_)
    cases f with
    | reply r => simp only [isResetReply_reply]; rfl
    | notice n => rfl

/-- Settles O23: each of the four reads leaves the table that `readTable` gives, whose entries of the class and of the others are said apart. -/
theorem classReadsReportAndRemove : Obligations.ClassReadsReportAndRemove := by
  intro ft s k i hi mine
  have hread : exec i s = .next (carryKeep (k + 3) ft (takeRead k) s) := by
    simp only [List.mem_cons, List.not_mem_nil, or_false, Prod.mk.injEq] at hi
    obtain ⟨rfl, rfl⟩ | ⟨rfl, rfl⟩ | ⟨rfl, rfl⟩ | ⟨rfl, rfl⟩ := hi <;> rfl
  exact ⟨_, _, _, hread, carryKeep_takeRead .., readTable_filter_ne .., readTable_filter_eq .., rfl⟩

end

section
/-! The step, the request buffer, dispatch, and the stored settings (O1, O18, O20, O35). -/

namespace Sys2Proof.Machine

/-! ### The request buffer (R188) -/

/-- R186: the reply kind of a frame's kind byte, modulo 256 (log 37). -/
theorem replyKind_toNat (k : Byte) : replyKind k.toNat = k + 128#8 := by
  apply BitVec.eq_of_toNat_eq
  simp [replyKind]

theorem busyReply_eq (f : Frame) : busyReply f = ⟨f.kind + 128#8, f.tag, .linkBusy, false, .none⟩ := by
  rw [busyReply, replyKind_toNat]

/-- R186: the receiver takes a frame once it has started. -/
theorem doHostFrameReceived_started {s : State} (f : Frame) (h : s.lc.started = true) :
    doHostFrameReceived f s = bufferFrame f (begin s) := if_pos h

theorem bufferFrame_room {s : State} (f : Frame) (h : s.lc.buffer.length < 4) :
    bufferFrame f s = { s with lc.buffer := s.lc.buffer ++ [f] } := if_pos h

theorem bufferFrame_busy {s : State} (f : Frame) (h : 4 ≤ s.lc.buffer.length) (hb : s.lc.busy.length < 8) :
    bufferFrame f s = { s with lc.busy := s.lc.busy ++ [busyReply f] } :=
  (if_neg (Nat.not_lt.2 h)).trans (if_pos hb)

theorem bufferFrame_full {s : State} (f : Frame) (h : 4 ≤ s.lc.buffer.length) (hb : 8 ≤ s.lc.busy.length) :
    bufferFrame f s = s :=
  (if_neg (Nat.not_lt.2 h)).trans (if_neg (Nat.not_lt.2 hb))

/-! ### The store (R197) -/

theorem takeStoreSave_busy {s : State} (h : saving s = true) : takeStoreSave s = refuse .busy s := if_pos h

theorem takeStoreSave_ok {s : State} (h : saving s = false) : takeStoreSave s = accept .none (beginSave s) :=
  if_neg (Bool.eq_false_iff.1 h)

/-- R197: the end of a save under way. -/
theorem doStoreSaveEnd_saving {s : State} {p : Settings} {n : Nat} (h : s.ss.store = .saving p n) :
    doStoreSaveEnd s = { begin s with ss.image := .good p, ss.store := .valid } := by
  unfold doStoreSaveEnd
  rw [h]

end Sys2Proof.Machine

open Sys2Proof Sys2Proof.Machine

/-- Settles O1: the first case of the step's definition. -/
theorem stepCarriesOutFrontCommand : Obligations.StepCarriesOutFrontCommand := fun _ _ _ => rfl

/-- Settles O18, by the room in the buffer and in the list of busy replies. -/
theorem receivedFrameIsBufferedAnsweredBusyOrDropped : Obligations.ReceivedFrameIsBufferedAnsweredBusyOrDropped := by
  intro f s
  rw [← busyReply_eq]
  refine ⟨fun hs hb => ?_, fun hs hb hr => ?_, fun hs hb hr => ?_, fun hs => ?_⟩ <;> refine congrArg Host.Outcome.next ?_
  · exact (doHostFrameReceived_started f hs).trans (bufferFrame_room f hb)
  · exact (doHostFrameReceived_started f hs).trans (bufferFrame_busy f hb hr)
  · exact (doHostFrameReceived_started f hs).trans (bufferFrame_full f hb hr)
  · exact if_neg (Bool.eq_false_iff.1 hs)

/-- Settles O35: the two tests of STORE_SAVE, and the end of the save. -/
theorem storeSaveWritesTheSnapshot : Obligations.StoreSaveWritesTheSnapshot := by
  intro ft s
  refine ⟨fun h => ?_, fun h => ?_, fun p n h => ?_⟩ <;> refine congrArg Host.Outcome.next ?_
  · exact carryOut_of_refuse (takeStoreSave_busy (s := cleared s) h)
  · exact carryOut_of_accept (takeStoreSave_ok (s := cleared s) h)
  · exact doStoreSaveEnd_saving h

end

section
/-! Requests and the frames that spell them: each is read back from the other (O10, O11). -/

namespace Sys2Proof.Machine

/-! ### Fields of a payload (R198) -/

theorem byte_ofNat_toNat (b : Byte) : BitVec.ofNat 8 b.toNat = b := (BitVec.ofNat_toNat 8 b).trans b.setWidth_eq

@[simp] theorem fits1_fieldAt (off : Nat) (p : List Byte) : fits1 (fieldAt off 1 p) = true :=
  decide_eq_true (fieldAt_lt off 1 p)

@[simp] theorem fits2_fieldAt (off : Nat) (p : List Byte) : fits2 (fieldAt off 2 p) = true :=
  decide_eq_true (fieldAt_lt off 2 p)

@[simp] theorem fits4_fieldAt (off : Nat) (p : List Byte) : fits4 (fieldAt off 4 p) = true :=
  decide_eq_true (fieldAt_lt off 4 p)

@[simp] theorem fieldAt_fits1 {n : Nat} (m : List Byte) (h : fits1 n = true) : fieldAt 0 1 (leBytes 1 n ++ m) = n :=
  fieldAt_write m (of_decide_eq_true h)

@[simp] theorem fieldAt_fits2 {n : Nat} (m : List Byte) (h : fits2 n = true) : fieldAt 0 2 (leBytes 2 n ++ m) = n :=
  fieldAt_write m (of_decide_eq_true h)

@[simp] theorem fieldAt_fits4 {n : Nat} (m : List Byte) (h : fits4 n = true) : fieldAt 0 4 (leBytes 4 n ++ m) = n :=
  fieldAt_write m (of_decide_eq_true h)

@[simp] theorem fieldAt_last_fits1 {n : Nat} (h : fits1 n = true) : fieldAt 0 1 (leBytes 1 n) = n :=
  fieldAt_last (of_decide_eq_true h)

@[simp] theorem fieldAt_last_fits2 {n : Nat} (h : fits2 n = true) : fieldAt 0 2 (leBytes 2 n) = n :=
  fieldAt_last (of_decide_eq_true h)

@[simp] theorem fieldAt_last_fits4 {n : Nat} (h : fits4 n = true) : fieldAt 0 4 (leBytes 4 n) = n :=
  fieldAt_last (of_decide_eq_true h)

/-- A field that starts after the payload's first field. -/
@[simp] theorem fieldAt_past {off k j n : Nat} (m : List Byte) (h : k ≤ off) :
    fieldAt off j (leBytes k n ++ m) = fieldAt (off - k) j m := by
  rw [fieldAt_append (by rwa [leBytes_length]), leBytes_length]

@[simp] theorem drop_past {off k n : Nat} (m : List Byte) (h : k ≤ off) :
    (leBytes k n ++ m).drop off = m.drop (off - k) := by
  rw [List.drop_append, List.drop_eq_nil_of_le (by rwa [leBytes_length]), leBytes_length, List.nil_append]

/-- A field read, written again before the bytes that follow it. -/
theorem leBytes_fieldAt_drop {p : List Byte} {off k next : Nat} (h : next ≤ p.length) (hn : off + k = next) :
    leBytes k (fieldAt off k p) ++ p.drop next = p.drop off := by
  subst hn
  rw [leBytes_fieldAt h, ← List.drop_drop, List.take_append_drop]

/-- The last field of a payload, written again. -/
theorem leBytes_fieldAt_end {p : List Byte} {off k : Nat} (h : off + k = p.length) :
    leBytes k (fieldAt off k p) = p.drop off := by
  rw [leBytes_fieldAt h.le, List.take_of_length_le (by simp; omega)]

/-! ### Drop lists and descriptors (section 10.4) -/

theorem writeDrops_cons (d : DropEntry) (l : List DropEntry) :
    writeDrops (d :: l) = leBytes 1 d.channel ++ (leBytes 1 d.size ++ (leBytes 4 d.count ++ writeDrops l)) := by
  simp [writeDrops]

theorem writeDrops_length (l : List DropEntry) : (writeDrops l).length = 6 * l.length := by
  induction l with
  | nil => rfl
  | cons d l ih => simp [writeDrops_cons, ih]; omega

theorem readDrops_length (n : Nat) (p : List Byte) : (readDrops n p).length = n := by
  induction n generalizing p with
  | zero => rfl
  | succ n ih => simp [readDrops, ih]

theorem readDrops_writeDrops {l : List DropEntry} (h : l.all dropFits = true) : readDrops l.length (writeDrops l) = l := by
  induction l with
  | nil => rfl
  | cons d l ih =>
    simp only [List.all_cons, dropFits, Bool.and_eq_true] at h
    obtain ⟨⟨⟨hc, hs⟩, hn⟩, hl⟩ := h
    rw [writeDrops_cons, List.length_cons, readDrops]
    simp [hc, hs, hn, ih hl]

theorem readDrops_fit (n : Nat) (p : List Byte) : (readDrops n p).all dropFits = true := by
  induction n generalizing p with
  | zero => rfl
  | succ n ih => simp [readDrops, dropFits, ih]

theorem writeDrops_readDrops {n : Nat} {p : List Byte} (h : p.length = 6 * n) : writeDrops (readDrops n p) = p := by
  induction n generalizing p with
  | zero => exact (List.length_eq_zero_iff.1 h).symm
  | succ n ih =>
    rw [readDrops, writeDrops_cons, ih (by simp; omega)]
    simp [leBytes_fieldAt_drop, h, Nat.mul_add, -List.drop_one]

theorem writeDescriptor_length (d : Descriptor) : (writeDescriptor d).length = 7 + 6 * d.drops.length := by
  simp [writeDescriptor, writeDrops_length]
  omega

theorem swathFits_iff (d : Descriptor) : swathFits d = true ↔ fits1 d.jobTag = true ∧ fits2 d.number = true
    ∧ fits1 d.kind = true ∧ fits2 d.advance = true ∧ d.drops.length ≤ 30 ∧ d.drops.all dropFits = true := by
  simp only [swathFits, Bool.and_eq_true, decide_eq_true_eq, and_assoc]

theorem descriptorFits_iff (p : List Byte) :
    descriptorFits p = true ↔ fieldAt 6 1 p ≤ 30 ∧ p.length = 7 + 6 * fieldAt 6 1 p := by
  simp only [descriptorFits, Bool.and_eq_true, decide_eq_true_eq, beq_iff_eq]
  omega

/-- A descriptor after a first byte: that byte is there. -/
theorem one_le_of_descriptorFits_drop {p : List Byte} (h : descriptorFits (p.drop 1) = true) : 1 ≤ p.length := by
  obtain ⟨-, hlen⟩ := (descriptorFits_iff _).1 h
  rw [List.length_drop] at hlen
  omega

/-- The count byte of a written descriptor. -/
theorem fieldAt_count {d : Descriptor} (h : d.drops.length ≤ 30) : fieldAt 6 1 (writeDescriptor d) = d.drops.length := by
  have hfits : fits1 d.drops.length = true := decide_eq_true (by omega)
  simp [writeDescriptor, hfits]

theorem descriptorFits_writeDescriptor {d : Descriptor} (h : swathFits d = true) :
    descriptorFits (writeDescriptor d) = true := by
  obtain ⟨-, -, -, -, hlen, -⟩ := (swathFits_iff d).1 h
  rw [descriptorFits_iff, fieldAt_count hlen]
  exact ⟨hlen, writeDescriptor_length d⟩

theorem readDescriptor_writeDescriptor {d : Descriptor} (h : swathFits d = true) :
    readDescriptor (writeDescriptor d) = d := by
  obtain ⟨htag, hnum, hkind, hadv, hlen, hdrops⟩ := (swathFits_iff d).1 h
  have hrest : (writeDescriptor d).drop 7 = writeDrops d.drops := by simp [writeDescriptor]
  rw [readDescriptor, fieldAt_count hlen, hrest, readDrops_writeDrops hdrops]
  simp [writeDescriptor, htag, hnum, hkind, hadv]

theorem swathFits_readDescriptor {p : List Byte} (h : descriptorFits p = true) : swathFits (readDescriptor p) = true := by
  obtain ⟨hn, -⟩ := (descriptorFits_iff p).1 h
  simp [swathFits_iff, readDescriptor, readDrops_length, hn, readDrops_fit, -List.all_eq_true]

theorem writeDescriptor_readDescriptor {p : List Byte} (h : descriptorFits p = true) :
    writeDescriptor (readDescriptor p) = p := by
  obtain ⟨-, hlen⟩ := (descriptorFits_iff p).1 h
  have hdrops : writeDrops (readDrops (fieldAt 6 1 p) (p.drop 7)) = p.drop 7 :=
    writeDrops_readDrops (by rw [List.length_drop]; omega)
  have reads (off : Nat) (hoff : off ≤ 7) : off ≤ p.length := by omega
  simp [writeDescriptor, readDescriptor, readDrops_length, hdrops, leBytes_fieldAt_drop, reads, -List.drop_one]

/-! ### Channel settings and check parameters (R198) -/

theorem readChanCfg_writeChanCfg {ch : Nat} {c : ChanCfg} (h : chanFits c = true) :
    readChanCfg (leBytes 1 ch ++ writeChanCfg c) = c := by
  simp only [chanFits, Bool.and_eq_true] at h
  obtain ⟨⟨⟨⟨⟨⟨⟨⟨⟨hink, hs⟩, hm⟩, hl⟩, hfull⟩, hfloor⟩, hmark⟩, hlow⟩, hflow⟩, hduty⟩ := h
  have hbays : fits4 c.bayMap.toNat = true := decide_eq_true c.bayMap.isLt
  simp [readChanCfg, writeChanCfg, *]

theorem writeChanCfg_length (ch : Nat) (c : ChanCfg) : (leBytes 1 ch ++ writeChanCfg c).length = 31 := by
  simp [writeChanCfg]

theorem writeChanCfg_readChanCfg {p : List Byte} (h : p.length = 31) :
    leBytes 1 (fieldAt 0 1 p) ++ writeChanCfg (readChanCfg p) = p := by
  have hbays : (BitVec.ofNat 32 (fieldAt 2 4 p)).toNat = fieldAt 2 4 p :=
    (BitVec.toNat_ofNat ..).trans (Nat.mod_eq_of_lt (fieldAt_lt 2 4 p))
  simp [writeChanCfg, readChanCfg, hbays, leBytes_fieldAt_drop, leBytes_fieldAt_end, h, -List.drop_one,
    -BitVec.toNat_ofNat]

theorem chanFits_readChanCfg (p : List Byte) : chanFits (readChanCfg p) = true := by
  simp [chanFits, readChanCfg]

/-- Sensitivities of one byte each, written and read. -/
theorem map_toNat_map_ofNat {l : List Nat} (h : l.all fits1 = true) :
    (l.map (BitVec.ofNat 8)).map (fun b => b.toNat) = l := by
  rw [List.map_map]
  refine (List.map_congr_left fun n hn => ?_).trans l.map_id
  have hlt : n < 256 := of_decide_eq_true (List.all_eq_true.1 h n hn)
  exact (BitVec.toNat_ofNat n 8).trans (Nat.mod_eq_of_lt hlt)

theorem map_ofNat_map_toNat (l : List Byte) : (l.map (fun b => b.toNat)).map (BitVec.ofNat 8) = l := by
  rw [List.map_map]
  exact (List.map_congr_left fun b _ => byte_ofNat_toNat b).trans l.map_id

theorem paramsFit_iff (q : CheckParams) : paramsFit q = true ↔ q.sens.length = 10 ∧ q.sens.all fits1 = true
    ∧ fits2 q.maxStep = true ∧ fits1 q.maxInvalid = true ∧ fits2 q.dryTime = true ∧ fits2 q.limit = true := by
  simp only [paramsFit, Bool.and_eq_true, decide_eq_true_eq, and_assoc]

theorem readParams_writeParams {q : CheckParams} (h : paramsFit q = true) : readParams (writeParams q) = q := by
  obtain ⟨hlen, hsens, hstep, hinvalid, hdry, hlimit⟩ := (paramsFit_iff q).1 h
  have hl : (q.sens.map (BitVec.ofNat 8)).length = 10 := by rw [List.length_map, hlen]
  simp only [readParams, writeParams, List.append_assoc, List.take_left' hl, map_toNat_map_ofNat hsens]
  simp [fieldAt_append, *]

theorem writeParams_length {q : CheckParams} (h : paramsFit q = true) : (writeParams q).length = 17 := by
  obtain ⟨hlen, -⟩ := (paramsFit_iff q).1 h
  simp [writeParams, hlen]

theorem writeParams_readParams {p : List Byte} (h : p.length = 17) : writeParams (readParams p) = p := by
  simp [writeParams, readParams, map_ofNat_map_toNat, leBytes_fieldAt_drop, leBytes_fieldAt_end, h, -List.map_map]

theorem paramsFit_readParams {p : List Byte} (h : p.length = 17) : paramsFit (readParams p) = true := by
  have hsens : ((p.take 10).map (fun b => b.toNat)).all fits1 = true := by
    rw [List.all_map]
    exact List.all_eq_true.2 fun b _ => decide_eq_true b.isLt
  simp [paramsFit_iff, readParams, h, hsens, -List.all_eq_true, -List.map_take]

/-! ### Decoding (R189) -/

/-- R189: a request that decoding gives has passed the length rule of its kind. -/
theorem request_of_ite {c : Prop} [Decidable c] {i j : Instr}
    (h : (if c then Decoded.request j else .malformed) = .request i) : c ∧ j = i := by
  split at h
  · exact ⟨‹c›, Decoded.request.inj h⟩
  · cases h

/-- R198: a frame that is read as a request has the kind and the tag of that request's frame. -/
theorem kind_of_decodeRequest {kind ft : Byte} {p : List Byte} {i : Instr}
    (h : decodeRequest ⟨kind, ft, p⟩ = .request i) : ∃ l, encodeRequest i = some ⟨kind, ft, l⟩ := by
  unfold decodeRequest at h
  split at h
  -- the last arm: an unassigned kind
  case h_48 => cases h
  all_goals
    rename_i hk
    obtain ⟨-, rfl⟩ := request_of_ite h
    rw [← byte_ofNat_toNat kind, hk]
    exact ⟨_, rfl⟩

/-- A request is read from a payload that passes the length rule of its kind. -/
theorem decodeRequest_of_fits {kind ft : Byte} {p : List Byte} {i : Instr} {fits : List Byte → Prop}
    [∀ l, Decidable (fits l)] {read : List Byte → Instr}
    (rule : ∀ l, decodeRequest ⟨kind, ft, l⟩ = if fits l then .request (read l) else .malformed)
    (hp : fits p) (hi : read p = i) : decodeRequest ⟨kind, ft, p⟩ = .request i := by
  rw [rule, if_pos hp, hi]

/-- A payload that is read as a request has passed the length rule of its kind. -/
theorem fits_of_decodeRequest {kind ft : Byte} {p : List Byte} {i : Instr} {fits : List Byte → Prop}
    [∀ l, Decidable (fits l)] {read : List Byte → Instr}
    (rule : ∀ l, decodeRequest ⟨kind, ft, l⟩ = if fits l then .request (read l) else .malformed)
    (h : decodeRequest ⟨kind, ft, p⟩ = .request i) : fits p ∧ read p = i :=
  request_of_ite ((rule p).symm.trans h)

end Sys2Proof.Machine

open Sys2Proof Sys2Proof.Machine

/-- Settles O10, by the shape of the request's payload. -/
theorem decodeOfEncodedRequest : Obligations.DecodeOfEncodedRequest := by
  intro i f hw hf
  cases i with
  -- no payload
  | hello | status | resetSoft | readFaults | readHolds | readProgress | readChanges | resume | rollUnload | feedRetry
  | cutterClear | houseClose | priceCommit | recordTake | storeSave =>
    cases hf
    exact ⟨rfl, Nat.zero_le _⟩
  -- numbers of one, two and four bytes
  | jobOpen | jobEnd | jobAbort | queueMark | chanOn | chanOff | chanGet | refillAsk | pumpSet | bayClear | rollLoad | feed
  | sheetFrom | sheetTo | sheetCommit | cutCancel | geometrySet | gainSet | ringRetain | ringRead | ringRelease | checkGet
  | quoteOpen | quoteClose | priceStage | priceGet | accountGet =>
    cases hf
    simp only [Instr.wellFormed, Bool.and_eq_true] at hw
    refine ⟨decodeRequest_of_fits (fun _ => rfl) ?_ ?_, by simp [Config.payloadMax]⟩
    · simp
    · simp [hw]
  | swathPut ft d =>
    cases hf
    obtain ⟨-, -, -, -, hn, -⟩ := (swathFits_iff d).1 hw
    refine ⟨decodeRequest_of_fits (fun _ => rfl) (descriptorFits_writeDescriptor hw) ?_, ?_⟩
    · exact congrArg _ (readDescriptor_writeDescriptor hw)
    · rw [writeDescriptor_length, Config.payloadMax]
      omega
  | chanSet ft ch cfg =>
    cases hf
    obtain ⟨hch, hcfg⟩ := Bool.and_eq_true_iff.1 hw
    refine ⟨decodeRequest_of_fits (fun _ => rfl) (writeChanCfg_length ch cfg) ?_, ?_⟩
    · rw [fieldAt_fits1 _ hch, readChanCfg_writeChanCfg hcfg]
    · rw [writeChanCfg_length]
      decide
  | patchsetLoad ft setId count body =>
    cases hf
    simp only [Instr.wellFormed, Bool.and_eq_true, decide_eq_true_eq] at hw
    obtain ⟨⟨hset, hcount⟩, hbody⟩ := hw
    have hlen : (leBytes 1 setId ++ leBytes 1 count ++ body).length = body.length + 2 := by simp; omega
    refine ⟨decodeRequest_of_fits (fun _ => rfl) (hlen ▸ Nat.le_add_left ..) ?_, hlen ▸ hbody⟩
    simp [hset, hcount]
  | checkSet ft q =>
    cases hf
    have hlen := writeParams_length hw
    exact ⟨decodeRequest_of_fits (fun _ => rfl) hlen (congrArg _ (readParams_writeParams hw)),
      hlen.trans_le (by decide)⟩
  | quoteSwath ft tag d =>
    cases hf
    obtain ⟨htag, hd⟩ := Bool.and_eq_true_iff.1 hw
    obtain ⟨-, -, -, -, hn, -⟩ := (swathFits_iff d).1 hd
    refine ⟨decodeRequest_of_fits (fun _ => rfl) (descriptorFits_writeDescriptor hd) ?_, ?_⟩
    · rw [fieldAt_fits1 _ htag]
      exact congrArg _ (readDescriptor_writeDescriptor hd)
    · rw [List.length_append, writeDescriptor_length, leBytes_length, Config.payloadMax]
      omega
  | _ => cases hf

/-- Settles O11, by the shape of the payload that the frame's kind has. -/
theorem encodeOfDecodedFrame : Obligations.EncodeOfDecodedFrame := by
  rintro ⟨kind, ft, p⟩ i h
  obtain ⟨l, hl⟩ := kind_of_decodeRequest h
  cases i with
  -- no payload
  | hello | status | resetSoft | readFaults | readHolds | readProgress | readChanges | resume | rollUnload | feedRetry
  | cutterClear | houseClose | priceCommit | recordTake | storeSave =>
    cases hl
    obtain ⟨hlen, -⟩ := fits_of_decodeRequest (fun _ => rfl) h
    cases List.length_eq_zero_iff.1 hlen
    exact ⟨rfl, fun _ => rfl⟩
  -- numbers of one, two and four bytes
  | jobOpen | jobEnd | jobAbort | queueMark | chanOn | chanOff | chanGet | refillAsk | pumpSet | bayClear | rollLoad | feed
  | sheetFrom | sheetTo | sheetCommit | cutCancel | geometrySet | gainSet | ringRetain | ringRead | ringRelease | checkGet
  | quoteOpen | quoteClose | priceStage | priceGet | accountGet =>
    cases hl
    obtain ⟨hlen, hi⟩ := fits_of_decodeRequest (fun _ => rfl) h
    cases hi
    constructor
    · simp [encodeRequest, leBytes_fieldAt_drop, leBytes_fieldAt_end, hlen, -List.drop_one]
    · simp [Instr.wellFormed]
  | swathPut =>
    cases hl
    obtain ⟨hfits, hi⟩ := fits_of_decodeRequest (fun _ => rfl) h
    cases hi
    exact ⟨congrArg (fun l => some (Frame.mk 0x0A ft l)) (writeDescriptor_readDescriptor hfits),
      fun _ => swathFits_readDescriptor hfits⟩
  | chanSet =>
    cases hl
    obtain ⟨hlen, hi⟩ := fits_of_decodeRequest (fun _ => rfl) h
    cases hi
    exact ⟨congrArg (fun l => some (Frame.mk 0x0E ft l)) (writeChanCfg_readChanCfg hlen),
      fun _ => Bool.and_eq_true_iff.2 ⟨fits1_fieldAt .., chanFits_readChanCfg _⟩⟩
  | patchsetLoad =>
    cases hl
    obtain ⟨hlen, hi⟩ := fits_of_decodeRequest (fun _ => rfl) h
    cases hi
    refine ⟨congrArg (fun l => some (Frame.mk 0x1F ft l)) ?_, fun hmax => ?_⟩
    · have h1 : 1 ≤ p.length := le_trans (by decide) hlen
      simp [leBytes_fieldAt_drop, hlen, h1, -List.drop_one]
    · have hbody : (p.drop 2).length + 2 ≤ Config.payloadMax := by
        rwa [List.length_drop, Nat.sub_add_cancel hlen]
      simpa [Instr.wellFormed] using hbody
  | checkSet =>
    cases hl
    obtain ⟨hlen, hi⟩ := fits_of_decodeRequest (fun _ => rfl) h
    cases hi
    exact ⟨congrArg (fun l => some (Frame.mk 0x24 ft l)) (writeParams_readParams hlen),
      fun _ => paramsFit_readParams hlen⟩
  | quoteSwath =>
    cases hl
    obtain ⟨hfits, hi⟩ := fits_of_decodeRequest (fun _ => rfl) h
    cases hi
    refine ⟨congrArg (fun l => some (Frame.mk 0x27 ft l)) ?_,
      fun _ => Bool.and_eq_true_iff.2 ⟨fits1_fieldAt .., swathFits_readDescriptor hfits⟩⟩
    have h1 := one_le_of_descriptorFits_drop hfits
    exact (congrArg _ (writeDescriptor_readDescriptor hfits)).trans (leBytes_fieldAt_drop h1 rfl)
  | _ => cases hl

end

section
/-! The receiver, byte by byte (O12, O19), and dispatch (O20). -/

namespace Sys2Proof.Machine

/-! ### A frame at a start byte (R186, R187) -/

/-- R186: the bytes of a frame that its CRC covers. -/
def coveredBytes (f : Frame) : List Byte := leBytes 2 f.payload.length ++ [f.kind, f.tag] ++ f.payload

/-- R186: the bytes of a frame after its start byte. -/
def frameBody (f : Frame) : List Byte := coveredBytes f ++ leBytes 2 (crc16 (coveredBytes f)).toNat

theorem frameBytes_eq (f : Frame) : frameBytes f.kind f.tag f.payload = 0x7E#8 :: frameBody f := rfl

theorem coveredBytes_length (f : Frame) : (coveredBytes f).length = f.payload.length + 4 := by
  simp [coveredBytes]
  omega

theorem frameBody_length (f : Frame) : (frameBody f).length = f.payload.length + 6 := by
  rw [frameBody, List.length_append, coveredBytes_length, leBytes_length]

/-- R186: the CRC stands after the bytes that it covers. -/
theorem fieldAt_crc (f : Frame) : fieldAt (f.payload.length + 4) 2 (frameBody f) = (crc16 (coveredBytes f)).toNat := by
  rw [frameBody, fieldAt_append (coveredBytes_length f).le, coveredBytes_length, Nat.sub_self]
  exact fieldAt_last (crc16 (coveredBytes f)).isLt

/-- R186: two received bytes of a frame give its length field. -/
theorem length_of_awaited {f : Frame} {p r : List Byte} (hf : f.payload.length ≤ Config.payloadMax)
    (hp : p ++ r = frameBody f) (h2 : 2 ≤ p.length) : fieldAt 0 2 p = f.payload.length := by
  have hwhole : fieldAt 0 2 (frameBody f) = f.payload.length := by
    rw [frameBody, coveredBytes, List.append_assoc, List.append_assoc]
    exact fieldAt_write _ (lt_of_le_of_lt hf (by decide))
  rw [← hwhole, ← hp, fieldAt, fieldAt, List.drop_zero, List.drop_zero, List.take_append_of_le_length h2]

theorem examine_short {l : List Byte} (h2 : 2 ≤ l.length) (hmax : fieldAt 0 2 l ≤ Config.payloadMax)
    (h : l.length < fieldAt 0 2 l + 6) : examine l = .short :=
  (if_neg (Nat.not_lt.2 h2)).trans ((if_neg (Nat.not_lt.2 hmax)).trans (if_pos h))

/-- R187: bytes that are fewer than their length field says hold no frame. -/
theorem examine_partial {l : List Byte} (h : l.length < 2 ∨ l.length < fieldAt 0 2 l + 6) :
    examine l = .short ∨ examine l = .bad := by
  by_cases h2 : l.length < 2
  · exact .inl (if_pos h2)
  · by_cases hmax : Config.payloadMax < fieldAt 0 2 l
    · exact .inr ((if_neg h2).trans (if_pos hmax))
    · exact .inl (examine_short (Nat.not_lt.1 h2) (Nat.not_lt.1 hmax) (h.resolve_left h2))

/-- R187: a frame of which bytes are still to come is waited for. -/
theorem examine_awaited {f : Frame} {p r : List Byte} (hf : f.payload.length ≤ Config.payloadMax)
    (hp : p ++ r = frameBody f) (hr : r ≠ []) : examine p = .short := by
  by_cases h2 : p.length < 2
  · exact if_pos h2
  · have hlen := length_of_awaited hf hp (Nat.not_lt.1 h2)
    have hall : p.length + r.length = f.payload.length + 6 := by rw [← frameBody_length, ← hp, List.length_append]
    have hpos := List.length_pos_of_ne_nil hr
    exact examine_short (Nat.not_lt.1 h2) (hlen ▸ hf) (by omega)

/-- R186: the bytes of a whole frame are taken as that frame. -/
theorem examine_frameBody {f : Frame} (hf : f.payload.length ≤ Config.payloadMax) :
    examine (frameBody f) = .frame f (f.payload.length + 6) := by
  have h2 : ¬ (frameBody f).length < 2 := by rw [frameBody_length]; omega
  have hlen : fieldAt 0 2 (frameBody f) = f.payload.length :=
    length_of_awaited hf (List.append_nil _) (Nat.not_lt.1 h2)
  have hcheck : crc16 ((frameBody f).take (f.payload.length + 4))
      = BitVec.ofNat 16 (fieldAt (f.payload.length + 4) 2 (frameBody f)) := by
    rw [fieldAt_crc, BitVec.ofNat_toNat, BitVec.setWidth_eq, frameBody, List.take_left' (coveredBytes_length f)]
  have hpay : ((frameBody f).drop 4).take f.payload.length = f.payload := List.take_left
  unfold examine
  rw [if_neg h2, hlen]
  dsimp only
  rw [if_neg (Nat.not_lt.2 hf), if_neg (by rw [frameBody_length]; omega), if_pos hcheck, hpay]
  rfl

/-! ### The search (R187) -/

theorem search_other {ends : Bool} {room : Nat} {b : Byte} {t : List Byte} (h : b ≠ 0x7E#8) :
    search ends room 0 (b :: t) = search ends room 0 t := if_neg h

theorem search_bad {ends : Bool} {room : Nat} {t : List Byte} (h : examine t = .bad) :
    search ends room 0 (0x7E#8 :: t) = search ends room 0 t := by
  rw [search, h]
  rfl

/-- R187: at a gap, the search goes on in a partial frame. -/
theorem search_short_ends {room : Nat} {t : List Byte} (h : examine t = .short) :
    search true room 0 (0x7E#8 :: t) = search true room 0 t := by
  rw [search, h]
  rfl

/-- R187: a partial frame is kept while bytes of it are still to come. -/
theorem search_short {room : Nat} {t : List Byte} (h : examine t = .short) :
    search false room 0 (0x7E#8 :: t) = ([], 0x7E#8 :: t) := by
  rw [search, h]
  rfl

theorem search_frame {ends : Bool} {room size : Nat} {t : List Byte} {f : Frame} (h : examine t = .frame f size) :
    search ends (room + 1) 0 (0x7E#8 :: t) = (f :: (search ends room size t).1, (search ends room size t).2) := by
  rw [search, h]
  rfl

/-- R188: a complete frame for which there is no room is searched again. -/
theorem search_noRoom {ends : Bool} {size : Nat} {t : List Byte} {f : Frame} (h : examine t = .frame f size) :
    search ends 0 0 (0x7E#8 :: t) = search ends 0 0 t := by
  rw [search, h]
  rfl

/-- R187: HUNTING passes over bytes among which no start byte stands. -/
theorem search_none {ends : Bool} {room : Nat} {l : List Byte} (h : 0x7E#8 ∉ l) : search ends room 0 l = ([], []) := by
  induction l with
  | nil => rw [search]
  | cons b t ih =>
    obtain ⟨hb, ht⟩ := not_or.1 (List.mem_cons.not.1 h)
    rw [search_other (Ne.symm hb), ih ht]

/-- R187: the bytes of a frame that was found are passed over. -/
theorem search_skip (ends : Bool) (room : Nat) (l : List Byte) : search ends room l.length l = ([], []) := by
  induction l with
  | nil => rw [List.length_nil, search]
  | cons b t ih => rw [List.length_cons, search, ih]

/-- R187: a partial frame is dropped at a gap, and no byte of it begins another. -/
theorem search_partial_ends {room : Nat} {l : List Byte} (h : l.length < 2 ∨ l.length < fieldAt 0 2 l + 6)
    (hl : 0x7E#8 ∉ l) : search true room 0 (0x7E#8 :: l) = ([], []) := by
  obtain he | he := examine_partial h
  · rw [search_short_ends he, search_none hl]
  · rw [search_bad he, search_none hl]

/-- R187: no proper part of a frame's bytes completes a frame. -/
theorem search_awaited {f : Frame} {room : Nat} {q t : List Byte} (hf : f.payload.length ≤ Config.payloadMax)
    (hq : q ++ t = 0x7E#8 :: frameBody f) (ht : t ≠ []) : search false room 0 q = ([], q) := by
  cases q with
  | nil => rw [search]
  | cons b q =>
    obtain ⟨rfl, hrest⟩ := List.cons.inj hq
    exact search_short (examine_awaited hf hrest ht)

theorem search_frameBytes {f : Frame} {room : Nat} (hf : f.payload.length ≤ Config.payloadMax) :
    search false (room + 1) 0 (0x7E#8 :: frameBody f) = ([f], []) := by
  rw [search_frame (examine_frameBody hf), ← frameBody_length, search_skip]

/-! ### Received bytes (R187, R188) -/

theorem doHostByteReceived_ok {s : State} (b : Byte) (h : s.lc.started = true) :
    doHostByteReceived b true s = receive (search false (linkRoom s) 0 (s.lc.rx ++ [b])) (begin s) :=
  (if_pos h).trans (if_pos rfl)

theorem doHostByteReceived_bad {s : State} (b : Byte) (h : s.lc.started = true) :
    doHostByteReceived b false s = receive (search true (linkRoom s) 0 s.lc.rx) (begin s) :=
  (if_pos h).trans (if_neg nofun)

/-- R187: bytes of which no proper part completes a frame act as all of them searched at once. -/
theorem execAll_bytes {l p r : List Byte} {s : State} (hstart : s.lc.started = true) (hp : s.lc.rx = p) (hl : p ++ r = l)
    (hr : r ≠ []) (hpart : ∀ q t, q ++ t = l → t ≠ [] → search false (linkRoom s) 0 q = ([], q)) :
    execAll (r.map (fun b => .hostByteReceived b true)) s = .next (receive (search false (linkRoom s) 0 l) (begin s)) := by
  induction r generalizing p s with
  | nil => exact absurd rfl hr
  | cons b r ih =>
    have hl' : (p ++ [b]) ++ r = l := by rw [← hl, List.append_assoc]; rfl
    have hstep : execAll ((b :: r).map (fun b => .hostByteReceived b true)) s
        = execAll (r.map (fun b => .hostByteReceived b true))
          (receive (search false (linkRoom s) 0 (p ++ [b])) (begin s)) := by
      rw [← hp, ← doHostByteReceived_ok b hstart]
      rfl
    cases r with
    | nil =>
      rw [List.append_nil] at hl'
      rw [hstep, hl']
      rfl
    | cons c r =>
      rw [hstep, hpart _ _ hl' (List.cons_ne_nil c r)]
      exact ih (p := p ++ [b]) hstart rfl hl' (List.cons_ne_nil c r) hpart

/-- R187: where no frame is found, the bytes that are left are kept. -/
theorem receive_none (l : List Byte) (s : State) : receive ([], l) s = { s with lc.rx := l, lc.rxGap := 0 } := rfl

theorem receive_one (f : Frame) (s : State) :
    receive ([f], []) s = bufferFrame f { s with lc.rx := [], lc.rxGap := 0 } := rfl

/-- A receiver that is HUNTING, and that no gap is timed for. -/
theorem hunting_eq {s : State} (hrx : s.lc.rx = []) (hgap : s.lc.rxGap = 0) : { s with lc.rx := [], lc.rxGap := 0 } = s := by
  have same : { s with lc.rx := s.lc.rx, lc.rxGap := s.lc.rxGap } = s := rfl
  rwa [hrx, hgap] at same

/-- R188: no room is left where the buffer and the list of busy replies are both full. -/
theorem linkRoom_eq_zero {s : State} : linkRoom s = 0 ↔ 4 ≤ s.lc.buffer.length ∧ 8 ≤ s.lc.busy.length := by
  simp only [linkRoom, Config.bufferSize, Config.busySize]
  omega

/-! ### Dispatch (R189) -/

/-- R189 step 3: a request is carried out as its rule says, on the state whose sent messages are cleared. -/
theorem exec_request {i : Instr} (h : isRequest i = true) (s : State) : exec i s = .next (runRequest i (begin s)) := by
  cases i with
  | hello | status | resetSoft | readFaults | readHolds | readProgress | readChanges | resume | jobOpen | swathPut | jobEnd
  | jobAbort | queueMark | chanSet | chanOn | chanOff | chanGet | refillAsk | pumpSet | bayClear | rollLoad | rollUnload
  | feed | feedRetry | sheetFrom | sheetTo | sheetCommit | cutCancel | cutterClear | geometrySet | patchsetLoad | gainSet
  | ringRetain | ringRead | ringRelease | checkSet | checkGet | quoteOpen | quoteSwath | quoteClose | houseClose
  | priceStage | priceCommit | priceGet | accountGet | recordTake | storeSave => rfl
  | _ => cases h

theorem doFrameDispatch_cons {s : State} {f : Frame} {l : List Frame} (hformed : s.lc.formed = [])
    (hreset : s.lc.softReset = .none) (hbuf : s.lc.buffer = f :: l) :
    doFrameDispatch s = handleFrame f { begin s with lc.buffer := l } := by
  unfold doFrameDispatch
  rw [hbuf]
  exact if_pos (by rw [mayDispatch, hformed, hreset]; rfl)

theorem handleFrame_unknown {f : Frame} {s : State} (h : decodeRequest f = .unknown) :
    handleFrame f s = answer f.kind.toNat f.tag .unknown false .none s := by
  rw [handleFrame, h]
  exact form_refuse ..

theorem handleFrame_malformed {f : Frame} {s : State} (h : decodeRequest f = .malformed) :
    handleFrame f s = answer f.kind.toNat f.tag .malformed false .none s := by
  rw [handleFrame, h]
  exact form_refuse ..

theorem handleFrame_request {f : Frame} {s : State} {i : Instr} (h : decodeRequest f = .request i) :
    handleFrame f s = runRequest i s := by
  rw [handleFrame, h]

/-- The first reply formed. -/
theorem answer_first {s : State} (f : Frame) (c : Code) (h : s.lc.formed = []) : answer f.kind.toNat f.tag c false .none s =
    { s with lc.formed := [⟨f.kind + 128#8, f.tag, c, false, .none⟩] } := by
  rw [answer, h, replyKind_toNat]
  rfl

end Sys2Proof.Machine

open Sys2Proof Sys2Proof.Machine

/-- Settles O12: no proper part of the bytes completes a frame, and all of them spell this one. -/
theorem receivedBytesSpellTheirFrame : Obligations.ReceivedBytesSpellTheirFrame := by
  intro f s hf hstart hrx hgap hroom
  have hpart (q t : List Byte) (hq : q ++ t = 0x7E#8 :: frameBody f) (ht : t ≠ []) :
      search false (linkRoom s) 0 q = ([], q) := search_awaited hf hq ht
  have hbytes := execAll_bytes hstart hrx (List.nil_append _) (List.cons_ne_nil _ _) hpart
  have hhunting : { begin s with lc.rx := [], lc.rxGap := 0 } = begin s := hunting_eq hrx hgap
  rw [frameBytes_eq] at hroom ⊢
  rw [hbytes]
  refine congrArg Host.Outcome.next (Eq.trans ?_ (doHostFrameReceived_started f hstart).symm)
  cases hn : linkRoom s with
  | zero =>
    obtain ⟨hb, hr⟩ := linkRoom_eq_zero.1 hn
    have hstartByte : 0x7E#8 ∉ frameBody f := (hroom.resolve_left (Nat.not_lt.2 hb)).resolve_left (Nat.not_lt.2 hr)
    rw [search_noRoom (examine_frameBody hf), search_none hstartByte, receive_none, hhunting]
    exact (bufferFrame_full (s := begin s) f hb hr).symm
  | succ n => rw [search_frameBytes hf, receive_one, hhunting]

/-- Settles O19, by what the search finds in the bytes that stand. -/
theorem receiverHuntsAndDropsPartialFrames : Obligations.ReceiverHuntsAndDropsPartialFrames := by
  intro b l s
  refine ⟨fun hs hrx hb => ?_, fun hs hrx => ?_, fun hs hrx hl hpart => ?_, fun hrx hl hpart => ?_, fun ok hs => ?_⟩ <;>
    refine congrArg Host.Outcome.next ?_
  · rw [doHostByteReceived_ok b hs, hrx, List.nil_append, search_other hb, search_none List.not_mem_nil,
      receive_none, ← hrx]
    rfl
  · rw [doHostByteReceived_ok _ hs, hrx, List.nil_append, search_short (t := []) rfl, receive_none]
    rfl
  · rw [doHostByteReceived_bad b hs, hrx, search_partial_ends hpart hl, receive_none]
    rfl
  · rw [doRxGapTimeout, hrx, search_partial_ends hpart hl, receive_none]
    rfl
  · exact if_neg (Bool.eq_false_iff.1 hs)

/-- Settles O20, by what decoding makes of the oldest frame. -/
theorem dispatchTakesTheOldestFrame : Obligations.DispatchTakesTheOldestFrame := by
  intro f l s hformed hreset hbuf
  let x : State := { begin s with lc.buffer := l }
  have htaken : exec .frameDispatch s = .next (handleFrame f x) :=
    congrArg Host.Outcome.next (doFrameDispatch_cons hformed hreset hbuf)
  rw [htaken]
  refine ⟨fun h => ?_, fun h => ?_, fun i h => ?_⟩
  · rw [handleFrame_unknown h, answer_first (s := x) f _ hformed]
    rfl
  · rw [handleFrame_malformed h, answer_first (s := x) f _ hformed]
    rfl
  · obtain ⟨hframe, -⟩ := encodeOfDecodedFrame f i h
    have hi : isRequest i = true := Option.isSome_of_eq_some hframe
    rw [handleFrame_request h, exec_request hi]
    rfl

end
